-- ==== Sys2Proof/Word.lean ====
section
/-! DEFINITION. The word types of the DX9 (R9, R34) and the plainest helpers on them. -/

namespace Sys2Proof

/-- A byte is 8 bits (R9). -/
abbrev Byte := BitVec 8
/-- An instruction word, and one lane container, is 32 bits (R9, R50). -/
abbrev W32 := BitVec 32
/-- A team scalar, an address, a stamp (R50). -/
abbrev W64 := BitVec 64
/-- One bit a lane of a team of up to 1,024 lanes (R27): bit l is lane l. -/
abbrev Mask := BitVec 1024

end Sys2Proof
end

