-- ==== Sys2Proof/Operand.lean ====
section
/-! DEFINITION. The operand types of the instructions (R36, R48 to R50), and the operands of the events of the
opcode table: which piece of the machine an event acts on, and the choices its rule leaves to whoever makes it. -/

namespace Sys2Proof

/-! ## Register names, one type a class (R50) -/

abbrev VReg := BitVec 6
abbrev SReg := BitVec 5
abbrev PReg := BitVec 3
abbrev XReg := BitVec 4
abbrev AReg := BitVec 3

/-- A lane-register source with its last-read mark (R36, R37). -/
structure VSrc where
  reg : VReg
  last : Bool
  deriving DecidableEq, Repr

/-- A predicate source with its last-read mark (R36, R37). -/
structure PSrc where
  reg : PReg
  last : Bool
  deriving DecidableEq, Repr

/-- The base of a memory operand: a scalar, or the lane pair that starts at an even name (R48). -/
inductive Base where
  | s (r : SReg)
  | v (r : VSrc)
  deriving DecidableEq, Repr

/-- The index of a memory operand (R48). -/
inductive Index where
  | none
  | s (r : SReg)
  | v (r : VSrc)
  deriving DecidableEq, Repr

/-- The index of a form that takes only a scalar or no index (R49, R346). -/
inductive SIndex where
  | none
  | s (r : SReg)
  deriving DecidableEq, Repr

/-- Field A of an atomic: a destination, or `0x80` to discard the result (R38). -/
inductive ADest where
  | discard
  | to (r : VReg)
  deriving DecidableEq, Repr

/-! ## What an event acts on -/

/-- A resident team: partition index, logical core, team slot. -/
structure TeamRef where
  part : Nat
  core : Nat
  slot : Nat
  deriving DecidableEq, Repr

/-- A resident split: its team and its split-table entry (R93). -/
structure SplitRef where
  part : Nat
  core : Nat
  slot : Nat
  entry : Nat
  deriving DecidableEq, Repr

/-- An accepted copy: its engine's core, its channel and its place in the channel's queue (R289). -/
structure CopyRef where
  part : Nat
  core : Nat
  chan : Nat
  pos : Nat
  deriving DecidableEq, Repr

/-- What the dispatcher takes on the chosen core for a team or gang (R78). Which free slots, frames, tiles,
accumulators and barriers are taken is not stated, so the event carries the choice: one team slot, one split-table
entry and one list of frames a team; the gang's tiles, accumulators and barriers. -/
structure Pick where
  slots : List Nat
  entries : List Nat
  frames : List (List Nat)
  tiles : List Nat
  accs : List Nat
  bars : List Nat
  deriving DecidableEq, Repr

/-- What the partition manager gives the service team or the root team at partition start (R80, R363). -/
structure SystemTeam where
  program : W64
  entry : Nat
  args : W64
  team : Nat
  fpentry : Nat
  fppeak : Nat
  scratch : Nat
  spill : Nat
  tiles : Nat
  accs : Nat
  barriers : Nat
  deriving DecidableEq, Repr

/-- A creation command together with the choices that R396 to R399 leave to the partition manager. `image` lists
(partition-physical byte address, byte) pairs present in the fresh allocation when the two system teams start. -/
structure CreateSpec where
  pindex : Nat
  owner : Nat
  generation : Nat
  tiles : List Nat
  cols : Option Nat
  base : Nat
  alloc : Nat
  depth : Nat
  s1root : W64
  eqbase : W64
  logn : Nat
  ttbase : W64
  ttsize : Nat
  mboxppa : W64
  service : SystemTeam
  root : SystemTeam
  image : List (Nat × Byte)
  /-- the PCI Express host port, 0 to 3, that the operator chooses for the virtual function (R447) -/
  port : Nat := 0
  deriving DecidableEq, Repr

/-- A grow command: the free tiles to add, in the order in which they are numbered, a new column count if the
operator sets one, and the depth of the new grid-barrier tree (R414, R275). -/
structure GrowPlan where
  tiles : List Nat
  cols : Option Nat
  depth : Nat
  deriving DecidableEq, Repr

/-- A shrink command: the new LIVE, the tiles released, where each surviving core on them goes (logical number,
tile, physical core), a new column count if the operator sets one, and the new depth (R414, R416). -/
structure ShrinkPlan where
  live : Nat
  release : List Nat
  moves : List (Nat × Nat × Nat)
  cols : Option Nat
  depth : Nat
  deriving DecidableEq, Repr

/-- The SRAM arrays whose rows are repaired in place (R407). -/
inductive SramArray where
  | scratchpad | registerFile | tileFile | accumulator
  deriving DecidableEq, Repr

/-- The condition of a UCIe module (R406). -/
inductive LaneCondition where
  | full      -- every lost lane replaced
  | half      -- lanes beyond the spares lost, half the data lanes still working
  | shut      -- fewer than half the data lanes working
  deriving DecidableEq, Repr

/-- The far end of a peer binding: the module and partition index there, and whether the attestation of both XMCs
and the check of both shape reports succeeded (R404). -/
structure PeerEnd where
  moduleId : Nat
  pindex : Nat
  attested : Bool
  deriving DecidableEq, Repr

/-- The purpose of a Vault slot's key (R432). -/
inductive Purpose where
  | identity | attestation | operator | memory | detour | hostStream
  deriving DecidableEq, Repr

/-- A sealed link or stream (R428): what a tile sends over an edge, what an I/O tile sends to an edge of a tile, a partition's
detours, its host stream, what a peer port sends, and the lines of a partition at the memory devices. -/
inductive Stream where
  | ucie (tile edge : Nat)
  | detour (p : Nat)
  | host (p : Nat)
  | peer (port : Nat)
  | io (tile edge : Nat)
  | memory (p : Nat)
  deriving DecidableEq, Repr

/-- What raises an alarm (R438). -/
inductive AlarmSource where
  | tagFailures (x : Stream)
  | mintStartup
  | supplyShort
  | firmware
  | tamper
  | supplyLong
  | operatorCommand
  deriving DecidableEq, Repr

/-- The states of a compute tile (R395). -/
inductive TileState where
  | assigned | free | spare | degraded | dead
  deriving DecidableEq, Repr

/-- What bring-up finds (R425): one state a tile, the physical cores that failed, the bytes of second-tier memory behind the
LPDDR6 and CXL ports, whether the Mint passed, whether the firmware was measured and matched, and the SM3 digest of
that firmware. -/
structure BringUp where
  mintOk : Bool
  tiles : List TileState
  failed : List (Nat × Nat)
  memory : Nat
  firmwareOk : Bool
  digest : BitVec 256
  /-- the Mint still gives the link keys at stage 2 (R437) -/
  drawOk : Bool := true
  /-- UCIe modules that do not train in full: tile, edge, module, condition -/
  ucie : List (Nat × Nat × Nat × LaneCondition) := []
  /-- LPDDR6 channels that do not train (I/O tile, channel), and ports that do not: CXL and peer ports (I/O tile, port),
  host ports (0 to 3) -/
  lpddrLost : List (Nat × Nat) := []
  cxlLost : List (Nat × Nat) := []
  hostLost : List Nat := []
  peerLost : List (Nat × Nat) := []
  deriving DecidableEq, Repr

/-- The algorithms an SPDM requester offers (R444). -/
structure SpdmAlgs where
  sm2 : Bool
  sm3 : Bool
  aes256gcm : Bool
  deriving DecidableEq, Repr

/-- What a drain carries through the fabric: entries, mode, modulus and status (R358). -/
structure DrainData where
  entries : List (Nat × W64)
  mode : Nat
  modulus : W64
  status : BitVec 5
  deriving DecidableEq, Repr

/-- Where the drained entries that reach a target come from: the k-th drain in flight inside this partition, or a
drain arriving over binding b for the accumulator named by (core, slot, accumulator) (R357). -/
inductive DrainSource where
  | inside (k : Nat)
  | bound (b core slot acc : Nat) (d : DrainData)
  deriving DecidableEq, Repr

/-- What comes back to the partition that issued a drain over a binding (R357, R359). -/
inductive DrainAnswer where
  | added
  | wrongConfiguration
  | notAdmitted
  deriving DecidableEq, Repr

end Sys2Proof
end

