-- ==== Sys2Proof/Syntax.lean ====
section
/-! DEFINITION. The instructions of OZ-1 and the events of the module, one constructor a row of the opcode table.
A constructor of the first group carries the fields of its word and of its literals (R47, R45); one of the second
names what the event acts on. -/

namespace Sys2Proof

inductive Instr where
  -- control (R63)
  | br (off : BitVec 24)
  | brc (p : PSrc) (off : BitVec 16)
  | brnc (p : PSrc) (off : BitVec 16)
  | bru (p : PSrc) (off : BitVec 16)
  | brx (a : VSrc)
  | call (off : BitVec 24)
  | callx (a : VSrc)
  | rcv (off : BitVec 24)
  | bdnz (a : SReg) (off : BitVec 16)
  | exit (k : Byte)
  | yieldc (a : SReg) (b : SReg) (lit : W32)
  | region (w0 : W32) (w1 : W32) (w2 : W32) (w3 : W32)
  | mode (a : SReg)
  | modei (lit : W32)
  | modeg (k : Byte)
  | mrd (d : SReg)
  | splitq (d : SReg) (k : Byte)
  -- vector integer and lane movement (R63)
  | vadd (d : VReg) (a : VSrc) (b : VSrc)
  | vsub (d : VReg) (a : VSrc) (b : VSrc)
  | vmul (d : VReg) (a : VSrc) (b : VSrc)
  | vmulh (d : VReg) (a : VSrc) (b : VSrc)
  | vmad (d : VReg) (a : VSrc) (b : VSrc)
  | vdiv (d : VReg) (a : VSrc) (b : VSrc)
  | vrem (d : VReg) (a : VSrc) (b : VSrc)
  | vmin (d : VReg) (a : VSrc) (b : VSrc)
  | vmax (d : VReg) (a : VSrc) (b : VSrc)
  | vabs (d : VReg) (a : VSrc)
  | vneg (d : VReg) (a : VSrc)
  | vand (d : VReg) (a : VSrc) (b : VSrc)
  | vor (d : VReg) (a : VSrc) (b : VSrc)
  | vxor (d : VReg) (a : VSrc) (b : VSrc)
  | vnot (d : VReg) (a : VSrc)
  | vshl (d : VReg) (a : VSrc) (b : VSrc)
  | vshr (d : VReg) (a : VSrc) (b : VSrc)
  | vrot (d : VReg) (a : VSrc) (b : VSrc)
  | vpop (d : VReg) (a : VSrc)
  | vclz (d : VReg) (a : VSrc)
  | vbfe (d : VReg) (a : VSrc) (b : VSrc)
  | vbfi (d : VReg) (a : VSrc) (b : VSrc)
  | vsel (d : VReg) (a : VSrc) (b : PSrc)
  | vmov (d : VReg) (a : VSrc)
  | vmovl (d : VReg) (lit : W32)
  | vbcast (d : VReg) (a : SReg)
  | vlea (d : VReg) (a : VSrc) (b : VSrc)
  | vshuf (d : VReg) (a : VSrc) (b : VSrc)
  | vxfer (d : VReg) (a : VSrc) (b : VSrc)
  | vcmp (d : PReg) (a : VSrc) (b : VSrc)
  | vidr (d : VReg) (k : Byte)
  -- numeric (R63)
  | fadd (d : VReg) (a : VSrc) (b : VSrc)
  | fsub (d : VReg) (a : VSrc) (b : VSrc)
  | fmul (d : VReg) (a : VSrc) (b : VSrc)
  | ffma (d : VReg) (a : VSrc) (b : VSrc)
  | fmin (d : VReg) (a : VSrc) (b : VSrc)
  | fmax (d : VReg) (a : VSrc) (b : VSrc)
  | fabs (d : VReg) (a : VSrc)
  | fneg (d : VReg) (a : VSrc)
  | frcp (d : VReg) (a : VSrc)
  | frsq (d : VReg) (a : VSrc)
  | fsqrt (d : VReg) (a : VSrc)
  | fdiv (d : VReg) (a : VSrc) (b : VSrc)
  | fexp2 (d : VReg) (a : VSrc)
  | flog2 (d : VReg) (a : VSrc)
  | fcmp (d : PReg) (a : VSrc) (b : VSrc)
  | fclass (d : VReg) (a : VSrc)
  | cvt (d : VReg) (a : VSrc)
  | cvtsc (d : VReg) (a : VSrc) (b : VSrc)
  | cvtus (d : VReg) (a : VSrc) (b : VSrc)
  | vamax (d : VReg) (a : VSrc)
  | scexp (d : VReg) (a : VSrc)
  | scpack (d : VReg) (a : VSrc) (b : VSrc)
  | scunpk (d : VReg) (a : VSrc) (b : VSrc)
  | bppack (d : VReg) (a : VSrc)
  | bpunpk (d : VReg) (a : VSrc)
  | vmodadd (d : VReg) (a : VSrc) (b : SReg)
  | vmodsub (d : VReg) (a : VSrc) (b : SReg)
  | vmodmul (d : VReg) (a : VSrc) (b : SReg)
  | vbfly (d : VReg) (a : VSrc) (b : SReg)
  | vibfly (d : VReg) (a : VSrc) (b : SReg)
  -- memory (R63)
  | ld8 (d : VReg) (m : Base) (i : Index)
  | ld16 (d : VReg) (m : Base) (i : Index)
  | ld32 (d : VReg) (m : Base) (i : Index)
  | ld64 (d : VReg) (m : Base) (i : Index)
  | st8 (a : VSrc) (m : Base) (i : Index)
  | st16 (a : VSrc) (m : Base) (i : Index)
  | st32 (a : VSrc) (m : Base) (i : Index)
  | st64 (a : VSrc) (m : Base) (i : Index)
  | lds (d : SReg) (m : SReg) (i : SIndex)
  | sts (a : SReg) (m : SReg) (i : SIndex)
  | ldw (d : VReg) (a : SReg) (b : SReg)
  | stw (c : VSrc) (a : SReg) (b : SReg)
  | ldbp (d : VReg) (m : Base) (i : Index)
  | gld (d : VReg) (m : Base) (k : Byte)
  | lda32 (d : VReg) (m : Base) (k : Byte)
  | lda64 (d : VReg) (m : Base) (k : Byte)
  | stl32 (a : VSrc) (m : Base) (k : Byte)
  | stl64 (a : VSrc) (m : Base) (k : Byte)
  | pref (m : Base) (i : Index)
  | evict (m : Base) (i : Index)
  -- ordering, atomics, barriers and monitors (R63)
  | fence (k : Byte)
  | fencee (k : Byte)
  | aadd (d : ADest) (m : Base) (c : VSrc)
  | amin (d : ADest) (m : Base) (c : VSrc)
  | amax (d : ADest) (m : Base) (c : VSrc)
  | aand (d : ADest) (m : Base) (c : VSrc)
  | aor (d : ADest) (m : Base) (c : VSrc)
  | axor (d : ADest) (m : Base) (c : VSrc)
  | axchg (d : ADest) (m : Base) (c : VSrc)
  | acas (d : ADest) (m : Base) (c : VSrc)
  | afadd (d : ADest) (m : Base) (c : VSrc)
  | binit (a : SReg) (b : SReg)
  | barv (a : SReg)
  | barx (d : PReg) (a : SReg)
  | bwait (d : PReg) (a : SReg)
  | btry (d : PReg) (a : SReg)
  | binv (a : SReg)
  | bexp (a : SReg) (b : SReg)
  | gbwait (d : PReg)
  | gbtry (d : PReg)
  | mon (a : SReg)
  | mtry (d : PReg)
  -- copy engine (R63)
  | swait (a : SReg) (b : SReg)
  | stry (d : PReg) (a : SReg) (b : SReg)
  | cqry (d : SReg) (a : SReg)
  | cabort (a : SReg)
  | csync (a : SReg)
  -- tile and accumulator (R63)
  | tcfg (d : XReg) (a : SReg)
  | trd (d : SReg) (a : XReg)
  | tzero (d : XReg)
  | tld (d : XReg) (m : SReg) (i : SIndex)
  | tst (a : XReg) (m : SReg) (i : SIndex)
  | tmov (d : XReg) (a : XReg)
  | gang (a : SReg)
  | mma (d : AReg) (a : XReg) (b : XReg)
  | mmam (d : AReg) (a : XReg) (b : XReg)
  | mmab (d : AReg) (a : XReg) (b : XReg)
  | acfg (d : AReg) (a : SReg) (b : SReg)
  | astat (d : SReg) (a : AReg)
  | aclr (d : AReg)
  | adrain (a : AReg) (m : SReg) (i : SIndex)
  | adrainp (a : AReg) (m : SReg)
  | aswap (d : AReg) (a : AReg)
  | amov (d : AReg) (a : AReg)
  | aload (d : AReg) (m : SReg) (i : SIndex)
  -- system and trap (R63)
  | trap (k : Byte)
  | sysq (d : SReg) (k : Byte)
  | csrr (d : SReg) (k : Byte)
  | csrw (a : SReg) (k : Byte)
  | tlbi (a : SReg)
  | fqpop (d : SReg)
  | fqrep (a : SReg)
  | fqkill (a : SReg)
  | perf (d : SReg) (k : Byte)
  | launch (a : SReg)
  -- scalar and predicate (R63)
  | sadd (d : SReg) (a : SReg) (b : SReg)
  | ssub (d : SReg) (a : SReg) (b : SReg)
  | smul (d : SReg) (a : SReg) (b : SReg)
  | sand (d : SReg) (a : SReg) (b : SReg)
  | sor (d : SReg) (a : SReg) (b : SReg)
  | sxor (d : SReg) (a : SReg) (b : SReg)
  | sshl (d : SReg) (a : SReg) (b : SReg)
  | sshr (d : SReg) (a : SReg) (b : SReg)
  | smov (d : SReg) (a : SReg)
  | smovl (d : SReg) (lit : W32)
  | scmp (d : PReg) (a : SReg) (b : SReg)
  | sidr (d : SReg) (k : Byte)
  | pand (d : PReg) (a : PSrc) (b : PSrc)
  | por (d : PReg) (a : PSrc) (b : PSrc)
  | pxor (d : PReg) (a : PSrc) (b : PSrc)
  | pcnt (d : SReg) (a : PSrc)
  -- events
  | meetFusion (x : SplitRef) (y : SplitRef)
  | spillRotation (r : SplitRef)
  | starvationRank (t : TeamRef)
  | chunkGrant (r : SplitRef)
  | dispatch (p : Nat) (pick : Pick)
  | deferredRelease (p : Nat) (l : Nat) (k : Nat)
  | yieldWake (r : SplitRef)
  | yieldcWake (r : SplitRef)
  | stampWaitWake (r : SplitRef)
  | stryTimeout (r : SplitRef)
  | btryTimeout (r : SplitRef)
  | gbtryTimeout (r : SplitRef)
  | mtryTimeout (r : SplitRef)
  | monitorWake (r : SplitRef)
  | remoteArrival (r : SplitRef)
  | earlyRoom (r : SplitRef)
  | gridRelease (p : Nat) (l : Nat)
  | rendezvousTimeout (p : Nat) (l : Nat) (g : Nat)
  | queueSlotFree (r : SplitRef)
  | copyLine (c : CopyRef) (line : Nat)
  | peerLineReceive (p : Nat) (b : Nat) (off : Nat) (bytes : List Byte)
  | peerLineAck (c : CopyRef) (line : Nat) (ok : Bool)
  | drainLine (p : Nat) (l : Nat) (k : Nat) (line : Nat)
  | peerDrainAddition (p : Nat) (d : DrainSource)
  | drainAcknowledgement (p : Nat) (k : Nat) (answer : DrainAnswer)
  | heldEventPost (p : Nat)
  | launchCompletion (p : Nat) (n : Nat)
  | remap (p : Nat) (l : Nat) (line : Nat)
  | sliceMapUpdate (p : Nat) (t : Nat)
  | destruction (p : Nat)
  | grow (p : Nat) (plan : GrowPlan)
  | shrink (p : Nat) (plan : ShrinkPlan)
  | compaction (p : Nat) (cols : Option Nat)
  | migration (p : Nat) (old : Nat) (new : Nat)
  | suspend (p : Nat)
  | resume (p : Nat)
  | erasingReshape (p : Nat)
  | coreRetirement (t : Nat) (c : Nat) (readable : Bool)
  | warmSubstitutionDone (p : Nat) (l : Nat)
  | coreReturn (t : Nat) (c : Nat)
  | tileDegraded (t : Nat) (readable : Bool)
  | sramRowRepair (t : Nat) (c : Nat) (a : SramArray)
  | sliceBankRetirement (t : Nat) (slice : Nat) (bank : Nat)
  | laneRepair (t : Nat) (e : Nat) (m : Nat)
  | laneRepairDone (t : Nat) (e : Nat) (m : Nat)
  | moduleDegrade (t : Nat) (e : Nat) (m : Nat) (cond : LaneCondition)
  | peerBinding (p : Nat) (b : Nat) (far : PeerEnd)
  | bindingEnd (p : Nat) (b : Nat)
  | generate (k : Nat) (use : Purpose) (p : Nat)
  | importKey (k : Nat) (use : Purpose) (p : Nat) (key : BitVec 512)
  | bindKey (k : Nat)
  | discard (k : Nat)
  | rotate (k : Nat) (r : Nat)
  | destroy (k : Nat)
  | retiringEnd (k : Nat)
  | revoke (k : Nat)
  | rekey (x : Stream)
  | tagFailure (x : Stream)
  | getVersion (p : Nat)
  | getCapabilities (p : Nat)
  | negotiateAlgorithms (p : Nat) (algs : SpdmAlgs)
  | getDigests (p : Nat)
  | getCertificate (p : Nat)
  | challenge (p : Nat) (nonce : BitVec 256)
  | getMeasurements (p : Nat) (index : Nat) (nonce : BitVec 256)
  | keyExchange (p : Nat)
  | finish (p : Nat) (session : Nat)
  | ideKeyManagement (p : Nat) (session : Nat)
  | lockInterface (p : Nat) (session : Nat)
  | startInterface (p : Nat) (session : Nat)
  | stopInterface (p : Nat) (session : Nat)
  | hostBarRead (p : Nat) (bar : Nat) (off : Nat) (n : Nat)
  | hostBarWrite (p : Nat) (bar : Nat) (off : Nat) (bytes : List Byte)
  | illegalOpcode (w : W32)
  -- the rows without operands, instructions first (Lean's compiler wants constructors with fields to come first)
  | nop
  | ret
  | yield
  | gbar
  | mwait
  | tlbia
  | brkpt
  | routerDrop
  | partitionCreation
  | powerOn
  | powerSample
  | thermalReport
  | coolantFlowLoss
  | alarmLevel1
  | alarmClear
  | alarmLevel2
  | continuousTestFailure
  | mintRetest
  | zeroiseReset
  | scrub
  | scrubReceipt
  deriving DecidableEq, Repr

end Sys2Proof
end

