-- ==== Sys2Proof/WellFormed.lean ====
section
/-! DEFINITION. Which instruction terms a word can stand for: the checks of R42, R45, R48, R49 and R53 that the word
alone decides. A word that fails one raises trap 0x02. Checks that need the mode register, the team or the slot of
the word are made when the instruction issues. -/

namespace Sys2Proof

/-- A pair starts at an even name (R53). -/
def evenReg (r : VReg) : Bool := r.toNat % 2 = 0

/-- A quad starts at a multiple of 4 (R53). -/
def quadReg (r : VReg) : Bool := r.toNat % 4 = 0

/-- A lane-register base names a pair (R48). -/
def Base.wf : Base → Bool
  | .s _ => true
  | .v r => evenReg r.reg

/-- The scopes of R43. -/
def scopeOk (k : Byte) : Bool := k.toNat ≤ 5

/-- The CSR indices of R365. -/
def csrListed (k : Byte) : Bool :=
  k.toNat ≤ 0x03 || (0x10 ≤ k.toNat && k.toNat ≤ 0x17)

/-- The CSRs that the supervisor may write (R365). -/
def csrWritable (k : Byte) : Bool :=
  csrListed k && k.toNat != 0x00 && k.toNat != 0x01 && k.toNat != 0x03 && k.toNat != 0x15

/-- The opcodes that the tables list (R62). -/
def opcodeAssigned (op : Byte) : Bool :=
  let n := op.toNat
  n ≤ 0x13 || (0x20 ≤ n && n ≤ 0x3E) || (0x40 ≤ n && n ≤ 0x5D) || (0x60 ≤ n && n ≤ 0x73) ||
  (0x80 ≤ n && n ≤ 0x97) || (0xA0 ≤ n && n ≤ 0xA4) || (0xB0 ≤ n && n ≤ 0xC1) || (0xD0 ≤ n && n ≤ 0xDB) ||
  (0xE0 ≤ n && n ≤ 0xEF)

/-- Well-formed: some word and literals stand for this term. An event is always well-formed. -/
def Instr.wf : Instr → Bool
  | .exit k => k.toNat ≤ 1
  | .yieldc _ _ lit => lit.toNat < 2 ^ 24
  | .region _ _ _ w3 => w3.toNat < 2 ^ 8
  | .modeg k => k.toNat ≤ 16
  | .splitq _ k => k.toNat ≤ 8
  | .vlea d a _ => evenReg d && evenReg a.reg
  | .vidr _ k => k.toNat ≤ 4
  | .vmodadd d a _ => evenReg d && evenReg a.reg
  | .vmodsub d a _ => evenReg d && evenReg a.reg
  | .vmodmul d a _ => evenReg d && evenReg a.reg
  | .vbfly d a _ => quadReg d && evenReg a.reg
  | .vibfly d a _ => quadReg d && evenReg a.reg
  | .ld8 _ m _ => m.wf
  | .ld16 _ m _ => m.wf
  | .ld32 _ m _ => m.wf
  | .ld64 d m _ => evenReg d && m.wf
  | .st8 _ m _ => m.wf
  | .st16 _ m _ => m.wf
  | .st32 _ m _ => m.wf
  | .st64 a m _ => evenReg a.reg && m.wf
  | .ldbp _ m _ => m.wf
  | .gld _ m k => m.wf && k.toNat ≤ 6
  | .lda32 _ m k => m.wf && scopeOk k
  | .lda64 d m k => evenReg d && m.wf && scopeOk k
  | .stl32 _ m k => m.wf && scopeOk k
  | .stl64 a m k => evenReg a.reg && m.wf && scopeOk k
  | .pref m _ => m.wf
  | .evict m _ => m.wf
  | .fence k => scopeOk k
  | .fencee k => 2 ≤ k.toNat && k.toNat ≤ 5
  | .aadd _ m _ => m.wf
  | .amin _ m _ => m.wf
  | .amax _ m _ => m.wf
  | .aand _ m _ => m.wf
  | .aor _ m _ => m.wf
  | .axor _ m _ => m.wf
  | .axchg _ m _ => m.wf
  | .acas _ m _ => m.wf
  | .afadd _ m _ => m.wf
  | .sysq _ k => k.toNat ≤ 8
  | .csrr _ k => csrListed k
  | .csrw _ k => csrWritable k
  | .perf _ k => k.toNat ≤ 9
  | .sidr _ k => k.toNat ≤ 17
  | .illegalOpcode w => !opcodeAssigned (w.extractLsb' 24 8)
  | _ => true

end Sys2Proof
end

