-- ==== Sys2Proof/Decode.lean ====
section
/-! DEFINITION. From bytes to an instruction (R34, R44 to R49, R62, R63), and back. Field extraction happens here
once; the meanings never see raw fields. -/

namespace Sys2Proof

/-- Why a run of bytes is no instruction. -/
inductive DecodeError where
  /-- fewer bytes than the word and its literals take -/
  | truncated
  /-- an assigned opcode with a field, name, code or literal that its row does not take: trap 0x02 (R63, R12) -/
  | badField
  deriving DecidableEq, Repr

/-! ## Fields (R36, R48 to R50) -/

def f0 (b : Byte) : Option Unit := if b = 0 then some () else none
def fNo (b : Byte) : Option Unit := if b = 0x7F then some () else none
def fK (b : Byte) : Option Byte := some b
def fV (b : Byte) : Option VReg := if b.toNat < 0x40 then some (b.setWidth 6) else none
def fVs (b : Byte) : Option VSrc :=
  if (b.setWidth 7).toNat < 0x40 then some ⟨b.setWidth 6, b.getLsbD 7⟩ else none
def fS (b : Byte) : Option SReg := if 0x40 ≤ b.toNat ∧ b.toNat < 0x60 then some (b.setWidth 5) else none
def fP (b : Byte) : Option PReg := if 0x60 ≤ b.toNat ∧ b.toNat < 0x68 then some (b.setWidth 3) else none
def fPs (b : Byte) : Option PSrc :=
  if 0x60 ≤ (b.setWidth 7).toNat ∧ (b.setWidth 7).toNat < 0x68 then some ⟨b.setWidth 3, b.getLsbD 7⟩ else none
def fX (b : Byte) : Option XReg := if 0x68 ≤ b.toNat ∧ b.toNat < 0x78 then some ((b - 0x68).setWidth 4) else none
def fA (b : Byte) : Option AReg := if 0x78 ≤ b.toNat ∧ b.toNat < 0x80 then some (b.setWidth 3) else none
def fBase (b : Byte) : Option Base :=
  match fS b with
  | some s => some (.s s)
  | none => (fVs b).map .v
def fIndex (b : Byte) : Option Index :=
  if b = 0x7F then some .none else
  match fS b with
  | some s => some (.s s)
  | none => (fVs b).map .v
def fSIndex (b : Byte) : Option SIndex := if b = 0x7F then some .none else (fS b).map .s
def fADest (b : Byte) : Option ADest := if b = 0x80 then some .discard else (fV b).map .to

def eV (r : VReg) : Byte := r.setWidth 8
def eVs (r : VSrc) : Byte := (if r.last then 0x80 else 0) ||| r.reg.setWidth 8
def eS (r : SReg) : Byte := 0x40 ||| r.setWidth 8
def eP (r : PReg) : Byte := 0x60 ||| r.setWidth 8
def ePs (r : PSrc) : Byte := (if r.last then 0x80 else 0) ||| 0x60 ||| r.reg.setWidth 8
def eX (r : XReg) : Byte := 0x68 + r.setWidth 8
def eA (r : AReg) : Byte := 0x78 ||| r.setWidth 8
def eBase : Base → Byte
  | .s r => eS r
  | .v r => eVs r
def eIndex : Index → Byte
  | .none => 0x7F
  | .s r => eS r
  | .v r => eVs r
def eSIndex : SIndex → Byte
  | .none => 0x7F
  | .s r => eS r
def eADest : ADest → Byte
  | .discard => 0x80
  | .to r => eV r

/-- Three fields read in one word. -/
def three {α β γ : Type} (f : Byte → Option α) (g : Byte → Option β) (h : Byte → Option γ) (a b c : Byte)
    (mk : α → β → γ → Instr) : Option Instr :=
  match f a, g b, h c with
  | some x, some y, some z => some (mk x y z)
  | _, _, _ => none

def lit1 (l : List W32) (k : W32 → Option Instr) : Option Instr :=
  match l with
  | [w] => k w
  | _ => none

def lit4 (l : List W32) (k : W32 → W32 → W32 → W32 → Option Instr) : Option Instr :=
  match l with
  | [w0, w1, w2, w3] => k w0 w1 w2 w3
  | _ => none

/-- The rows of opcodes `0x00` to `0x1F` (R63); `none` where a field is of the wrong class or a reserved one is not zero. -/
def decodeControl (op a b c : Byte) (l : List W32) : Option Instr :=
  if op = 0x00#8 then three f0 f0 f0 a b c fun _ _ _ => .nop
  else if op = 0x01#8 then some (.br (a ++ b ++ c))
  else if op = 0x02#8 then (fPs a).map fun x => .brc x (b ++ c)
  else if op = 0x03#8 then (fPs a).map fun x => .brnc x (b ++ c)
  else if op = 0x04#8 then (fPs a).map fun x => .bru x (b ++ c)
  else if op = 0x05#8 then three f0 fVs f0 a b c fun _ y _ => .brx y
  else if op = 0x06#8 then some (.call (a ++ b ++ c))
  else if op = 0x07#8 then three f0 fVs f0 a b c fun _ y _ => .callx y
  else if op = 0x08#8 then three f0 f0 f0 a b c fun _ _ _ => .ret
  else if op = 0x09#8 then some (.rcv (a ++ b ++ c))
  else if op = 0x0A#8 then (fS a).map fun x => .bdnz x (b ++ c)
  else if op = 0x0B#8 then three f0 f0 fK a b c fun _ _ z => .exit z
  else if op = 0x0C#8 then three f0 f0 f0 a b c fun _ _ _ => .yield
  else if op = 0x0D#8 then lit1 l fun w => three fS fS f0 a b c fun x y _ => .yieldc x y w
  else if op = 0x0E#8 then lit4 l fun w0 w1 w2 w3 => three f0 f0 f0 a b c fun _ _ _ => .region w0 w1 w2 w3
  else if op = 0x0F#8 then three f0 fS f0 a b c fun _ y _ => .mode y
  else if op = 0x10#8 then lit1 l fun w => three f0 f0 f0 a b c fun _ _ _ => .modei w
  else if op = 0x11#8 then three f0 f0 fK a b c fun _ _ z => .modeg z
  else if op = 0x12#8 then three fS f0 f0 a b c fun x _ _ => .mrd x
  else if op = 0x13#8 then three fS f0 fK a b c fun x _ z => .splitq x z
  else none

/-- The rows of opcodes `0x20` to `0x3F` (R63); `none` where a field is of the wrong class or a reserved one is not zero. -/
def decodeVector (op a b c : Byte) (l : List W32) : Option Instr :=
  if op = 0x20#8 then three fV fVs fVs a b c fun x y z => .vadd x y z
  else if op = 0x21#8 then three fV fVs fVs a b c fun x y z => .vsub x y z
  else if op = 0x22#8 then three fV fVs fVs a b c fun x y z => .vmul x y z
  else if op = 0x23#8 then three fV fVs fVs a b c fun x y z => .vmulh x y z
  else if op = 0x24#8 then three fV fVs fVs a b c fun x y z => .vmad x y z
  else if op = 0x25#8 then three fV fVs fVs a b c fun x y z => .vdiv x y z
  else if op = 0x26#8 then three fV fVs fVs a b c fun x y z => .vrem x y z
  else if op = 0x27#8 then three fV fVs fVs a b c fun x y z => .vmin x y z
  else if op = 0x28#8 then three fV fVs fVs a b c fun x y z => .vmax x y z
  else if op = 0x29#8 then three fV fVs f0 a b c fun x y _ => .vabs x y
  else if op = 0x2A#8 then three fV fVs f0 a b c fun x y _ => .vneg x y
  else if op = 0x2B#8 then three fV fVs fVs a b c fun x y z => .vand x y z
  else if op = 0x2C#8 then three fV fVs fVs a b c fun x y z => .vor x y z
  else if op = 0x2D#8 then three fV fVs fVs a b c fun x y z => .vxor x y z
  else if op = 0x2E#8 then three fV fVs f0 a b c fun x y _ => .vnot x y
  else if op = 0x2F#8 then three fV fVs fVs a b c fun x y z => .vshl x y z
  else if op = 0x30#8 then three fV fVs fVs a b c fun x y z => .vshr x y z
  else if op = 0x31#8 then three fV fVs fVs a b c fun x y z => .vrot x y z
  else if op = 0x32#8 then three fV fVs f0 a b c fun x y _ => .vpop x y
  else if op = 0x33#8 then three fV fVs f0 a b c fun x y _ => .vclz x y
  else if op = 0x34#8 then three fV fVs fVs a b c fun x y z => .vbfe x y z
  else if op = 0x35#8 then three fV fVs fVs a b c fun x y z => .vbfi x y z
  else if op = 0x36#8 then three fV fVs fPs a b c fun x y z => .vsel x y z
  else if op = 0x37#8 then three fV fVs f0 a b c fun x y _ => .vmov x y
  else if op = 0x38#8 then lit1 l fun w => three fV f0 f0 a b c fun x _ _ => .vmovl x w
  else if op = 0x39#8 then three fV fS f0 a b c fun x y _ => .vbcast x y
  else if op = 0x3A#8 then three fV fVs fVs a b c fun x y z => .vlea x y z
  else if op = 0x3B#8 then three fV fVs fVs a b c fun x y z => .vshuf x y z
  else if op = 0x3C#8 then three fV fVs fVs a b c fun x y z => .vxfer x y z
  else if op = 0x3D#8 then three fP fVs fVs a b c fun x y z => .vcmp x y z
  else if op = 0x3E#8 then three fV f0 fK a b c fun x _ z => .vidr x z
  else none

/-- The rows of opcodes `0x40` to `0x5F` (R63); `none` where a field is of the wrong class or a reserved one is not zero. -/
def decodeNumeric (op a b c : Byte) (_l : List W32) : Option Instr :=
  if op = 0x40#8 then three fV fVs fVs a b c fun x y z => .fadd x y z
  else if op = 0x41#8 then three fV fVs fVs a b c fun x y z => .fsub x y z
  else if op = 0x42#8 then three fV fVs fVs a b c fun x y z => .fmul x y z
  else if op = 0x43#8 then three fV fVs fVs a b c fun x y z => .ffma x y z
  else if op = 0x44#8 then three fV fVs fVs a b c fun x y z => .fmin x y z
  else if op = 0x45#8 then three fV fVs fVs a b c fun x y z => .fmax x y z
  else if op = 0x46#8 then three fV fVs f0 a b c fun x y _ => .fabs x y
  else if op = 0x47#8 then three fV fVs f0 a b c fun x y _ => .fneg x y
  else if op = 0x48#8 then three fV fVs f0 a b c fun x y _ => .frcp x y
  else if op = 0x49#8 then three fV fVs f0 a b c fun x y _ => .frsq x y
  else if op = 0x4A#8 then three fV fVs f0 a b c fun x y _ => .fsqrt x y
  else if op = 0x4B#8 then three fV fVs fVs a b c fun x y z => .fdiv x y z
  else if op = 0x4C#8 then three fV fVs f0 a b c fun x y _ => .fexp2 x y
  else if op = 0x4D#8 then three fV fVs f0 a b c fun x y _ => .flog2 x y
  else if op = 0x4E#8 then three fP fVs fVs a b c fun x y z => .fcmp x y z
  else if op = 0x4F#8 then three fV fVs f0 a b c fun x y _ => .fclass x y
  else if op = 0x50#8 then three fV fVs f0 a b c fun x y _ => .cvt x y
  else if op = 0x51#8 then three fV fVs fVs a b c fun x y z => .cvtsc x y z
  else if op = 0x52#8 then three fV fVs fVs a b c fun x y z => .cvtus x y z
  else if op = 0x53#8 then three fV fVs f0 a b c fun x y _ => .vamax x y
  else if op = 0x54#8 then three fV fVs f0 a b c fun x y _ => .scexp x y
  else if op = 0x55#8 then three fV fVs fVs a b c fun x y z => .scpack x y z
  else if op = 0x56#8 then three fV fVs fVs a b c fun x y z => .scunpk x y z
  else if op = 0x57#8 then three fV fVs f0 a b c fun x y _ => .bppack x y
  else if op = 0x58#8 then three fV fVs f0 a b c fun x y _ => .bpunpk x y
  else if op = 0x59#8 then three fV fVs fS a b c fun x y z => .vmodadd x y z
  else if op = 0x5A#8 then three fV fVs fS a b c fun x y z => .vmodsub x y z
  else if op = 0x5B#8 then three fV fVs fS a b c fun x y z => .vmodmul x y z
  else if op = 0x5C#8 then three fV fVs fS a b c fun x y z => .vbfly x y z
  else if op = 0x5D#8 then three fV fVs fS a b c fun x y z => .vibfly x y z
  else none

/-- The rows of opcodes `0x60` to `0x7F` (R63); `none` where a field is of the wrong class or a reserved one is not zero. -/
def decodeMemory (op a b c : Byte) (_l : List W32) : Option Instr :=
  if op = 0x60#8 then three fV fBase fIndex a b c fun x y z => .ld8 x y z
  else if op = 0x61#8 then three fV fBase fIndex a b c fun x y z => .ld16 x y z
  else if op = 0x62#8 then three fV fBase fIndex a b c fun x y z => .ld32 x y z
  else if op = 0x63#8 then three fV fBase fIndex a b c fun x y z => .ld64 x y z
  else if op = 0x64#8 then three fVs fBase fIndex a b c fun x y z => .st8 x y z
  else if op = 0x65#8 then three fVs fBase fIndex a b c fun x y z => .st16 x y z
  else if op = 0x66#8 then three fVs fBase fIndex a b c fun x y z => .st32 x y z
  else if op = 0x67#8 then three fVs fBase fIndex a b c fun x y z => .st64 x y z
  else if op = 0x68#8 then three fS fS fSIndex a b c fun x y z => .lds x y z
  else if op = 0x69#8 then three fS fS fSIndex a b c fun x y z => .sts x y z
  else if op = 0x6A#8 then three fV fS fS a b c fun x y z => .ldw x y z
  else if op = 0x6B#8 then three fVs fS fS a b c fun x y z => .stw x y z
  else if op = 0x6C#8 then three fV fBase fIndex a b c fun x y z => .ldbp x y z
  else if op = 0x6D#8 then three fV fBase fK a b c fun x y z => .gld x y z
  else if op = 0x6E#8 then three fV fBase fK a b c fun x y z => .lda32 x y z
  else if op = 0x6F#8 then three fV fBase fK a b c fun x y z => .lda64 x y z
  else if op = 0x70#8 then three fVs fBase fK a b c fun x y z => .stl32 x y z
  else if op = 0x71#8 then three fVs fBase fK a b c fun x y z => .stl64 x y z
  else if op = 0x72#8 then three f0 fBase fIndex a b c fun _ y z => .pref y z
  else if op = 0x73#8 then three f0 fBase fIndex a b c fun _ y z => .evict y z
  else none

/-- The rows of opcodes `0x80` to `0x9F` (R63); `none` where a field is of the wrong class or a reserved one is not zero. -/
def decodeSync (op a b c : Byte) (_l : List W32) : Option Instr :=
  if op = 0x80#8 then three f0 f0 fK a b c fun _ _ z => .fence z
  else if op = 0x81#8 then three f0 f0 fK a b c fun _ _ z => .fencee z
  else if op = 0x82#8 then three fADest fBase fVs a b c fun x y z => .aadd x y z
  else if op = 0x83#8 then three fADest fBase fVs a b c fun x y z => .amin x y z
  else if op = 0x84#8 then three fADest fBase fVs a b c fun x y z => .amax x y z
  else if op = 0x85#8 then three fADest fBase fVs a b c fun x y z => .aand x y z
  else if op = 0x86#8 then three fADest fBase fVs a b c fun x y z => .aor x y z
  else if op = 0x87#8 then three fADest fBase fVs a b c fun x y z => .axor x y z
  else if op = 0x88#8 then three fADest fBase fVs a b c fun x y z => .axchg x y z
  else if op = 0x89#8 then three fADest fBase fVs a b c fun x y z => .acas x y z
  else if op = 0x8A#8 then three fADest fBase fVs a b c fun x y z => .afadd x y z
  else if op = 0x8B#8 then three f0 fS fS a b c fun _ y z => .binit y z
  else if op = 0x8C#8 then three f0 fS f0 a b c fun _ y _ => .barv y
  else if op = 0x8D#8 then three fP fS f0 a b c fun x y _ => .barx x y
  else if op = 0x8E#8 then three fP fS f0 a b c fun x y _ => .bwait x y
  else if op = 0x8F#8 then three fP fS f0 a b c fun x y _ => .btry x y
  else if op = 0x90#8 then three f0 fS f0 a b c fun _ y _ => .binv y
  else if op = 0x91#8 then three f0 fS fS a b c fun _ y z => .bexp y z
  else if op = 0x92#8 then three f0 f0 f0 a b c fun _ _ _ => .gbar
  else if op = 0x93#8 then three fP f0 f0 a b c fun x _ _ => .gbwait x
  else if op = 0x94#8 then three fP f0 f0 a b c fun x _ _ => .gbtry x
  else if op = 0x95#8 then three f0 fS f0 a b c fun _ y _ => .mon y
  else if op = 0x96#8 then three f0 f0 f0 a b c fun _ _ _ => .mwait
  else if op = 0x97#8 then three fP f0 f0 a b c fun x _ _ => .mtry x
  else none

/-- The rows of opcodes `0xA0` to `0xAF` (R63); `none` where a field is of the wrong class or a reserved one is not zero. -/
def decodeCopy (op a b c : Byte) (_l : List W32) : Option Instr :=
  if op = 0xA0#8 then three f0 fS fS a b c fun _ y z => .swait y z
  else if op = 0xA1#8 then three fP fS fS a b c fun x y z => .stry x y z
  else if op = 0xA2#8 then three fS fS f0 a b c fun x y _ => .cqry x y
  else if op = 0xA3#8 then three f0 fS f0 a b c fun _ y _ => .cabort y
  else if op = 0xA4#8 then three f0 fS f0 a b c fun _ y _ => .csync y
  else none

/-- The rows of opcodes `0xB0` to `0xCF` (R63); `none` where a field is of the wrong class or a reserved one is not zero. -/
def decodeMatrix (op a b c : Byte) (_l : List W32) : Option Instr :=
  if op = 0xB0#8 then three fX fS f0 a b c fun x y _ => .tcfg x y
  else if op = 0xB1#8 then three fS fX f0 a b c fun x y _ => .trd x y
  else if op = 0xB2#8 then three fX f0 f0 a b c fun x _ _ => .tzero x
  else if op = 0xB3#8 then three fX fS fSIndex a b c fun x y z => .tld x y z
  else if op = 0xB4#8 then three fX fS fSIndex a b c fun x y z => .tst x y z
  else if op = 0xB5#8 then three fX fX f0 a b c fun x y _ => .tmov x y
  else if op = 0xB6#8 then three f0 fS f0 a b c fun _ y _ => .gang y
  else if op = 0xB7#8 then three fA fX fX a b c fun x y z => .mma x y z
  else if op = 0xB8#8 then three fA fX fX a b c fun x y z => .mmam x y z
  else if op = 0xB9#8 then three fA fX fX a b c fun x y z => .mmab x y z
  else if op = 0xBA#8 then three fA fS fS a b c fun x y z => .acfg x y z
  else if op = 0xBB#8 then three fS fA f0 a b c fun x y _ => .astat x y
  else if op = 0xBC#8 then three fA f0 f0 a b c fun x _ _ => .aclr x
  else if op = 0xBD#8 then three fA fS fSIndex a b c fun x y z => .adrain x y z
  else if op = 0xBE#8 then three fA fS fNo a b c fun x y _ => .adrainp x y
  else if op = 0xBF#8 then three fA fA f0 a b c fun x y _ => .aswap x y
  else if op = 0xC0#8 then three fA fA f0 a b c fun x y _ => .amov x y
  else if op = 0xC1#8 then three fA fS fSIndex a b c fun x y z => .aload x y z
  else none

/-- The rows of opcodes `0xD0` to `0xDF` (R63); `none` where a field is of the wrong class or a reserved one is not zero. -/
def decodeSystem (op a b c : Byte) (_l : List W32) : Option Instr :=
  if op = 0xD0#8 then three f0 f0 fK a b c fun _ _ z => .trap z
  else if op = 0xD1#8 then three fS f0 fK a b c fun x _ z => .sysq x z
  else if op = 0xD2#8 then three fS f0 fK a b c fun x _ z => .csrr x z
  else if op = 0xD3#8 then three f0 fS fK a b c fun _ y z => .csrw y z
  else if op = 0xD4#8 then three f0 fS f0 a b c fun _ y _ => .tlbi y
  else if op = 0xD5#8 then three f0 f0 f0 a b c fun _ _ _ => .tlbia
  else if op = 0xD6#8 then three fS f0 f0 a b c fun x _ _ => .fqpop x
  else if op = 0xD7#8 then three f0 fS f0 a b c fun _ y _ => .fqrep y
  else if op = 0xD8#8 then three f0 fS f0 a b c fun _ y _ => .fqkill y
  else if op = 0xD9#8 then three fS f0 fK a b c fun x _ z => .perf x z
  else if op = 0xDA#8 then three f0 f0 f0 a b c fun _ _ _ => .brkpt
  else if op = 0xDB#8 then three f0 fS f0 a b c fun _ y _ => .launch y
  else none

/-- The rows of opcodes `0xE0` to `0xEF` (R63); `none` where a field is of the wrong class or a reserved one is not zero. -/
def decodeScalar (op a b c : Byte) (l : List W32) : Option Instr :=
  if op = 0xE0#8 then three fS fS fS a b c fun x y z => .sadd x y z
  else if op = 0xE1#8 then three fS fS fS a b c fun x y z => .ssub x y z
  else if op = 0xE2#8 then three fS fS fS a b c fun x y z => .smul x y z
  else if op = 0xE3#8 then three fS fS fS a b c fun x y z => .sand x y z
  else if op = 0xE4#8 then three fS fS fS a b c fun x y z => .sor x y z
  else if op = 0xE5#8 then three fS fS fS a b c fun x y z => .sxor x y z
  else if op = 0xE6#8 then three fS fS fS a b c fun x y z => .sshl x y z
  else if op = 0xE7#8 then three fS fS fS a b c fun x y z => .sshr x y z
  else if op = 0xE8#8 then three fS fS f0 a b c fun x y _ => .smov x y
  else if op = 0xE9#8 then lit1 l fun w => three fS f0 f0 a b c fun x _ _ => .smovl x w
  else if op = 0xEA#8 then three fP fS fS a b c fun x y z => .scmp x y z
  else if op = 0xEB#8 then three fS f0 fK a b c fun x _ z => .sidr x z
  else if op = 0xEC#8 then three fP fPs fPs a b c fun x y z => .pand x y z
  else if op = 0xED#8 then three fP fPs fPs a b c fun x y z => .por x y z
  else if op = 0xEE#8 then three fP fPs fPs a b c fun x y z => .pxor x y z
  else if op = 0xEF#8 then three fS fPs f0 a b c fun x y _ => .pcnt x y
  else none

/-- The literal words that follow an instruction word of this opcode (R45). -/
def literalCount (op : Byte) : Nat :=
  if op = 0x0E#8 then 4 else if op = 0x0D#8 ∨ op = 0x10#8 ∨ op = 0x38#8 ∨ op = 0xE9#8 then 1 else 0

def opcodeOf (w : W32) : Byte := w.extractLsb' 24 8

/-- The instruction that a word and its literals stand for, before the checks of `Instr.wf`. -/
def decodeFields (w : W32) (l : List W32) : Option Instr :=
  let op := opcodeOf w
  let a := w.extractLsb' 16 8
  let b := w.extractLsb' 8 8
  let c := w.extractLsb' 0 8
  if op.toNat < 0x20 then decodeControl op a b c l
  else if op.toNat < 0x40 then decodeVector op a b c l
  else if op.toNat < 0x60 then decodeNumeric op a b c l
  else if op.toNat < 0x80 then decodeMemory op a b c l
  else if op.toNat < 0xA0 then decodeSync op a b c l
  else if op.toNat < 0xB0 then decodeCopy op a b c l
  else if op.toNat < 0xD0 then decodeMatrix op a b c l
  else if op.toNat < 0xE0 then decodeSystem op a b c l
  else decodeScalar op a b c l

/-- Decode a word and its literals. An opcode that no row lists is the instruction ILLEGAL_OPCODE (R62); an assigned
opcode whose word its row does not take is refused (trap 0x02). -/
def decodeWord (w : W32) (l : List W32) : Except DecodeError Instr :=
  if ¬ opcodeAssigned (opcodeOf w) then .ok (.illegalOpcode w)
  else match decodeFields w l with
    | some i => if i.wf then .ok i else .error .badField
    | none => .error .badField

/-- Four bytes, little-endian (R9, R34). -/
def wordOfBytes (b0 b1 b2 b3 : Byte) : W32 := b3 ++ b2 ++ b1 ++ b0

/-- `n` words read from a run of bytes, lowest address first. -/
def takeWords : Nat → List Byte → Option (List W32)
  | 0, _ => some []
  | n + 1, b0 :: b1 :: b2 :: b3 :: rest => (takeWords n rest).map (wordOfBytes b0 b1 b2 b3 :: ·)
  | _ + 1, _ => none

/-- Decode the instruction that stands at the head of a run of bytes. Total on every run of bytes. -/
def decode (bs : List Byte) : Except DecodeError Instr :=
  match takeWords 1 bs with
  | some [w] =>
    match takeWords (if opcodeAssigned (opcodeOf w) then literalCount (opcodeOf w) else 0) (bs.drop 4) with
    | some l => decodeWord w l
    | none => .error .truncated
  | _ => .error .truncated

/-- The bytes of a word, lowest address first (R9). -/
def bytesOfWord (w : W32) : List Byte :=
  [w.extractLsb' 0 8, w.extractLsb' 8 8, w.extractLsb' 16 8, w.extractLsb' 24 8]

/-- The instruction words and literals as they lie in memory. -/
def bytesOfWords (ws : List W32) : List Byte := ws.flatMap bytesOfWord

/-- The instruction that the decoder reads from an opcode-table row's bits: word k of the instruction is bits
32k+31 to 32k of `w` below `nbits`, and every bit above them is 0. -/
def tableBytes (nbits w : Nat) : List Byte :=
  bytesOfWords ((List.range 5).map fun k => BitVec.ofNat 32 ((w % 2 ^ nbits) >>> (32 * k)))

def decodeTableWord (nbits w : Nat) : Option Instr :=
  match decode (tableBytes nbits w) with
  | .ok i => some i
  | .error _ => none

/-! ## The encoder -/

/-- The four fields of an instruction word (R34). -/
def word (op a b c : Byte) : W32 := op ++ a ++ b ++ c

/-- The words of an instruction: its word, then its literals (R34, R44, R45, R63). An event has no words. -/
def encode : Instr → List W32
  | .nop => [word 0x00 0 0 0]
  | .br off => [0x01#8 ++ off]
  | .brc p off => [0x02#8 ++ (ePs p) ++ off]
  | .brnc p off => [0x03#8 ++ (ePs p) ++ off]
  | .bru p off => [0x04#8 ++ (ePs p) ++ off]
  | .brx a => [word 0x05 0 (eVs a) 0]
  | .call off => [0x06#8 ++ off]
  | .callx a => [word 0x07 0 (eVs a) 0]
  | .ret => [word 0x08 0 0 0]
  | .rcv off => [0x09#8 ++ off]
  | .bdnz a off => [0x0A#8 ++ (eS a) ++ off]
  | .exit k => [word 0x0B 0 0 k]
  | .yield => [word 0x0C 0 0 0]
  | .yieldc a b lit => [word 0x0D (eS a) (eS b) 0, lit]
  | .region w0 w1 w2 w3 => [word 0x0E 0 0 0, w0, w1, w2, w3]
  | .mode a => [word 0x0F 0 (eS a) 0]
  | .modei lit => [word 0x10 0 0 0, lit]
  | .modeg k => [word 0x11 0 0 k]
  | .mrd d => [word 0x12 (eS d) 0 0]
  | .splitq d k => [word 0x13 (eS d) 0 k]
  | .vadd d a b => [word 0x20 (eV d) (eVs a) (eVs b)]
  | .vsub d a b => [word 0x21 (eV d) (eVs a) (eVs b)]
  | .vmul d a b => [word 0x22 (eV d) (eVs a) (eVs b)]
  | .vmulh d a b => [word 0x23 (eV d) (eVs a) (eVs b)]
  | .vmad d a b => [word 0x24 (eV d) (eVs a) (eVs b)]
  | .vdiv d a b => [word 0x25 (eV d) (eVs a) (eVs b)]
  | .vrem d a b => [word 0x26 (eV d) (eVs a) (eVs b)]
  | .vmin d a b => [word 0x27 (eV d) (eVs a) (eVs b)]
  | .vmax d a b => [word 0x28 (eV d) (eVs a) (eVs b)]
  | .vabs d a => [word 0x29 (eV d) (eVs a) 0]
  | .vneg d a => [word 0x2A (eV d) (eVs a) 0]
  | .vand d a b => [word 0x2B (eV d) (eVs a) (eVs b)]
  | .vor d a b => [word 0x2C (eV d) (eVs a) (eVs b)]
  | .vxor d a b => [word 0x2D (eV d) (eVs a) (eVs b)]
  | .vnot d a => [word 0x2E (eV d) (eVs a) 0]
  | .vshl d a b => [word 0x2F (eV d) (eVs a) (eVs b)]
  | .vshr d a b => [word 0x30 (eV d) (eVs a) (eVs b)]
  | .vrot d a b => [word 0x31 (eV d) (eVs a) (eVs b)]
  | .vpop d a => [word 0x32 (eV d) (eVs a) 0]
  | .vclz d a => [word 0x33 (eV d) (eVs a) 0]
  | .vbfe d a b => [word 0x34 (eV d) (eVs a) (eVs b)]
  | .vbfi d a b => [word 0x35 (eV d) (eVs a) (eVs b)]
  | .vsel d a b => [word 0x36 (eV d) (eVs a) (ePs b)]
  | .vmov d a => [word 0x37 (eV d) (eVs a) 0]
  | .vmovl d lit => [word 0x38 (eV d) 0 0, lit]
  | .vbcast d a => [word 0x39 (eV d) (eS a) 0]
  | .vlea d a b => [word 0x3A (eV d) (eVs a) (eVs b)]
  | .vshuf d a b => [word 0x3B (eV d) (eVs a) (eVs b)]
  | .vxfer d a b => [word 0x3C (eV d) (eVs a) (eVs b)]
  | .vcmp d a b => [word 0x3D (eP d) (eVs a) (eVs b)]
  | .vidr d k => [word 0x3E (eV d) 0 k]
  | .fadd d a b => [word 0x40 (eV d) (eVs a) (eVs b)]
  | .fsub d a b => [word 0x41 (eV d) (eVs a) (eVs b)]
  | .fmul d a b => [word 0x42 (eV d) (eVs a) (eVs b)]
  | .ffma d a b => [word 0x43 (eV d) (eVs a) (eVs b)]
  | .fmin d a b => [word 0x44 (eV d) (eVs a) (eVs b)]
  | .fmax d a b => [word 0x45 (eV d) (eVs a) (eVs b)]
  | .fabs d a => [word 0x46 (eV d) (eVs a) 0]
  | .fneg d a => [word 0x47 (eV d) (eVs a) 0]
  | .frcp d a => [word 0x48 (eV d) (eVs a) 0]
  | .frsq d a => [word 0x49 (eV d) (eVs a) 0]
  | .fsqrt d a => [word 0x4A (eV d) (eVs a) 0]
  | .fdiv d a b => [word 0x4B (eV d) (eVs a) (eVs b)]
  | .fexp2 d a => [word 0x4C (eV d) (eVs a) 0]
  | .flog2 d a => [word 0x4D (eV d) (eVs a) 0]
  | .fcmp d a b => [word 0x4E (eP d) (eVs a) (eVs b)]
  | .fclass d a => [word 0x4F (eV d) (eVs a) 0]
  | .cvt d a => [word 0x50 (eV d) (eVs a) 0]
  | .cvtsc d a b => [word 0x51 (eV d) (eVs a) (eVs b)]
  | .cvtus d a b => [word 0x52 (eV d) (eVs a) (eVs b)]
  | .vamax d a => [word 0x53 (eV d) (eVs a) 0]
  | .scexp d a => [word 0x54 (eV d) (eVs a) 0]
  | .scpack d a b => [word 0x55 (eV d) (eVs a) (eVs b)]
  | .scunpk d a b => [word 0x56 (eV d) (eVs a) (eVs b)]
  | .bppack d a => [word 0x57 (eV d) (eVs a) 0]
  | .bpunpk d a => [word 0x58 (eV d) (eVs a) 0]
  | .vmodadd d a b => [word 0x59 (eV d) (eVs a) (eS b)]
  | .vmodsub d a b => [word 0x5A (eV d) (eVs a) (eS b)]
  | .vmodmul d a b => [word 0x5B (eV d) (eVs a) (eS b)]
  | .vbfly d a b => [word 0x5C (eV d) (eVs a) (eS b)]
  | .vibfly d a b => [word 0x5D (eV d) (eVs a) (eS b)]
  | .ld8 d m i => [word 0x60 (eV d) (eBase m) (eIndex i)]
  | .ld16 d m i => [word 0x61 (eV d) (eBase m) (eIndex i)]
  | .ld32 d m i => [word 0x62 (eV d) (eBase m) (eIndex i)]
  | .ld64 d m i => [word 0x63 (eV d) (eBase m) (eIndex i)]
  | .st8 a m i => [word 0x64 (eVs a) (eBase m) (eIndex i)]
  | .st16 a m i => [word 0x65 (eVs a) (eBase m) (eIndex i)]
  | .st32 a m i => [word 0x66 (eVs a) (eBase m) (eIndex i)]
  | .st64 a m i => [word 0x67 (eVs a) (eBase m) (eIndex i)]
  | .lds d m i => [word 0x68 (eS d) (eS m) (eSIndex i)]
  | .sts a m i => [word 0x69 (eS a) (eS m) (eSIndex i)]
  | .ldw d a b => [word 0x6A (eV d) (eS a) (eS b)]
  | .stw c a b => [word 0x6B (eVs c) (eS a) (eS b)]
  | .ldbp d m i => [word 0x6C (eV d) (eBase m) (eIndex i)]
  | .gld d m k => [word 0x6D (eV d) (eBase m) k]
  | .lda32 d m k => [word 0x6E (eV d) (eBase m) k]
  | .lda64 d m k => [word 0x6F (eV d) (eBase m) k]
  | .stl32 a m k => [word 0x70 (eVs a) (eBase m) k]
  | .stl64 a m k => [word 0x71 (eVs a) (eBase m) k]
  | .pref m i => [word 0x72 0 (eBase m) (eIndex i)]
  | .evict m i => [word 0x73 0 (eBase m) (eIndex i)]
  | .fence k => [word 0x80 0 0 k]
  | .fencee k => [word 0x81 0 0 k]
  | .aadd d m c => [word 0x82 (eADest d) (eBase m) (eVs c)]
  | .amin d m c => [word 0x83 (eADest d) (eBase m) (eVs c)]
  | .amax d m c => [word 0x84 (eADest d) (eBase m) (eVs c)]
  | .aand d m c => [word 0x85 (eADest d) (eBase m) (eVs c)]
  | .aor d m c => [word 0x86 (eADest d) (eBase m) (eVs c)]
  | .axor d m c => [word 0x87 (eADest d) (eBase m) (eVs c)]
  | .axchg d m c => [word 0x88 (eADest d) (eBase m) (eVs c)]
  | .acas d m c => [word 0x89 (eADest d) (eBase m) (eVs c)]
  | .afadd d m c => [word 0x8A (eADest d) (eBase m) (eVs c)]
  | .binit a b => [word 0x8B 0 (eS a) (eS b)]
  | .barv a => [word 0x8C 0 (eS a) 0]
  | .barx d a => [word 0x8D (eP d) (eS a) 0]
  | .bwait d a => [word 0x8E (eP d) (eS a) 0]
  | .btry d a => [word 0x8F (eP d) (eS a) 0]
  | .binv a => [word 0x90 0 (eS a) 0]
  | .bexp a b => [word 0x91 0 (eS a) (eS b)]
  | .gbar => [word 0x92 0 0 0]
  | .gbwait d => [word 0x93 (eP d) 0 0]
  | .gbtry d => [word 0x94 (eP d) 0 0]
  | .mon a => [word 0x95 0 (eS a) 0]
  | .mwait => [word 0x96 0 0 0]
  | .mtry d => [word 0x97 (eP d) 0 0]
  | .swait a b => [word 0xA0 0 (eS a) (eS b)]
  | .stry d a b => [word 0xA1 (eP d) (eS a) (eS b)]
  | .cqry d a => [word 0xA2 (eS d) (eS a) 0]
  | .cabort a => [word 0xA3 0 (eS a) 0]
  | .csync a => [word 0xA4 0 (eS a) 0]
  | .tcfg d a => [word 0xB0 (eX d) (eS a) 0]
  | .trd d a => [word 0xB1 (eS d) (eX a) 0]
  | .tzero d => [word 0xB2 (eX d) 0 0]
  | .tld d m i => [word 0xB3 (eX d) (eS m) (eSIndex i)]
  | .tst a m i => [word 0xB4 (eX a) (eS m) (eSIndex i)]
  | .tmov d a => [word 0xB5 (eX d) (eX a) 0]
  | .gang a => [word 0xB6 0 (eS a) 0]
  | .mma d a b => [word 0xB7 (eA d) (eX a) (eX b)]
  | .mmam d a b => [word 0xB8 (eA d) (eX a) (eX b)]
  | .mmab d a b => [word 0xB9 (eA d) (eX a) (eX b)]
  | .acfg d a b => [word 0xBA (eA d) (eS a) (eS b)]
  | .astat d a => [word 0xBB (eS d) (eA a) 0]
  | .aclr d => [word 0xBC (eA d) 0 0]
  | .adrain a m i => [word 0xBD (eA a) (eS m) (eSIndex i)]
  | .adrainp a m => [word 0xBE (eA a) (eS m) 0x7F]
  | .aswap d a => [word 0xBF (eA d) (eA a) 0]
  | .amov d a => [word 0xC0 (eA d) (eA a) 0]
  | .aload d m i => [word 0xC1 (eA d) (eS m) (eSIndex i)]
  | .trap k => [word 0xD0 0 0 k]
  | .sysq d k => [word 0xD1 (eS d) 0 k]
  | .csrr d k => [word 0xD2 (eS d) 0 k]
  | .csrw a k => [word 0xD3 0 (eS a) k]
  | .tlbi a => [word 0xD4 0 (eS a) 0]
  | .tlbia => [word 0xD5 0 0 0]
  | .fqpop d => [word 0xD6 (eS d) 0 0]
  | .fqrep a => [word 0xD7 0 (eS a) 0]
  | .fqkill a => [word 0xD8 0 (eS a) 0]
  | .perf d k => [word 0xD9 (eS d) 0 k]
  | .brkpt => [word 0xDA 0 0 0]
  | .launch a => [word 0xDB 0 (eS a) 0]
  | .sadd d a b => [word 0xE0 (eS d) (eS a) (eS b)]
  | .ssub d a b => [word 0xE1 (eS d) (eS a) (eS b)]
  | .smul d a b => [word 0xE2 (eS d) (eS a) (eS b)]
  | .sand d a b => [word 0xE3 (eS d) (eS a) (eS b)]
  | .sor d a b => [word 0xE4 (eS d) (eS a) (eS b)]
  | .sxor d a b => [word 0xE5 (eS d) (eS a) (eS b)]
  | .sshl d a b => [word 0xE6 (eS d) (eS a) (eS b)]
  | .sshr d a b => [word 0xE7 (eS d) (eS a) (eS b)]
  | .smov d a => [word 0xE8 (eS d) (eS a) 0]
  | .smovl d lit => [word 0xE9 (eS d) 0 0, lit]
  | .scmp d a b => [word 0xEA (eP d) (eS a) (eS b)]
  | .sidr d k => [word 0xEB (eS d) 0 k]
  | .pand d a b => [word 0xEC (eP d) (ePs a) (ePs b)]
  | .por d a b => [word 0xED (eP d) (ePs a) (ePs b)]
  | .pxor d a b => [word 0xEE (eP d) (ePs a) (ePs b)]
  | .pcnt d a => [word 0xEF (eS d) (ePs a) 0]
  | .illegalOpcode w => [w]
  | .meetFusion _ _ => []
  | .spillRotation _ => []
  | .starvationRank _ => []
  | .chunkGrant _ => []
  | .dispatch _ _ => []
  | .deferredRelease _ _ _ => []
  | .yieldWake _ => []
  | .yieldcWake _ => []
  | .stampWaitWake _ => []
  | .stryTimeout _ => []
  | .btryTimeout _ => []
  | .gbtryTimeout _ => []
  | .mtryTimeout _ => []
  | .monitorWake _ => []
  | .remoteArrival _ => []
  | .earlyRoom _ => []
  | .gridRelease _ _ => []
  | .rendezvousTimeout _ _ _ => []
  | .queueSlotFree _ => []
  | .copyLine _ _ => []
  | .peerLineReceive _ _ _ _ => []
  | .peerLineAck _ _ _ => []
  | .drainLine _ _ _ _ => []
  | .peerDrainAddition _ _ => []
  | .drainAcknowledgement _ _ _ => []
  | .heldEventPost _ => []
  | .launchCompletion _ _ => []
  | .remap _ _ _ => []
  | .sliceMapUpdate _ _ => []
  | .routerDrop => []
  | .partitionCreation => []
  | .destruction _ => []
  | .grow _ _ => []
  | .shrink _ _ => []
  | .compaction _ _ => []
  | .migration _ _ _ => []
  | .suspend _ => []
  | .resume _ => []
  | .erasingReshape _ => []
  | .coreRetirement _ _ _ => []
  | .warmSubstitutionDone _ _ => []
  | .coreReturn _ _ => []
  | .tileDegraded _ _ => []
  | .sramRowRepair _ _ _ => []
  | .sliceBankRetirement _ _ _ => []
  | .laneRepair _ _ _ => []
  | .laneRepairDone _ _ _ => []
  | .moduleDegrade _ _ _ _ => []
  | .peerBinding _ _ _ => []
  | .bindingEnd _ _ => []
  | .powerOn => []
  | .powerSample => []
  | .thermalReport => []
  | .coolantFlowLoss => []
  | .alarmLevel1 => []
  | .alarmClear => []
  | .alarmLevel2 => []
  | .continuousTestFailure => []
  | .mintRetest => []
  | .generate _ _ _ => []
  | .importKey _ _ _ _ => []
  | .bindKey _ => []
  | .discard _ => []
  | .rotate _ _ => []
  | .destroy _ => []
  | .retiringEnd _ => []
  | .revoke _ => []
  | .zeroiseReset => []
  | .rekey _ => []
  | .tagFailure _ => []
  | .scrub => []
  | .scrubReceipt => []
  | .getVersion _ => []
  | .getCapabilities _ => []
  | .negotiateAlgorithms _ _ => []
  | .getDigests _ => []
  | .getCertificate _ => []
  | .challenge _ _ => []
  | .getMeasurements _ _ _ => []
  | .keyExchange _ => []
  | .finish _ _ => []
  | .ideKeyManagement _ _ => []
  | .lockInterface _ _ => []
  | .startInterface _ _ => []
  | .stopInterface _ _ => []
  | .hostBarRead _ _ _ _ => []
  | .hostBarWrite _ _ _ _ => []

/-- A row of the opcode table without a word: an event of the module. -/
def Instr.isEvent (i : Instr) : Bool := (encode i).isEmpty

end Sys2Proof
end

