-- ==== Sys2Proof/Config.lean ====
section
/-! DEFINITION. What an implementation fixes, and the free values: constants without a body, of which nothing can be
proved. A statement that involves one holds whatever its value. -/

namespace Sys2Proof.Config

/-! ## Constants the spec gives -/

/-- Compute tiles on a module (R14). -/
def tileCount : Nat := 74
/-- Physical cores on a tile, and how many of them carry logical numbers (R16, R397). -/
def coresPerTile : Nat := 66
def logicalPerTile : Nat := 64
/-- Chunks, split-table entries, rejoin registers, scratchpad frames, tiles, accumulators, barriers, slots (R19). -/
def chunkCount : Nat := 8192
def entryCount : Nat := 64
def registerCount : Nat := 32
def frameCount : Nat := 192
def tileFileCount : Nat := 16
def accCount : Nat := 8
def barrierCount : Nat := 512
def slotCount : Nat := 16
/-- Copy channels and the copies a channel queues (R289). -/
def channelCount : Nat := 32
def channelDepth : Nat := 16
/-- The owner number of quarantined lines (R207). -/
def quarantineOwner : Nat := 4095
def quarantineTag : Nat := quarantineOwner * 4096
/-- Time limits in cycles: `btry`, `gbtry`, `mtry`, `stry` (R271, R280, R286, R317), rendezvous (R334), starvation
(R90), `yield` (R129). -/
def tryLimit : Nat := 1024
def rendezvousLimit : Nat := 65536
def starvationLimit : Nat := 256
def yieldLimit : Nat := 32
/-- Entries of a tile's region translation unit (R16). -/
def rtuCount : Nat := 8192
/-- Instructions a resident split issues before it is exchanged for a spilled one (R111). -/
def rotationLimit : Nat := 512
/-- Banks of a cache slice, slices of a tile, die edges of a tile (R16). -/
def sliceCount : Nat := 8
def bankCount : Nat := 4
def edgeCount : Nat := 4
/-- Lines of 64 bytes in one bank of 2 MiB (R16). -/
def bankLines : Nat := 32768
/-- Bytes behind one LPDDR6 channel, behind the CXL ports together at most, and behind both together at most (R7, R23). -/
def channelBytes : Nat := 32 * 10 ^ 9
def cxlBytes : Nat := 8192 * 10 ^ 9
def memoryBytes : Nat := 16384 * 10 ^ 9
/-- The counter at which a link or stream is rekeyed (R429). -/
def rekeyLimit : Nat := 2 ^ 62
/-- The deepest grid-barrier tree (R275). -/
def depthLimit : Nat := 9
/-- Cycles in one second and in one millisecond at 1.25 GHz (R8, R430, R433). -/
def cyclesPerSecond : Nat := 1250000000
def cyclesPerMs : Nat := 1250000

/-! ## Free values: the argument `tick` is the step's number -/

/-- The virtual address that names a spill record with this partition-physical address (R112, R369): a record lies in
frames that no page, one page or several may map. Log entry 15. -/
opaque spillVa : Nat → BitVec 64
/-- The SPLIT field of a record posted for a split that stands in spill records (R112, R369): it has no split-table entry.
The step and the first record of the split. Log entry 15. -/
opaque spillEntry : Nat → Nat → BitVec 6
/-- Which of the turns that could come next comes next (R5, R89). Log entry 5. -/
opaque freeTurn : Nat → Nat
/-- Whether the operands of a split's next instruction are collected (R89): the step and the split. Log entry 5. -/
opaque collected : Nat → Nat → Bool
/-- How many steps a turn that could come next is passed over at most: a number, of which nothing is known (R92, R245).
Log entry 5. -/
opaque patience : Nat
/-- Whether a store is performed after the step that completes its instruction (R28, R245): the step and the part of the
store. Log entry 10. -/
opaque late : Nat → Nat → Bool
/-- Whether a slice keeps its copy of a line that the host writes (R205). Log entry 72. -/
opaque sliceHolds : Nat → Nat → Bool
/-- Whether a walk uses a cached entry that differs from memory (R200). Log entry 14. -/
opaque useCached : Nat → Nat → Bool
/-- The order among lanes, or among runs of a copy, that write the same place (R212, R255, R299). Log entries 11 and 13. -/
opaque rank : Nat → Nat → Nat → Nat
/-- Whether a pinned line finds no way in its bank (R204). Log entry 43. -/
opaque pinFails : Nat → Bool
/-- Whether a copy acceptance takes a word of a cached template that differs from memory: the step, and eight times
the lane plus the word (R314). Log entry 14. -/
opaque useCachedTemplate : Nat → Nat → Bool
/-- What a bound partition answers during a quiesce: the step, the copy (or, counted down, the drain), and the line
plus one (0 for a drain). For a line 0 is a refusal; for a drain 0 is added, 1 a wrong configuration, 2 not admitted
(R308, R357, R419). Log entry 50. -/
opaque peerAnswer : Nat → Nat → Nat → Nat
/-- A scrub cannot write and verify a line (R442): the step and the line. Log entry 63. -/
opaque scrubFails : Nat → Nat → Bool
/-- What BAR 0 reads where the spec gives it no content (R447): the step and the offset. Log entry 64. -/
opaque barByte : Nat → Nat → Byte
/-- The tile that lies across a tile's edge in the mesh (R14): the layout is not given. Log entry 84. -/
opaque neighbour : Nat → Nat → Option Nat
/-- The place that a slice map gives a line among its banks (R18): the map's generation and the line. Log entry 85. -/
opaque sliceOf : Nat → Nat → Nat
/-- The units that a UCIe link or a detour carries in a cycle (R429): the step and the place in the list of seals. Log
entry 86. -/
opaque units : Nat → Nat → Nat
/-- The tile, and the edge of it, over which a second-tier line is reached from the dies. Log entry 86. -/
opaque ioEdge : Nat → Nat × Nat
/-- Whether an access to a second-tier line leaves its slice for memory: the step and the line. Log entry 86. -/
opaque missesSlice : Nat → Nat → Bool
/-- What a byte sealed under a key that is gone reads as under another (R431, R433): the step and the byte. Log entry 97. -/
opaque garbled : Nat → Nat → BitVec 8
/-- The key of an IDE stream, which the requester's message brings (R444): the step. Log entry 65. -/
opaque ideKey : Nat → BitVec 512
/-- What the Mint draws (R436). Log entry 9. -/
opaque mintDraw : Nat → BitVec 512
/-- The SM3 digest and the SM2 signature under a key (R443, R445): published standards, not given by the spec. Log entries 9
and 65. -/
opaque sm3 : List Byte → BitVec 256
opaque sm2 : BitVec 512 → Nat → List Byte → BitVec 512
/-- The bytes of SPDM messages whose layout the SPDM standard gives (R444): request number, partition, step. Log entry 65. -/
opaque spdmBody : Nat → Nat → Nat → List Byte

end Sys2Proof.Config
end

