-- ==== Sys2Proof/Machine/State.lean ====
section
/-! DEFINITION. The state of the module, as plain data: every piece the spec names, and (marked `MODEL`) the few
fields the model needs to say who acts next and what a waiting split waits for. -/

namespace Sys2Proof.Machine

/-! ## Splits and teams (R27, R93 to R97, R107) -/

/-- The states of a split (R94). -/
inductive SplitState where
  | ready | waitingMemory | waitingBarrier | yielded | parked | stopped
  deriving DecidableEq, Repr

/-- The layout of a template (R294), field by field. -/
structure Template where
  valid : Bool
  dims : Nat
  dst : Nat
  scope : Nat
  conv : Bool
  ctrlRsv : Nat
  epoch : Nat
  srcType : Nat
  dstType : Nat
  rnd : Nat
  sat : Bool
  convRsv : Nat
  barEn : Bool
  barIndex : Nat
  barRsv : Nat
  ext0 : Nat
  ext1 : Nat
  ext2 : Nat
  tag : Nat
  tagRsv : Nat
  sstr1 : Int
  sstr2 : Int
  dstr1 : Int
  dstr2 : Int
  relStamp : W64
  visStamp : W64
  tailRsv : Nat
  deriving DecidableEq, Repr

/-- The layout of an argument record (R296). -/
structure ArgRecord where
  src : W64
  dst : W64
  seq : W64
  epoch : Nat
  rsv : Nat
  barh : W64
  deriving DecidableEq, Repr

/-- One lane's copy of an aperture store, checked and not yet accepted (R298): the channel, what was read for it,
the lane's argument-record address, and for a scatter the group kind and the members (core, frame) with the offset. -/
structure Offer where
  /-- the aperture address that the lane stores to -/
  va : W64 := 0
  chan : Nat
  tmpl : Template
  arg : ArgRecord
  argVa : W64
  scatter : Option (Nat × Nat × List (Nat × Nat))
  deriving DecidableEq, Repr

/-- What a waiting split waits for: the part of the waiting instruction that its entry still needs. `since` is the
cycle of issue. -/
inductive Wait where
  /-- nothing -/
  | none
  /-- a write waiting for chunks, by key: 32 times the name, plus the mask word (R84) -/
  | chunk (need : List Nat)
  /-- an aperture store whose remaining lanes wait for a queue slot, and the names it marks as read last (R298) -/
  | aperture (left : List Offer) (marks : List Nat)
  /-- `swait`, or `stry` with its predicate: the stamp's address and the target (R317), and whether the line that the address
  names has been written since the stamp was last read -/
  | stamp (va : W64) (target : W64) (pd : Option PReg) (since : Nat) (wrote : Bool)
  /-- `yieldc`: the stamp's address, the target and the continuation address (R130), and the write as above -/
  | yieldc (va : W64) (target : W64) (dest : W64) (wrote : Bool)
  /-- `mwait`, or `mtry` with its predicate (R286) -/
  | monitor (pd : Option PReg) (since : Nat)
  /-- `yield`: the splits that have not swept since, resident or spilled, by team slot and lowest lane (R129) -/
  | yield (since : Nat) (others : List (Nat × Nat))
  /-- a remote arrival on its way to barrier INDEX of the gang of a team slot of a core (R264) -/
  | remote (core slot index : Nat)
  /-- an arrival at barrier `bar` of core `core` waiting for EARLY to have room (R264); `pd` for `barx` -/
  | early (core bar : Nat) (pd : Option PReg)
  /-- `barx` at barrier `bar`: the completions still to come, 1 or 2 (R270) -/
  | barx (bar : Nat) (left : Nat) (pd : PReg)
  /-- `bwait`, or `btry` with its time limit (R271) -/
  | bwait (bar : Nat) (pd : PReg) (since : Option Nat)
  /-- `gbwait`, or `gbtry` with its time limit (R280) -/
  | grid (pd : PReg) (since : Option Nat)
  /-- `cabort` waiting for the cancelled copies, by number, to write their stamps (R319) -/
  | cancel (ids : List Nat)
  /-- `launch` waiting for the 4,095th launch before its own to complete: the header's 128 bytes (R389) -/
  | launch (header : List Byte)
  /-- held in the gang's rendezvous latch (R333) -/
  | latch
  /-- waiting behind the gang's rendezvous latch (R333) -/
  | behind
  deriving DecidableEq, Repr

/-- MODEL. A pre-emption cut the split's wait for a grid release short (`waiting`, R379); a grid reset followed, so that
the replayed wait receives 0 (`zero`, R280, R421); the replay has executed the `region` word at its start (`replay`). -/
inductive GridCut where
  | none | waiting | zero | replay
  deriving DecidableEq, Repr

/-- A split-table entry (R93). `mask` is the 32 mask words: bit l is lane l. -/
structure Split where
  entry : Nat
  pc : W64
  mr : W32
  mask : Mask
  pending : Option Nat
  parent : Option Nat
  regionPc : W64
  regionMr : W32
  liveIn : BitVec 128
  state : SplitState
  wait : Wait
  /-- instructions issued since the split was created or refilled (R111) -/
  issued : Nat
  /-- its last completed instruction is non-idempotent (R379) -/
  nonIdem : Bool
  /-- MODEL: the chunks that the instruction in progress has taken and nobody has written (key of the chunk, drawn from
  FPENTRY), given back if it traps after all (R39) -/
  drawn : List (Nat × Bool)
  gridCut : GridCut := .none
  /-- MODEL: it has issued a word that has not completed (R103) -/
  begun : Bool := false
  /-- it is stopped by a pre-emption, and goes on when its team is restored (R94, R376, R379) -/
  saved : Bool := false
  /-- MODEL: the mask words, by number, that the instruction in progress has been given a lane quad for (R88, R89) -/
  sent : List Nat := []
  deriving DecidableEq, Repr

/-- A rejoin record (R95). -/
structure Rejoin where
  ordinal : Nat
  parent : Option Nat
  block : Option Nat
  mr : W32
  expected : Nat
  arrived : Nat
  deriving DecidableEq, Repr

/-- A run of records allocated in a team's spill area (R106): its first record, whether it holds a split (three
records) or a rejoin record (one), whether a spilled split is ready, the spill order, and a rejoin record's ordinal. -/
structure SpillRun where
  first : Nat
  isSplit : Bool
  ready : Bool
  seq : Nat
  ordinal : Nat
  /-- the spilled split's last completed instruction is non-idempotent (R379) -/
  nonIdem : Bool
  /-- the spilled split's cut wait for a grid release (R280, R421) -/
  gridCut : GridCut := .none
  /-- the spilled split has stopped on a rejoin record that was found invalid (R112) -/
  stopped : Bool := false
  deriving DecidableEq, Repr

/-- A launch header's fields (R73). `w` is W0 to W5, `ext` is E1 to E5. -/
structure Header where
  program : W64
  entry : Nat
  w : List Nat
  team : Nat
  ext : List Nat
  fpentry : Nat
  fppeak : Nat
  scratch : Nat
  tiles : Nat
  accs : Nat
  spill : Nat
  barriers : Nat
  gang : Nat
  phases : Nat
  prio : Nat
  args : W64
  after0 : W64
  after1 : W64
  stamp : W64
  deriving DecidableEq, Repr

inductive TeamKind where
  | service | root | launched
  deriving DecidableEq, Repr

/-- A team's monitor (R283). `line` is the PPA of the watched line. -/
structure Monitor where
  armed : Bool
  trig : Bool
  line : Nat
  deriving DecidableEq, Repr

/-- A team (R27, R81). -/
structure Team where
  slot : Nat
  kind : TeamKind
  /-- launch identifier, 0 for the service and root teams (R159, R388) -/
  launch : Nat
  ordinal : Nat
  phase : Nat
  hdr : Header
  /-- moment of admission, counted by partition (R82) -/
  age : Nat
  splits : List Split
  records : List Rejoin
  spilled : List SpillRun
  /-- next SEQ of the spill order (R107) -/
  nextSeq : Nat
  /-- chunks held: key 32·name + mask word, names as R50 encodes them; the 32 lane containers (R19, R83) -/
  chunks : List (Nat × List W32)
  /-- chunks of FPENTRY set aside and not yet drawn (R84) -/
  entryLeft : Nat
  sregs : List W64
  frames : List Nat
  /-- the gang on this core that the team belongs to -/
  gang : Nat
  gangix : Nat
  /-- gang register (R332) -/
  gangReg : BitVec 6
  monitor : Monitor
  /-- grid record: the phase of a valid record (R276) -/
  grid : Option Bool
  /-- TSTAT (R230, R366) -/
  gabsent : Bool
  preempted : Bool
  replayed : Bool
  /-- asked for a successor phase (R127) -/
  successor : Bool
  /-- to be ended by `fqkill` once its issued non-idempotent instructions have completed (R377) -/
  dying : Bool
  /-- counters of `splitq` (R133) -/
  maxSpill : Nat
  divergences : Nat
  meetFusions : Nat
  rejoinFusions : Nat
  /-- counters of `perf` 1 and 7 to 9 (R387) -/
  sweeps : Nat
  replays : Nat
  preemptions : Nat
  timeouts : Nat
  /-- the cycle of the last issue, and the cycle at which the team gained the starvation rank (R90) -/
  lastIssue : Nat
  rank : Option Nat
  /-- the entry of the split that each lane quad, the scalar unit and the matrix engine were last given to (R89, R92) -/
  given : List Nat := [0, 0, 0, 0, 0, 0]
  /-- how often a lane quad has been given to another split since it was given to this one (R91): key 64·quad + entry -/
  passed : List (Nat × Nat) := []
  /-- the cycle since which the team has had a ready split (R90) -/
  readySince : Option Nat := none
  deriving DecidableEq, Repr

/-! ## The core's own state (R19) -/

/-- A named barrier (R260). -/
structure Barrier where
  valid : Bool
  expect : Nat
  arrived : Nat
  early : Nat
  phase : Bool
  pending : Nat
  gen : Nat
  swap : Bool
  pair : Nat
  pairs : Nat
  deriving DecidableEq, Repr

/-- A tile (R322, R323): contents as (byte, value) pairs, unlisted bytes zero; control; fill state; the number of
fills that keep it busy (R302). -/
structure Tile where
  bytes : List (Nat × Byte)
  ctl : W64
  tag : Nat
  rows : Nat
  rbytes : Nat
  busy : Nat
  deriving DecidableEq, Repr

/-- An accumulator (R329, R330): entries as (64i + j, value) pairs, unlisted entries zero. -/
structure Acc where
  entries : List (Nat × W64)
  mode : Nat
  modulus : W64
  status : BitVec 5
  deriving DecidableEq, Repr

/-- The three joint matrix instructions (R335). -/
inductive MatOp where
  | mma | mmam | mmab
  deriving DecidableEq, Repr

/-- The open rendezvous of a gang (R333): the instruction, the gang register and PLANES that it carries, the cycle
it opened, the splits (slot, entry) held, and whether it has completed and waits only for a busy tile (R341). -/
structure Latch where
  op : MatOp
  ad : AReg
  xa : XReg
  xb : XReg
  gangReg : BitVec 6
  planes : Nat
  opened : Nat
  joined : List (Nat × Nat)
  complete : Bool
  /-- the controls of the gang's tiles, by the core's numbers, as they stood when the rendezvous completed (R347) -/
  ctls : List (Nat × W64) := []
  deriving DecidableEq, Repr

/-- A gang on its core: what it drew at admission (R78), in the core's numbering, and its latch. -/
structure Gang where
  id : Nat
  kind : TeamKind
  launch : Nat
  width : Nat
  tiles : List Nat
  accs : List Nat
  bars : List Nat
  latch : Option Latch
  deriving DecidableEq, Repr

/-- Who issued an engine operation: what a record and a privilege check need after the team may have ended. -/
structure Issuer where
  kind : TeamKind
  launch : Nat
  ordinal : Nat
  slot : Nat
  deriving DecidableEq, Repr

/-- A destination line that a copy's engine has taken ahead (R257) and not yet written: the machine bytes to write, and how
many payload bytes that is. -/
structure HeldLine where
  line : Nat
  cells : List Host.Cell
  bytes : Nat
  deriving DecidableEq, Repr

/-- An accepted copy (R298 to R311). `left` lists the destination lines not yet written (addresses divided by 64, or
row and block numbers), `held` those of them taken ahead under R257, `unacked`
the lines sent over a binding. `bar` is the barrier counted into: core, barrier, captured GEN. `tile` is the tile it
fills, in the core's numbering. -/
structure Copy where
  id : Nat
  issuer : Issuer
  tmpl : Template
  arg : ArgRecord
  argVa : W64
  scatter : Option (Nat × Nat × List (Nat × Nat))
  bar : Option (Nat × Nat × Nat)
  tile : Nat
  left : List Nat
  held : List HeldLine
  unacked : List Nat
  /-- payload bytes not yet written (R318), which are the bytes still owed to PENDING -/
  owed : Nat
  /-- suspended on a fault (R309) -/
  suspended : Bool
  /-- ended in error (R311) -/
  error : Bool
  relDone : Bool
  visDone : Bool
  deriving DecidableEq, Repr

/-- A channel of the copy engine (R289, R318). -/
structure Channel where
  queue : List Copy
  lastSeq : W64
  lastVis : W64
  deriving DecidableEq, Repr

/-- A drain to memory in progress (R355): the entries taken at issue, where and how they are written, and the destination
lines not yet written: virtual address divided by 64, and the PPA of the line under the translation of the check. -/
structure Drain where
  issuer : Issuer
  ea : Nat
  type : Nat
  rnd : Nat
  sat : Bool
  mode : Nat
  entries : List (Nat × W64)
  left : List (Nat × Nat)
  deriving DecidableEq, Repr

/-- A peer drain between its source and its target (R357 to R359). `binding` is 0 inside the partition. -/
structure Flight where
  issuer : Issuer
  srcCore : Nat
  binding : Nat
  core : Nat
  slot : Nat
  acc : Nat
  va : W64
  data : DrainData
  deriving DecidableEq, Repr

/-- What an ended team or gang still holds until its copies have written their stamps (R127). -/
structure Release where
  launch : Nat
  /-- ordinals of the teams whose copies are waited for -/
  teams : List (TeamKind × Nat)
  frames : List Nat
  tiles : List Nat
  accs : List Nat
  bars : List Nat
  deriving DecidableEq, Repr

/-- The answer a core's last request met under a superseded slice map (R206). -/
inductive RemapState where
  | idle | resent | waiting
  deriving DecidableEq, Repr

/-- A logical core (R19, R30, R194, R275). -/
structure Core where
  /-- the tile and the physical core that serve the logical number (stage 2, R201) -/
  tile : Nat
  phys : Nat
  absent : Bool
  /-- issue is stopped by a warm substitution (R409) that moves the core to this physical core -/
  warm : Option Nat
  teams : List Team
  gangs : List Gang
  releases : List Release
  /-- the even-frame pairs whose front bank is the odd frame (R233) -/
  swapped : List Nat
  fileTiles : List (Nat × Tile)
  fileAccs : List (Nat × Acc)
  bars : List (Nat × Barrier)
  chans : List (Nat × Channel)
  drains : List Drain
  /-- grid barrier (R275, R276, R279) -/
  garr : Bool
  gph : Bool
  excuse : Bool
  /-- the excuse bit stays only until the next release (R421) -/
  excuseOnce : Bool
  /-- counters of `perf` 2 to 4 (R387) -/
  stale : Nat
  unpinned : Nat
  remaps : Nat
  remap : RemapState
  /-- the generation of the slice map under which a request that met REMAP has been sent again (R206) -/
  remapGen : Nat := 0
  /-- frames that no team is given, because a scrub could not write them (R442) -/
  withheld : List Nat := []
  /-- its state is gone and a core with empty state will take its number at the next quiesce (R410, R414) -/
  lost : Bool := false
  deriving DecidableEq, Repr

/-- A unit that the host stream carries: a BAR read of n bytes, a BAR write, an MSI-X write (R429, R447). -/
inductive HostUnit where
  | read (bar off n : Nat)
  | write (bar off : Nat) (bytes : List Byte)
  | msix (vector : Nat)
  deriving DecidableEq, Repr

/-! ## The partition's own state -/

/-- Per-partition CSRs (R365, R366). -/
structure Csrs where
  mboxva : W64
  peermap : W64
  s1root : W64
  eqbase : W64
  en : Bool
  logn : Nat
  ttbase : W64
  ttsize : Nat
  mboxppa : W64
  pwbase : W64
  pwctl : W64
  deriving DecidableEq, Repr

/-- What is attached to an event record (R372, R376): a split of a core, in an entry or in the spill records from one on,
a copy, a launch's stamp. -/
inductive Waiter where
  | split (core slot entry : Nat)
  | run (core slot first : Nat)
  | copy (id : Nat)
  | stamp (n : Nat)
  deriving DecidableEq, Repr

/-- An event before it is posted (R369, R370). -/
structure Event where
  va : W64
  code : Nat
  cls : Nat
  sup : Bool
  absent : Bool
  team : W32
  split : Nat
  arg : Nat
  region : W32
  waiter : Option Waiter
  deriving DecidableEq, Repr

inductive RecState where
  | free | posted | inService
  deriving DecidableEq, Repr

/-- A slot of the event queue as the queue itself keeps it (R370, R371); the record's bytes stand in memory. -/
structure QSlot where
  state : RecState
  va : W64
  code : Nat
  cls : Nat
  sup : Bool
  absent : Bool
  merged : Bool
  waiters : Nat
  seq : Nat
  attached : List Waiter
  deriving DecidableEq, Repr

/-- A launch (R388 to R391): the teams placed and ended, whether any was ended by `fqkill` or lost, whether its
stamp write waits on a record. -/
structure Launch where
  n : Nat
  hdr : Header
  refused : Bool
  placed : Nat
  ended : Nat
  error : Bool
  stampWaits : Bool
  done : Bool
  deriving DecidableEq, Repr

/-- A stage-1 entry kept by a tile's RTU (R200): level, the virtual address above that level's page, and the entry. -/
structure RtuEntry where
  tile : Nat
  level : Nat
  va : Nat
  entry : W64
  deriving DecidableEq, Repr

/-- A group descriptor kept by a tile's RTU (R223): its PPA and its words. -/
structure RtuGroup where
  tile : Nat
  ppa : Nat
  words : List W64
  /-- the 16 KiB pages through which it was reached (R384) -/
  pages : List Nat := []
  deriving DecidableEq, Repr

/-- TDISP interface states (R446). -/
inductive Tdisp where
  | disabled | configUnlocked | configLocked | run | error
  deriving DecidableEq, Repr

/-- Where an SPDM session stands (R444). -/
inductive SpdmState where
  | opened | finished | keyed
  deriving DecidableEq, Repr

/-- A peer binding in force (R404). -/
structure Binding where
  b : Nat
  far : PeerEnd
  deriving DecidableEq, Repr

/-- The reshape work in progress (R414, R423, R409). -/
inductive Hold where
  | running
  /-- suspended at the host's request, or by heat (R423, R427) -/
  | suspended
  /-- resumed, with every team but the service team held until a `tlbia` (R418) -/
  | gated
  deriving DecidableEq, Repr

/-- A partition (R193, R395 to R404). -/
structure Partition where
  pindex : Nat
  owner : Nat
  gen : Nat
  /-- the machine address of its second-tier allocation and its size in bytes (stage 2 of region 0) -/
  base : Nat
  alloc : Nat
  cols : Nat
  tiles : List Nat
  reshapes : Nat
  depth : Nat
  cores : List Core
  csr : Csrs
  service : SystemTeam
  root : SystemTeam
  /-- system teams that have lost their core and wait for room on logical core 0 (R411) -/
  restarts : List TeamKind := []
  /-- the cycle at which the partition started (R387) -/
  started : Nat
  rtu : List RtuEntry
  rtuRoots : List (Nat × W64)
  rtuGroups : List RtuGroup
  /-- templates cached by the engine of a core: core, index, the table base they were read under, bytes (R293, R314) -/
  tcache : List (Nat × Nat × W64 × List Byte)
  queue : List (Nat × QSlot)
  heldEvents : List Event
  /-- the HELD that the header holds (R370) -/
  heldShown : Nat := 0
  posted : Nat
  merged : Nat
  launches : List Launch
  lastLaunch : Nat
  pointer : Nat
  admitted : Nat
  gangCount : Nat
  copyCount : Nat
  flights : List Flight
  /-- the cores that a release in progress has still to reach (R277) -/
  releasing : Option (List Nat)
  hold : Hold
  /-- the slice-map generation in force, and the tiles that have received it (R206) -/
  mapGen : Nat
  mapTiles : List Nat
  /-- slice banks retired, oldest first, each with a generation of its own up to the newest: tile, slice, bank; those that
  the map of some tile still names (R206) -/
  banksGone : List (Nat × Nat × Nat)
  /-- the generation that each tile which has not received the newest map holds (R206) -/
  mapHeld : List (Nat × Nat) := []
  bindings : List Binding
  tdisp : Tdisp
  sessions : List (Nat × SpdmState)
  /-- MSI-X vectors fired and not yet taken by the host (R447) -/
  msix : List Nat
  /-- the MSI-X table, as (offset, byte) pairs, and the pending bits (R447) -/
  msixTable : List (Nat × Byte)
  msixPending : Nat
  /-- the signed shape report and the digest of the one before it (R445) -/
  report : List Byte
  /-- some of its tiles reach each other only over channel 3 (R402) -/
  detour : Bool
  /-- the host port of its virtual function (R447) -/
  port : Nat := 0
  /-- it is being destroyed: its copies end in error (R399) -/
  ending : Bool := false
  /-- tiles that failed during the quiesce in progress (R415) -/
  failedNow : List Nat := []
  /-- the splits whose request a router has dropped: they wait for the next quiesce (R401) -/
  dropped : List SplitRef := []
  /-- the quiesce in progress (R419): the numbers moved and removed so far, LIVE when it began, whether it erases, and
  whether a gate of R418 was still closed -/
  moves : List (Nat × Nat) := []
  liveWas : Nat := 0
  erased : Bool := false
  gateWas : Bool := false
  /-- suspended at the host's request (R423), by heat (R427) -/
  byHost : Bool := false
  byHeat : Bool := false
  /-- reshape commands that arrived during a quiesce (R415) -/
  queued : List Instr := []
  /-- tiles that a quiesce in progress has emptied: each is dead when it completes (R395, R407) -/
  emptied : List Nat := []
  /-- what waits, in order, for the rekey of the host stream (R429) -/
  hostWait : List HostUnit := []
  deriving DecidableEq, Repr

/-! ## The module (R14 to R26, R395, R425 to R448) -/

/-- A physical core of a tile (R16, R17, R413). -/
inductive PhysState where
  | live | spare | retired
  deriving DecidableEq, Repr

/-- An entry of a routing table (R400): the destination tile, the output port (a die edge 0 to 3, or 4, the port to the
central crossbar) and the virtual channel class. -/
structure Route where
  dest : Nat
  port : Nat
  chan : Nat
  deriving DecidableEq, Repr

/-- A compute tile (R16, R395, R426). `duty` is n of the duty limit n/16. -/
structure TileInfo where
  state : TileState
  cores : List PhysState
  duty : Nat
  /-- its router's tables, by partition index (R400) -/
  router : List (Nat × List Route) := []
  /-- banks of its slices that are retired: slice, bank (R407) -/
  banksGone : List (Nat × Nat) := []
  deriving DecidableEq, Repr

/-- An I/O tile (R23, R425): which of its 32 LPDDR6 channels, 2 CXL ports and 2 peer ports are in use; and its host
port, on I/O tiles 0, 2, 4 and 6. -/
structure IoTile where
  lpddr : List Bool
  cxl : List Bool
  peers : List Bool
  host : Option Bool
  deriving DecidableEq, Repr

inductive SlotState where
  | empty | provisioned | active | retiring | revoked
  deriving DecidableEq, Repr

/-- A Vault slot (R432). -/
structure VaultSlot where
  state : SlotState
  key : BitVec 512
  use : Purpose
  owner : Nat
  /-- the cycle at which the slot began to retire (R433) -/
  since : Nat
  deriving DecidableEq, Repr

/-- A sealed link or stream as its sender keeps it (R428 to R430): its counter, the cycles of the tag failures of the last
second, and whether it is up. A link between dies has one for each direction, named by the tile and the edge that it leaves or,
from an I/O tile, reaches; the counter of a detour is the greatest of its sources' counters. `key` is the key that its units
are sealed under; those of links stand in no Vault slot (R432). A memory key's seal has no counter. -/
structure Seal where
  stream : Stream
  counter : Nat
  fails : List Nat
  up : Bool
  key : BitVec 512 := 0
  /-- of a detour, the counters of its source tiles; unlisted ones are 0 (R428) -/
  sources : List (Nat × Nat) := []
  /-- MODEL: units to be sent again once there is a new key, by the tile of their source; by 0 on any other stream (R429, R430) -/
  resend : List Nat := []
  deriving DecidableEq, Repr

/-- A UCIe module of a tile's edge (R405, R406). -/
structure Ucie where
  tile : Nat
  edge : Nat
  mod : Nat
  cond : LaneCondition
  repairing : Bool
  deriving DecidableEq, Repr

/-- A scrub to do or to report (R441 to R443): its reason, its owner, the owner's generation at its start, and what
it wrote and could not write. `pindex` is the partition index that it holds back (R435). -/
structure ScrubJob where
  reason : Nat
  owner : Nat
  pindex : Option Nat
  newGen : Nat
  started : Bool
  lines : Nat
  frames : Nat
  bad : List (W64 × Nat)
  /-- the machine lines that it covers, and the frames that the reshape vacated, counted over the module (R441) -/
  covers : List Nat := []
  vacated : List Nat := []
  /-- the tags that its receipt takes from the worn ones (R209) -/
  tags : List Nat := []
  deriving DecidableEq, Repr

/-- What the world puts at the module's inputs, read by the events of the opcode table that have no operand. -/
structure Inputs where
  bringUp : BringUp
  watts : Nat
  temps : List Nat
  mintSource : Bool
  alarm : AlarmSource
  create : Option CreateSpec
  /-- a packet at a router (R401): the tile, the partition index in its tag, whether the router is faulty, and the split
  whose request it is -/
  dropTile : Nat
  dropTag : Nat := 0
  dropFaulty : Bool := true
  dropSender : Option SplitRef := none
  /-- a BAR access comes over the function's IDE stream (R446) -/
  barIde : Bool := true
  deriving DecidableEq, Repr

/-- Statuses of partition-manager commands that the spec names (R399, R422, R433, R439, R440). -/
inductive PmStatus where
  | ok | keyEntropy | keyRefused | keyState | moduleHeld | refused
  deriving DecidableEq, Repr

/-- What the module sends out. -/
inductive Output where
  /-- the status of a partition-manager command -/
  | status (s : PmStatus)
  /-- a completion of a host read: its data and whether it is poisoned (R463) -/
  | completion (p : Nat) (data : List Byte) (poisoned : Bool)
  /-- a host access refused while the interface is not in RUN (R446) -/
  | unsupported (p : Nat)
  /-- an MSI-X write (R447) -/
  | msix (p vector : Nat)
  /-- an SPDM response: its request's name is the constructor of the event (R444) -/
  | spdm (p : Nat) (data : List Byte)
  /-- a request the responder does not serve (R444) -/
  | spdmRefused (p : Nat)
  /-- a line sent over a peer port (R308) -/
  | peerLine (p b off : Nat) (data : List Byte)
  /-- an acknowledgement, or a refusal, sent over a peer port (R308) -/
  | peerAck (p b : Nat) (ok : Bool)
  /-- a peer drain sent over a peer port (R357) -/
  | peerDrain (p b core slot acc : Nat) (d : DrainData)
  /-- the answer to a peer drain that arrived over a binding (R357) -/
  | drainAck (p b : Nat) (a : DrainAnswer)
  /-- a scrub receipt for the operator (R443) -/
  | receipt (data : List Byte)
  /-- the count of live cores, reported to the operator (R3) -/
  | liveCores (n : Nat)
  /-- the physical function reports a fault of bring-up, or signals heat (R425, R427) -/
  | physical (code : Nat)
  /-- an alarm's source in the XMC's log (R439) -/
  | alarm (level : Nat) (src : AlarmSource)
  /-- the partition manager is told of a queue area that does not map, or of a service-team trap (R364, R370) -/
  | told (p : Nat)
  deriving DecidableEq, Repr

/-- MODEL. Who acts in a step. -/
inductive Turn where
  /-- a resident split issues its next instruction -/
  | issue (r : SplitRef)
  /-- a resident split is given a lane quad for a mask word of its next instruction, which has more to come (R89) -/
  | word (r : SplitRef) (quad : Nat)
  /-- an event of the opcode table takes place -/
  | event (i : Instr)
  /-- a cycle passes (R8) -/
  | clock
  /-- the inputs change -/
  | sense (x : Inputs)
  /-- a byte becomes uncorrectable, or correctable again -/
  | corrupt (loc : Nat)
  | settle (loc : Nat)
  /-- a party with physical access changes a second-tier byte unnoticed (R431) -/
  | tamper (loc : Nat) (b : Byte)
  /-- the n-th access that waits to be performed is performed, or, if it is a load, one of its parts (R28, R245) -/
  | perform (n : Nat)
  /-- a slice gives up its copy of a line (R205) -/
  | dropSlice (line : Nat)
  deriving DecidableEq, Repr

/-- One read of a load: a single-copy-atomic access, one byte of an access that is not (R211), or one member of a group
load (R231). Its machine bytes, those of them reached through HOME 00 or HOME 10 (R205), and what it has read. -/
structure LoadPart where
  locs : List Nat
  cached : List Nat
  got : Option (List Byte)
  deriving DecidableEq, Repr

/-- What the bytes of a load become: a lane register under a TYPE from 8, 16 or 32 bits, a lane pair, a scalar, the
combination of a group's members under an operation and a TYPE, bytes of a tile's rows of `rbytes` bytes, the first being byte
`first` of all of them, or an accumulator's entry; tiles and accumulators by their core's numbers. -/
inductive LoadInto where
  | lane (name lane type width : Nat)
  | pair (name lane : Nat)
  | scalar (reg : Nat)
  | group (name lane op type : Nat)
  | tile (n first rbytes : Nat)
  | acc (n entry : Nat)
  deriving DecidableEq, Repr

/-- The operations of the nine atomics (R252). -/
inductive AtomOp where
  | add | min | max | and | or | xor | xchg | cas | fadd
  deriving DecidableEq, Repr

/-- One lane's atomic (R254): what it reads and writes, its operation under a TYPE and a rounding mode with one data operand
or two, and where the old value goes. -/
structure LateAtomic where
  part : LoadPart
  op : AtomOp
  type : Nat
  rnd : Nat
  a : Nat
  b : Nat
  into : Option LoadInto
  deriving DecidableEq, Repr

/-- An access of a split whose instruction has completed and that is not yet performed (R28, R245): a store, by machine
bytes, which is one single-copy-atomic access, or one byte of an access that is not (R211); a load that still has
parts to read, with its destination; or one lane's atomic. -/
structure Late where
  writer : SplitRef
  cells : List Host.Cell
  load : Option (LoadInto × List LoadPart) := none
  atomic : Option LateAtomic := none
  deriving DecidableEq, Repr

/-- The state of the module. -/
structure State where
  grade : Nat
  /-- bring-up has completed (R425) -/
  booted : Bool
  /-- held by alarm level 2 or by a failed bring-up (R425, R440) -/
  halted : Bool
  tiles : List TileInfo
  /-- the I/O tiles 0 to 7 (R14, R23) -/
  io : List IoTile := []
  parts : List Partition
  /-- machine memory: unlisted bytes are zero -/
  mem : List Host.Cell
  /-- generation tags by machine line (address div 64): unlisted lines carry the quarantine owner (R207) -/
  tags : List (Nat × Nat)
  /-- bytes that hold uncorrectable data -/
  bad : List Nat
  /-- lines of which a slice keeps a copy older than a write of the host, with the copy's 64 bytes (R16, R205) -/
  slices : List (Nat × List Byte) := []
  /-- accesses not yet performed, oldest first (R28, R245) -/
  late : List Late := []
  /-- second-tier bytes trained (R425) -/
  capacity : Nat
  /-- locations quarantined for good (R442), as WHERE words -/
  quarantine : List W64
  vault : List (Nat × VaultSlot)
  mintHealthy : Bool
  mintFails : Nat
  /-- the cycle of the Mint's last start-up test (R436) -/
  mintTested : Option Nat := none
  /-- slot 0 has certified slot 1 at this boot (R432) -/
  certified : Bool := false
  alarm1 : Bool
  digest : BitVec 256
  seals : List Seal
  ucie : List Ucie
  drops : Nat
  /-- MODEL: the count of live cores as the module last found it (R3) -/
  liveKnown : Nat := 0
  /-- each owner's current generation (R207, R209) -/
  gens : List (Nat × Nat)
  /-- tags (owner and generation) that were current and that no scrub has covered since (R209) -/
  worn : List Nat := []
  /-- held by alarm level 2 (R440); after it, the operator's keys must be provisioned again -/
  alarm2 : Bool := false
  reprovision : Bool := false
  scrubs : List ScrubJob
  /-- operations that wait until a generation may be bumped (R209) -/
  bumps : List Instr := []
  receipts : Nat
  /-- suspended by heat (R427) -/
  hot : Bool
  duty : Nat
  cycle : Nat
  inputs : Inputs
  outputs : List Output
  /-- MODEL: the split whose instruction is being executed -/
  cur : SplitRef
  /-- MODEL: who acts next, oldest first; empty: drawn from the free choice of Config -/
  turns : List Turn
  /-- MODEL: counts steps; the argument of the free values -/
  tick : Nat
  /-- MODEL: how many steps each turn that could come next has been passed over (R92, R245) -/
  waited : List (Turn × Nat) := []
  deriving DecidableEq, Repr

/-- Why a step stops with a fault. -/
inductive Fault where
  /-- Raised by the meaning of a word's instruction when `cur` names no resident split (no team executes it, so
  there is no machine behaviour to give). `step` never calls a meaning so. Safe: the model stops. -/
  | noIssuingSplit
  deriving DecidableEq, Repr

/-- Why a step is refused. -/
inductive Refusal where
  /-- Raised by exec for a row of the opcode table without a meaning in this model. Safe: the model stops. -/
  | notModelled (mnemonic : String)
  deriving DecidableEq, Repr

/-! ## Reset -/

def Header.zero : Header :=
  { program := 0, entry := 0, w := [0, 0, 0, 0, 0, 0], team := 0, ext := [1, 1, 1, 1, 1], fpentry := 0, fppeak := 0,
    scratch := 0, tiles := 0, accs := 0, spill := 0, barriers := 0, gang := 1, phases := 1, prio := 0, args := 0,
    after0 := 0, after1 := 0, stamp := 0 }

/-- Reset of a named barrier (R260). -/
def Barrier.reset : Barrier :=
  { valid := false, expect := 0, arrived := 0, early := 0, phase := false, pending := 0, gen := 0, swap := false,
    pair := 0, pairs := 0 }

/-- The control reset values of R323: RBYTES 256, ROWS 64. -/
def Tile.resetCtl : W64 := BitVec.ofNat 64 (256 * 2 ^ 16 + 64 * 2 ^ 8)

/-- A drawn tile's reset state (R326). -/
def Tile.reset : Tile := { bytes := [], ctl := Tile.resetCtl, tag := 0, rows := 64, rbytes := 256, busy := 0 }

/-- A drawn accumulator's reset state (R326). -/
def Acc.reset : Acc := { entries := [], mode := 0, modulus := 0, status := 0 }

/-- A channel before its first copy (R318). -/
def Channel.reset : Channel := { queue := [], lastSeq := BitVec.allOnes 64, lastVis := BitVec.allOnes 64 }

def VaultSlot.reset : VaultSlot := { state := .empty, key := 0, use := .memory, owner := 0, since := 0 }

/-- The inputs of a module that has just been reset: nothing is asked for, nothing is found. -/
def Inputs.reset : Inputs :=
  { bringUp := { mintOk := true, tiles := [], failed := [], memory := 0, firmwareOk := true, digest := 0 }
    watts := 0, temps := [], mintSource := true, alarm := .operatorCommand, create := none, dropTile := 0 }

/-- The 74 compute tiles of the module before bring-up (R14): none is in service. -/
def TileInfo.reset : TileInfo := { state := .spare, cores := List.replicate 66 .spare, duty := 16 }

/-- I/O tile n before bring-up: no channel and no port is trained (R23, R425). -/
def IoTile.reset (n : Nat) : IoTile :=
  { lpddr := List.replicate 32 false, cxl := [false, false], peers := [false, false]
    host := if n % 2 = 0 then some false else none }

/-- The machine right after reset: held until bring-up (POWER_ON) has run, with no partition (R425). -/
def State.reset : State :=
  { grade := 0, booted := false, halted := false, tiles := List.replicate 74 TileInfo.reset
    io := (List.range 8).map IoTile.reset, parts := []
    mem := [], tags := [], bad := [], capacity := 0, quarantine := [], vault := [], mintHealthy := false
    mintFails := 0, alarm1 := false, digest := 0, seals := [], ucie := [], drops := 0, gens := [], scrubs := []
    receipts := 0, hot := false, duty := 16, cycle := 0, inputs := Inputs.reset, outputs := []
    cur := { part := 0, core := 0, slot := 0, entry := 0 }, turns := [], tick := 0 }

end Sys2Proof.Machine
end

