-- ==== Sys2Proof/Machine/Bits.lean ====
section
/-! DEFINITION. Plain helpers: sparse tables in one canonical form, little-endian bytes (R9), lane masks. -/

namespace Sys2Proof.Machine

/-! ## Sparse tables: keys strictly rising, no entry equal to the default -/

/-- The value at a key; an unlisted key holds the default. -/
def tableGet {α : Type} (d : α) : List (Nat × α) → Nat → α
  | [], _ => d
  | (k, v) :: rest, a => if k = a then v else tableGet d rest a

/-- The entry at a key, if it is listed. -/
def tableFind {α : Type} : List (Nat × α) → Nat → Option α
  | [], _ => none
  | (k, v) :: rest, a => if k = a then some v else tableFind rest a

/-- Drop the key from a table. -/
def tableDrop {α : Type} : List (Nat × α) → Nat → List (Nat × α)
  | [], _ => []
  | (k, v) :: rest, a => if k = a then rest else if a < k then (k, v) :: rest else (k, v) :: tableDrop rest a

/-- Put a value at a key, in order. -/
def tablePut {α : Type} : List (Nat × α) → Nat → α → List (Nat × α)
  | [], a, x => [(a, x)]
  | (k, v) :: rest, a, x =>
    if k = a then (a, x) :: rest else if a < k then (a, x) :: (k, v) :: rest else (k, v) :: tablePut rest a x

/-- Set the value at a key; writing the default removes the entry. -/
def tableSet {α : Type} [DecidableEq α] (d : α) (t : List (Nat × α)) (a : Nat) (x : α) : List (Nat × α) :=
  if x = d then tableDrop t a else tablePut t a x

/-- The canonical form: keys strictly rising from above `lo`, no entry the default. -/
def tableFrom {α : Type} [DecidableEq α] (d : α) : Nat → List (Nat × α) → Bool
  | _, [] => true
  | lo, (k, v) :: rest => lo ≤ k && v ≠ d && tableFrom d (k + 1) rest

def tableWf {α : Type} [DecidableEq α] (d : α) (t : List (Nat × α)) : Bool := tableFrom d 0 t

/-! ## Little-endian values (R9) -/

/-- The number that bytes hold, lowest address first. -/
def leNat : List Byte → Nat
  | [] => 0
  | b :: rest => b.toNat + 256 * leNat rest

/-- `n` bytes of a number, lowest address first. -/
def leBytes : Nat → Nat → List Byte
  | 0, _ => []
  | n + 1, v => BitVec.ofNat 8 v :: leBytes n (v / 256)

/-- The field `[hi:lo]` of a number. -/
def field (v lo width : Nat) : Nat := v / 2 ^ lo % 2 ^ width

/-- The signed value of a w-bit pattern. -/
def signedOf (w v : Nat) : Int := if v % 2 ^ w < 2 ^ (w - 1) then (v % 2 ^ w : Nat) else (v % 2 ^ w : Nat) - (2 ^ w : Nat)

/-! ## Lanes -/

/-- The lanes of a team of `n` lanes that a mask holds, in increasing order. -/
def lanesOf (n : Nat) (m : Mask) : List Nat := (List.range n).filter fun l => m.getLsbD l

/-- The mask of the lanes of a list. -/
def maskOf (ls : List Nat) : Mask := ls.foldl (fun m l => m ||| (BitVec.ofNat 1024 1 <<< l)) 0

/-- Mask word w (R27, R75). -/
def maskWord (m : Mask) (w : Nat) : W32 := m.extractLsb' (32 * w) 32

/-- The mask words that hold a lane. -/
def liveWords (n : Nat) (m : Mask) : List Nat :=
  (List.range ((n + 31) / 32)).filter fun w => maskWord m w ≠ 0

/-- Replace an element of a list. -/
def listSet {α : Type} : List α → Nat → α → List α
  | [], _, _ => []
  | _ :: rest, 0, x => x :: rest
  | y :: rest, n + 1, x => y :: listSet rest n x

/-- The first element that passes, with the rest of the list in order. -/
def pullFirst {α : Type} (f : α → Bool) : List α → Option (α × List α)
  | [] => none
  | x :: rest => if f x then some (x, rest) else (pullFirst f rest).map fun (y, ys) => (y, x :: ys)

/-- The least number below `n` that a list does not hold: if there is one, it is at most the length of the list. -/
def leastFree (n : Nat) (used : List Nat) : Option Nat := (List.range (min n (used.length + 1))).find? fun i => !used.contains i

/-- Sum of a list of numbers. -/
def total (l : List Nat) : Nat := l.foldl (· + ·) 0

/-- The greatest of a list, 0 for none. -/
def greatest (l : List Nat) : Nat := l.foldl max 0

end Sys2Proof.Machine
end

