-- ==== Sys2Proof/Machine/Access.lean ====
section
/-! DEFINITION. Finding and changing the pieces of the state: partitions by index, cores by logical number, teams
by slot, splits by entry. Every meaning reads and writes the state through these. -/

namespace Sys2Proof.Machine

/-! ## Partitions, cores, teams, splits -/

def State.part? (s : State) (p : Nat) : Option Partition := s.parts.find? fun x => x.pindex = p

def State.modPart (s : State) (p : Nat) (f : Partition → Partition) : State :=
  { s with parts := s.parts.map fun x => if x.pindex = p then f x else x }

def Partition.core? (x : Partition) (l : Nat) : Option Core := x.cores[l]?

def Partition.modCore (x : Partition) (l : Nat) (f : Core → Core) : Partition :=
  { x with cores := x.cores.modify l f }

def Core.team? (c : Core) (k : Nat) : Option Team := c.teams.find? fun t => t.slot = k

def Core.modTeam (c : Core) (k : Nat) (f : Team → Team) : Core :=
  { c with teams := c.teams.map fun t => if t.slot = k then f t else t }

def Team.split? (t : Team) (e : Nat) : Option Split := t.splits.find? fun x => x.entry = e

def Team.modSplit (t : Team) (e : Nat) (f : Split → Split) : Team :=
  { t with splits := t.splits.map fun x => if x.entry = e then f x else x }

def State.core? (s : State) (p l : Nat) : Option Core := (s.part? p).bind fun x => x.core? l

def State.modCore (s : State) (p l : Nat) (f : Core → Core) : State := s.modPart p fun x => x.modCore l f

def State.team? (s : State) (p l k : Nat) : Option Team := (s.core? p l).bind fun c => c.team? k

def State.modTeam (s : State) (p l k : Nat) (f : Team → Team) : State := s.modCore p l fun c => c.modTeam k f

def State.split? (s : State) (r : SplitRef) : Option Split := (s.team? r.part r.core r.slot).bind fun t => t.split? r.entry

def State.modSplit (s : State) (r : SplitRef) (f : Split → Split) : State :=
  s.modTeam r.part r.core r.slot fun t => t.modSplit r.entry f

/-- LIVE (R397): the logical numbers in use. -/
def Partition.live (x : Partition) : Nat := x.cores.length

/-- Grid rows and last-row length (R159). -/
def Partition.rows (x : Partition) : Nat := (x.live + x.cols - 1) / x.cols
def Partition.lastRow (x : Partition) : Nat := x.live - x.cols * (x.rows - 1)

/-- The partition's current tag: owner and generation (R207). -/
def Partition.tag (x : Partition) : Nat := x.owner * 4096 + x.gen

/-! ## A split about to execute: everything its instruction may look at -/

/-- A split with its team, core and partition. -/
structure Ctx where
  r : SplitRef
  part : Partition
  core : Core
  team : Team
  split : Split
  deriving DecidableEq, Repr

def State.ctxAt (s : State) (r : SplitRef) : Option Ctx :=
  match s.part? r.part with
  | none => none
  | some x =>
    match x.core? r.core with
    | none => none
    | some c =>
      match c.team? r.slot with
      | none => none
      | some t =>
        match t.split? r.entry with
        | none => none
        | some sp => some ⟨r, x, c, t, sp⟩

/-- The split that `cur` names. -/
def State.ctx (s : State) : Option Ctx := s.ctxAt s.cur

/-- A supervisor team (R362). -/
def Team.sup (t : Team) : Bool := t.kind = .service

/-- The team's handle: launch slot and ordinal (R366, R388). -/
def handleOf (kind : TeamKind) (launch ordinal : Nat) : W32 :=
  match kind with
  | .service => BitVec.ofNat 32 (0xFFF * 2 ^ 20)
  | .root => BitVec.ofNat 32 (0xFFF * 2 ^ 20 + 1)
  | .launched => BitVec.ofNat 32 ((launch - 1) % 4095 * 2 ^ 20 + ordinal)

def Team.handle (t : Team) : W32 := handleOf t.kind t.launch t.ordinal

def Team.issuer (t : Team) : Issuer := { kind := t.kind, launch := t.launch, ordinal := t.ordinal, slot := t.slot }

/-- The service and root teams count as one launch (R262); so `sameLaunch` compares launch numbers, theirs being 0. -/
def sameLaunch (a b : Nat) : Bool := a = b

/-- A team's live splits, resident and spilled (R136). -/
def Team.liveSplits (t : Team) : Nat := t.splits.length + (t.spilled.filter fun x => x.isSplit).length

/-- A team is converged when it has exactly one live split (R136). -/
def Team.converged (t : Team) : Bool := t.liveSplits = 1

/-- The gang of a team on its core. -/
def Core.gang? (c : Core) (g : Nat) : Option Gang := c.gangs.find? fun x => x.id = g

def Core.modGang (c : Core) (g : Nat) (f : Gang → Gang) : Core :=
  { c with gangs := c.gangs.map fun x => if x.id = g then f x else x }

/-- Barriers, tiles, accumulators and channels by the core's own numbers. -/
def Core.bar (c : Core) (b : Nat) : Barrier := tableGet Barrier.reset c.bars b
def Core.setBar (c : Core) (b : Nat) (x : Barrier) : Core := { c with bars := tableSet Barrier.reset c.bars b x }
def Core.tileAt (c : Core) (i : Nat) : Tile := tableGet Tile.reset c.fileTiles i
def Core.setTile (c : Core) (i : Nat) (x : Tile) : Core := { c with fileTiles := tableSet Tile.reset c.fileTiles i x }
def Core.accAt (c : Core) (i : Nat) : Acc := tableGet Acc.reset c.fileAccs i
def Core.setAcc (c : Core) (i : Nat) (x : Acc) : Core := { c with fileAccs := tableSet Acc.reset c.fileAccs i x }
def Core.chan (c : Core) (i : Nat) : Channel := tableGet Channel.reset c.chans i
def Core.setChan (c : Core) (i : Nat) (x : Channel) : Core := { c with chans := tableSet Channel.reset c.chans i x }

/-- Send something out of the module. -/
def State.emit (s : State) (o : Output) : State := { s with outputs := s.outputs ++ [o] }

end Sys2Proof.Machine
end

