-- ==== Sys2Proof/Machine/Mesh.lean ====
section
/-! DEFINITION. The fabric between the dies: sealed links as their senders keep them (R428 to R430), the ports of the I/O
tiles (R23), the tile mesh (R14, R406), the depth of a grid-barrier tree (R275, R403) and the routing tables (R400, R402). -/

namespace Sys2Proof.Machine

/-! ## Sealed links and streams -/

/-- What is known of a sealed link or stream: one not listed is up, unless alarm level 2 has dropped it (R440). -/
def State.seal (s : State) (x : Stream) : Seal :=
  (s.seals.find? fun q => q.stream = x).getD { stream := x, counter := 0, fails := [], up := !s.halted }

def State.putSeal (s : State) (q : Seal) : State :=
  { s with seals := q :: s.seals.filter fun r => r.stream ≠ q.stream }

/-- A stream may send: it is up, and its counter has not reached the limit (R429, R430). -/
def State.sends (s : State) (x : Stream) : Bool := (s.seal x).up && (s.seal x).counter < Config.rekeyLimit

/-- A source tile of a partition's detours may send. -/
def State.detourSends (s : State) (p tile : Nat) : Bool :=
  (s.seal (.detour p)).up && tableGet 0 (s.seal (.detour p)).sources tile < Config.rekeyLimit

/-- A stream is up, and waits for a new key. -/
def State.atLimit (s : State) (x : Stream) : Bool := (s.seal x).up && Config.rekeyLimit ≤ (s.seal x).counter

/-- The counters of some units by their sources. -/
def unitsBy (ms : List Nat) : List (Nat × Nat) := ms.foldl (fun t m => tableSet 0 t m (tableGet 0 t m + 1)) []

/-- A new key: the counters begin again, with the units that waited for it to be sent again (R429, R430). -/
def Seal.rekeyed (q : Seal) (key : BitVec 512) : Seal :=
  match q.stream with
  | .detour _ => { q with
      key := key, resend := [], sources := unitsBy q.resend, counter := greatest ((unitsBy q.resend).map fun e => e.2) }
  | _ => { q with key := key, resend := [], counter := q.resend.length }

/-- A unit is sent over a stream: its counter counts it. -/
def State.count (s : State) (x : Stream) : State := s.putSeal { s.seal x with counter := (s.seal x).counter + 1 }

/-! ## Ports of the I/O tiles (R23) -/

def State.peerPortOn (s : State) (q : Nat) : Bool := (s.io[q / 2]?).any fun t => t.peers.getD (q % 2) false

/-- Host port q lies on I/O tile 2q. -/
def State.hostPortOn (s : State) (q : Nat) : Bool := (s.io[2 * q]?).any fun t => t.host = some true

/-- The peer port over which the traffic of a binding leaves: the first that is in use and may send (log entry 86). -/
def State.peerPort (s : State) : Option Nat := (List.range 16).find? fun q => s.peerPortOn q && s.sends (.peer q)

/-- Send something over a peer port. -/
def State.sendPeer (s : State) (q : Nat) (o : Output) : State := (s.count (.peer q)).emit o

/-! ## Host streams (R429, R447) -/

/-- Whether a function's port is in use and its stream up, and whether a unit goes at once or waits in order for a new key. -/
inductive HostPath where
  | closed | waits | clear
  deriving DecidableEq, Repr

def State.hostPath (s : State) (x : Partition) : HostPath :=
  if !s.hostPortOn x.port || !(s.seal (.host x.pindex)).up then .closed
  else if x.hostWait = [] && s.sends (.host x.pindex) then .clear
  else .waits

/-- The mask bit of a vector in the MSI-X table of PCI Express: bit 0 of the last word of its 16-byte entry (R447, log
entry 64). -/
def Partition.msixMasked (x : Partition) (vector : Nat) : Bool := (tableGet 0 x.msixTable (16 * vector + 12)).getLsbD 0

/-- A vector fires: it goes to the host, waits for the stream, is lost with it, or, masked, sets its pending bit. -/
def Partition.fire (x : Partition) (vector : Nat) (path : HostPath) : Partition :=
  if x.msixMasked vector then { x with msixPending := x.msixPending ||| 2 ^ vector }
  else match path with
    | .closed => x
    | .waits => { x with hostWait := x.hostWait ++ [.msix vector] }
    | .clear => { x with msix := x.msix ++ [vector] }

/-- The MSI-X write of a vector goes to the host. -/
def State.sendMsix (s : State) (p vector : Nat) : State :=
  ((s.count (.host p)).modPart p fun x => { x with msix := x.msix ++ [vector] }).emit (.msix p vector)

/-- A vector goes to the host now. -/
def State.msixGoes (s : State) (p vector : Nat) : Bool :=
  !s.halted && (s.part? p).any fun x => !x.msixMasked vector && s.hostPath x = .clear

/-- Fire an MSI-X vector of a partition's virtual function (R447). A module that alarm level 2 holds sends none (R440). -/
def State.fireMsix (s : State) (p vector : Nat) : State :=
  { s with
    parts := s.parts.map fun x => if x.pindex = p ∧ !s.halted then x.fire vector (s.hostPath x) else x
    outputs := if s.msixGoes p vector then s.outputs ++ [.msix p vector] else s.outputs
    seals := if s.msixGoes p vector then (s.count (.host p)).seals else s.seals }

/-! ## The mesh -/

/-- Modules of an edge that are shut down; four fail the link (R406). -/
def State.shutCount (s : State) (t e : Nat) : Nat :=
  (s.ucie.filter fun u => u.tile = t && u.edge = e && u.cond = .shut).length
def State.linkFailed (s : State) (t e : Nat) : Bool := 4 ≤ s.shutCount t e

/-- One direction of a link works. -/
def State.edgeUp (s : State) (t e : Nat) : Bool := !s.linkFailed t e && (s.seal (.ucie t e)).up

/-- The edge over which a tile sends to a neighbour. -/
def State.exitTo (s : State) (t u : Nat) : Option Nat :=
  (List.range Config.edgeCount).find? fun e => Config.neighbour t e = some u && s.edgeUp t e

/-- Two tiles are joined by a link that works in both directions. -/
def State.joins (s : State) (t u : Nat) : Bool := (s.exitTo t u).isSome && (s.exitTo u t).isSome

/-- The edge of the neighbouring tile that faces an edge. -/
def facing (t e : Nat) : Option (Nat × Nat) :=
  (Config.neighbour t e).bind fun u => ((List.range Config.edgeCount).find? fun f => Config.neighbour u f = some t).map fun f => (u, f)

/-- A node of a tree over tiles: the tile, its parent, its distance from the root. -/
structure Node where
  tile : Nat
  parent : Nat
  level : Nat
  deriving DecidableEq, Repr

def inTree (tree : List Node) (t : Nat) : Bool := tree.any fun n => n.tile = t

/-- The tiles of `ts` that one more level reaches. -/
def State.nextLevel (s : State) (ts : List Nat) (tree : List Node) : List Node :=
  ts.filterMap fun u =>
    if inTree tree u then none
    else (tree.find? fun n => s.joins n.tile u).map fun n => ⟨u, n.tile, n.level + 1⟩

def State.spread (s : State) (ts : List Nat) : Nat → List Node → List Node
  | 0, tree => tree
  | n + 1, tree => s.spread ts n (tree ++ s.nextLevel ts tree)

/-- The tree of shortest ways from a root to the tiles of `ts`, through tiles of `ts` alone. -/
def State.span (s : State) (ts : List Nat) (root : Nat) : List Node := s.spread ts (ts.length - 1) [⟨root, root, 0⟩]

/-- The tiles are connected through their own die edges (R396). -/
def State.connected (s : State) (ts : List Nat) : Bool :=
  match ts with
  | [] => false
  | r :: _ => ts.all (inTree (s.span ts r))

/-- The tiles through which traffic may lead: all but dead ones (R402) and those that a quiesce in progress empties, which are
dead once it has completed (R395). -/
def State.passable (s : State) : List Nat := (List.range s.tiles.length).filter fun t =>
  !((s.tiles[t]?).any fun i => i.state = .dead) && !(s.parts.any fun x => x.emptied.contains t)

/-- Those of some tiles that are not dead. -/
def State.alive (s : State) (ts : List Nat) : List Nat := ts.filter s.passable.contains

/-- Tile levels of a grid-barrier tree with this root; where the tiles are not connected it crosses others (R403). -/
def State.depthFrom (s : State) (ts : List Nat) (r : Nat) : Nat :=
  let own := s.span ts r
  let tree := if ts.all (inTree own) then own else s.span s.passable r
  greatest ((tree.filter fun n => ts.contains n.tile).map fun n => n.level) + 1

/-- The depth of the shallowest grid-barrier tree over some tiles. -/
def State.treeDepth (s : State) (ts : List Nat) : Nat :=
  match ts with
  | [] => 0
  | r :: rest => rest.foldl (fun d q => min d (s.depthFrom ts q)) (s.depthFrom ts r)

/-- The depth that a change without a plan gives the tree (R275, log entry 84): that of the shallowest tree that the model
finds over the partition's own tiles, or over all that may be crossed, and never more than 9. -/
def State.newDepth (s : State) (ts : List Nat) : Nat :=
  let wide := ts.map fun r => greatest (((s.span s.passable r).filter fun n => ts.contains n.tile).map fun n => n.level) + 1
  min Config.depthLimit (wide.foldl min (s.treeDepth ts))

/-- A depth that a tree over connected tiles can have (R275): 1 for one tile, never more than 9. -/
def State.depthOk (s : State) (ts : List Nat) (d : Nat) : Bool :=
  s.treeDepth ts ≤ d && d ≤ min Config.depthLimit ts.length

/-! ## Routing tables (R400, R402) -/

/-- A tile and its ancestors, up to the root. -/
def chain (tree : List Node) : Nat → Nat → List Nat
  | 0, t => [t]
  | fuel + 1, t => match tree.find? fun n => n.tile = t with
    | none => [t]
    | some n => if n.level = 0 then [t] else t :: chain tree fuel n.parent

/-- The next tile on the way from t to d along a tree: down towards d where d lies below t, otherwise up. Ways that lead
first up and then down one tree never close a cycle. -/
def nextHop (tree : List Node) (t d : Nat) : Nat :=
  let up := chain tree tree.length d
  if up.contains t then ((up.takeWhile (· ≠ t)).getLast?).getD t
  else match tree.find? fun n => n.tile = t with
    | none => t
    | some n => n.parent

/-- The tiles on the way from t to d along a tree, d left out. -/
def wayTo (tree : List Node) (d : Nat) : Nat → Nat → List Nat
  | 0, _ => []
  | fuel + 1, t => if t = d then [] else t :: wayTo tree d fuel (nextHop tree t d)

/-- The tree over those of the tiles `ts` that t reaches through their own die edges; every one of them has the same. It leads
through no dead tile, nor does a dead one stand in it. -/
def State.ownTree (s : State) (ts : List Nat) (t : Nat) : List Node :=
  match (s.alive ts).find? fun r => inTree (s.span (s.alive ts) r) t with
  | some r => s.span (s.alive ts) r
  | none => [⟨t, t, 0⟩]

/-- The tree that detours follow; none where every tile of the partition is dead. -/
def State.wideTree (s : State) (ts : List Nat) : List Node :=
  match (s.alive ts).head? with
  | some r => s.span s.passable r
  | none => []

/-- The tiles of a partition, dead ones apart, reach each other through their own die edges (R402). -/
def State.whole (s : State) (ts : List Nat) : Bool := s.alive ts = [] || s.connected (s.alive ts)

/-- Traffic of some tile of `ts` to d passes tile m on channel 3. -/
def State.crosses (s : State) (ts : List Nat) (m d : Nat) : Bool :=
  ts.any fun t => !inTree (s.ownTree ts t) d && (wayTo (s.wideTree ts) d s.tiles.length t).contains m

/-- The routing table of tile m for a partition of the tiles `ts`. -/
def State.tableAt (s : State) (ts : List Nat) (m : Nat) : List Route :=
  ts.flatMap fun d =>
    if m = d then (List.range (if s.whole ts then 3 else 4)).map fun c => ⟨d, 4, c⟩
    else if ts.contains m && inTree (s.ownTree ts m) d then
      match s.exitTo m (nextHop (s.ownTree ts m) m d) with
      | some e => (List.range 3).map fun c => ⟨d, e, c⟩
      | none => []
    else if inTree (s.wideTree ts) d && s.crosses ts m d then
      match s.exitTo m (nextHop (s.wideTree ts) m d) with
      | some e => [⟨d, e, 3⟩]
      | none => []
    else []

/-- No router holds a table for a partition index. -/
def State.dropRoutes (s : State) (p : Nat) : State :=
  { s with tiles := s.tiles.map fun i => { i with router := i.router.filter fun e => e.1 ≠ p } }

/-- The tables of a partition are written for its tiles as the links stand (R399, R419). -/
def State.reroute (s : State) (p : Nat) : State :=
  match s.part? p with
  | none => s
  | some x =>
    let tiles := s.tiles.zipIdx.map fun (i, m) =>
      let rest := i.router.filter fun e => e.1 ≠ p
      let table := s.tableAt x.tiles m
      { i with router := if table = [] then rest else (p, table) :: rest }
    { s with tiles := tiles }.modPart p fun y => { y with detour := !s.whole x.tiles }

/-- The partition indices whose traffic leaves a tile over an edge. -/
def State.usersOf (s : State) (t e : Nat) : List Nat :=
  match s.tiles[t]? with
  | none => []
  | some i => (i.router.filter fun q => q.2.any fun r => r.port = e).map fun q => q.1

/-- A packet's tag matches a table of a tile's router (R21, R401). -/
def State.routed (s : State) (t p : Nat) : Bool := (s.tiles[t]?).any fun i => i.router.any fun e => e.1 = p

end Sys2Proof.Machine
end

