-- ==== Sys2Proof/Machine/Translate.lean ====
section
/-! DEFINITION. Machine memory under generation tags (R207, R208), partition-physical addresses (R193, R194), banks
(R233, R460), the stage-1 walk and its checks (R195 to R203), and the write events of R285 and R462. -/

namespace Sys2Proof.Machine

/-! ## Bytes of the machine under a tag -/

/-- The tag of a line; a line nothing has tagged carries the quarantine owner (R207). -/
def State.tagOf (s : State) (line : Nat) : Nat := tableGet Config.quarantineTag s.tags line

/-- What a partition with this tag reads at a machine byte (R208). -/
def State.byteAt (s : State) (tag loc : Nat) : Byte :=
  if s.tagOf (loc / 64) = tag then tableGet 0 s.mem loc else 0

/-- Uncorrectable data that a partition with this tag would meet (R208, R213). -/
def State.badAt (s : State) (tag loc : Nat) : Bool := s.tagOf (loc / 64) = tag && s.bad.contains loc

/-- Zero a line and give it a tag (R208, R441). -/
def State.wipeLine (s : State) (tag line : Nat) : State :=
  { s with
    mem := s.mem.filter fun c => c.1 / 64 ≠ line
    bad := s.bad.filter fun a => a / 64 ≠ line
    slices := s.slices.filter fun c => c.1 ≠ line
    tags := tableSet Config.quarantineTag s.tags line tag }

/-- A write of one byte reaches the copies that slices keep of its line (R204). -/
def putSlices (loc : Nat) (b : Byte) (l : List (Nat × List Byte)) : List (Nat × List Byte) :=
  l.map fun c => if c.1 = loc / 64 then (c.1, listSet c.2 (loc % 64) b) else c

/-- A write of one byte: on a line of another tag it is performed on a line of zeros (R208); it makes the byte
correctable again (R213). -/
def State.putByte (s : State) (tag loc : Nat) (b : Byte) : State :=
  let s := if s.tagOf (loc / 64) = tag then s else s.wipeLine tag (loc / 64)
  { s with mem := tableSet 0 s.mem loc b, bad := s.bad.filter (fun a => a ≠ loc), slices := putSlices loc b s.slices }

def State.putBytes (s : State) (tag : Nat) : List (Nat × Byte) → State
  | [] => s
  | (a, b) :: rest => (s.putByte tag a b).putBytes tag rest

/-- What a read through a HOME 00 or HOME 10 mapping finds: the copy that a slice keeps of the line, where there is one
(R205). -/
def State.cachedByte (s : State) (tag loc : Nat) : Byte :=
  match (tableFind s.slices (loc / 64)).bind fun bytes => bytes[loc % 64]? with
  | none => s.byteAt tag loc
  | some b => if s.tagOf (loc / 64) = tag then b else 0

/-! ## Slice maps (R16, R18) -/

/-- The retired banks of a partition's tiles: tile, slice, bank. -/
def State.banksRetired (s : State) (x : Partition) : List (Nat × Nat × Nat) :=
  x.tiles.flatMap fun t => match s.tiles[t]? with
    | none => []
    | some i => i.banksGone.map fun (a, b) => (t, a, b)

/-- The banks among which a slice map spreads a partition's lines. -/
def Partition.banks (x : Partition) (gone : List (Nat × Nat × Nat)) : List (Nat × Nat × Nat) :=
  x.tiles.flatMap fun t => (List.range Config.sliceCount).flatMap fun a => (List.range Config.bankCount).filterMap fun b =>
    if gone.contains (t, a, b) then none else some (t, a, b)

/-- The bank of a machine line under the map of a generation that leaves some banks out (R18). -/
def Partition.homeBank (x : Partition) (gone : List (Nat × Nat × Nat)) (gen line : Nat) : Option (Nat × Nat × Nat) :=
  let l := x.banks gone
  l[Config.sliceOf gen line % l.length]?

/-- The bank in which a line lies under the newest map. -/
def State.bankOf (s : State) (x : Partition) (line : Nat) : Option (Nat × Nat × Nat) :=
  x.homeBank (s.banksRetired x) x.mapGen line

/-- The slices give up what they keep of some lines. What a slice holds of its partition's own writes is in memory already, so
a write-back changes nothing. -/
def State.dropLines (s : State) (lines : List Nat) : State :=
  { s with slices := s.slices.filter fun c => !lines.contains c.1 }

/-- A slice keeps its copy of a line of a partition that is about to be written from outside, as Config leaves open (R205):
never more lines of one bank than the bank has (R16). -/
def State.sliceKeeps (s : State) (x : Partition) (line : Nat) : State :=
  if Config.sliceHolds s.tick line && (tableFind s.slices line).isNone &&
      (s.slices.filter fun c => s.bankOf x c.1 = s.bankOf x line).length < Config.bankLines then
    { s with slices := tablePut s.slices line ((List.range 64).map fun i => s.byteAt x.tag (64 * line + i)) }
  else s

/-! ## Ways over links that may not send (R429, R430, R437) -/

/-- Some link is up but has reached the limit of its key, or the partition's detours may not send from every tile. -/
def State.stuck (s : State) (p : Nat) : Bool := s.seals.any fun q => match q.stream with
  | .ucie _ _ | .io _ _ => q.up && Config.rekeyLimit ≤ q.counter
  | .detour n => n = p && !(q.up && q.counter < Config.rekeyLimit)
  | _ => false

/-- The tile to which an access to a machine byte goes: that of the core whose frame it is, or of the slice that holds its line. -/
def State.placeOf (s : State) (x : Partition) (loc : Nat) : Nat :=
  if 2 ^ 48 ≤ loc then (loc - 2 ^ 48) / (Config.frameCount * 16384) / Config.coresPerTile
  else match s.bankOf x (loc / 64) with
    | some (t, _, _) => t
    | none => x.tiles.headD 0

/-- Every link on the way from a to b along a tree may send. -/
def State.clearAlong (s : State) (tree : List Node) (a b : Nat) : Bool :=
  (wayTo tree b s.tiles.length a).all fun m => (s.exitTo m (nextHop tree m b)).all fun e => s.sends (.ucie m e)

/-- The partition's packets get from tile a to tile b: over its own tiles, or sealed along a detour (R402, R428). -/
def State.wayOpen (s : State) (x : Partition) (a b : Nat) : Bool :=
  a = b || (if inTree (s.ownTree x.tiles a) b then s.clearAlong (s.ownTree x.tiles a) a b
    else s.detourSends x.pindex a && s.clearAlong (s.wideTree x.tiles) a b)

/-- What tile a asks of tile b waits until every link on the way there and back may send again. -/
def State.awaitsTile (s : State) (x : Partition) (a b : Nat) : Bool :=
  s.stuck x.pindex && !(s.wayOpen x a b && s.wayOpen x b a)

/-- An access to a byte of second-tier memory leaves its slice, and the link to the memory's I/O tile waits for a new key in one
direction or the other. -/
def State.ioWaits (s : State) (loc : Nat) : Bool :=
  loc < 2 ^ 48 && Config.missesSlice s.tick (loc / 64) &&
  let e := Config.ioEdge (loc / 64)
  s.atLimit (.ucie e.1 e.2) || s.atLimit (.io e.1 e.2)

/-- The same of an access from tile a to some machine bytes. -/
def State.awaitsLink (s : State) (x : Partition) (a : Nat) (locs : List Nat) : Bool :=
  s.stuck x.pindex && locs.any fun loc => s.awaitsTile x a (s.placeOf x loc) || s.ioWaits loc

/-! ## Partition-physical addresses -/

/-- The machine address of a byte of a physical core's scratchpad. -/
def scratchLoc (tile phys frame off : Nat) : Nat :=
  2 ^ 48 + ((tile * Config.coresPerTile + phys) * Config.frameCount + frame) * 16384 + off

/-- A core that does not answer for a while: it is being substituted (R409), or its state is lost and its number waits
for another core (R410, R414). -/
def Core.silent (c : Core) : Bool := c.lost || c.warm.isSome

/-- Machine bytes of the scratchpad of a physical core. -/
def inScratch (tile phys a : Nat) : Bool :=
  scratchLoc tile phys 0 0 ≤ a && a < scratchLoc tile phys Config.frameCount 0

/-- Accesses to these bytes wait for a core that does not answer. -/
def Partition.silent (x : Partition) (locs : List Nat) : Bool :=
  x.cores.any fun c => c.silent && locs.any (inScratch c.tile c.phys)

/-- The frame that holds the bank an index names at this moment (R460). -/
def Core.bankFrame (c : Core) (f : Nat) : Nat :=
  if c.swapped.contains (f / 2 * 2) then (if f % 2 = 0 then f + 1 else f - 1) else f

/-- The machine byte behind a PPA of region 0 or 1, and none where R193 and R194 reject it. -/
def Partition.locOf (x : Partition) (ppa : Nat) : Option Nat :=
  if ppa ≥ 2 ^ 58 then none
  else if ppa / 2 ^ 56 = 0 then (if ppa < x.alloc then some (x.base + ppa) else none)
  else if ppa / 2 ^ 56 = 1 then
    if field ppa 35 21 ≠ 0 then none
    else if field ppa 14 8 ≥ Config.frameCount then none
    else match x.core? (field ppa 22 13) with
      | none => none
      | some c => if c.absent then none else some (scratchLoc c.tile c.phys (c.bankFrame (field ppa 14 8)) (ppa % 16384))
  else none

/-- The PPA of a frame of a logical core (R193). -/
def framePpa (l f : Nat) : Nat := 2 ^ 56 + l * 2 ^ 22 + f * 2 ^ 14

/-- What stands behind n bytes at a PPA: none where a byte is rejected. -/
def Partition.locsOf (x : Partition) (ppa n : Nat) : Option (List Nat) :=
  (List.range n).mapM fun i => x.locOf (ppa + i)

/-- n bytes at a PPA as this partition reads them; a rejected byte reads 0 (used only where the check has passed). -/
def State.ppaBytes (s : State) (x : Partition) (ppa n : Nat) : List Byte :=
  (List.range n).map fun i => match x.locOf (ppa + i) with
    | some a => s.byteAt x.tag a
    | none => 0

def State.ppaWord (s : State) (x : Partition) (ppa : Nat) : W64 := BitVec.ofNat 64 (leNat (s.ppaBytes x ppa 8))

/-! ## Stage 1 -/

/-- An access to translate: its class (R369), whether it writes, the team's privilege, and which page kinds let it pass. -/
structure Req where
  cls : Nat
  write : Bool
  sup : Bool
  kindOk : Nat → Bool

/-- A translation: the PPA of the byte, the leaf's level, kind and home, and the leaf entry with the PPA of that entry and
the entries the walk passed (level, entry). -/
structure Xl where
  ppa : Nat
  kind : Nat
  home : Nat
  level : Nat
  entry : W64
  entryPpa : Nat
  passed : List (Nat × W64)
  deriving DecidableEq, Repr

/-- The lowest virtual-address bit that indexes a level (R195). -/
def levelShift (level : Nat) : Nat := 14 + 11 * (3 - level)

def entryV (e : W64) : Bool := e.getLsbD 0
def entryW (e : W64) : Bool := e.getLsbD 1
def entryX (e : W64) : Bool := e.getLsbD 2
def entryS (e : W64) : Bool := e.getLsbD 3
def entryKind (e : W64) : Nat := field e.toNat 4 3
def entryHome (e : W64) : Nat := field e.toNat 7 2
def entryFrame (e : W64) : Nat := e.toNat / 2 ^ 14 * 2 ^ 14

/-- The entry a walk finds at a level: the cached one, the one in memory, and where they differ either (R200). -/
def State.readEntry (s : State) (x : Partition) (tile level va entryPpa : Nat) : Except Nat W64 :=
  let cached := x.rtu.find? fun e => e.tile = tile && e.level = level && e.va = va / 2 ^ levelShift level
  let fresh : Except Nat W64 :=
    match x.locsOf entryPpa 8 with
    | none => .error 0x09
    | some locs => if locs.any (s.badAt x.tag) then .error 0x11 else .ok (s.ppaWord x entryPpa)
  match cached with
  | none => fresh
  | some e =>
    match fresh with
    | .ok m => if m = e.entry then .ok m else if Config.useCached s.tick level then .ok e.entry else .ok m
    | .error c => if Config.useCached s.tick level then .ok e.entry else .error c

/-- The walk from a table, over the levels still to go (R197). -/
def State.walk (s : State) (x : Partition) (tile va : Nat) : List Nat → Nat → List (Nat × W64) → Except Nat Xl
  | [], _, _ => .error 0x09
  | level :: rest, table, passed =>
    let entryPpa := table + 8 * field va (levelShift level) 11
    match s.readEntry x tile level va entryPpa with
    | .error c => .error c
    | .ok e =>
      if !entryV e then .error 0x08
      else if entryKind e = 7 then
        if level = 3 then .error 0x09
        else if field e.toNat 7 7 ≠ 0 ∨ field e.toNat 1 3 ≠ 0 then .error 0x09
        else s.walk x tile va rest (entryFrame e) (passed ++ [(level, e)])
      else if entryKind e = 6 ∨ level = 0 then .error 0x09
      else .ok { ppa := entryFrame e + va % 2 ^ levelShift level, kind := entryKind e, home := entryHome e
                 level := level, entry := e, entryPpa := entryPpa, passed := passed }

/-- The root a walk starts from: S1ROOT, or until the next `tlbia` the root that the RTU still holds (R367). -/
def State.rootOf (s : State) (x : Partition) (tile : Nat) : Nat :=
  match x.rtuRoots.find? fun e => e.1 = tile with
  | some (_, r) => if r = x.csr.s1root then r.toNat else if Config.useCached s.tick 4 then r.toNat else x.csr.s1root.toNat
  | none => x.csr.s1root.toNat

/-- HOME agrees with the region (R203), and a leaf that is not plain stands at level 3 with a fitting FRAME (R202,
R233, R290). -/
def homeOk (q : Xl) : Bool :=
  let region := q.ppa / 2 ^ 56
  match q.kind with
  | 0 => if q.home = 1 then region = 1 else region = 0
  | 2 => q.level = 3 && region = 1 && q.home = 1 && (q.ppa / 16384) % 2 = 0
  | 1 => q.level = 3 && (region = 0 || region = 1)
  | 5 => q.level = 3 && (region = 0 || region = 1)
  | 3 => q.level = 3 && region = 2 && field q.ppa 14 8 = 0
  | 4 => q.level = 3 && region = 2 && field q.ppa 14 8 = 1
  | _ => false

/-- The checks at a leaf (R198), the region rule of R193 included. -/
def leafOk (r : Req) (q : Xl) : Bool :=
  field q.entry.toNat 11 3 = 0 &&
  field q.entry.toNat 14 (levelShift q.level - 14) = 0 &&
  (r.sup || !entryS q.entry) &&
  (!r.write || entryW q.entry) &&
  (r.cls ≠ 3 || (entryX q.entry && q.kind = 0)) &&
  r.kindOk q.kind &&
  homeOk q &&
  q.ppa < 3 * 2 ^ 56

/-- Translate one address: R48's and R41's check on the upper bits, the walk, the leaf checks. -/
def State.translate (s : State) (x : Partition) (tile : Nat) (r : Req) (va : Nat) : Except Nat Xl :=
  if va ≥ 2 ^ 58 then .error 0x09
  else match s.walk x tile va [0, 1, 2, 3] (s.rootOf x tile) [] with
    | .error c => .error c
    | .ok q => if leafOk r q then .ok q else .error 0x09

/-! ## Write events -/

/-- Who performs a write: the doorbell of R462 answers to teams and engines only; `other` is the host, and the
machine itself where it posts records, updates tables and spills. -/
inductive Writer where
  | team | engine | other
  deriving DecidableEq, Repr

/-- A write reaches the line at a PPA. -/
def Partition.reachesLine (x : Partition) (locs : List Nat) (line : Nat) : Bool :=
  match x.locOf line with
  | some a => locs.any fun b => b / 64 = a / 64
  | none => false

/-- A write event on the line of a stamp, by its address, that a split waits for (R130, R317). -/
def Wait.noteWrite (hit : W64 → Bool) : Wait → Wait
  | .stamp va target pd since wrote => .stamp va target pd since (wrote || hit va)
  | .yieldc va target dest wrote => .yieldc va target dest (wrote || hit va)
  | w => w

/-- A write reaches the line that a team's address names as the page table stands. -/
def State.namesLine (s : State) (x : Partition) (locs : List Nat) (c : Core) (t : Team) (va : W64) : Bool :=
  match s.translate x c.tile { cls := 0, write := false, sup := t.sup, kindOk := fun n => n = 0 || n = 2 } va.toNat with
  | .error _ => false
  | .ok q => x.reachesLine locs (q.ppa / 64 * 64)

/-- A write event on these machine bytes sets TRIG of every armed monitor of the partition whose line it reaches,
whatever the HOME of the mapping that `mon` used (R285, log entry 77), and is noted for the stamp waits on its line. -/
def Partition.trigger (x : Partition) (locs : List Nat) (names : Core → Team → W64 → Bool) : Partition :=
  { x with cores := x.cores.map fun c => { c with teams := c.teams.map fun t =>
      { t with
        monitor := { t.monitor with trig := t.monitor.trig || (t.monitor.armed && x.reachesLine locs t.monitor.line) }
        splits := t.splits.map fun y => { y with wait := y.wait.noteWrite (names c t) } } } }

/-- One write that covers a byte of bytes 56 to 63 of the mailbox line, by a team or an engine (R462). -/
def Partition.rings (x : Partition) (locs : List Nat) : Bool :=
  match x.locOf x.csr.mboxppa.toNat with
  | some a => locs.any fun b => b / 64 = a / 64 && b % 64 ≥ 56
  | none => false

/-- Perform one write event in a partition: the bytes, the monitors, the doorbell. -/
def State.store (s : State) (p : Nat) (w : Writer) (cells : List (Nat × Byte)) : State :=
  match s.part? p with
  | none => s
  | some x =>
    let locs := cells.map (·.1)
    let s := (s.putBytes x.tag cells).modPart p fun y => y.trigger locs (s.namesLine x locs)
    if w ≠ .other && x.rings locs then s.fireMsix p 3 else s

/-- A write of bytes at a PPA whose bytes all map; bytes that do not map are dropped. -/
def State.storePpa (s : State) (p : Nat) (w : Writer) (ppa : Nat) (bytes : List Byte) : State :=
  match s.part? p with
  | none => s
  | some x => s.store p w ((List.range bytes.length).filterMap fun i =>
      (x.locOf (ppa + i)).map fun a => (a, bytes.getD i 0))

/-! ## What the RTU keeps -/

/-- Drop the n oldest entries of a tile. -/
def dropOldest (tile : Nat) : Nat → List RtuEntry → List RtuEntry
  | 0, l => l
  | _, [] => []
  | n + 1, e :: rest => if e.tile = tile then dropOldest tile n rest else e :: dropOldest tile (n + 1) rest

/-- A tile's RTU holds at most 8,192 entries (R16); the oldest go first. Log entry 14. -/
def capRtu (tile : Nat) (l : List RtuEntry) : List RtuEntry :=
  dropOldest tile ((l.filter fun e => e.tile = tile).length - Config.rtuCount) l

/-- Keep a translation and set A, and D for a write, in its leaf (R199, R200). -/
def State.keep (s : State) (p tile va : Nat) (write : Bool) (q : Xl) : State :=
  let want := q.entry ||| (if write then 0x600 else 0x200)
  let s := if want = q.entry then s else
    match s.part? p with
    | none => s
    | some x => s.storePpa p .other q.entryPpa
        (leBytes 8 (s.ppaWord x q.entryPpa ||| (if write then 0x600 else 0x200)).toNat)
  s.modPart p fun x =>
    let old := x.rtu.filter fun e => !(e.tile = tile && ((q.passed.map (·.1)).contains e.level || e.level = q.level) &&
      e.va = va / 2 ^ levelShift e.level)
    let new := (q.passed ++ [(q.level, want)]).map fun (l, e) =>
      { tile := tile, level := l, va := va / 2 ^ levelShift l, entry := e : RtuEntry }
    { x with
      rtu := capRtu tile (old ++ new)
      rtuRoots := if x.rtuRoots.any fun e => e.1 = tile then x.rtuRoots else x.rtuRoots ++ [(tile, x.csr.s1root)] }

end Sys2Proof.Machine
end

