-- ==== Sys2Proof/Machine/Operands.lean ====
section
/-! DEFINITION. Operands: lane registers, predicates and scalars of a team, the mode register's fields, guards, last-read
marks, and the chunks that a write takes (R50 to R59, R83 to R86). -/

namespace Sys2Proof.Machine

/-! ## The mode register (R55) -/

def modeGuard (mr : W32) : Nat := field mr.toNat 0 5
def modeType (mr : W32) : Nat := field mr.toNat 5 4
def modeRnd (mr : W32) : Nat := field mr.toNat 9 3
def modeSat (mr : W32) : Bool := mr.getLsbD 12
def modeCmp (mr : W32) : Nat := field mr.toNat 13 3
def modePlanes (mr : W32) : Nat := field mr.toNat 16 4
def modeSrc (mr : W32) : Nat := field mr.toNat 20 4

/-- The mode at the start of a phase (R55). -/
def modeReset : W32 := 0x00080000

/-- The values that `mode`, `modei` and `modeg` accept (R56). -/
def modeLegal (mr : W32) : Bool := mr.toNat < 2 ^ 24 && modeGuard mr ≤ 16 && modeRnd mr ≤ 4

/-! ## Names (R50) -/

/-- The encoded name of a predicate. -/
def predName (p : PReg) : Nat := 0x60 + p.toNat

/-! ## Reading -/

def freshChunk : List W32 := List.replicate 32 0

/-- A lane container by name and lane; a chunk not held reads zero (R81, R83). -/
def Team.container (t : Team) (name lane : Nat) : W32 :=
  match tableFind t.chunks (32 * name + lane / 32) with
  | none => 0
  | some c => c.getD (lane % 32) 0

def Team.lane (t : Team) (r : VReg) (l : Nat) : W32 := t.container r.toNat l

/-- The pair that starts at a name, low word first (R53). -/
def Team.pair (t : Team) (r : VReg) (l : Nat) : W64 := t.container (r.toNat + 1) l ++ t.container r.toNat l

def Team.predicate (t : Team) (p : PReg) (l : Nat) : Bool := (t.container (predName p) l).getLsbD 0

def Team.scalar (t : Team) (r : SReg) : W64 := t.sregs.getD r.toNat 0

def Team.setScalar (t : Team) (r : SReg) (v : W64) : Team :=
  { t with sregs := (List.range 32).map fun i => if i = r.toNat then v else t.sregs.getD i 0 }

/-- Lane l's guard (R58). -/
def guardOf (t : Team) (mr : W32) (l : Nat) : Bool :=
  let g := modeGuard mr
  if g = 0 then true
  else if g ≤ 8 then t.predicate (BitVec.ofNat 3 (g - 1)) l
  else !t.predicate (BitVec.ofNat 3 (g - 9)) l

/-- The lanes of the issuing split. -/
def Ctx.lanes (k : Ctx) : List Nat := lanesOf k.team.hdr.team k.split.mask

def Ctx.guard (k : Ctx) (l : Nat) : Bool := guardOf k.team k.split.mr l

/-- The active lanes whose guard is true. -/
def Ctx.acting (k : Ctx) : List Nat := k.lanes.filter k.guard

def Ctx.v (k : Ctx) (r : VSrc) (l : Nat) : W32 := k.team.lane r.reg l
def Ctx.v2 (k : Ctx) (r : VSrc) (l : Nat) : W64 := k.team.pair r.reg l
def Ctx.p (k : Ctx) (r : PSrc) (l : Nat) : Bool := k.team.predicate r.reg l
def Ctx.s (k : Ctx) (r : SReg) : W64 := k.team.scalar r
def Ctx.type (k : Ctx) : Nat := modeType k.split.mr

/-- The effective address of a memory operand in a lane (R48). -/
def Ctx.address (k : Ctx) (m : Base) (i : Index) (l : Nat) : W64 :=
  let b := match m with
    | .s r => k.s r
    | .v r => k.v2 r l
  match i with
  | .none => b
  | .s r => b + k.s r
  | .v r => b + (k.v r l).setWidth 64

/-- The effective address of a form that takes no lane register (R49, R346). -/
def Ctx.scalarAddress (k : Ctx) (m : SReg) (i : SIndex) : W64 :=
  match i with
  | .none => k.s m
  | .s r => k.s m + k.s r

/-- Does the base of a tile or accumulator name lie within the counts of the header (R53)? -/
def Ctx.tileOk (k : Ctx) (x : XReg) : Bool := x.toNat < k.team.hdr.tiles
def Ctx.accOk (k : Ctx) (a : AReg) : Bool := a.toNat < k.team.hdr.accs

/-! ## Last-read marks (R37, R86) -/

/-- The names that a marked source of n registers covers. -/
def markV (r : VSrc) (n : Nat) : List Nat := if r.last then (List.range n).map (r.reg.toNat + ·) else []
def markP (r : PSrc) : List Nat := if r.last then [predName r.reg] else []
def markBase : Base → List Nat
  | .s _ => []
  | .v r => markV r 2
def markIndex : Index → List Nat
  | .v r => markV r 1
  | _ => []

/-- The mask words in which a mark of this split frees a chunk: every word while the team is converged; otherwise
the words whose remaining lanes all belong to the split (R86). `masks` are the masks of the team's live splits other
than this one. -/
def markWords (converged : Bool) (others : List Mask) : List Nat :=
  if converged then List.range 32
  else (List.range 32).filter fun w => others.all fun m => maskWord m w = 0

/-- Free the chunks of these names in these words. -/
def Team.free (t : Team) (names words : List Nat) : Team :=
  { t with chunks := t.chunks.filter fun c => !(names.contains (c.1 / 32) && words.contains (c.1 % 32)) }

/-! ## Chunks (R83 to R85) -/

/-- Chunks of the core that no team holds and none has set aside (R79, R80, R84). -/
def Core.freeChunks (c : Core) : Nat :=
  Config.chunkCount - total (c.teams.map fun t =>
    match t.kind with
    | .launched => t.chunks.length + t.entryLeft
    | _ => t.hdr.fppeak)

/-- The reserve pool: the largest FPPEAK among the resident launched teams (R84). -/
def Core.reservePool (c : Core) : Nat :=
  greatest (c.teams.map fun t => match t.kind with
    | .launched => t.hdr.fppeak
    | _ => 0)

/-- The oldest resident launched team (R82): least age, then least ordinal. -/
def Core.isOldest (c : Core) (t : Team) : Bool :=
  c.teams.all fun u => u.kind ≠ .launched || u.slot = t.slot || t.age < u.age || (t.age = u.age && t.ordinal < u.ordinal)

/-- May this team take one more chunk now (R80, R84, R85)? -/
def Core.mayTake (c : Core) (t : Team) : Bool :=
  match t.kind with
  | .launched =>
    if t.entryLeft > 0 then true
    else if c.isOldest t && t.chunks.length < t.hdr.fppeak then c.freeChunks ≥ 1
    else c.freeChunks ≥ c.reservePool + 1
  | _ => t.chunks.length < t.hdr.fppeak

/-- Take one chunk, reading zero in every lane. -/
def Team.take (t : Team) (key : Nat) : Team :=
  { t with chunks := tablePut t.chunks key freshChunk, entryLeft := t.entryLeft - 1 }

/-- Take several chunks that are not held. -/
def Team.takeAll (t : Team) (keys : List Nat) : Team := keys.foldl Team.take t

/-- Take chunks for a write in order, until the reserve rule stops it: the team, what was taken, and what is
missing. -/
def Core.takeChunks (c : Core) (t : Team) : List Nat → List (Nat × Bool) → Team × List (Nat × Bool) × List Nat
  | [], got => (t, got, [])
  | key :: rest, got =>
    if (tableFind t.chunks key).isSome then c.takeChunks t rest got
    else
      let c' := c.modTeam t.slot fun _ => t
      if c'.mayTake t then c.takeChunks (t.take key) rest (got ++ [(key, decide (t.entryLeft > 0))])
      else (t, got, key :: rest)

/-! ## Writing lanes -/

/-- One container to write. -/
structure Put where
  name : Nat
  lane : Nat
  value : W32
  deriving DecidableEq, Repr

/-- A chunk with one container replaced. -/
def chunkSet (old : List W32) (i : Nat) (v : W32) : List W32 :=
  (List.range 32).map fun j => if j = i then v else old.getD j 0

def Team.put (t : Team) (w : Put) : Team :=
  let key := 32 * w.name + w.lane / 32
  let old := (tableFind t.chunks key).getD freshChunk
  { t with chunks := tablePut t.chunks key (chunkSet old (w.lane % 32) w.value) }

def Team.puts (t : Team) (ws : List Put) : Team := ws.foldl Team.put t

/-- Written chunks stay, whichever split took them (R83). -/
def Team.claim (t : Team) (keys : List Nat) : Team :=
  { t with splits := t.splits.map fun x => { x with drawn := x.drawn.filter fun d => !keys.contains d.1 } }

/-- The chunks that some containers stand in, in the order of the sweep: by mask word, then by name. -/
def chunksOf (ws : List Put) : List Nat :=
  (List.range 32).flatMap fun w =>
    ((ws.filter fun x => x.lane / 32 = w).map fun x => 32 * x.name + w).eraseDups

/-- A lane register written in some lanes. -/
def putLanes (r : VReg) (ls : List Nat) (f : Nat → W32) : List Put := ls.map fun l => ⟨r.toNat, l, f l⟩

/-- A pair written in some lanes, low word in the first register. -/
def putPairs (r : VReg) (ls : List Nat) (f : Nat → W64) : List Put :=
  ls.flatMap fun l => [⟨r.toNat, l, (f l).setWidth 32⟩, ⟨r.toNat + 1, l, (f l).extractLsb' 32 32⟩]

/-- A predicate written in some lanes: every write stores 0 or 1 (R51). -/
def putPreds (p : PReg) (ls : List Nat) (f : Nat → Bool) : List Put :=
  ls.map fun l => ⟨predName p, l, if f l then 1 else 0⟩

end Sys2Proof.Machine
end

