-- ==== Sys2Proof/Machine/Flags.lean ====
section
/-! DEFINITION. Element types, saturation and the compare conditions (R59, R61, R138, R139). -/

namespace Sys2Proof.Machine

/-! ## Element types (R59) -/

/-- The integer types (R138). -/
def typeInteger (t : Nat) : Bool := t ≤ 5 || t = 11 || t = 12

/-- The signed integer types: 0, 2, 4 and 11. -/
def typeSigned (t : Nat) : Bool := t = 0 || t = 2 || t = 4 || t = 11

/-- The types that occupy a pair. -/
def typeWide (t : Nat) : Bool := t = 11 || t = 12

/-- The element width in bits. -/
def typeWidth (t : Nat) : Nat :=
  if t = 2 ∨ t = 3 ∨ t = 7 ∨ t = 8 then 16
  else if t = 4 ∨ t = 5 ∨ t = 9 ∨ t = 10 then 8
  else if t = 11 ∨ t = 12 then 64
  else if t = 13 then 1
  else 32

/-- The value of a w-bit pattern, signed or not. -/
def valueOf (signed : Bool) (w v : Nat) : Int := if signed then signedOf w v else (v % 2 ^ w : Nat)

/-- The w-bit pattern of an exact value modulo 2^w. -/
def patternOf (w : Nat) (t : Int) : Nat := (t % (2 ^ w : Nat)).toNat

def minOf (signed : Bool) (w : Nat) : Int := if signed then -(2 ^ (w - 1) : Nat) else 0
def maxOf (signed : Bool) (w : Nat) : Int := if signed then (2 ^ (w - 1) : Nat) - 1 else (2 ^ w : Nat) - 1

/-- Sat(t, type) (R139). -/
def clamp (signed : Bool) (w : Nat) (t : Int) : Int := max (minOf signed w) (min (maxOf signed w) t)

/-- The pattern of an exact result: clamped under SAT = 1, else modulo 2^w (R139). -/
def narrow (sat signed : Bool) (w : Nat) (t : Int) : Nat := patternOf w (if sat then clamp signed w t else t)

/-- Element e of width w of a container or pair. -/
def element (w v e : Nat) : Nat := v / 2 ^ (w * e) % 2 ^ w

/-- A container or pair of n elements of width w. -/
def fromElements (w : Nat) (f : Nat → Nat) : Nat → Nat
  | 0 => 0
  | n + 1 => fromElements w f n + f n % 2 ^ w * 2 ^ (w * n)

/-- The number of elements in a container, or in a pair for the wide types. -/
def elementCount (t : Nat) : Nat := if typeWide t then 1 else 32 / typeWidth t

/-! ## Compare conditions (R61) -/

/-- An integer condition on two values and their patterns. -/
def compareInt (cmp : Nat) (a b : Int) (pa pb : Nat) : Bool :=
  match cmp with
  | 0 => a = b
  | 1 => a ≠ b
  | 2 => a < b
  | 3 => a ≤ b
  | 4 => b < a
  | 5 => b ≤ a
  | 6 => pa &&& pb ≠ 0
  | _ => pa &&& pb = 0

/-- A floating-point condition: `lt` and `eq` hold only where neither operand is NaN. -/
def compareFloat (cmp : Nat) (unordered lt eq : Bool) : Bool :=
  match cmp with
  | 0 => eq
  | 1 => !eq
  | 2 => lt
  | 3 => lt || eq
  | 4 => !unordered && !lt && !eq
  | 5 => !unordered && !lt
  | 6 => unordered
  | _ => !unordered

end Sys2Proof.Machine
end

