-- ==== Sys2Proof/Machine/Float.lean ====
section
/-! DEFINITION. Floating-point values, exact arithmetic on them, and rounding (R163 to R165, R170 to R174, R331). -/

namespace Sys2Proof.Machine

/-! ## Formats (R163) -/

/-- A format: exponent and fraction bits, bias, and whether it has infinities. -/
structure Fmt where
  ebits : Nat
  fbits : Nat
  bias : Nat
  inf : Bool
  deriving DecidableEq, Repr

def fmtF32 : Fmt := ⟨8, 23, 127, true⟩
def fmtF16 : Fmt := ⟨5, 10, 15, true⟩
def fmtBF16 : Fmt := ⟨8, 7, 127, true⟩
def fmtE4M3 : Fmt := ⟨4, 3, 7, false⟩
def fmtE5M2 : Fmt := ⟨5, 2, 15, true⟩
/-- binary64, the entries of a D-mode accumulator (R329). -/
def fmtF64 : Fmt := ⟨11, 52, 1023, true⟩

def Fmt.width (f : Fmt) : Nat := f.ebits + f.fbits + 1

/-- The format of a TYPE code (R59). -/
def fmtOf (t : Nat) : Fmt :=
  if t = 6 then fmtF32 else if t = 7 then fmtF16 else if t = 8 then fmtBF16 else if t = 9 then fmtE4M3 else fmtE5M2

def typeFloat (t : Nat) : Bool := 6 ≤ t && t ≤ 10

/-- The pattern without its sign. -/
def Fmt.mag (f : Fmt) (v : Nat) : Nat := v % 2 ^ (f.width - 1)
def Fmt.neg (f : Fmt) (v : Nat) : Bool := v / 2 ^ (f.width - 1) % 2 = 1
def Fmt.sign (f : Fmt) (neg : Bool) : Nat := if neg then 2 ^ (f.width - 1) else 0

/-- The magnitude of infinity; in E4M3, of NaN, which stands one above the largest finite value. -/
def Fmt.top (f : Fmt) : Nat := if f.inf then (2 ^ f.ebits - 1) * 2 ^ f.fbits else 2 ^ (f.width - 1) - 1

/-- The largest finite magnitude. -/
def Fmt.max (f : Fmt) : Nat := f.top - 1

/-- The canonical NaN (R163). -/
def Fmt.nan (f : Fmt) : Nat := if f.inf then f.top + 2 ^ (f.fbits - 1) else f.top

def Fmt.isNan (f : Fmt) (v : Nat) : Bool := if f.inf then f.top < f.mag v else f.mag v = f.top
def Fmt.isInf (f : Fmt) (v : Nat) : Bool := f.inf && f.mag v = f.top

/-! ## Exact values -/

/-- NaN, an infinity, a zero with its sign, or a nonzero value: sign, magnitude man·2^exp, and whether a nonzero rest
below one unit of `man` has been dropped from the magnitude. -/
inductive Num where
  | nan
  | inf (neg : Bool)
  | zero (neg : Bool)
  | fin (neg : Bool) (man : Nat) (exp : Int) (more : Bool)
  deriving DecidableEq, Repr

/-- The value of an encoding (R164). -/
def Fmt.value (f : Fmt) (v : Nat) : Num :=
  if f.isNan v then .nan
  else if f.isInf v then .inf (f.neg v)
  else if f.mag v = 0 then .zero (f.neg v)
  else
    let e := f.mag v / 2 ^ f.fbits
    let m := f.mag v % 2 ^ f.fbits
    if e = 0 then .fin (f.neg v) m (1 - f.bias - f.fbits) false
    else .fin (f.neg v) (m + 2 ^ f.fbits) ((e : Int) - f.bias - f.fbits) false

/-- An exact integer as a value; zero is +0. -/
def Num.ofInt (t : Int) : Num := if t = 0 then .zero false else .fin (decide (t < 0)) t.natAbs 0 false

def Num.negate : Num → Num
  | .nan => .nan
  | .inf n => .inf (!n)
  | .zero n => .zero (!n)
  | .fin n m e r => .fin (!n) m e r

/-- Multiply by a power of two. -/
def Num.scale (x : Num) (k : Int) : Num := match x with
  | .fin n m e r => .fin n m (e + k) r
  | y => y

/-! ## Rounding (R60, R165) -/

/-- Is the magnitude rounded away from zero? `rem` of 2^sh was cut off, and `more` says that a nonzero rest lies below it. -/
def roundsUp (rnd : Nat) (neg odd : Bool) (rem sh : Nat) (more : Bool) : Bool :=
  let half := 2 ^ sh / 2
  let any := rem ≠ 0 || more
  match rnd with
  | 0 => sh ≠ 0 && (half < rem || (rem = half && (more || odd)))
  | 1 => false
  | 2 => !neg && any
  | 3 => neg && any
  | _ => sh ≠ 0 && half ≤ rem

/-- What rounding delivers: the pattern, whether the value changed, whether it overflowed. -/
structure Rounded where
  bits : Nat
  inexact : Bool := false
  above : Bool := false
  deriving DecidableEq, Repr

/-- An overflow, or an infinite value, resolved (R165, step 4): `infinite` says which of the two. -/
def Fmt.resolve (f : Fmt) (rnd : Nat) (sat neg infinite : Bool) : Nat :=
  let toMax := sat || (!infinite && (rnd = 1 || (rnd = 2 && neg) || (rnd = 3 && !neg)))
  if toMax then f.sign neg + f.max else if f.inf then f.sign neg + f.top else f.nan

/-- Round(x, RND) with its flags (R165). -/
def Fmt.roundFull (f : Fmt) (rnd : Nat) (sat : Bool) : Num → Rounded
  | .nan => ⟨f.nan, false, false⟩
  | .inf n => ⟨f.resolve rnd sat n true, false, false⟩
  | .zero n => ⟨f.sign n, false, false⟩
  | .fin n m e r =>
    let low : Int := 1 - f.bias - f.fbits
    let q : Int := Max.max ((Nat.log2 m : Int) + e - f.fbits) low
    let sh := (q - e).toNat
    let kept := if e ≤ q then m / 2 ^ sh else m * 2 ^ (e - q).toNat
    let rem := if e ≤ q then m % 2 ^ sh else 0
    let up := roundsUp rnd n (kept % 2 = 1) rem sh r
    let bits := (q - low).toNat * 2 ^ f.fbits + kept + (if up then 1 else 0)
    let inexact := rem ≠ 0 || r
    if f.max < bits then ⟨f.resolve rnd sat n false, true, true⟩ else ⟨f.sign n + bits, inexact, false⟩

def Fmt.round (f : Fmt) (rnd : Nat) (sat : Bool) (x : Num) : Nat := (f.roundFull rnd sat x).bits

/-- A value rounded to an integer under RND; NaN and infinities have none (R176). -/
def Num.toInt (rnd : Nat) : Num → Option Int
  | .nan => none
  | .inf _ => none
  | .zero _ => some 0
  | .fin n m e r =>
    let sh := (-e).toNat
    let kept := if e ≤ 0 then m / 2 ^ sh else m * 2 ^ e.toNat
    let rem := if e ≤ 0 then m % 2 ^ sh else 0
    let v := kept + (if roundsUp rnd n (kept % 2 = 1) rem sh r then 1 else 0)
    some (if n then -(v : Int) else v)

/-! ## Exact arithmetic -/

/-- The sign of an exact zero that a sum of operands of opposite signs gives (R165, step 2). -/
def zeroSign (rnd : Nat) : Bool := rnd = 3

/-- Signed magnitude at a smaller exponent. -/
def signedAt (n : Bool) (m : Nat) (e lo : Int) : Int :=
  let v : Int := (m * 2 ^ (e - lo).toNat : Nat)
  if n then -v else v

def Num.add (rnd : Nat) : Num → Num → Num
  | .nan, _ => .nan
  | _, .nan => .nan
  | .inf a, .inf b => if a = b then .inf a else .nan
  | .inf a, _ => .inf a
  | _, .inf b => .inf b
  | .zero a, .zero b => if a = b then .zero a else .zero (zeroSign rnd)
  | .zero _, y => y
  | x, .zero _ => x
  | .fin n m e r, .fin n' m' e' r' =>
    let lo := min e e'
    let t := signedAt n m e lo + signedAt n' m' e' lo
    if t = 0 then .zero (zeroSign rnd) else .fin (decide (t < 0)) t.natAbs lo (r || r')

def Num.mul : Num → Num → Num
  | .nan, _ => .nan
  | _, .nan => .nan
  | .inf _, .zero _ => .nan
  | .zero _, .inf _ => .nan
  | .inf a, .inf b => .inf (a ^^ b)
  | .inf a, .fin b _ _ _ => .inf (a ^^ b)
  | .fin a _ _ _, .inf b => .inf (a ^^ b)
  | .zero a, .zero b => .zero (a ^^ b)
  | .zero a, .fin b _ _ _ => .zero (a ^^ b)
  | .fin a _ _ _, .zero b => .zero (a ^^ b)
  | .fin n m e r, .fin n' m' e' r' => .fin (n ^^ n') (m * m') (e + e') (r || r')

/-- The quotient, with at least `p` significant bits. -/
def Num.div (p : Nat) : Num → Num → Num
  | .nan, _ => .nan
  | _, .nan => .nan
  | .inf _, .inf _ => .nan
  | .inf a, .zero b => .inf (a ^^ b)
  | .inf a, .fin b _ _ _ => .inf (a ^^ b)
  | .zero a, .inf b => .zero (a ^^ b)
  | .fin a _ _ _, .inf b => .zero (a ^^ b)
  | .zero _, .zero _ => .nan
  | .zero a, .fin b _ _ _ => .zero (a ^^ b)
  | .fin a _ _ _, .zero b => .inf (a ^^ b)
  | .fin n m e _, .fin n' m' e' _ =>
    let k := Nat.log2 m' + p + 1
    let x := m * 2 ^ k
    .fin (n ^^ n') (x / m') (e - e' - k) (x % m' ≠ 0)

/-- The integer square root, from the highest of `bits` bits down. -/
def isqrt (v : Nat) : Nat → Nat → Nat
  | 0, r => r
  | b + 1, r => isqrt v b (if (r + 2 ^ b) * (r + 2 ^ b) ≤ v then r + 2 ^ b else r)

def rootOf (v : Nat) : Nat := isqrt v (Nat.log2 v / 2 + 1) 0

/-- The square root of a positive value, with at least `p` bits. -/
def sqrtFin (p m : Nat) (e : Int) : Num :=
  let m' := if e % 2 = 0 then m else 2 * m
  let e' := if e % 2 = 0 then e else e - 1
  let x := m' * 2 ^ (2 * p)
  let r := rootOf x
  .fin false r (e' / 2 - p) (r * r ≠ x)

/-- The inverse square root of a positive value, with at least `p` bits. -/
def rsqrtFin (p m : Nat) (e : Int) : Num :=
  let m' := if e % 2 = 0 then m else 2 * m
  let e' := if e % 2 = 0 then e else e - 1
  let k := Nat.log2 m' + p + 2
  let x := 2 ^ (2 * k) / m'
  let r := rootOf x
  .fin false r (-(e' / 2) - k) (r * r * m' ≠ 2 ^ (2 * k))

def Num.sqrt (p : Nat) : Num → Num
  | .nan => .nan
  | .inf n => if n then .nan else .inf false
  | .zero n => .zero n
  | .fin n m e _ => if n then .nan else sqrtFin p m e

def Num.rsqrt (p : Nat) : Num → Num
  | .nan => .nan
  | .inf n => if n then .nan else .zero false
  | .zero n => .inf n
  | .fin n m e _ => if n then .nan else rsqrtFin p m e

def Num.recip (p : Nat) (x : Num) : Num := Num.div p (.fin false 1 0 false) x

/-! ## Base-2 exponential and logarithm, at 544 fraction bits -/

def fracBits : Nat := 544

/-- Σ 2^544 / (k·2^k) for k up to n: ln 2 at 544 fraction bits. -/
def ln2Sum : Nat → Nat
  | 0 => 0
  | n + 1 => ln2Sum n + 2 ^ fracBits / ((n + 1) * 2 ^ (n + 1))

def ln2 : Nat := ln2Sum 552

/-- 1 + t/k·(1 + t/(k+1)·(…)) at 544 fraction bits: the exponential series from its k-th factor on. -/
def expFrom (t : Nat) : Nat → Nat → Nat
  | 0, _ => 2 ^ fracBits
  | n + 1, k => 2 ^ fracBits + t * expFrom t n (k + 1) / (k * 2 ^ fracBits)

/-- Σ z^(2k+1)/(2k+1) from k on, `zk` being z^(2k+1). -/
def atanhFrom (zz : Nat) : Nat → Nat → Nat → Nat
  | 0, _, _ => 0
  | n + 1, k, zk => zk / (2 * k + 1) + atanhFrom zz n (k + 1) (zk * zz / 2 ^ fracBits)

/-- 2^a of a finite nonzero a: exact where a is an integer; elsewhere irrational, given to 512 bits. -/
def exp2Fin (n : Bool) (m : Nat) (e : Int) : Num :=
  let big := 12 < (Nat.log2 m : Int) + e
  if big then .fin false 1 (if n then -8192 else 8192) n
  else
    let fixed : Int := signedAt n (if e < -(fracBits : Int) then 0 else m * 2 ^ (e + fracBits).toNat) 0 0
    let whole := Int.fdiv fixed (2 ^ fracBits : Nat)
    let frac := (fixed - whole * (2 ^ fracBits : Nat)).toNat
    if frac = 0 then .fin false 1 whole false
    else .fin false (expFrom (frac * ln2 / 2 ^ fracBits) 150 1 / 2 ^ 32) (whole - (fracBits - 32 : Nat)) true

def Num.exp2 : Num → Num
  | .nan => .nan
  | .inf n => if n then .zero false else .inf false
  | .zero _ => .fin false 1 0 false
  | .fin n m e _ => exp2Fin n m e

/-- log₂ a of a positive a: exact where a is a power of two; elsewhere irrational, given to about 480 bits. -/
def log2Fin (m : Nat) (e : Int) : Num :=
  let b := Nat.log2 m
  let whole : Int := b + e
  if m = 2 ^ b then Num.ofInt whole
  else
    let x := m * 2 ^ fracBits / 2 ^ b
    let one := 2 ^ fracBits
    let z := (x - one) * one / (x + one)
    let frac := 2 * atanhFrom (z * z / one) 180 0 z * one / ln2
    let v : Int := whole * (one : Nat) + (frac : Nat)
    .fin (decide (v < 0)) (v.natAbs / 2 ^ 32) (-(fracBits - 32 : Nat)) true

def Num.log2 : Num → Num
  | .nan => .nan
  | .inf n => if n then .nan else .inf false
  | .zero _ => .inf true
  | .fin n m e _ => if n then .nan else log2Fin m e

/-! ## Comparison, classes -/

/-- An order of the patterns that are not NaN: zeros equal. -/
def Fmt.key (f : Fmt) (v : Nat) : Int := if f.neg v then -(f.mag v : Int) else f.mag v

/-- The same with −0 below +0 (R171). -/
def Fmt.keyZ (f : Fmt) (v : Nat) : Int := if f.neg v then -(f.mag v : Int) - 1 else f.mag v

/-- The lesser or greater element (R171). -/
def Fmt.pick (f : Fmt) (greater : Bool) (a b : Nat) : Nat :=
  if f.isNan a then (if f.isNan b then f.nan else b)
  else if f.isNan b then a
  else if greater then (if f.keyZ a < f.keyZ b then b else a)
  else (if f.keyZ b < f.keyZ a then b else a)

def Fmt.compare (f : Fmt) (cmp a b : Nat) : Bool :=
  let u := f.isNan a || f.isNan b
  compareFloat cmp u (!u && f.key a < f.key b) (!u && f.key a = f.key b)

/-- The class mask of R174. -/
def Fmt.classOf (f : Fmt) (v : Nat) : Nat :=
  let n := f.neg v
  if f.isNan v then 2 ^ 8
  else if f.isInf v then (if n then 2 ^ 0 else 2 ^ 7)
  else if f.mag v = 0 then (if n then 2 ^ 3 else 2 ^ 4)
  else if f.mag v < 2 ^ f.fbits then (if n then 2 ^ 2 else 2 ^ 5)
  else (if n then 2 ^ 1 else 2 ^ 6)

/-! ## Conversions (R176) -/

/-- The value of an element of a scalar type from 0 to 12. -/
def valueAs (t v : Nat) : Num :=
  if typeFloat t then (fmtOf t).value v else Num.ofInt (valueOf (typeSigned t) (typeWidth t) v)

/-- A value converted to an integer type (R176). -/
def Num.toType (x : Num) (rnd : Nat) (sat : Bool) (t : Nat) : Nat :=
  match x with
  | .nan => 0
  | .inf n => if sat then patternOf (typeWidth t) (if n then minOf (typeSigned t) (typeWidth t) else maxOf (typeSigned t) (typeWidth t)) else 0
  | y => match y.toInt rnd with
    | some i => narrow sat (typeSigned t) (typeWidth t) i
    | none => 0

/-- Convert a value to an element of a type. -/
def Num.deliver (x : Num) (rnd : Nat) (sat : Bool) (t : Nat) : Nat :=
  if typeFloat t then (fmtOf t).round rnd sat x else x.toType rnd sat t

/-- The pairs that `cvt` accepts (R176). -/
def cvtPair (a b : Nat) : Bool :=
  let packed (t : Nat) : Bool := (2 ≤ t && t ≤ 5) || (7 ≤ t && t ≤ 10)
  a ≤ 12 && b ≤ 12 && !(typeWide a && packed b) && !(typeWide b && packed a)

/-- F32 addition rounded to nearest, ties to even (R225). -/
def addF32 (rnd a b : Nat) : Nat := fmtF32.round rnd false (Num.add rnd (fmtF32.value a) (fmtF32.value b))

end Sys2Proof.Machine
end

