-- ==== Sys2Proof/Machine/Late.lean ====
section
/-! DEFINITION. What loaded bytes become (R215, R225), and the accesses of a split that are performed after the step that
completes their instruction (R28, R231, R242, R245). -/

namespace Sys2Proof.Machine

/-! ## What loaded bytes become -/

/-- Sign- or zero-extend a loaded value by TYPE (R215). -/
def extend (t w v : Nat) : W32 := BitVec.ofInt 32 (valueOf (typeSigned t) w v)

/-- Combine (R225); min and max compare by TYPE. -/
def combine (op t : Nat) (a b : Nat) : Nat :=
  match op with
  | 0 => (a + b) % 2 ^ 32
  | 1 => addF32 0 a b
  | 2 => if t = 6 then fmtF32.pick false a b
         else patternOf 32 (min (valueOf (typeSigned t) 32 a) (valueOf (typeSigned t) 32 b))
  | 3 => if t = 6 then fmtF32.pick true a b
         else patternOf 32 (max (valueOf (typeSigned t) 32 a) (valueOf (typeSigned t) 32 b))
  | 4 => a &&& b
  | 5 => a ||| b
  | _ => a ^^^ b

/-- The identity of an operation (R226). -/
def identityOf (op t : Nat) : Nat :=
  match op with
  | 0 => 0
  | 1 => 0x80000000
  | 2 => if t = 6 then fmtF32.nan else patternOf 32 (maxOf (typeSigned t) 32)
  | 3 => if t = 6 then fmtF32.nan else patternOf 32 (minOf (typeSigned t) 32)
  | 4 => 0xFFFFFFFF
  | _ => 0

/-- One level of the tree: neighbours combined, an odd last value passed up. -/
def treeLevel (f : Nat → Nat → Nat) : List Nat → List Nat
  | a :: b :: rest => f a b :: treeLevel f rest
  | l => l

/-- Tree (R225): as many levels as the fuel allows. -/
def treeOf (f : Nat → Nat → Nat) : Nat → List Nat → Nat
  | 0, l => l.headD 0
  | n + 1, l => treeOf f n (treeLevel f l)

/-- The value of a scalar by its number. -/
def Team.putScalar (t : Team) (n : Nat) (v : W64) : Team := t.setScalar (BitVec.ofNat 5 n) v

/-- The containers that a load into lanes writes, from the bytes of its parts. -/
def LoadInto.puts (parts : List (List Byte)) : LoadInto → List Put
  | .lane name l t w => [⟨name, l, extend t w (leNat parts.flatten)⟩]
  | .pair name l =>
    let v := leNat parts.flatten
    [⟨name, l, BitVec.ofNat 32 v⟩, ⟨name + 1, l, BitVec.ofNat 32 (v / 2 ^ 32)⟩]
  | .scalar _ => []
  | .group name l op t =>
    [⟨name, l, BitVec.ofNat 32 (treeOf (combine op t) parts.length (parts.map leNat))⟩]
  | .tile _ _ _ => []
  | .acc _ _ => []

/-- Give a load its value: a chunk that is no longer held takes nothing. -/
def Team.give (t : Team) (parts : List (List Byte)) (d : LoadInto) : Team :=
  match d with
  | .scalar n => t.putScalar n (BitVec.ofNat 64 (leNat parts.flatten))
  | _ => t.puts ((d.puts parts).filter fun w => (tableFind t.chunks (32 * w.name + w.lane / 32)).isSome)

/-- Bytes of a tile's rows of rb bytes, from byte `first` of all of them on (R350). -/
def Tile.putRun (t : Tile) (first rb : Nat) (bs : List Byte) : Tile :=
  { t with bytes := bs.zipIdx.foldl (fun m (v, i) => tableSet 0 m (256 * ((first + i) / rb) + (first + i) % rb) v) t.bytes }

/-- The status bit MODR (R330). -/
def statModr : BitVec 5 := 16

/-- A loaded entry of an accumulator: in M mode reduced, with MODR set where that changes it (R354). -/
def Acc.loadEntry (a : Acc) (i v : Nat) : Acc :=
  let q := a.modulus.toNat
  let above := a.mode = 2 && q ≤ v
  { a with
    entries := tableSet 0 a.entries i (BitVec.ofNat 64 (if above then v % q else v))
    status := if above then a.status ||| statModr else a.status }

/-- Give a load of the matrix unit its value. -/
def Core.give (c : Core) (parts : List (List Byte)) (d : LoadInto) : Core :=
  match d with
  | .tile n first rb => c.setTile n ((c.tileAt n).putRun first rb parts.flatten)
  | .acc n i => c.setAcc n ((c.accAt n).loadEntry i (leNat parts.flatten))
  | _ => c

/-- The encoded names that a load writes (R50). -/
def LoadInto.names : LoadInto → List Nat
  | .lane name _ _ _ => [name]
  | .pair name _ => [name, name + 1]
  | .scalar n => [0x40 + n]
  | .group name _ _ _ => [name]
  | .tile _ _ _ => []
  | .acc _ _ => []

/-- It writes a tile or an accumulator. -/
def LoadInto.onMatrix : LoadInto → Bool
  | .tile _ _ _ => true
  | .acc _ _ => true
  | _ => false

/-! ## Atomics (R252 to R254) -/

/-- The width of an atomic in bytes. -/
def atomicWidth (t : Nat) : Nat := if typeWide t then 8 else 4

/-- The integer value of an operand under TYPE. -/
def atomicValue (t v : Nat) : Int := valueOf (typeSigned t) (8 * atomicWidth t) v
def atomicPattern (t : Nat) (v : Int) : Nat := patternOf (8 * atomicWidth t) v

/-- The new value from the old one, with the data operands a and b; none writes nothing. -/
def AtomOp.apply (op : AtomOp) (t rnd a b m : Nat) : Option Nat :=
  match op with
  | .add => some (atomicPattern t ((m : Int) + a))
  | .min => some (atomicPattern t (Min.min (atomicValue t m) (atomicValue t a)))
  | .max => some (atomicPattern t (Max.max (atomicValue t m) (atomicValue t a)))
  | .and => some (m &&& a)
  | .or => some (m ||| a)
  | .xor => some (m ^^^ a)
  | .xchg => some a
  | .cas => if m = a then some b else none
  | .fadd => some (addF32 rnd m a)

/-! ## Performing an access -/

/-- Read a part that has not been read (R205, R208). -/
def State.readPart (s : State) (tag : Nat) (p : LoadPart) : LoadPart :=
  { p with got := some (p.got.getD (p.locs.map fun a => if p.cached.contains a then s.cachedByte tag a else s.byteAt tag a)) }

def LoadPart.bytes (p : LoadPart) : List Byte := p.got.getD []

/-- The destination of a split's load takes the value. -/
def State.giveLoad (s : State) (r : SplitRef) (parts : List (List Byte)) (d : LoadInto) : State :=
  (s.modCore r.part r.core fun c => c.give parts d).modTeam r.part r.core r.slot fun t => t.give parts d

/-- The old value that a lane's atomic finds now. -/
def State.oldValue (s : State) (tag : Nat) (w : LateAtomic) : Nat := leNat (s.readPart tag w.part).bytes

/-- A lane's atomic writes its new value: read and written as one event (R241, R254). -/
def State.applyAtomic (s : State) (p tag : Nat) (w : LateAtomic) : State :=
  match w.op.apply w.type w.rnd w.a w.b (s.oldValue tag w) with
  | none => s
  | some v => s.store p .team (w.part.locs.zip (leBytes w.part.locs.length v))

/-- Perform a waiting access: a store is written, a load reads what it has not read yet and its destination takes the value, an
atomic is performed and its destination takes the old value. -/
def State.performLate (s : State) (w : Late) : State :=
  match s.part? w.writer.part with
  | none => s
  | some x =>
    match w.load, w.atomic with
    | some (d, parts), _ => s.giveLoad w.writer (parts.map fun p => (s.readPart x.tag p).bytes) d
    | none, some a =>
      let t := s.applyAtomic w.writer.part x.tag a
      match a.into with
      | none => t
      | some d => t.giveLoad w.writer [(s.readPart x.tag a.part).bytes] d
    | none, none => s.store w.writer.part .team w.cells

/-- Perform those of the waiting accesses that a test picks, oldest first. -/
def State.performWhere (s : State) (f : Late → Bool) : State :=
  if s.late = [] then s
  else (s.late.filter f).foldl State.performLate { s with late := s.late.filter fun w => !f w }

/-- The machine bytes that a waiting access has still to write. -/
def Late.stores (w : Late) : List Nat :=
  w.cells.map (·.1) ++ match w.atomic with
    | none => []
    | some a => a.part.locs

/-- The machine bytes that it has still to touch. -/
def Late.locs (w : Late) : List Nat :=
  w.stores ++ match w.load with
    | none => []
    | some (_, parts) => parts.flatMap fun p => if p.got.isSome then [] else p.locs

/-- Where it leaves what it reads. -/
def Late.into (w : Late) : Option LoadInto :=
  match w.load with
  | some (d, _) => some d
  | none => w.atomic.bind fun a => a.into

def Late.meets (w : Late) (locs : List Nat) : Bool := w.locs.any fun a => locs.contains a

/-- A split's waiting accesses: all of them (R246), or those that meet some bytes (R242). -/
def State.performOwn (s : State) (r : SplitRef) : State := s.performWhere fun w => w.writer = r
def State.performMine (s : State) (r : SplitRef) (locs : List Nat) : State :=
  s.performWhere fun w => w.writer = r && w.meets locs

/-- The waiting accesses of a team, of a partition, and the waiting stores and atomics of a partition to some lines. -/
def State.performTeam (s : State) (t : TeamRef) : State :=
  s.performWhere fun w => w.writer.part = t.part && w.writer.core = t.core && w.writer.slot = t.slot
def State.performPart (s : State) (p : Nat) : State := s.performWhere fun w => w.writer.part = p
def State.performLines (s : State) (p : Nat) (lines : List Nat) : State :=
  s.performWhere fun w => w.writer.part = p && w.stores.any fun a => lines.contains (a / 64)

/-- The waiting stores and atomics of a split to some lines (R320). -/
def State.performMyLines (s : State) (r : SplitRef) (lines : List Nat) : State :=
  s.performWhere fun w => w.writer = r && w.stores.any fun a => lines.contains (a / 64)

/-- The waiting loads into tiles and accumulators of a core. -/
def State.performMatrix (s : State) (p l : Nat) : State :=
  s.performWhere fun w => w.writer.part = p && w.writer.core = l && w.into.any LoadInto.onMatrix

/-- The waiting loads of a team whose destination is one of some encoded names: nothing reads or writes a register that a
load has still to write. -/
def State.performNamed (s : State) (t : TeamRef) (names : List Nat) : State :=
  s.performWhere fun w => w.writer.part = t.part && w.writer.core = t.core && w.writer.slot = t.slot &&
    (w.into.any fun d => d.names.any fun n => names.contains n)

/-- Perform the parts of a store: some at once, and those that `waits` picks, by their numbers, later. A part that replaces
uncorrectable data is performed at once, so that a later read by the split meets what it stored (R242). Each part is a write of
its own to the doorbell (R462): a store that is not aligned rings it once for each byte that it writes there, where the rule can
also be read as once for the store (log entry 100). -/
def State.performParts (s : State) (r : SplitRef) (waits : Nat → Bool) (parts : List (List (Nat × Byte))) : State :=
  parts.zipIdx.foldl (fun s (cells, i) =>
    if (cells.all fun c => !s.bad.contains c.1) && waits i then { s with late := s.late ++ [{ writer := r, cells := cells }] }
    else s.store r.part .team cells) s

/-- Loads whose destinations hold what they read in this step: those with parts that `waits` picks read these again when
they are performed. Log entry 10. -/
def State.leaveLoads (s : State) (r : SplitRef) (tag : Nat) (waits : Nat → Bool) (loads : List (LoadInto × List LoadPart)) : State :=
  let open_ := loads.zipIdx.filterMap fun ((d, parts), i) =>
    let ps := parts.zipIdx.map fun (p, j) => if waits (8192 * i + j) then p else s.readPart tag p
    if ps.all fun p => p.got.isSome then none else some ({ writer := r, cells := [], load := some (d, ps) } : Late)
  { s with late := s.late ++ open_ }

/-- Perform lanes' atomics one after another: the state, and the old value that each lane finds. Those that `waits` picks, by
their lanes, are performed later, and what they find then counts. Log entry 10. -/
def State.performAtomics (s : State) (r : SplitRef) (tag : Nat) (waits : Nat → Bool) : List (Nat × LateAtomic) → State × List (Nat × Nat)
  | [] => (s, [])
  | (l, w) :: rest =>
    let m := s.oldValue tag w
    let s := if waits l then { s with late := s.late ++ [{ writer := r, cells := [], atomic := some w }] }
      else s.applyAtomic r.part tag w
    let (s, olds) := s.performAtomics r tag waits rest
    (s, (l, m) :: olds)

/-- The unread parts of a load, by their places. -/
def unread (parts : List LoadPart) : List Nat := (parts.zipIdx.filter fun q => q.1.got.isNone).map fun q => q.2

/-- One unread part of a load is read. -/
def State.readOne (s : State) (tag : Nat) (parts : List LoadPart) : List LoadPart :=
  let ns := unread parts
  match ns[Config.rank s.tick 5 ns.length % max 1 ns.length]? with
  | none => parts
  | some i => parts.zipIdx.map fun (p, j) => if j = i then s.readPart tag p else p

end Sys2Proof.Machine
end

