-- ==== Sys2Proof/Machine/Ops.lean ====
section
/-! DEFINITION. The event queue (R368 to R372), taking an exception (R39, R364, R369) and returning from one (R376). -/

namespace Sys2Proof.Machine

/-! ## The event queue in memory (R368, R369) -/

def Partition.slotPpa (x : Partition) (i : Nat) : Nat := x.csr.eqbase.toNat + 64 + 32 * i

/-- Do the header and this slot map (R370)? -/
def Partition.queueMaps (x : Partition) (i : Nat) : Bool :=
  (x.locsOf x.csr.eqbase.toNat 64).isSome && (x.locsOf (x.slotPpa i) 32).isSome

/-- The lowest-numbered free slot. -/
def Partition.freeSlot (x : Partition) : Option Nat := leastFree (2 ^ x.csr.logn) (x.queue.map (·.1))

/-- The posted or in-service record that an event merges into (R371). -/
def Partition.mergeSlot (x : Partition) (e : Event) : Option Nat :=
  if e.code ≠ 0x08 then none
  else (x.queue.find? fun (_, r) => r.code = 0x08 && field r.va.toNat 14 44 = field e.va.toNat 14 44 &&
    r.cls = e.cls && r.sup = e.sup).map (·.1)

def flagByte (merged sup absent : Bool) : Byte :=
  BitVec.ofNat 8 ((if merged then 1 else 0) + (if sup then 2 else 0) + (if absent then 4 else 0))

def waiterCount (w : Option Waiter) : Nat := if w.isSome then 1 else 0

/-- Bytes 0 to 27 of a record (R369). -/
def recordBytes (e : Event) : List Byte :=
  leBytes 8 e.va.toNat ++ leBytes 2 e.code ++ leBytes 1 e.cls ++ [flagByte false e.sup e.absent] ++
  leBytes 4 e.team.toNat ++ leBytes 2 e.split ++ leBytes 2 e.arg ++ leBytes 4 e.region.toNat ++
  leBytes 4 (waiterCount e.waiter)

/-- A field of the header, whose bytes 24 to 63 are written as zero (R368). -/
def State.putHeader (s : State) (p off v : Nat) : State :=
  match s.part? p with
  | none => s
  | some x => (s.storePpa p .other (x.csr.eqbase.toNat + off) (leBytes 8 v)).storePpa p .other (x.csr.eqbase.toNat + 24)
      (List.replicate 40 0)

/-- HELD is written where the header maps and holds another number (R370). -/
def State.showHeld (s : State) (p : Nat) : State :=
  match s.part? p with
  | none => s
  | some x =>
    if (x.locsOf x.csr.eqbase.toNat 64).isSome && x.heldShown ≠ x.heldEvents.length then
      (s.modPart p fun y => { y with heldShown := y.heldEvents.length }).putHeader p 16 x.heldEvents.length
    else s

/-- Merge an event into slot i (R371). -/
def State.mergeEvent (s : State) (p i : Nat) (e : Event) : State :=
  match s.part? p with
  | none => s
  | some x =>
    match tableFind x.queue i with
    | none => s
    | some r =>
      let r' := { r with
        waiters := r.waiters + waiterCount e.waiter, merged := true, attached := r.attached ++ e.waiter.toList }
      let s := s.modPart p fun y => { y with queue := tablePut y.queue i r', merged := y.merged + 1 }
      let s := s.storePpa p .other (x.slotPpa i + 24) (leBytes 4 r'.waiters)
      let s := s.storePpa p .other (x.slotPpa i + 11) [flagByte true r.sup r.absent]
      s.putHeader p 8 (x.merged + 1)

/-- Post an event in slot i: bytes 0 to 27, then SEQ, then POSTED (R370); vector 1 fires (R447). -/
def State.postEvent (s : State) (p i : Nat) (e : Event) : State :=
  match s.part? p with
  | none => s
  | some x =>
    let seq := x.posted + 1
    let r : QSlot :=
      { state := .posted, va := e.va, code := e.code, cls := e.cls, sup := e.sup, absent := e.absent, merged := false
        waiters := waiterCount e.waiter, seq := seq, attached := e.waiter.toList }
    let s := s.modPart p fun y => { y with queue := tablePut y.queue i r, posted := seq }
    let s := s.storePpa p .other (x.slotPpa i) (recordBytes e)
    let s := s.storePpa p .other (x.slotPpa i + 28) (leBytes 4 seq)
    (s.putHeader p 0 seq).fireMsix p 1

/-- The slot an event may take now, with no event held ahead of it (R370). -/
def Partition.openSlot (x : Partition) : Option Nat :=
  if !x.csr.en then none
  else match x.freeSlot with
    | none => none
    | some i => if x.queueMaps i then some i else none

/-- The area is the reason why nothing can be posted (R370). -/
def Partition.queueUnmapped (x : Partition) : Bool :=
  match x.freeSlot with
  | none => (x.locsOf x.csr.eqbase.toNat 64).isNone
  | some i => !x.queueMaps i

/-- Hold an event (R370). -/
def State.holdEvent (s : State) (p : Nat) (e : Event) : State :=
  match s.part? p with
  | none => s
  | some x =>
    let s := (s.modPart p fun y => { y with heldEvents := y.heldEvents ++ [e] }).showHeld p
    if x.queueUnmapped then s.emit (.told p) else s

/-- An event of a partition: merged, posted or held (R370). -/
def State.event (s : State) (p : Nat) (e : Event) : State :=
  match s.part? p with
  | none => s
  | some x =>
    match x.mergeSlot e with
    | some i => s.mergeEvent p i e
    | none =>
      if x.heldEvents ≠ [] then s.holdEvent p e
      else match x.openSlot with
        | some i => s.postEvent p i e
        | none => s.holdEvent p e

/-- The oldest held event is posted, or merged, once a slot is free, EN = 1 and the area maps (R370). -/
def State.postHeld (s : State) (p : Nat) : State :=
  match s.part? p with
  | none => s
  | some x =>
    match x.heldEvents, x.openSlot with
    | e :: rest, some i =>
      let s := (s.modPart p fun y => { y with heldEvents := rest }).showHeld p
      match x.mergeSlot e with
      | some j => s.mergeEvent p j e
      | none => s.postEvent p i e
    | _, _ => s

/-- Detach the waiters that a test picks, from records and from held events (R372). -/
def Partition.detach (x : Partition) (f : Waiter → Bool) : Partition :=
  { x with
    queue := x.queue.map fun (i, r) => (i, { r with attached := r.attached.filter fun w => !f w })
    heldEvents := x.heldEvents.map fun e => { e with waiter := e.waiter.filter fun w => !f w } }

/-! ## Taking an exception -/

/-- The cause of a trap: its code, the address and access class that the record carries, the argument, and the
absent-member flag (R369). -/
structure Trap where
  code : Nat
  va : W64
  cls : Nat := 7
  arg : Nat := 0
  absent : Bool := false
  deriving DecidableEq, Repr

/-- The REGION field of a record (R369). -/
def regionField (t : Team) (sp : Split) : W32 := BitVec.ofNat 32 ((sp.regionPc - t.hdr.program).toNat / 4)

/-- A trap: the split stops where it stands, with its registers, predicates, mode and chunks unchanged (R39), everything it
has stored is performed, and an event is posted, merged or held (R370); a trap of the service team is also told to the partition manager (R364). -/
def State.raise (s : State) (r : SplitRef) (t : Trap) : State :=
  match s.ctxAt r with
  | none => s
  | some k =>
    let back := k.split.drawn
    let s := (s.performOwn r).modTeam r.part r.core r.slot fun u =>
      { u with
        chunks := u.chunks.filter fun c => !(back.map (·.1)).contains c.1
        entryLeft := u.entryLeft + (back.filter fun d => d.2).length }
    let s := s.modSplit r fun sp => { sp with state := .stopped, wait := .none, drawn := [], saved := false, sent := [] }
    let s := s.event r.part
      { va := t.va, code := t.code, cls := t.cls, sup := k.team.sup, absent := t.absent, team := k.team.handle
        split := r.entry, arg := t.arg, region := regionField k.team k.split
        waiter := some (.split r.core r.slot r.entry) }
    if k.team.kind = .service then s.emit (.told r.part) else s

/-- The same trap for a split that stands in the spill records from `first` on: it is stopped there (R112). -/
def State.raiseRun (s : State) (t : TeamRef) (first : Nat) (sp : Split) (c : Trap) : State :=
  match s.team? t.part t.core t.slot with
  | none => s
  | some u =>
    let s := s.modTeam t.part t.core t.slot fun v =>
      { v with spilled := v.spilled.map fun x => if x.first = first then { x with ready := false, stopped := true } else x }
    let s := s.event t.part
      { va := c.va, code := c.code, cls := c.cls, sup := u.sup, absent := c.absent, team := u.handle
        split := (Config.spillEntry s.tick first).toNat, arg := c.arg, region := regionField u sp
        waiter := some (.run t.core t.slot first) }
    if u.kind = .service then s.emit (.told t.part) else s

/-! ## Returning from an exception -/

/-- TRIG is set where ARMED is (R287). -/
def Monitor.stir (m : Monitor) : Monitor := { m with trig := m.trig || m.armed }

/-- A stopped split goes back to its region entry with the region's mode (R113, R376). -/
def Split.toRegion (sp : Split) : Split :=
  { sp with
    pc := sp.regionPc, mr := sp.regionMr, state := .ready, wait := .none, nonIdem := false, drawn := [], begun := false
    sent := [], gridCut := if sp.gridCut = .replay then .zero else sp.gridCut }

/-- A ready split of a team that is not restored is stopped, and marked to be ready when it is (R94, R376). -/
def Split.heldIf (held : Bool) (sp : Split) : Split :=
  if held && sp.state = .ready then { sp with state := .stopped, saved := true } else sp

/-- It is ready again when its team is restored. -/
def Split.restore (sp : Split) : Split :=
  if sp.saved then { sp with saved := false, state := if sp.state = .stopped then .ready else sp.state } else sp

def Team.restore (t : Team) : Team := { t with splits := t.splits.map Split.restore }

/-- Behind the gate of R418, until the service team's `tlbia`: every team but the service team. Log entry 80. -/
def Partition.gates (x : Partition) (t : Option Team) : Bool := x.hold = .gated && !(t.any fun t => t.kind = .service)

/-- A team that has been pre-empted and is not restored. -/
def State.heldBack (s : State) (p l slot : Nat) : Bool :=
  (s.part? p).any fun x => x.hold = .suspended || x.gates ((x.core? l).bind fun c => c.team? slot)

/-- Resume a split that waits on a record (R376): behind `trap` and `brkpt`, otherwise at its region entry. -/
def State.resumeSplit (s : State) (r : SplitRef) (code : Nat) : State :=
  let held := s.heldBack r.part r.core r.slot
  if code = 0x13 ∨ code = 0x14 then
    s.modSplit r fun sp => { sp with pc := sp.pc + 4, state := .ready, wait := .none, begun := false }.heldIf held
  else
    (s.modTeam r.part r.core r.slot fun t =>
      { t with replayed := true, replays := t.replays + 1, monitor := t.monitor.stir }).modSplit r fun sp => sp.toRegion.heldIf held

end Sys2Proof.Machine
end

