-- ==== Sys2Proof/Machine/Splits.lean ====
section
/-! DEFINITION. Splits and rejoin records: the split table, the spill area, divergence, reconvergence, refill and
exchange (R93 to R112). -/

namespace Sys2Proof.Machine

def State.teamAt (s : State) (t : TeamRef) : Option Team := s.team? t.part t.core t.slot
def State.atTeam (s : State) (t : TeamRef) (f : Team → Team) : State := s.modTeam t.part t.core t.slot f
def entryOf (t : TeamRef) (e : Nat) : SplitRef := ⟨t.part, t.core, t.slot, e⟩
def teamOf (r : SplitRef) : TeamRef := ⟨r.part, r.core, r.slot⟩


/-- Nothing of a split goes on: its partition is held (R419, R423), it waits for a `tlbia` (R418) or for the quiesce after a
dropped request (R401), or its core is being substituted (R409). -/
def State.frozen (s : State) (r : SplitRef) : Bool :=
  match s.part? r.part with
  | none => false
  | some x =>
    x.hold = .suspended || x.dropped.contains r ||
    match x.core? r.core with
    | none => false
    | some c => c.warm.isSome || x.gates (c.team? r.slot)

/-- A split that has issued 512 instructions while a ready split of its team is spilled issues nothing until it has been
exchanged (R111). -/
def Ctx.mustRotate (k : Ctx) : Bool :=
  !k.split.begun && decide (k.split.issued ≥ Config.rotationLimit) && k.team.spilled.any fun x => x.isSplit && x.ready

/-! ## Entries and registers (R96) -/

def Core.freeEntries (c : Core) : Nat := Config.entryCount - total (c.teams.map fun t => max 2 t.splits.length)
def Core.freeRegisters (c : Core) : Nat := Config.registerCount - total (c.teams.map fun t => max 1 t.records.length)
/-- What a team may take: what is left of its reserve, and the common pool. -/
def Core.entriesFor (c : Core) (t : Team) : Nat := (2 - t.splits.length) + c.freeEntries
def Core.registersFor (c : Core) (t : Team) : Nat := (1 - t.records.length) + c.freeRegisters

def Core.newEntry (c : Core) (t : Team) : Option Nat :=
  if c.entriesFor t = 0 then none
  else leastFree Config.entryCount (c.teams.flatMap fun u => u.splits.map fun x => x.entry)

/-! ## The spill area (R106 to R108) -/

/-- Where byte `off` of record `rec` of a team's spill area stands: the area is the last 64·SPILL bytes of the
team's frames. -/
def spillPpa (l : Nat) (t : Team) (rec off : Nat) : Nat :=
  let b := 16384 * t.frames.length - 64 * t.hdr.spill + 64 * rec + off
  framePpa l (t.frames.getD (b / 16384) 0) + b % 16384

def State.spillBytes (s : State) (t : TeamRef) (u : Team) (rec n : Nat) : List Byte :=
  match s.part? t.part with
  | none => []
  | some x => (List.range n).flatMap fun i => s.ppaBytes x (spillPpa t.core u rec i) 1

def State.putSpill (s : State) (t : TeamRef) (u : Team) (rec off : Nat) (bytes : List Byte) : State :=
  match s.part? t.part with
  | none => s
  | some x => s.store t.part .other ((List.range bytes.length).filterMap fun i =>
      (x.locOf (spillPpa t.core u rec (off + i))).map fun a => (a, bytes.getD i 0))

/-- The number in bytes `off` to `off + n - 1` of a record. -/
def bytesAt (bs : List Byte) (off n : Nat) : Nat := leNat ((bs.drop off).take n)

def runLength (x : SpillRun) : Nat := if x.isSplit then 3 else 1

def usedRecords (runs : List SpillRun) : List Nat :=
  runs.flatMap fun x => (List.range (runLength x)).map (x.first + ·)

/-- The lowest-numbered free run of n records (R106). -/
def freeRun (spill : Nat) (runs : List SpillRun) (n : Nat) : Option Nat :=
  (List.range (spill + 1 - n)).find? fun a => (List.range n).all fun i => !(usedRecords runs).contains (a + i)

/-- Runs of these lengths, each at the lowest-numbered free run when its turn comes (R98). -/
def fits (spill : Nat) (runs : List SpillRun) : List Nat → Bool
  | [] => true
  | n :: rest =>
    match freeRun spill runs n with
    | none => false
    | some a => fits spill (runs ++ [{ first := a, isSplit := n = 3, ready := n = 3, seq := 0, ordinal := 0, nonIdem := false }]) rest

def parentField (p : Option Nat) : Nat := p.getD 0xFFFF
def fieldParent (v : Nat) : Option Nat := if v = 0xFFFF then none else some v

/-- The mask summary: bit w is 1 when mask word w is nonzero. -/
def maskSummary (m : Mask) : Nat := total ((List.range 32).map fun w => if maskWord m w = 0 then 0 else 2 ^ w)

def stateCode : SplitState → Nat
  | .ready => 0
  | .waitingMemory => 1
  | .waitingBarrier => 2
  | .yielded => 3
  | .parked => 4
  | .stopped => 5

/-- A spilled split's three records (R107). -/
def splitBytes (sp : Split) (seq : Nat) : List Byte :=
  leBytes 8 sp.pc.toNat ++ leBytes 4 sp.mr.toNat ++ leBytes 4 (maskSummary sp.mask) ++
  leBytes 8 sp.regionPc.toNat ++ leBytes 4 sp.regionMr.toNat ++ leBytes 2 (parentField sp.parent) ++
  leBytes 1 (16 + stateCode sp.state) ++ leBytes 1 (if sp.pending.isSome then 1 else 0) ++
  leBytes 8 (sp.pending.getD 0) ++ leBytes 16 sp.liveIn.toNat ++ leBytes 4 seq ++ leBytes 4 0 ++
  leBytes 128 sp.mask.toNat

/-- The split that three records hold, whatever stands in their reserved bits (R112). -/
def bytesSplit (bs : List Byte) (x : SpillRun) : Split :=
  { entry := Config.entryCount
    pc := BitVec.ofNat 64 (bytesAt bs 0 8)
    mr := BitVec.ofNat 32 (bytesAt bs 8 4)
    mask := BitVec.ofNat 1024 (bytesAt bs 64 128)
    pending := if bytesAt bs 31 1 % 2 = 1 then some (bytesAt bs 32 8) else none
    parent := fieldParent (bytesAt bs 28 2)
    regionPc := BitVec.ofNat 64 (bytesAt bs 16 8)
    regionMr := BitVec.ofNat 32 (bytesAt bs 24 4)
    liveIn := BitVec.ofNat 128 (bytesAt bs 40 16)
    state := if x.stopped then .stopped else if bytesAt bs 30 1 % 16 = 4 then .parked else .ready
    wait := .none, issued := 0, nonIdem := x.nonIdem, drawn := [], gridCut := x.gridCut }

/-- The record is valid in form: reserved fields zero, those of LIVEIN (R45) and of MR (R55) among them, kind 1, state
0 or 4 (R112). -/
def splitRecordOk (bs : List Byte) : Bool :=
  bytesAt bs 11 1 = 0 && bytesAt bs 27 1 = 0 && bytesAt bs 53 3 = 0 && bytesAt bs 60 4 = 0 && bytesAt bs 31 1 < 2 &&
  (bytesAt bs 30 1 = 16 || bytesAt bs 30 1 = 20)

/-- A spilled rejoin record (R108). -/
def rejoinBytes (j : Rejoin) (seq : Nat) : List Byte :=
  leBytes 8 (j.block.getD 0xFFFFFFFFFFFFFFFF) ++ leBytes 4 j.mr.toNat ++ leBytes 2 j.ordinal ++
  leBytes 2 (parentField j.parent) ++ leBytes 2 j.expected ++ leBytes 2 j.arrived ++ leBytes 1 32 ++ leBytes 3 0 ++
  leBytes 4 seq ++ leBytes 36 0

def bytesRejoin (bs : List Byte) : Rejoin :=
  { ordinal := bytesAt bs 12 2
    parent := fieldParent (bytesAt bs 14 2)
    block := if bytesAt bs 0 8 = 0xFFFFFFFFFFFFFFFF then none else some (bytesAt bs 0 8)
    mr := BitVec.ofNat 32 (bytesAt bs 8 4)
    expected := bytesAt bs 16 2
    arrived := bytesAt bs 18 2 }

def rejoinRecordOk (bs : List Byte) : Bool :=
  bytesAt bs 11 1 = 0 && bytesAt bs 20 1 = 32 && bytesAt bs 21 3 = 0 && bytesAt bs 28 36 = 0

/-- The highest number of records held at once (R133). -/
def Team.noteSpill (t : Team) : Team := { t with maxSpill := max t.maxSpill (usedRecords t.spilled).length }

/-- Write a split into the run at `first`, listed as spilled, with the next SEQ: one counter for splits and rejoin
records. Log entry 73. -/
def State.writeSplitRun (s : State) (t : TeamRef) (first : Nat) (sp : Split) : State :=
  match s.teamAt t with
  | none => s
  | some u =>
    let run : SpillRun :=
      { first := first, isSplit := true, ready := sp.state = .ready, seq := u.nextSeq, ordinal := 0, nonIdem := sp.nonIdem
        gridCut := sp.gridCut }
    (s.putSpill t u first 0 (splitBytes sp u.nextSeq)).atTeam t fun v =>
      { v with spilled := v.spilled ++ [run], nextSeq := v.nextSeq + 1 }.noteSpill

def State.spillSplit (s : State) (t : TeamRef) (sp : Split) : State :=
  match s.teamAt t with
  | none => s
  | some u => match freeRun u.hdr.spill u.spilled 3 with
    | none => s
    | some a => s.writeSplitRun t a sp

/-- Spill a rejoin record, with the next SEQ of the same counter. Log entry 73. -/
def State.spillRejoin (s : State) (t : TeamRef) (j : Rejoin) : State :=
  match s.teamAt t with
  | none => s
  | some u => match freeRun u.hdr.spill u.spilled 1 with
    | none => s
    | some a =>
      let run : SpillRun :=
        { first := a, isSplit := false, ready := false, seq := u.nextSeq, ordinal := j.ordinal, nonIdem := false }
      (s.putSpill t u a 0 (rejoinBytes j u.nextSeq)).atTeam t fun v =>
        { v with spilled := v.spilled ++ [run], nextSeq := v.nextSeq + 1 }.noteSpill

/-! ## Records by ordinal, resident or spilled (R95, R100) -/

def Team.runOf (u : Team) (ordinal : Nat) : Option SpillRun :=
  u.spilled.find? fun x => !x.isSplit && x.ordinal = ordinal

def State.rejoin? (s : State) (t : TeamRef) (ordinal : Nat) : Option Rejoin :=
  match s.teamAt t with
  | none => none
  | some u =>
    match u.records.find? fun j => j.ordinal = ordinal with
    | some j => some j
    | none => (u.runOf ordinal).map fun x => { bytesRejoin (s.spillBytes t u x.first 64) with ordinal := ordinal }

/-- Change the counts of a record where it stands. -/
def State.setCounts (s : State) (t : TeamRef) (ordinal expected arrived : Nat) : State :=
  match s.teamAt t with
  | none => s
  | some u =>
    if u.records.any fun j => j.ordinal = ordinal then
      s.atTeam t fun v => { v with records := v.records.map fun j =>
        if j.ordinal = ordinal then { j with expected := expected, arrived := arrived } else j }
    else match u.runOf ordinal with
      | none => s
      | some x => s.putSpill t u x.first 16 (leBytes 2 expected ++ leBytes 2 arrived)

def State.dropRejoin (s : State) (t : TeamRef) (ordinal : Nat) : State :=
  s.atTeam t fun v =>
    if v.records.any fun j => j.ordinal = ordinal then
      { v with records := v.records.filter fun j => j.ordinal ≠ ordinal }
    else { v with spilled := v.spilled.filter fun x => x.isSplit || x.ordinal ≠ ordinal }

def Team.ordinals (u : Team) : List Nat :=
  u.records.map (fun j => j.ordinal) ++ (u.spilled.filter fun x => !x.isSplit).map fun x => x.ordinal

/-- The chain of records from a parent, innermost first; the fuel bounds it by the live records. -/
def State.chain (s : State) (t : TeamRef) : Nat → Option Nat → List Rejoin
  | 0, _ => []
  | _, none => []
  | fuel + 1, some n =>
    match s.rejoin? t n with
    | none => []
    | some j => j :: s.chain t fuel j.parent

def State.chainFrom (s : State) (t : TeamRef) (parent : Option Nat) : List Rejoin :=
  match s.teamAt t with
  | none => []
  | some u => s.chain t u.ordinals.length parent

/-! ## Splits by place -/

/-- Where a live split stands: in an entry, or in the run of records that starts at `first`. -/
inductive Place where
  | entry (e : Nat)
  | run (first : Nat)
  deriving DecidableEq, Repr

/-- Every live split of a team with its place, resident ones first, spilled ones in spill order. -/
def State.placed (s : State) (t : TeamRef) : List (Place × Split) :=
  match s.teamAt t with
  | none => []
  | some u =>
    u.splits.map (fun x => (Place.entry x.entry, x)) ++
    (u.spilled.filter fun x => x.isSplit).map fun x =>
      (Place.run x.first, bytesSplit (s.spillBytes t u x.first 192) x)

/-- The split that holds a lane. -/
def State.holder (s : State) (t : TeamRef) (lane : Nat) : Option (Place × Split) :=
  (s.placed t).find? fun x => x.2.mask.getLsbD lane

def lowestLane (m : Mask) : Option Nat := (List.range 1024).find? fun l => m.getLsbD l

def laneCount (m : Mask) : Nat := ((List.range 1024).filter fun l => m.getLsbD l).length

/-- Write a split back where it stands; a spilled one keeps its SEQ. -/
def State.putPlaced (s : State) (t : TeamRef) (at_ : Place) (sp : Split) : State :=
  match at_ with
  | .entry e => s.modSplit (entryOf t e) fun _ => { sp with entry := e }
  | .run a =>
    match s.teamAt t with
    | none => s
    | some u =>
      let seq := match u.spilled.find? fun x => x.first = a with
        | none => 0
        | some x => x.seq
      (s.putSpill t u a 0 (splitBytes sp seq)).atTeam t fun v =>
        { v with spilled := v.spilled.map fun x =>
            if x.first = a then
              { x with
                ready := sp.state = .ready, nonIdem := sp.nonIdem, gridCut := sp.gridCut, stopped := sp.state = .stopped }
            else x }

/-- A split leaves its place; what it has stored is performed by then (R244). -/
def State.dropPlaced (s : State) (t : TeamRef) (at_ : Place) : State :=
  match at_ with
  | .entry e => (s.performOwn (entryOf t e)).atTeam t fun v => { v with splits := v.splits.filter fun x => x.entry ≠ e }
  | .run a => s.atTeam t fun v => { v with spilled := v.spilled.filter fun x => x.first ≠ a }

/-! ## Refill and exchange (R109, R110, R112) -/

/-- The earliest of some runs in the spill order. -/
def earliest : List SpillRun → Option SpillRun
  | [] => none
  | x :: rest => match earliest rest with
    | none => some x
    | some y => if x.seq ≤ y.seq then some x else some y

/-- The virtual addresses, among those that the leaves of a table reach, of a partition-physical address: `level` tables
deep, from the virtual address `va` on. Pages that hold data in place (KIND 0 and 2) count. -/
def State.vasOf (s : State) (x : Partition) (ppa : Nat) : Nat → Nat → Nat → List Nat
  | 0, _, _ => []
  | fuel + 1, table, va =>
    let level := 4 - (fuel + 1)
    (List.range 2048).flatMap fun i =>
      let e := s.ppaWord x (table + 8 * i)
      let start := va + i * 2 ^ levelShift level
      if !entryV e then []
      else if entryKind e = 7 then s.vasOf x ppa fuel (entryFrame e) start
      else if (entryKind e = 0 || entryKind e = 2) && entryFrame e ≤ ppa && ppa < entryFrame e + 2 ^ levelShift level then
        [start + (ppa - entryFrame e)]
      else []

/-- A record's own address, as its trap reports it (R112): a virtual address that maps the record, which of several is
open; one that nothing is known of where none does. Log entry 15. -/
def State.recordVa (s : State) (p l : Nat) (u : Team) (rec : Nat) : W64 :=
  let ppa := spillPpa l u rec 0
  match s.part? p with
  | none => Config.spillVa ppa
  | some x =>
    let vas := s.vasOf x ppa 4 x.csr.s1root.toNat 0
    match vas[Config.rank s.tick 4 rec % max 1 vas.length]? with
    | some va => BitVec.ofNat 64 va
    | none => Config.spillVa ppa

/-- Read the split in a run into an entry and free the run; an invalid record stops the split with trap 0x02. -/
def State.loadSplit (s : State) (t : TeamRef) (x : SpillRun) (e : Nat) : State :=
  match s.teamAt t with
  | none => s
  | some u =>
    let bs := s.spillBytes t u x.first 192
    let sp := { bytesSplit bs x with entry := e }.heldIf (s.heldBack t.part t.core t.slot)
    let s := s.atTeam t fun v =>
      { v with splits := v.splits ++ [sp], spilled := v.spilled.filter fun y => y.first ≠ x.first }
    if splitRecordOk bs then s
    else s.raise (entryOf t e) { code := 0x02, va := s.recordVa t.part t.core u x.first }

/-- Stop, with trap 0x02 at this record, every split whose chain held an ordinal, where it stands: one that a trap has already
stopped keeps the record it waits on. -/
def State.stopChain (s : State) (t : TeamRef) (va : W64) : List (Place × Split) → State
  | [] => s
  | (.entry e, sp) :: rest =>
    (if sp.state = .stopped && !sp.saved then s else s.raise (entryOf t e) { code := 0x02, va := va }).stopChain t va rest
  | (.run a, sp) :: rest =>
    (if sp.state = .stopped then s else s.raiseRun t a sp { code := 0x02, va := va }).stopChain t va rest

/-- Read the rejoin record in a run into a register and free the run. -/
def State.loadRejoin (s : State) (t : TeamRef) (x : SpillRun) : State :=
  match s.teamAt t with
  | none => s
  | some u =>
    let bs := s.spillBytes t u x.first 64
    let hit := (s.placed t).filter fun q => (s.chainFrom t q.2.parent).any fun j => j.ordinal = x.ordinal
    let s := s.atTeam t fun v =>
      { v with records := v.records ++ [bytesRejoin bs], spilled := v.spilled.filter fun y => y.first ≠ x.first }
    if rejoinRecordOk bs then s else s.stopChain t (s.recordVa t.part t.core u x.first) hit

/-- What a team may refill now: its earliest-spilled rejoin record, or its earliest-spilled ready split. -/
def Core.refillable (c : Core) (u : Team) : Option SpillRun :=
  match if c.registersFor u = 0 then none else earliest (u.spilled.filter fun x => !x.isSplit) with
  | some x => some x
  | none => if c.entriesFor u = 0 then none else earliest (u.spilled.filter fun x => x.isSplit && x.ready)

/-- Of several teams that could use a freed entry or register, one is taken in an order that no rule gives. -/
def refillFirst (tick : Nat) : List (Team × SpillRun) → Option (Team × SpillRun)
  | [] => none
  | [x] => some x
  | x :: y :: rest =>
    match refillFirst tick (y :: rest) with
    | none => some x
    | some z => if Config.rank tick 2 x.1.slot ≤ Config.rank tick 2 z.1.slot then some x else some z

/-- Refill until no team of the core can be refilled (R109). -/
def State.refill (s : State) (p l : Nat) : Nat → State
  | 0 => s
  | fuel + 1 =>
    match s.core? p l with
    | none => s
    | some c =>
      match refillFirst s.tick (c.teams.filterMap fun u => (c.refillable u).map fun x => (u, x)) with
      | none => s
      | some (u, x) =>
        let t : TeamRef := ⟨p, l, u.slot⟩
        let s := if x.isSplit then
            match c.newEntry u with
            | none => s
            | some e => s.loadSplit t x e
          else s.loadRejoin t x
        s.refill p l fuel

def State.refillCore (s : State) (p l : Nat) : State := s.refill p l 96

/-- Exchange the split in an entry for the team's earliest-spilled ready split: read that one in, then write this
one into the three records just freed (R110, R111). -/
def State.exchange (s : State) (t : TeamRef) (e : Nat) : State :=
  match s.teamAt t with
  | none => s
  | some u =>
    match u.split? e, earliest (u.spilled.filter fun x => x.isSplit && x.ready) with
    | some sp, some x =>
      let s := s.dropPlaced t (.entry e)
      let s := s.loadSplit t x e
      s.writeSplitRun t x.first sp
    | _, _ => s

/-! ## Reconvergence (R100 to R105) -/

/-- The split F that the splits parked against a record fuse into (R102, 2). -/
def fused (j : Rejoin) (parts : List Split) : Split :=
  let pc := BitVec.ofNat 64 (64 * j.block.getD 0)
  { entry := Config.entryCount, pc := pc, mr := j.mr
    mask := parts.foldl (fun m x => m ||| x.mask) 0
    pending := none, parent := j.parent, regionPc := pc, regionMr := j.mr
    liveIn := parts.foldl (fun m x => m ||| x.liveIn) 0
    state := .ready, wait := .none, issued := 0, nonIdem := false, drawn := [] }

/-- The lowest-numbered entry among some places. -/
def lowestEntry (ps : List (Place × Split)) : Option Nat :=
  ps.foldl (fun a x => match x.1, a with
    | .entry e, none => some e
    | .entry e, some b => some (min e b)
    | .run _, b => b) none

/-- The run of the earliest-spilled among some places, which list spilled splits in spill order. -/
def earliestRun (u : Team) (ps : List (Place × Split)) : Option Nat :=
  (earliest (u.spilled.filter fun x => ps.any fun q => q.1 = .run x.first)).map fun x => x.first

/-- Fuse the splits parked against a complete record: F's lowest lane, or none if nothing is parked (R102). -/
def State.fuse (s : State) (t : TeamRef) (j : Rejoin) : State × Option Nat :=
  let ps := (s.placed t).filter fun x => x.2.state = .parked && x.2.parent = some j.ordinal
  let f := fused j (ps.map fun x => x.2)
  match s.teamAt t, ps with
  | none, _ => (s, none)
  | _, [] => (s.dropRejoin t j.ordinal, none)
  | some u, _ =>
    let run := earliestRun u ps
    let keep : Option Nat := if (lowestEntry ps).isNone then run else none
    let s := ps.foldl (fun s x => if some x.1 = keep.map Place.run then s else s.dropPlaced t x.1) s
    let s := (s.dropRejoin t j.ordinal).atTeam t fun v => { v with rejoinFusions := v.rejoinFusions + 1 }
    let into : Option Nat := match lowestEntry ps with
      | some e => some e
      | none => (s.core? t.part t.core).bind fun c => (c.team? t.slot).bind fun v => c.newEntry v
    let s := match into, run with
      | some e, r =>
        let s := match r with
          | some a => s.dropPlaced t (.run a)
          | none => s
        s.atTeam t fun v => { v with splits := v.splits ++ [{ f with entry := e }] }
      | none, some a => s.putPlaced t (.run a) f
      | none, none => s
    (s, lowestLane f.mask)

/-- What is still to be done for reconvergence: the split that holds a lane has reached the block of its pc; a record
is checked for completion; a parked split is exchanged. -/
inductive Work where
  | arrive (lane : Nat)
  | check (ordinal : Nat)
  | swap (lane : Nat)
  deriving DecidableEq, Repr

/-- One arrival (R100): the counts change, the split parks, and the records to check follow, innermost first; the exchange of
R110 comes after them, and only for a split that no fusion has taken. Log entry 89. -/
def State.park (s : State) (t : TeamRef) (lane : Nat) : State × List Work :=
  match s.holder t lane with
  | none => (s, [])
  | some (at_, sp) =>
    let chain := s.chainFrom t sp.parent
    let inner := chain.takeWhile fun j => j.block ≠ some (sp.pc.toNat / 64)
    match chain.drop inner.length with
    | [] => (s, [])
    | a :: _ =>
      let n := laneCount sp.mask
      let s := inner.foldl (fun s j => s.setCounts t j.ordinal (j.expected - n) j.arrived) s
      let s := s.setCounts t a.ordinal a.expected (a.arrived + n)
      let s := s.putPlaced t at_ { sp with state := .parked, parent := some a.ordinal }
      (s, (inner ++ [a]).map (fun j => Work.check j.ordinal) ++ [Work.swap lane])

/-- Reconvergence (R100 to R102, R110): carry out the work in order; a fusion reaches its block before anything else. -/
def State.reconverge (t : TeamRef) : Nat → List Work → State → State
  | 0, _, s => s
  | _, [], s => s
  | fuel + 1, .arrive lane :: rest, s =>
    let (s, more) := s.park t lane
    s.reconverge t fuel (more ++ rest)
  | fuel + 1, .check n :: rest, s =>
    match s.rejoin? t n with
    | none => s.reconverge t fuel rest
    | some j =>
      if j.arrived ≠ j.expected then s.reconverge t fuel rest
      else match s.fuse t j with
        | (s, some lane) => s.reconverge t fuel (.arrive lane :: rest)
        | (s, none) => s.reconverge t fuel rest
  | fuel + 1, .swap lane :: rest, s =>
    match s.holder t lane with
    | some (.entry e, sp) =>
      if sp.state = .parked then (s.exchange t e).reconverge t fuel rest else s.reconverge t fuel rest
    | _ => s.reconverge t fuel rest

/-- Enough steps for the work: each record completes at most once, and each arrival checks each record at most
once. -/
def State.reconvergeFuel (s : State) (t : TeamRef) (n : Nat) : Nat :=
  match s.teamAt t with
  | none => 0
  | some u => (u.ordinals.length + n + 4) * (u.ordinals.length + n + 4)

/-- Carry out some work for reconvergence, and then refill (R109). An entry that a fusion on the way has freed is refilled only
here, after the exchanges of R110 that the work asks for; that the exchange comes first is the model's choice (log entry 89). -/
def State.doWork (s : State) (t : TeamRef) (w : List Work) : State :=
  (s.reconverge t (s.reconvergeFuel t w.length) w).refillCore t.part t.core

/-- CheckArrival for the split in an entry (R98, R100): only slot 0 of a block is a block reached. -/
def State.checkArrival (s : State) (r : SplitRef) : State :=
  match s.split? r with
  | none => s
  | some sp =>
    if sp.pc.toNat % 64 = 0 then
      match lowestLane sp.mask with
      | some lane => s.doWork (teamOf r) [.arrive lane]
      | none => s
    else s

/-! ## Divergence (R98, R99) -/

/-- A group of lanes and the address they continue at. -/
structure Group where
  pc : W64
  lanes : List Nat
  deriving DecidableEq, Repr

/-- Place a new split in a free entry, reserve first, or spill it. -/
def State.placeSplit (s : State) (t : TeamRef) (sp : Split) : State :=
  match s.core? t.part t.core with
  | none => s
  | some c => match c.team? t.slot with
    | none => s
    | some u => match c.newEntry u with
      | some e => s.atTeam t fun v => { v with splits := v.splits ++ [{ sp with entry := e }] }
      | none => s.spillSplit t sp

/-- Diverge (R98): none where the spill area cannot take what has to spill. The split's lanes follow the first
group; then every group whose address is slot 0 of a block has reached it. -/
def State.diverge (s : State) (k : Ctx) (g : Group) (gs : List Group) : Option State :=
  let t := teamOf k.r
  let u := k.team
  let freeJ := decide (k.core.registersFor u > 0)
  let spills := gs.length - k.core.entriesFor u
  if !fits u.hdr.spill u.spilled ((if freeJ then [] else [1]) ++ List.replicate spills 3) then none
  else
    let j : Rejoin :=
      { ordinal := (leastFree 65535 u.ordinals).getD 0, parent := k.split.parent, block := k.split.pending
        mr := k.split.mr, expected := laneCount k.split.mask, arrived := 0 }
    let s := s.performOwn k.r
    let s := if freeJ then s.atTeam t fun v => { v with records := v.records ++ [j] } else s.spillRejoin t j
    let s := s.modSplit k.r fun sp =>
      { sp with mask := maskOf g.lanes, pc := g.pc, parent := some j.ordinal, pending := none }
    let s := gs.foldl (fun s h => s.placeSplit t
      { k.split with mask := maskOf h.lanes, pc := h.pc, parent := some j.ordinal, pending := none, state := .ready
                     wait := .none, issued := 0, drawn := [], sent := [] }) s
    let s := s.atTeam t fun v => { v with divergences := v.divergences + 1 }
    let work := (g :: gs).filterMap fun h =>
      if h.pc.toNat % 64 = 0 then h.lanes.head?.map Work.arrive else none
    some (s.doWork t work)

/-- Groups by address in the order of R98: the fall-through group first, the others by their lowest lane. -/
def groupLanes (next : W64) (dest : Nat → W64) (lanes : List Nat) : List Group :=
  let pcs := (lanes.map dest).eraseDups
  let order := if pcs.contains next then next :: pcs.filter (· ≠ next) else pcs
  order.map fun pc => ⟨pc, lanes.filter fun l => dest l = pc⟩

/-! ## Leaving (R101) -/

/-- The lanes of a split leave the team: every record on its chain expects fewer lanes; its entry or its records are
free; the records are checked, innermost first. -/
def State.leave (s : State) (t : TeamRef) (at_ : Place) (sp : Split) : State :=
  let chain := s.chainFrom t sp.parent
  let n := laneCount sp.mask
  let s := chain.foldl (fun s j => s.setCounts t j.ordinal (j.expected - n) j.arrived) s
  let s := s.dropPlaced t at_
  s.doWork t (chain.map fun j => Work.check j.ordinal)

/-! ## Meet-fusion and rotation -/

/-- Two resident splits may meet (R103). -/
def meets (a b : Split) : Bool :=
  a.entry ≠ b.entry && a.state = .ready && b.state = .ready && !a.begun && !b.begun &&
  a.pc = b.pc && a.pc.toNat % 64 = 0 && a.mr = b.mr &&
  a.regionPc = b.regionPc && a.regionMr = b.regionMr && a.liveIn = b.liveIn && a.parent = b.parent &&
  a.pending = b.pending && a.gridCut = b.gridCut

/-- The fused split keeps the lower entry (R103); what both have issued is performed first (R104). Two splits of which one
alone has a wait cut short for a grid release stay apart, as R103 allows, so that the result of its reset is kept (R280). -/
def State.meet (s : State) (t : TeamRef) (a b : Split) : State :=
  let lo := min a.entry b.entry
  let hi := max a.entry b.entry
  let s := (s.performOwn (entryOf t lo)).modSplit (entryOf t lo) fun x => { x with mask := a.mask ||| b.mask }
  let s := s.dropPlaced t (.entry hi)
  (s.atTeam t fun v => { v with meetFusions := v.meetFusions + 1 }).refillCore t.part t.core

end Sys2Proof.Machine
end

