-- ==== Sys2Proof/Machine/Teams.lean ====
section
/-! DEFINITION. Teams: their state at the start of a phase (R81), their end (R127, R128, R377), and what they hold
until their copies have written their stamps. -/

namespace Sys2Proof.Machine

/-! ## Start -/

/-- The split with which a phase starts (R81): all lanes, at slot 0 of the entry block, with the reset mode. -/
def startSplit (h : Header) (e : Nat) : Split :=
  let pc := h.program + BitVec.ofNat 64 (64 * h.entry)
  { entry := e, pc := pc, mr := modeReset, mask := maskOf (List.range h.team), pending := none, parent := none
    regionPc := pc, regionMr := modeReset, liveIn := 0, state := .ready, wait := .none, issued := 0, nonIdem := false
    drawn := [] }

/-- The register, split and counter state at the start of a phase (R81, R128, R133, R283, R332, R366). SEQ starts at 0
in every phase (log entry 73); the monitor is disarmed, its TRIG and LINE stay as the phase before left them (log entry
74). The round-robin pointers of the quads and units stand at entry 0, so that each turn begins with entry 1 (log entry
88). -/
def Team.restart (t : Team) (e cycle : Nat) : Team :=
  { t with
    splits := [startSplit t.hdr e], records := [], spilled := [], nextSeq := 0, chunks := [], entryLeft := 0
    sregs := List.replicate 32 0, gangReg := BitVec.ofNat 6 (2 ^ t.hdr.gang - 1)
    monitor := { t.monitor with armed := false }, grid := none, gabsent := false, preempted := false
    replayed := false, successor := false, dying := false, maxSpill := 0, divergences := 0, meetFusions := 0
    rejoinFusions := 0, sweeps := 0, lastIssue := cycle, rank := none, given := [0, 0, 0, 0, 0, 0], passed := []
    readySince := none }

/-- A team just admitted, or started with its partition. Its monitor has TRIG 0 and LINE 0 (log entry 74). -/
def newTeam (kind : TeamKind) (launch ordinal : Nat) (h : Header) (age slot entry cycle : Nat) (frames : List Nat)
    (gang gangix : Nat) : Team :=
  let t : Team :=
    { slot := slot, kind := kind, launch := launch, ordinal := ordinal, phase := 0, hdr := h, age := age, splits := []
      records := [], spilled := [], nextSeq := 0, chunks := [], entryLeft := 0, sregs := [], frames := frames
      gang := gang, gangix := gangix, gangReg := 0, monitor := { armed := false, trig := false, line := 0 }
      grid := none, gabsent := false, preempted := false, replayed := false, successor := false, dying := false
      maxSpill := 0, divergences := 0, meetFusions := 0, rejoinFusions := 0, sweeps := 0, replays := 0
      preemptions := 0, timeouts := 0, lastIssue := cycle, rank := none }
  { t.restart entry cycle with entryLeft := match kind with
      | .launched => h.fpentry
      | _ => 0 }

/-! ## What copies still hold -/

/-- Does the core's engine still hold a copy of one of these teams? A copy leaves its queue when it has written its
stamps (R289). -/
def Core.owes (c : Core) (launch : Nat) (teams : List (TeamKind × Nat)) : Bool :=
  c.chans.any fun (_, ch) => ch.queue.any fun x =>
    x.issuer.launch = launch && teams.contains (x.issuer.kind, x.issuer.ordinal)

/-- Give up what an ended team or gang held, at once or when its copies have written their stamps (R127). -/
def Core.addRelease (c : Core) (q : Release) : Core :=
  if c.owes q.launch q.teams then { c with releases := c.releases ++ [q] } else c

/-- The ordinals of a gang's teams (R77). -/
def gangOrdinals (t : Team) : List (TeamKind × Nat) :=
  match t.kind with
  | .launched => (List.range t.hdr.gang).map fun i => (t.kind, t.ordinal - t.gangix + i)
  | _ => [(t.kind, t.ordinal)]

/-! ## Latch -/

/-- Splits waiting behind a latch that is empty arrive again (R333). -/
def Core.wakeBehind (c : Core) (g : Nat) : Core :=
  { c with teams := c.teams.map fun t => if t.gang = g then
      { t with splits := t.splits.map fun x =>
          if x.wait = Wait.behind then { x with state := .ready, wait := .none } else x } else t }

/-- Withdraw a team's splits from its gang's rendezvous (R334); a latch left holding none empties. -/
def Core.withdraw (c : Core) (g slot : Nat) (f : Nat → Bool) : Core :=
  match (c.gang? g).bind fun x => x.latch with
  | none => c
  | some h =>
    if h.complete then c
    else
      let left := h.joined.filter fun (k, e) => !(k = slot && f e)
      if left = [] then (c.modGang g fun x => { x with latch := none }).wakeBehind g
      else c.modGang g fun x => { x with latch := some { h with joined := left } }

/-! ## End -/

def Partition.modLaunch (x : Partition) (n : Nat) (f : Launch → Launch) : Partition :=
  { x with launches := x.launches.map fun h => if h.n = n then f h else h }

/-- Detach what waits on records for a team that has ended (R372). -/
def Partition.detachTeam (x : Partition) (l slot : Nat) : Partition :=
  x.detach fun w => match w with
    | .split c k _ | .run c k _ => c = l && k = slot
    | _ => false

/-- A launched team ends without a successor: slot, reserve and chunks are free at once; frames, and with the last
team of its gang the gang's resources, once the copies are done (R127); its launch counts it (R391). -/
def State.removeTeam (s : State) (t : TeamRef) (u : Team) (error : Bool) : State :=
  (s.performTeam t).modPart t.part fun x =>
    let x := x.detachTeam t.core t.slot
    let x := x.modCore t.core fun c =>
      let c := c.withdraw u.gang t.slot fun _ => true
      let c := { c with teams := c.teams.filter fun v => v.slot ≠ t.slot }
      let c := c.addRelease { launch := u.launch, teams := [(u.kind, u.ordinal)], frames := u.frames, tiles := [], accs := [], bars := [] }
      if c.teams.any fun v => v.gang = u.gang then c
      else match c.gang? u.gang with
        | none => c
        | some g =>
          let c := { c with gangs := c.gangs.filter fun y => y.id ≠ u.gang }
          c.addRelease { launch := u.launch, teams := gangOrdinals u, frames := [], tiles := g.tiles, accs := g.accs, bars := g.bars }
    x.modLaunch u.launch fun h => { h with ended := h.ended + 1, error := h.error || error }

/-- A team that has no lanes left ends (R127): a launched team may be followed by its successor phase (R128); the
service and root teams keep what is set aside for them (R79). -/
def State.endTeam (s : State) (t : TeamRef) : State :=
  match s.teamAt t with
  | none => s
  | some u =>
    match u.kind with
    | .launched =>
      if u.successor ∧ u.phase + 1 < u.hdr.phases then
        match (s.core? t.part t.core).bind fun c => c.newEntry u with
        | none => s
        | some e => (s.modPart t.part fun x => x.detachTeam t.core t.slot).atTeam t fun v =>
            { v.restart e s.cycle with phase := v.phase + 1 }
      else (s.removeTeam t u false).refillCore t.part t.core
    | _ => ((s.modPart t.part fun x => (x.detachTeam t.core t.slot).modCore t.core fun c =>
          c.withdraw u.gang t.slot fun _ => true).atTeam t fun v =>
        { v with chunks := [], monitor := { v.monitor with armed := false } }).refillCore t.part t.core

/-- An instruction that a team must let complete before it is ended (R377): an aperture store waiting for a queue
slot, an arrival not yet counted, a `barx` whose phase has not ended, a `launch` that waits, a joint instruction whose
rendezvous has completed. -/
def mustComplete (c : Core) (u : Team) (x : Split) : Bool :=
  match x.wait with
  | .aperture _ _ => true
  | .remote _ _ _ => true
  | .early _ _ _ => true
  | .barx _ _ _ => true
  | .launch _ => true
  | .latch => match (c.gang? u.gang).bind fun g => g.latch with
    | some h => h.complete
    | none => false
  | _ => false

/-- Every other split of the team stops. -/
def stopUnless (c : Core) (u : Team) (x : Split) : Split :=
  if mustComplete c u x then x else { x with state := .stopped, wait := .none, saved := false, sent := [] }

/-- End a team from outside (R364, R377): its splits stop; once nothing it has issued must still complete, it ends
in error, or restarts if it is the service or the root team. R364 restarts it in the state of R81 with the resources it holds;
whether its tiles, accumulators and barriers go back to the contents with which R81 gives them out is open, and the model keeps
what they hold (log entry 99). -/
def State.killTeam (s : State) (t : TeamRef) : State :=
  match s.core? t.part t.core with
  | none => s
  | some c =>
    match c.team? t.slot with
    | none => s
    | some u =>
      if (u.splits.any (mustComplete c u)) then
        s.atTeam t fun v => { v with dying := true, splits := v.splits.map (stopUnless c u) }
      else match u.kind with
        | .launched => (s.removeTeam t u true).refillCore t.part t.core
        | _ =>
          let e := ((u.splits.map fun x => x.entry).head?).getD ((leastFree Config.entryCount
            (c.teams.flatMap fun v => v.splits.map fun x => x.entry)).getD 0)
          ((((s.performTeam t).modPart t.part fun x => (x.detachTeam t.core t.slot).modCore t.core fun c =>
            c.withdraw u.gang t.slot fun _ => true).atTeam t fun v => v.restart e s.cycle)).refillCore t.part t.core

/-- A dying team ends as soon as it may (R377). -/
def State.reap (s : State) (t : TeamRef) : State :=
  match s.teamAt t with
  | some u => if u.dying then s.killTeam t else s
  | none => s

end Sys2Proof.Machine
end

