-- ==== Sys2Proof/Machine/Issue.lean ====
section
/-! DEFINITION. How an instruction of a split runs: the checks that come before its own causes (R66), its effect, and
its completion (R35, R86, R111, R129, R379). Every meaning of a word is written over `State.issue`. -/

namespace Sys2Proof.Machine

/-! ## Completion -/

/-- What completes with an instruction besides its own effect: its literals, the names it marks as read last and does
not write, whether it sweeps the lane quads, and whether R114 or R345 names it non-idempotent. -/
structure Shape where
  lits : Nat := 0
  marks : List Nat := []
  sweep : Bool := false
  nonIdem : Bool := false
  deriving DecidableEq, Repr

/-- The masks of a team's live splits other than one. -/
def State.otherMasks (s : State) (r : SplitRef) : List Mask :=
  ((s.placed (teamOf r)).filter fun x => x.1 ≠ .entry r.entry).map fun x => x.2.mask

/-- The marks of a completed instruction free their chunks (R86). -/
def State.freeMarks (s : State) (r : SplitRef) (names : List Nat) : State :=
  if names = [] then s
  else
    let others := s.otherMasks r
    s.modTeam r.part r.core r.slot fun t => t.free names (markWords (others = []) others)

/-- A completed sweep of the split that holds these lanes counts for the splits that wait in `yield` (R129). -/
def Core.noteSweep (c : Core) (slot : Nat) (m : Mask) : Core :=
  { c with teams := c.teams.map fun t => { t with splits := t.splits.map fun x =>
      match x.wait with
      | .yield since others => { x with wait := .yield since (others.filter fun o => !(o.1 = slot && m.getLsbD o.2)) }
      | _ => x } }

/-- A completed sweep in its team: the counter of R387, the end of the starvation rank (R90). -/
def Team.countSweep (t : Team) (sweep : Bool) : Team :=
  { t with sweeps := if sweep then t.sweeps + 1 else t.sweeps, rank := if sweep then none else t.rank }

/-- A split's instruction has completed its sweep: its team counts it, and so do the splits that wait in `yield` for it
(R129). -/
def State.sweepDone (s : State) (r : SplitRef) : State :=
  match s.split? r with
  | none => s
  | some sp => (s.modTeam r.part r.core r.slot fun t => t.countSweep true).modCore r.part r.core fun c => c.noteSweep r.slot sp.mask

/-- What completion does before the split moves on: marks, the sweep, and the split's own fields (R86, R111, R379). The
starvation rank ends with a sweep here, and with an issue on the scalar unit or the matrix engine in `State.noteIssue`. -/
def State.retire (s : State) (r : SplitRef) (d : Shape) : State :=
  match s.split? r with
  | none => s
  | some sp =>
    let s := ((s.freeMarks r d.marks).modTeam r.part r.core r.slot fun t => t.countSweep d.sweep).modSplit r fun x =>
      { x with
        issued := x.issued + 1, nonIdem := d.nonIdem, drawn := [], state := .ready, wait := .none, begun := false, sent := [] }
    if d.sweep then s.modCore r.part r.core fun c => c.noteSweep r.slot sp.mask else s

/-- Move a split to an address; at slot 0 it has reached a block (R100). A dying team ends once it may (R377). -/
def State.moveTo (s : State) (r : SplitRef) (pc : W64) : State :=
  ((s.modSplit r fun x => { x with pc := pc }).checkArrival r).reap (teamOf r)

/-- The address of the word after an instruction and its literals (R35, R44). -/
def Split.after (sp : Split) (lits : Nat) : W64 := sp.pc + BitVec.ofNat 64 (4 * (1 + lits))

/-- Complete a split's instruction and continue at the word after it, or elsewhere. -/
def State.complete (s : State) (r : SplitRef) (d : Shape) (dest : Option W64) : State :=
  match s.split? r with
  | none => s
  | some sp => (s.retire r d).moveTo r (dest.getD (sp.after d.lits))

/-! ## Effects -/

/-- How an instruction ends. -/
inductive Eff where
  /-- it completes, and the split continues at the word after it -/
  | done (s : State)
  /-- it completes, and the split continues at an address -/
  | jump (s : State) (pc : W64)
  /-- it does not complete in this step: the split waits, or tries again -/
  | stay (s : State)
  /-- it completes and divides the split's lanes among groups, the first given apart (R98) -/
  | part (s : State) (g : Group) (gs : List Group)
  /-- everything about the split has been settled -/
  | settled (s : State)
  /-- it traps -/
  | trap (t : Trap)

/-- An instruction about to execute: the checks of R66 that stand before its own causes, and its effect. -/
structure Act where
  /-- the team may execute it (R64) -/
  allowed : Bool := true
  /-- no field, name or code of it is reserved or illegal (trap 0x02) -/
  legal : Bool := true
  /-- it writes a scalar (R54) -/
  scalar : Bool := false
  /-- the mode fields that it reads hold values it accepts (trap 0x0E) -/
  typed : Bool := true
  shape : Shape := {}
  eff : Eff

/-- A trap without a memory access: VA is the address of the instruction word (R369). -/
def Ctx.cause (k : Ctx) (code : Nat) : Trap := { code := code, va := k.split.pc }

/-- The first cause that stands before the instruction's own, in the order of R66. -/
def Act.cause (a : Act) (k : Ctx) : Option Nat :=
  if !a.allowed then some 0x0B
  else if !a.legal then some 0x02
  else if a.scalar && !k.team.converged then some 0x04
  else if !a.typed then some 0x0E
  else none

/-- Carry out an effect for the split of a context. Of a branch that divides its split, the last-read marks act before the
division, by the rule of R86 for the team as it stands then: R37 has a mark act at the completion of the instruction, R98
divides the split in the same step, and which comes first is the model's choice (log entry 98). -/
def State.settle (s : State) (k : Ctx) (d : Shape) : Eff → State
  | .done s' => s'.complete k.r d none
  | .jump s' pc => s'.complete k.r d (some pc)
  | .stay s' => s'.modSplit k.r fun x => { x with begun := true }
  | .part s' g gs =>
    let s1 := s'.retire k.r d
    match s1.ctxAt k.r with
    | none => s1
    | some k' =>
      match s1.diverge k' g gs with
      | some s2 => s2.reap (teamOf k.r)
      | none => (s.raise k.r (k.cause 0x06)).reap (teamOf k.r)
  | .settled s' => s'
  | .trap t => (s.raise k.r t).reap (teamOf k.r)

/-- The mask words, by number, for which a split's next instruction has still to be given a lane quad (R88, R89). -/
def Split.pendingWords (x : Split) : List Nat := (List.range 32).filter fun w => maskWord x.mask w ≠ 0 && !x.sent.contains w

/-- A quad on which a split has a pending word. -/
def Split.onQuad (x : Split) (q : Nat) : Bool := x.pendingWords.any fun w => w % 4 = q

/-! ## Units (R19, R117, R134, R210, R268, R282, R284, R320, R346, R393) -/

/-- What an instruction issues on. -/
inductive IssueUnit where
  | lanes | scalar | matrix
  deriving DecidableEq, Repr

/-- The instructions that take one scalar-unit issue. -/
def scalarIssue : Instr → Bool
  | .bdnz _ _ | .mrd _ | .splitq _ _ | .yieldc _ _ _ => true
  | .sadd _ _ _ | .ssub _ _ _ | .smul _ _ _ | .sand _ _ _ | .sor _ _ _ | .sxor _ _ _ | .sshl _ _ _ | .sshr _ _ _
  | .smov _ _ | .smovl _ _ | .scmp _ _ _ | .sidr _ _ | .pcnt _ _ => true
  | .lds _ _ _ | .sts _ _ _ => true
  | .fence _ | .fencee _ | .binit _ _ | .barv _ | .barx _ _ | .bwait _ _ | .btry _ _ | .binv _ | .bexp _ _ => true
  | .gbar | .gbwait _ | .gbtry _ | .mon _ | .mwait | .mtry _ => true
  | .swait _ _ | .stry _ _ _ | .cqry _ _ | .cabort _ | .csync _ | .gang _ => true
  | .trap _ | .brkpt | .sysq _ _ | .csrr _ _ | .csrw _ _ | .tlbi _ | .tlbia | .fqpop _ | .fqrep _ | .fqkill _
  | .perf _ _ | .launch _ => true
  | _ => false

/-- The instructions on tiles and accumulators; those that also access memory among them (log entry 82). -/
def matrixIssue : Instr → Bool
  | .tcfg _ _ | .trd _ _ | .tzero _ | .tld _ _ _ | .tst _ _ _ | .tmov _ _ | .mma _ _ _ | .mmam _ _ _ | .mmab _ _ _
  | .acfg _ _ _ | .astat _ _ | .aclr _ | .aload _ _ _ | .adrain _ _ _ | .adrainp _ _ | .aswap _ _ | .amov _ _ => true
  | _ => false

def unitOf (i : Instr) : IssueUnit :=
  if scalarIssue i then .scalar else if matrixIssue i then .matrix else .lanes

/-- Does an issue of the split on a unit take quad n (0 to 3), the scalar unit (4) or the matrix engine (5)? -/
def Split.takes (x : Split) (u : IssueUnit) (n : Nat) : Bool :=
  match u with
  | .lanes => n < 4 && x.onQuad n
  | .scalar => n = 4
  | .matrix => n = 5

/-- How often each quad has passed over each split (R91), after some quads have been given to one. -/
def Team.notePassed (t : Team) (x : Split) (quads : List Nat) : List (Nat × Nat) :=
  quads.foldl (fun tbl q => t.splits.foldl (fun tbl y =>
    if y.entry = x.entry then tableSet 0 tbl (64 * q + y.entry) 0
    else if y.state = .ready && y.onQuad q then tableSet 0 tbl (64 * q + y.entry) (tableGet 0 tbl (64 * q + y.entry) + 1)
    else tbl) tbl) t.passed

/-- Some units, by number, are given to a split: the cycle counts as one with an issue (R90), the team's pointers of the units
stand at the split (R89, R92), and the quads have passed over the others (R91). -/
def Team.noteGiven (t : Team) (x : Split) (units : List Nat) (cycle : Nat) : Team :=
  { t with
    lastIssue := cycle
    given := t.given.zipIdx.map fun (e, n) => if units.contains n then x.entry else e
    passed := t.notePassed x (units.filter (· < 4)) }

/-- What an issue leaves in its team: the units are given, and off the lane quads the starvation rank ends (R90). -/
def Team.noteIssue (t : Team) (x : Split) (u : IssueUnit) (cycle : Nat) : Team :=
  { t.noteGiven x ((List.range 6).filter (x.takes u)) cycle with rank := if u = .lanes then t.rank else none }

/-- A quad is given to a split for the lowest of its pending words there; its instruction has begun (R89, R103). -/
def Team.noteWord (t : Team) (x : Split) (q cycle : Nat) : Team :=
  (t.noteGiven x [q] cycle).modSplit x.entry fun y =>
    { y with begun := true, sent := y.sent ++ (y.pendingWords.filter fun w => w % 4 = q).take 1 }

def State.noteIssue (s : State) (r : SplitRef) (u : IssueUnit) : State :=
  match s.split? r with
  | none => s
  | some x => s.modTeam r.part r.core r.slot fun t => t.noteIssue x u s.cycle

/-- The issue of the instruction of the split that `cur` names. The whole instruction takes one step: another split sees
all of its register writes or none (log entry 76). -/
def State.issue (s : State) (f : State → Ctx → Act) : Host.Outcome State Fault Refusal :=
  match s.ctx with
  | none => .fault .noIssuingSplit
  | some k =>
    let a := f s k
    match a.cause k with
    | some c => .next (s.settle k a.shape (.trap (k.cause c)))
    | none => .next (s.settle k a.shape a.eff)

/-! ## Writing registers -/

/-- Take the chunks that a write needs, and go on; where the reserve rule stops it, the split waits in waiting-memory
and the instruction is executed once the chunks are there (R83, R84). -/
def State.withChunks (s : State) (k : Ctx) (ws : List Put) (f : State → Eff) : Eff :=
  let need := chunksOf ws
  match k.core.takeChunks k.team need [] with
  | (_, got, []) => f (s.modTeam k.r.part k.r.core k.r.slot fun u => u.takeAll (got.map (·.1)))
  | (_, got, left) =>
    .stay ((s.modTeam k.r.part k.r.core k.r.slot fun u => u.takeAll (got.map (·.1))).modSplit k.r fun x =>
      { x with state := .waitingMemory, wait := .chunk left, drawn := x.drawn ++ got })

/-- Write containers whose chunks are there. -/
def State.putAll (s : State) (r : SplitRef) (ws : List Put) : State :=
  s.modTeam r.part r.core r.slot fun t => (t.puts ws).claim (chunksOf ws)

/-- An effect that writes lane registers or predicates and is done. -/
def State.writeLanes (s : State) (k : Ctx) (ws : List Put) : Eff :=
  s.withChunks k ws fun s => .done (s.putAll k.r ws)

/-- An effect that writes a scalar and is done. -/
def State.writeScalar (s : State) (k : Ctx) (d : SReg) (v : W64) : Eff :=
  .done (s.modTeam k.r.part k.r.core k.r.slot fun t => t.setScalar d v)

/-- Put the split into a wait. -/
def State.wait (s : State) (r : SplitRef) (st : SplitState) (w : Wait) : Eff :=
  .stay (s.modSplit r fun x => { x with state := st, wait := w })

/-- A predicate result in every lane of a split's mask, whatever the guard (R268). -/
def State.putPredAll (s : State) (r : SplitRef) (pd : PReg) (v : Bool) : State :=
  match s.ctxAt r with
  | none => s
  | some k => s.putAll r (putPreds pd k.lanes fun _ => v)

/-- End a wait with a predicate result, and complete the instruction that waited. -/
def State.finishWait (s : State) (r : SplitRef) (d : Shape) (res : Option (PReg × Bool)) : State :=
  let s := match res with
    | some (pd, v) => s.putPredAll r pd v
    | none => s
  s.complete r d none

end Sys2Proof.Machine
end

