-- ==== Sys2Proof/Machine/Barriers.lean ====
section
/-! DEFINITION. Named barriers (R260 to R273), the exchange of phased pairs (R233, R235), the grid barrier (R275 to
R282) and monitors (R283 to R287). -/

namespace Sys2Proof.Machine

/-! ## Handles (R261, R262) -/

def handleRemote (h : W64) : Bool := h.getLsbD 63
def handlePh (h : W64) : Bool := h.getLsbD 62
def handleSlot (h : W64) : Nat := field h.toNat 32 4
def handleCore (h : W64) : Nat := field h.toNat 16 13
def handleIndex (h : W64) : Nat := field h.toNat 0 9

/-- Step 1 of R262: a reserved bit, or TSLOT or LCORE with REMOTE = 0. -/
def handleReserved (h : W64) : Bool :=
  field h.toNat 36 26 ≠ 0 || field h.toNat 29 3 ≠ 0 || field h.toNat 9 7 ≠ 0 ||
  (!handleRemote h && (handleSlot h ≠ 0 || handleCore h ≠ 0))

/-- A barrier INDEX of the gang of a team slot, for an issuer's launch: the barrier's own number on that core, or
none where steps 3 and 4 of R262 fail. -/
def Partition.remoteBar (x : Partition) (launch l slot index : Nat) : Option Nat :=
  match x.core? l with
  | none => none
  | some c =>
    if c.absent then none
    else match c.team? slot with
      | none => none
      | some t =>
        if !sameLaunch t.launch launch then none
        else (c.gang? t.gang).bind fun g => g.bars[index]?

/-- The barrier that a handle names: its core and its number there, or the trap code (R262). -/
def Ctx.barrier (k : Ctx) (h : W64) (remoteOk : Bool) : Except Nat (Nat × Nat) :=
  if handleReserved h then .error 0x02
  else if handleRemote h then
    if !remoteOk then .error 0x02
    else match k.part.remoteBar k.team.launch (handleCore h) (handleSlot h) (handleIndex h) with
      | some b => .ok (handleCore h, b)
      | none => .error 0x10
  else match (k.core.gang? k.team.gang).bind fun g => g.bars[handleIndex h]? with
    | some b => .ok (k.r.core, b)
    | none => .error 0x10

/-! ## The exchange of a swap set (R235, R460) -/

/-- Every byte of a frame reads zero from now on. -/
def State.clearFrame (s : State) (tile phys frame : Nat) : State :=
  let lo := scratchLoc tile phys frame 0
  { s with
    mem := s.mem.filter fun c => !(lo ≤ c.1 && c.1 < lo + 16384)
    bad := s.bad.filter fun a => !(lo ≤ a && a < lo + 16384) }

/-- A machine byte of one of the two frames of pair k of a core. -/
def Core.inPair (c : Core) (k a : Nat) : Bool :=
  scratchLoc c.tile c.phys (2 * k) 0 ≤ a && a < scratchLoc c.tile c.phys (2 * k + 2) 0

/-- A held line that stands among some bytes. -/
def HeldLine.within (h : HeldLine) (f : Nat → Bool) : Bool := h.cells.any fun e => f e.1

/-- The data of the lines that engines hold among some bytes. -/
def Partition.heldAmong (x : Partition) (f : Nat → Bool) : List HeldLine :=
  x.cores.flatMap fun c => c.chans.flatMap fun (_, ch) => ch.queue.flatMap fun y => y.held.filter fun h => h.within f

/-- Those lines have been written: nothing is left of them but their count of bytes. -/
def Partition.emptyHeld (x : Partition) (f : Nat → Bool) : Partition :=
  { x with cores := x.cores.map fun c => { c with chans := c.chans.map fun (n, ch) => (n, { ch with queue := ch.queue.map fun y =>
      { y with held := y.held.map fun h => if h.within f then { h with cells := [] } else h } }) } }

/-- Every line that an engine holds in pair k of a core is written, whole, before the pair is exchanged (R235, R256). -/
def State.writePair (s : State) (p l k : Nat) : State :=
  match s.part? p, s.core? p l with
  | some x, some c =>
    (((x.heldAmong (c.inPair k)).foldl (fun s h => s.store p .engine h.cells) s)).modPart p fun y => y.emptyHeld (c.inPair k)
  | _, _ => s

/-- Every access to pair k that has been taken up is performed: what of it waits, and the lines that engines hold there. So it
reaches the bank that it was taken up for (R235, R460). -/
def State.settlePair (s : State) (p l k : Nat) : State :=
  match s.core? p l with
  | none => s
  | some c => (s.performWhere fun w => w.writer.part = p && w.locs.any (c.inPair k)).writePair p l k

def State.settlePairs (s : State) (p l : Nat) (ks : List Nat) : State := ks.foldl (fun s k => s.settlePair p l k) s

/-- The pairs of a valid barrier's swap set, and of the one that a configuration word names (R263). -/
def Core.barPairs (c : Core) (b : Nat) : List Nat :=
  let x := c.bar b
  if x.valid && x.swap then (List.range x.pairs).map (x.pair + ·) else []
def configPairs (v : W64) : List Nat :=
  if v.getLsbD 16 then (List.range (field v.toNat 24 7)).map (field v.toNat 17 7 + ·) else []

/-- Exchange front and shadow of pair k; the new shadow reads zero. Every access to the pair that has been taken up is
performed before (R235). -/
def State.swapPair (s : State) (p l k : Nat) : State :=
  let s := (s.settlePair p l k).modCore p l fun c =>
    { c with swapped := if c.swapped.contains (2 * k) then c.swapped.filter (· ≠ 2 * k) else c.swapped ++ [2 * k] }
  match s.core? p l with
  | none => s
  | some c => s.clearFrame c.tile c.phys (c.bankFrame (2 * k + 1))

def State.swapPairs (s : State) (p l first : Nat) : Nat → State
  | 0 => s
  | n + 1 => (s.swapPair p l (first + n)).swapPairs p l first n

/-! ## Completion (R266) -/

/-- The splits of a core that wait on a barrier, with the predicate each writes; `f` picks the waits. -/
def Core.waiters (c : Core) (f : Wait → Option (PReg × Bool)) : List (Nat × Nat × PReg × Bool) :=
  c.teams.flatMap fun t => t.splits.filterMap fun x =>
    (f x.wait).map fun (pd, arrival) => (t.slot, x.entry, pd, arrival)

/-- Release some waiting splits with a predicate result; `arrival` says that the instruction is non-idempotent. -/
def State.releaseAll (s : State) (p l : Nat) (v : Bool) : List (Nat × Nat × PReg × Bool) → State
  | [] => s
  | (slot, e, pd, arrival) :: rest =>
    (s.finishWait ⟨p, l, slot, e⟩ { nonIdem := arrival } (some (pd, v))).releaseAll p l v rest

/-- Waiting on the phase of barrier b that now ends. -/
def waitsPhase (b : Nat) : Wait → Option (PReg × Bool)
  | .bwait b' pd _ => if b = b' then some (pd, false) else none
  | .barx b' left pd => if b = b' ∧ left ≤ 1 then some (pd, true) else none
  | _ => none

/-- Waiting on barrier b for any phase. -/
def waitsBar (b : Nat) : Wait → Option (PReg × Bool)
  | .bwait b' pd _ => if b = b' then some (pd, false) else none
  | .barx b' _ pd => if b = b' then some (pd, true) else none
  | _ => none

/-- An arrival counted in the next phase now waits for the current one. -/
def Core.nextPhase (c : Core) (b : Nat) : Core :=
  { c with teams := c.teams.map fun t => { t with splits := t.splits.map fun x =>
      match x.wait with
      | .barx b' left pd => if b = b' then { x with wait := .barx b (left - 1) pd } else x
      | _ => x } }

def Barrier.full (b : Barrier) : Bool := b.valid && b.arrived = b.expect && b.pending = 0

/-- The counts and the phase after one completion. -/
def Barrier.turn (b : Barrier) : Barrier :=
  { b with phase := !b.phase, arrived := min b.early b.expect, early := b.early - min b.early b.expect }

/-- Complete a barrier, and again while it is full (R266). -/
def State.completeBar (s : State) (p l b : Nat) : Nat → State
  | 0 => s
  | fuel + 1 =>
    match s.core? p l with
    | none => s
    | some c =>
      let x := c.bar b
      if !x.full then s
      else
        let s := if x.swap then s.swapPairs p l x.pair x.pairs else s
        let go := c.waiters (waitsPhase b)
        let s := s.modCore p l fun c => (c.setBar b x.turn).nextPhase b
        (s.releaseAll p l true go).completeBar p l b fuel

/-- Complete a barrier if R266 is met. -/
def State.checkBar (s : State) (p l b : Nat) : State :=
  match s.core? p l with
  | none => s
  | some c => s.completeBar p l b ((c.bar b).early + 2)

/-! ## Arrivals (R264) -/

/-- What an arrival meets. -/
inductive Arrival where
  | invalid
  | crowded
  | counted (b : Barrier) (early : Bool)
  deriving DecidableEq, Repr

def Barrier.arrive (b : Barrier) : Arrival :=
  if !b.valid then .invalid
  else if b.early ≥ 65535 then .crowded
  else if b.arrived < b.expect then .counted { b with arrived := b.arrived + 1 } false
  else .counted { b with early := b.early + 1 } true

/-- Make the arrival of a split at barrier b of core l: `pd` is given for `barx`, whose split then waits (R270). A
`barv` completes with the count; an invalid barrier traps, as does one whose core is gone. -/
def State.arriveAt (s : State) (r : SplitRef) (l b : Nat) (pd : Option PReg) : State :=
  let s := s.performOwn r
  match s.core? r.part l, s.split? r with
  | some c, some sp =>
    match (c.bar b).arrive with
    | .invalid => (s.raise r { code := 0x10, va := sp.pc }).reap (teamOf r)
    | .crowded => s.modSplit r fun x => { x with state := .waitingBarrier, wait := .early l b pd }
    | .counted x early =>
      let s := s.modCore r.part l fun c => c.setBar b x
      let s := match pd with
        | some q => s.modSplit r fun y =>
            { y with state := .waitingBarrier, wait := .barx b (if early then 2 else 1) q }
        | none => s.complete r { nonIdem := true } none
      s.checkBar r.part l b
  | none, some sp => (s.raise r { code := 0x10, va := sp.pc }).reap (teamOf r)
  | _, _ => s

/-! ## Configuration (R263, R269, R272, R273) -/

def configOk (v : W64) : Bool :=
  let expect := field v.toNat 0 16
  let swap := v.getLsbD 16
  let pair := field v.toNat 17 7
  let pairs := field v.toNat 24 7
  expect ≠ 0 && pair + pairs ≤ 96 && (if swap then pairs ≠ 0 else pair = 0 && pairs = 0) && v.toNat < 2 ^ 31

/-- `binit` (R269). The pairs of the old swap set and of the new one are settled first: where a group's members stand in them
depends on the set (R460). -/
def State.initBar (s : State) (p l b : Nat) (v : W64) : State :=
  match s.core? p l with
  | none => s
  | some c =>
    let s := (s.settlePairs p l (c.barPairs b ++ configPairs v)).releaseAll p l false (c.waiters (waitsBar b))
    s.modCore p l fun c => c.setBar b
      { valid := true, expect := field v.toNat 0 16, arrived := 0, early := 0, phase := false, pending := 0
        gen := ((c.bar b).gen + 1) % 256, swap := v.getLsbD 16, pair := field v.toNat 17 7, pairs := field v.toNat 24 7 }

/-- `binv` (R272), once the pairs of the swap set are settled (R460). An arrival of `barx` that still waits for EARLY to have
room has not been counted: it goes on waiting, and meets an invalid barrier (log entry 25). -/
def State.invalidateBar (s : State) (p l b : Nat) : State :=
  match s.core? p l with
  | none => s
  | some c =>
    let s := (s.settlePairs p l (c.barPairs b)).releaseAll p l false (c.waiters (waitsBar b))
    s.modCore p l fun c =>
      let x := c.bar b
      c.setBar b { x with
        gen := (x.gen + 1) % 256, valid := false, arrived := 0, early := 0, pending := 0, swap := false, pair := 0
        pairs := 0 }

/-- The barrier after `bexp`, or the trap code (R273). -/
def Barrier.expectMore (b : Barrier) (v : W32) : Except Nat Barrier :=
  if !b.valid then .error 0x10
  else
    let e := (b.expect : Int) + v.toInt
    if e < 1 ∨ e > 65535 then .error 0x02
    else
      let n := e.toNat
      let excess := b.arrived - n
      if b.early + excess > 65535 then .error 0x02
      else .ok { b with expect := n, arrived := b.arrived - excess, early := b.early + excess }

/-! ## Pending bytes (R265) -/

/-- Subtract bytes under a captured GEN: a stale one is ignored and counted; at zero the barrier may complete. -/
def State.subtractPending (s : State) (p : Nat) (bar : Option (Nat × Nat × Nat)) (n : Nat) : State :=
  match bar with
  | none => s
  | some (l, b, gen) =>
    match s.core? p l with
    | none => s
    | some c =>
      let x := c.bar b
      if x.gen ≠ gen then s.modCore p l fun c => { c with stale := c.stale + 1 }
      else (s.modCore p l fun c => c.setBar b { x with pending := x.pending - n }).checkBar p l b

/-! ## The grid barrier -/

/-- A core's input to the tree (R275). -/
def Core.gridInput (c : Core) : Bool := c.garr || c.excuse

/-- The splits of a core that the release of phase `ph` reaches (R277). -/
def Core.gridWaiters (c : Core) (ph : Bool) : List (Nat × Nat × PReg × Bool) :=
  c.teams.flatMap fun t =>
    if t.grid = none ∨ t.grid = some ph then
      t.splits.filterMap fun x => match x.wait with
        | .grid pd _ => some (t.slot, x.entry, pd, false)
        | _ => none
    else []

/-- The release reaches one core (R277); an excuse bit that stood only for the first release after a quiesce is gone (R421),
but a core that no other has replaced yet keeps its own (R279). -/
def State.gridReach (s : State) (p l : Nat) : State :=
  match s.core? p l with
  | none => s
  | some c =>
    let go := c.gridWaiters c.gph
    let s := s.modCore p l fun c =>
      { c with
        garr := false, gph := !c.gph, excuse := c.excuse && (!c.excuseOnce || c.lost), excuseOnce := c.excuseOnce && c.lost
        teams := c.teams.map fun t => if go.any fun w => w.1 = t.slot then { t with grid := none } else t }
    s.releaseAll p l true go

/-- A grid reset (R280): every waiter receives 0, every GARR and record is cleared. -/
def State.gridReset (s : State) (p : Nat) : State :=
  match s.part? p with
  | none => s
  | some x =>
    let go (c : Core) : List (Nat × Nat × PReg × Bool) := c.teams.flatMap fun t => t.splits.filterMap fun y =>
      match y.wait with
      | .grid pd _ => some (t.slot, y.entry, pd, false)
      | _ => none
    let s := s.modPart p fun x =>
      { x with
        releasing := none
        cores := x.cores.map fun c =>
          { c with garr := false, teams := c.teams.map fun t => { t with grid := none } } }
    (List.range x.live).foldl (fun s l => match x.core? l with
      | none => s
      | some c => s.releaseAll p l false (go c)) s

/-! ## Monitors (R286) -/

/-- The result of a wait, and the monitor after it. -/
def Monitor.take (m : Monitor) : Bool × Monitor := (m.trig, { m with armed := m.armed && !m.trig })

def Monitor.ends (m : Monitor) : Bool := !m.armed || m.trig

/-- The wait of `mwait` or `mtry` ends: result and completion. -/
def State.finishMonitor (s : State) (r : SplitRef) (pd : Option PReg) : State :=
  match s.ctxAt r with
  | none => s
  | some k =>
    let (v, m) := k.team.monitor.take
    (s.modTeam r.part r.core r.slot fun t => { t with monitor := m }).finishWait r {} (pd.map fun q => (q, v))

end Sys2Proof.Machine
end

