-- ==== Sys2Proof/Machine/Reach.lean ====
section
/-! DEFINITION. Checked memory accesses: the causes of R213 in their order, the bank that an access reaches (R234,
R460), the lines that engines hold (R256), and the effect of reads and writes of several lanes (R211, R212). -/

namespace Sys2Proof.Machine

/-! ## One access -/

/-- What an access asks for: its class (R369), whether it writes, the kinds that let it pass (R202), whether a remote
access to a phased page goes to the shadow bank (R234), whether uncorrectable data stop it, and whether a span of two
pages is admitted only on KIND 0 (R202). -/
structure Want where
  cls : Nat
  write : Bool := false
  kinds : List Nat := [0, 2]
  shadow : Bool := false
  data : Bool := false
  oneLane : Bool := true
  deriving DecidableEq, Repr

/-- An access that has passed its checks: its machine bytes in order, the translations it used, and those of the bytes
that it reads through a HOME 00 or HOME 10 mapping, at their home slice (R204). -/
structure Reach where
  locs : List Nat
  pages : List (Nat × Xl)
  cached : List Nat := []
  deriving DecidableEq, Repr

/-- The bytes of translated pieces that are reached through HOME 00 or HOME 10. -/
def cachedLocs : List (Nat × Nat × Xl) → List Nat → List Nat
  | [], _ => []
  | (_, n, q) :: rest, locs =>
    (if q.kind = 0 && q.home % 2 = 0 then locs.take n else []) ++ cachedLocs rest (locs.drop n)

/-- Cut n bytes at a virtual address at the borders of 16 KiB pages: address and length of each piece. -/
def pieces : Nat → Nat → Nat → List (Nat × Nat)
  | 0, _, _ => []
  | fuel + 1, va, n =>
    let room := 16384 - va % 16384
    if n = 0 then [] else if n ≤ room then [(va, n)] else (va, room) :: pieces fuel (va + room) (n - room)

/-- The PPA of a piece in the bank that the access reaches (R234): `far` says that it counts as remote. -/
def bankPpa (w : Want) (far : Bool) (q : Xl) : Nat := if q.kind = 2 && w.shadow && far then q.ppa + 16384 else q.ppa

/-- Does an access of core l through this translation count as remote (R234)? -/
def remoteTo (l : Nat) (q : Xl) : Bool := field q.ppa 22 13 ≠ l

/-- Translate every piece. -/
def State.walkPieces (s : State) (x : Partition) (tile : Nat) (r : Req) : List (Nat × Nat) → Except (Nat × Nat) (List (Nat × Nat × Xl))
  | [] => .ok []
  | (va, n) :: rest =>
    match s.translate x tile r va with
    | .error c => .error (c, va)
    | .ok q => match s.walkPieces x tile r rest with
      | .error e => .error e
      | .ok qs => .ok ((va, n, q) :: qs)

/-- The machine bytes of a translated piece, or the first byte that R193 and R194 reject. -/
def Partition.pieceLocs (x : Partition) (ppa va : Nat) : Nat → Except Nat (List Nat)
  | 0 => .ok []
  | n + 1 =>
    match x.locOf ppa with
    | none => .error va
    | some a => match x.pieceLocs (ppa + 1) (va + 1) n with
      | .error e => .error e
      | .ok as => .ok (a :: as)

def allLocs (x : Partition) (w : Want) (far : Xl → Bool) : List (Nat × Nat × Xl) → Except Nat (List Nat)
  | [] => .ok []
  | (va, n, q) :: rest =>
    match x.pieceLocs (bankPpa w (far q) q) va n with
    | .error e => .error e
    | .ok as => match allLocs x w far rest with
      | .error e => .error e
      | .ok bs => .ok (as ++ bs)

/-- The first byte that holds uncorrectable data, by its place in the access. -/
def State.firstBad (s : State) (tag : Nat) (locs : List Nat) : Option Nat := locs.findIdx? fun a => s.badAt tag a

/-- Check one access of n bytes (R213): the code and the address of the first faulting byte, or what it reaches. -/
def State.reach (s : State) (x : Partition) (tile : Nat) (sup : Bool) (far : Xl → Bool) (w : Want) (ea : W64) (n : Nat) :
    Except (Nat × Nat) Reach :=
  if ea.toNat ≥ 2 ^ 58 then .error (0x09, ea.toNat)
  else
    let ps := pieces (n / 16384 + 2) ea.toNat n
    match s.walkPieces x tile { cls := w.cls, write := w.write, sup := sup, kindOk := fun k => w.kinds.contains k } ps with
    | .error e => .error e
    | .ok qs =>
      if w.oneLane && qs.length > 1 && qs.any fun q => q.2.2.kind ≠ 0 then .error (0x09, ea.toNat)
      else match allLocs x w far qs with
        | .error va => .error (0x09, va)
        | .ok locs =>
          match if w.data then s.firstBad x.tag locs else none with
          | some i => .error (0x11, ea.toNat + i)
          | none => .ok { locs := locs, pages := qs.map (fun q => (q.1, q.2.2)), cached := cachedLocs qs locs }

/-- The access of a team at an address. -/
def State.reachBy (s : State) (k : Ctx) (w : Want) (ea : W64) (n : Nat) : Except (Nat × Nat) Reach :=
  s.reach k.part k.core.tile k.team.sup (remoteTo k.r.core) w ea n

/-- Keep the translations of an access (R199, R200), and count the HOME 10 lines that find no way (R204). -/
def State.keepPages (s : State) (p l tile : Nat) (write : Bool) : List (Nat × Xl) → State
  | [] => s
  | (va, q) :: rest =>
    let s := s.keep p tile va write q
    let s := if q.home = 2 then
        (if Config.pinFails s.tick then s.modCore p l fun c => { c with unpinned := c.unpinned + 1 } else s)
      else s
    s.keepPages p l tile write rest

def State.keepReach (s : State) (k : Ctx) (write : Bool) (q : Reach) : State :=
  s.keepPages k.r.part k.r.core k.core.tile write q.pages

/-- The value of bytes, lowest first, as the partition reads them (R9, R208). -/
def State.readLocs (s : State) (tag : Nat) (locs : List Nat) : Nat := leNat (locs.map (s.byteAt tag))

/-- What an access reads (R205). -/
def State.reachBytes (s : State) (tag : Nat) (q : Reach) : List Byte :=
  q.locs.map fun a => if q.cached.contains a then s.cachedByte tag a else s.byteAt tag a

def State.readReach (s : State) (tag : Nat) (q : Reach) : Nat := leNat (s.reachBytes tag q)

/-! ## Lines that engines hold (R256, R257) -/

def Partition.heldLines (x : Partition) : List Nat :=
  x.cores.flatMap fun c => c.chans.flatMap fun (_, ch) => ch.queue.flatMap fun y => y.held.flatMap fun h =>
    h.cells.map fun e => e.1 / 64

/-- Does an access touch a line that an engine holds, or a frame of a core that does not answer? -/
def Partition.blocked (x : Partition) (locs : List Nat) : Bool :=
  let held := x.heldLines
  (held ≠ [] && locs.any fun a => held.contains (a / 64)) || x.silent locs

/-- An access of the partition from a tile waits: for an engine, for a core that does not answer, for a link. -/
def State.blocked (s : State) (x : Partition) (tile : Nat) (locs : List Nat) : Bool :=
  x.blocked locs || s.awaitsLink x tile locs

/-- What a core asks of another one waits for a link. -/
def State.awaitsCore (s : State) (x : Partition) (a b : Nat) : Bool :=
  s.awaitsTile x ((x.core? a).elim 0 Core.tile) ((x.core? b).elim 0 Core.tile)

/-! ## Several lanes -/

/-- A lane's access: its lane, its address, and the bytes it moves. -/
structure LaneAccess where
  lane : Nat
  ea : W64
  size : Nat
  deriving DecidableEq, Repr

/-- Check the accesses of the lanes in lane order: the trap of the lowest lane that meets a cause (R213), or what
each reaches. `align` is the code raised where an address is not a multiple of the size. -/
def State.reachLanes (s : State) (k : Ctx) (w : Want) (align : Option Nat) : List LaneAccess → Except Trap (List (LaneAccess × Reach))
  | [] => .ok []
  | a :: rest =>
    let bad := match align with
      | none => none
      | some c => if a.ea.toNat % a.size = 0 then none else some c
    match bad with
    | some c => .error { code := c, va := a.ea, cls := w.cls }
    | none =>
      match s.reachBy k w a.ea a.size with
      | .error (c, va) => .error { code := c, va := BitVec.ofNat 64 va, cls := w.cls }
      | .ok q => match s.reachLanes k w align rest with
        | .error t => .error t
        | .ok qs => .ok ((a, q) :: qs)

def State.keepLanes (s : State) (k : Ctx) (write : Bool) : List (LaneAccess × Reach) → State
  | [] => s
  | (_, q) :: rest => (s.keepReach k write q).keepLanes k write rest

/-- The reads that an access makes: one if it is aligned, otherwise one for each byte (R211). -/
def readsOf (a : LaneAccess) (q : Reach) : List LoadPart :=
  if a.ea.toNat % a.size = 0 then [{ locs := q.locs, cached := q.cached, got := none }]
  else q.locs.map fun loc => { locs := [loc], cached := q.cached.filter fun c => c = loc, got := none }

/-- What the reads of a load become in each lane: none for a load that is performed in the step that executes it. -/
def loadsOf (into : Option (Nat → LoadInto)) (qs : List (LaneAccess × Reach)) : List (LoadInto × List LoadPart) :=
  match into with
  | none => []
  | some f => qs.map fun (a, q) => (f a.lane, readsOf a q)

/-- The effect of a load: check, take chunks, wait for held lines, keep the translations, write the registers; some lanes
or bytes of a plain load are read later (R28, R242). -/
def State.loadLanes (s : State) (k : Ctx) (w : Want) (align : Option Nat) (as : List LaneAccess)
    (puts : (Nat → Nat) → List Put) (into : Option (Nat → LoadInto)) : Eff :=
  match s.reachLanes k w align as with
  | .error t => .trap t
  | .ok qs =>
    if qs.any fun q => s.blocked k.part k.core.tile q.2.locs then .stay s
    else
      let s := s.performMine k.r (qs.flatMap fun q => q.2.locs)
      let value (l : Nat) : Nat := match qs.find? fun q => q.1.lane = l with
        | none => 0
        | some q => s.readReach k.part.tag q.2
      s.withChunks k (puts value) fun s =>
        .done (((s.keepLanes k false qs).putAll k.r (puts value)).leaveLoads k.r k.part.tag (Config.late s.tick) (loadsOf into qs))

/-- Insert by key. -/
def insertBy {α : Type} (f : α → Nat) (a : α) : List α → List α
  | [] => [a]
  | b :: rest => if f a ≤ f b then a :: b :: rest else b :: insertBy f a rest

def sortBy {α : Type} (f : α → Nat) (l : List α) : List α := l.foldr (insertBy f) []

/-- Do two of several byte lists share a byte? -/
def overlap : List (List Nat) → Bool
  | [] => false
  | a :: rest => rest.any (fun b => a.any fun x => b.contains x) || overlap rest

/-- The parts of one lane's store, each with its place among the parts of other lanes: an aligned access is one part, any
other access one for each byte (R211). -/
def lanePartsOf (tick : Nat) : LaneAccess × Reach × List Byte → List (Nat × List (Nat × Byte))
  | (a, q, bs) =>
    if a.ea.toNat % a.size = 0 then [(Config.rank tick 0 a.lane, q.locs.zip bs)]
    else (q.locs.zip bs).map fun (loc, b) => (Config.rank tick (loc + 3) a.lane, [(loc, b)])

/-- The parts of several lanes' stores: in lane order where no two lanes meet, otherwise in a free order (R212). -/
def storeParts (tick : Nat) (ws : List (LaneAccess × Reach × List Byte)) : List (List (Nat × Byte)) :=
  let parts := ws.flatMap (lanePartsOf tick)
  (if overlap (ws.map fun w => w.2.1.locs) then sortBy (fun c : Nat × List (Nat × Byte) => c.1) parts else parts).map fun c => c.2

/-- Perform the stores of several lanes as write events of a split (R241, R285, R462), some of them later (R28, R245): after
the split's own earlier stores to the same bytes (R242). -/
def State.performStores (s : State) (r : SplitRef) (ws : List (LaneAccess × Reach × List Byte)) : State :=
  (s.performMine r (ws.flatMap fun w => w.2.1.locs)).performParts r (Config.late s.tick) (storeParts s.tick ws)

/-- The effect of a store: check, wait for held lines, keep the translations, perform. -/
def State.storeLanes (s : State) (k : Ctx) (w : Want) (align : Option Nat) (as : List LaneAccess) (bytes : Nat → List Byte) : Eff :=
  match s.reachLanes k w align as with
  | .error t => .trap t
  | .ok qs =>
    if qs.any fun q => s.blocked k.part k.core.tile q.2.locs then .stay s
    else .done ((s.keepLanes k true qs).performStores k.r (qs.map fun (a, q) => (a, q, bytes a.lane)))

end Sys2Proof.Machine
end

