-- ==== Sys2Proof/Machine/Control.lean ====
section
/-! DEFINITION. The control instructions (R117 to R133). -/

namespace Sys2Proof.Machine

/-! ## Shared by the family -/

/-- The word's slot in its fetch block (R35). -/
def slotOf (pc : W64) : Nat := pc.toNat % 64 / 4

/-- The address of the block that an offset names, relative to the block of an address (R40). -/
def blockAt {w : Nat} (pc : W64) (off : BitVec w) : W64 :=
  BitVec.ofNat 64 (pc.toNat / 64 * 64) + BitVec.ofInt 64 (64 * off.toInt)

/-- The link of a call: the offset of the word after it from PROGRAM (R115). -/
def Ctx.link (k : Ctx) : W32 := (k.split.after 0 - k.team.hdr.program).setWidth 32

/-- A branch of some lanes to a target, the others falling through (R121). -/
def branchEff (s : State) (k : Ctx) (taken : Nat → Bool) (tgt : W64) : Eff :=
  let go := k.lanes.filter taken
  let fall := k.lanes.filter fun l => !taken l
  if go = [] then .done s
  else if fall = [] then .jump s tgt
  else .part s ⟨k.split.after 0, fall⟩ [⟨tgt, go⟩]

/-- A transfer of every lane to an address of its own (R123). -/
def scatterEff (s : State) (k : Ctx) (dest : Nat → W64) : Eff :=
  match groupLanes (k.split.after 0) dest k.lanes with
  | [] => .done s
  | [g] => .jump s g.pc
  | g :: gs => .part s g gs

/-- A sweeping control instruction. -/
def sweeps (marks : List Nat := []) (lits : Nat := 0) : Shape := { lits := lits, marks := marks, sweep := true }

/-- A stamp value meets a target (R130, R316). -/
def stampMeets (v target : W64) : Bool := v.getLsbD 63 || field target.toNat 0 63 ≤ field v.toNat 0 63

/-- Read a stamp: the trap, or its reach (R130, R317). -/
def State.stampReach (s : State) (k : Ctx) (va : W64) : Except Trap Reach :=
  if va.toNat % 8 ≠ 0 then .error { code := 0x07, va := va, cls := 0 }
  else match s.reachBy k { cls := 0, data := true } va 8 with
    | .error (c, a) => .error { code := c, va := BitVec.ofNat 64 a, cls := 0 }
    | .ok q => .ok q

/-- The PPA of the first byte of an access. -/
def Reach.ppa (q : Reach) : Nat := match q.pages with
  | [] => 0
  | (_, x) :: _ => x.ppa


/-- Read a stamp, at issue and again in a wait: the trap; nothing while an engine holds its line (R256); or the value,
with the translation kept and the split's own stores to it performed. -/
def State.stampRead (s : State) (k : Ctx) (va : W64) : Except Trap (Option (State × W64)) :=
  match s.stampReach k va with
  | .error t => .error t
  | .ok q =>
    if s.blocked k.part k.core.tile q.locs then .ok none
    else
      let s := s.performMine k.r q.locs
      .ok (some (s.keepReach k false q, BitVec.ofNat 64 (s.readReach k.part.tag q)))

/-! ## Meanings -/

/-- R119. -/
def execNop (s : State) : Host.Outcome State Fault Refusal :=
  s.issue fun s _ => { shape := sweeps, eff := .done s }

/-- R120. -/
def execBr (off : BitVec 24) (s : State) : Host.Outcome State Fault Refusal :=
  s.issue fun s k => { shape := sweeps, eff := .jump s (blockAt k.split.pc off) }

/-- R121. -/
def execBrc (p : PSrc) (off : BitVec 16) (s : State) : Host.Outcome State Fault Refusal :=
  s.issue fun s k =>
    { shape := sweeps (markP p), eff := branchEff s k (fun l => k.guard l && k.p p l) (blockAt k.split.pc off) }

/-- R121. -/
def execBrnc (p : PSrc) (off : BitVec 16) (s : State) : Host.Outcome State Fault Refusal :=
  s.issue fun s k =>
    { shape := sweeps (markP p), eff := branchEff s k (fun l => k.guard l && !k.p p l) (blockAt k.split.pc off) }

/-- R122. -/
def execBru (p : PSrc) (off : BitVec 16) (s : State) : Host.Outcome State Fault Refusal :=
  s.issue fun s k =>
    { shape := sweeps (markP p)
      eff :=
        if k.acting = [] then .done s
        else if k.acting.all (k.p p) then .jump s (blockAt k.split.pc off)
        else if k.acting.all fun l => !k.p p l then .done s
        else .trap (k.cause 0x05) }

/-- An indirect transfer of the acting lanes by their offsets (R115, R123). -/
def indirectEff (s : State) (k : Ctx) (off : Nat → W32) : Eff :=
  if k.acting.any fun l => (off l).toNat % 64 ≠ 0 then .trap (k.cause 0x03)
  else scatterEff s k fun l => if k.guard l then k.team.hdr.program + (off l).setWidth 64 else k.split.after 0

/-- R123. -/
def execBrx (a : VSrc) (s : State) : Host.Outcome State Fault Refusal :=
  s.issue fun s k => { shape := sweeps (markV a 1), eff := indirectEff s k (k.v a) }

/-- R123. -/
def execRet (s : State) : Host.Outcome State Fault Refusal :=
  s.issue fun s k => { shape := sweeps, eff := indirectEff s k (k.team.lane 63) }

/-- Write the link in the taken lanes, then go on (R116). -/
def linkEff (s : State) (k : Ctx) (taken : List Nat) (f : State → Eff) : Eff :=
  let ws := putLanes 63 taken fun _ => k.link
  s.withChunks k ws fun s => f (s.putAll k.r ws)

/-- R124. -/
def execCall (off : BitVec 24) (s : State) : Host.Outcome State Fault Refusal :=
  s.issue fun s k =>
    { legal := slotOf k.split.pc = 15, shape := sweeps
      eff := linkEff s k k.acting fun s => branchEff s k k.guard (blockAt k.split.pc off) }

/-- R123: the targets are read before the link is written. -/
def execCallx (a : VSrc) (s : State) : Host.Outcome State Fault Refusal :=
  s.issue fun s k =>
    { legal := slotOf k.split.pc = 15, shape := sweeps ((markV a 1).filter (· ≠ 63))
      eff := if k.acting.any fun l => (k.v a l).toNat % 64 ≠ 0 then .trap (k.cause 0x03)
        else linkEff s k k.acting fun s => indirectEff s k (k.v a) }

/-- R125. -/
def execRcv (off : BitVec 24) (s : State) : Host.Outcome State Fault Refusal :=
  s.issue fun s k =>
    { shape := sweeps
      eff := .done (s.modSplit k.r fun x => { x with pending := some ((blockAt k.split.pc off).toNat / 64) }) }

/-- R126. -/
def execBdnz (a : SReg) (off : BitVec 16) (s : State) : Host.Outcome State Fault Refusal :=
  s.issue fun s k =>
    let v := k.s a - 1
    let s' := s.modTeam k.r.part k.r.core k.r.slot fun t => t.setScalar a v
    { scalar := true, eff := if v ≠ 0 then .jump s' (blockAt k.split.pc off) else .done s' }

/-- R127: the split's lanes leave the team; with its last lanes the team ends. -/
def execExit (c : Byte) (s : State) : Host.Outcome State Fault Refusal :=
  s.issue fun s k =>
    let t := teamOf k.r
    let s' := s.retire k.r { sweep := true, nonIdem := true }
    let s' := s'.atTeam t fun u => { u with successor := u.successor || c = 1 }
    let s' := s'.leave t (.entry k.r.entry) k.split
    { legal := Instr.wf (.exit c)
      eff := .settled (match s'.teamAt t with
        | some u => if u.liveSplits = 0 then s'.endTeam t else s'.reap t
        | none => s') }

/-- The arbiter's priority of a team (R80, R89). -/
def Team.priority (t : Team) : Nat := match t.kind with
  | .service => 4
  | .root => 3
  | .launched => t.hdr.prio

/-- The splits that a yielded split lets go first, resident and spilled (R129): those that are ready when it yields. One of
them that stops being ready without a sweep is waited for until the 32 cycles have passed. Log entry 90. -/
def State.yieldsTo (s : State) (k : Ctx) : List (Nat × Nat) :=
  (k.core.teams.filter fun t => t.slot = k.r.slot || t.priority ≥ k.team.priority).flatMap fun t =>
    (s.placed ⟨k.r.part, k.r.core, t.slot⟩).filterMap fun q =>
      if q.2.state = .ready && !(t.slot = k.r.slot && q.1 = .entry k.r.entry) then (lowestLane q.2.mask).map fun l => (t.slot, l)
      else none

/-- R129: the sweep is done when the split yields. -/
def execYield (s : State) : Host.Outcome State Fault Refusal :=
  s.issue fun s k => { eff := (s.sweepDone k.r).wait k.r .yielded (.yield s.cycle (s.yieldsTo k)) }

/-- R130. -/
def execYieldc (a b : SReg) (lit : W32) (s : State) : Host.Outcome State Fault Refusal :=
  s.issue fun s k =>
    let dest := blockAt k.split.pc (lit.extractLsb' 0 24)
    { legal := Instr.wf (.yieldc a b lit), shape := { lits := 1 }
      eff := match s.stampRead k (k.s a) with
        | .error t => .trap t
        | .ok none => .stay s
        | .ok (some (s', v)) =>
          if stampMeets v (k.s b) then .jump s' dest
          else s'.wait k.r .waitingMemory (.yieldc (k.s a) (k.s b) dest false) }

/-- The live-in mask that four literals give (R45, R131). -/
def liveInOf (w0 w1 w2 w3 : W32) : BitVec 128 := w3 ++ w2 ++ w1 ++ w0

/-- The split's region opens at its own word (R131). -/
def Split.openRegion (x : Split) (live : BitVec 128) : Split :=
  { x with
    regionPc := x.pc, regionMr := x.mr, liveIn := live
    gridCut := if x.gridCut = .zero ∧ x.pc = x.regionPc then .replay else .none }

/-- R131. -/
def execRegion (w0 w1 w2 w3 : W32) (s : State) : Host.Outcome State Fault Refusal :=
  s.issue fun s k =>
    { legal := Instr.wf (.region w0 w1 w2 w3), shape := sweeps [] 4
      eff := .done (s.modSplit k.r fun x => x.openRegion (liveInOf w0 w1 w2 w3)) }

/-- A write of the mode register (R56, R57). -/
def modeEff (s : State) (k : Ctx) (mr : W32) : Eff := .done (s.modSplit k.r fun x => { x with mr := mr })

/-- R132. -/
def execMode (a : SReg) (s : State) : Host.Outcome State Fault Refusal :=
  s.issue fun s k =>
    let mr := (k.s a).setWidth 32
    { legal := modeLegal mr, shape := sweeps, eff := modeEff s k mr }

/-- R132. -/
def execModei (lit : W32) (s : State) : Host.Outcome State Fault Refusal :=
  s.issue fun s k => { legal := modeLegal lit, shape := sweeps [] 1, eff := modeEff s k lit }

/-- R132. -/
def execModeg (g : Byte) (s : State) : Host.Outcome State Fault Refusal :=
  s.issue fun s k =>
    let mr := BitVec.ofNat 32 (k.split.mr.toNat / 32 * 32 + g.toNat % 32)
    { legal := Instr.wf (.modeg g) && modeLegal mr, shape := sweeps, eff := modeEff s k mr }

/-- R132. -/
def execMrd (d : SReg) (s : State) : Host.Outcome State Fault Refusal :=
  s.issue fun s k => { scalar := true, eff := s.writeScalar k d (k.split.mr.setWidth 64) }

/-- The values of R133. -/
def Ctx.splitValue (k : Ctx) (sel : Nat) : Nat :=
  match sel with
  | 0 => k.team.maxSpill
  | 1 => k.team.hdr.spill
  | 2 => k.team.divergences
  | 3 => k.team.meetFusions
  | 4 => k.team.rejoinFusions
  | 5 => k.core.freeEntries
  | 6 => k.core.freeRegisters
  | 7 => k.team.chunks.length
  | _ => k.core.freeChunks

/-- R133. -/
def execSplitq (d : SReg) (c : Byte) (s : State) : Host.Outcome State Fault Refusal :=
  s.issue fun s k =>
    { legal := Instr.wf (.splitq d c), scalar := true, eff := s.writeScalar k d (BitVec.ofNat 64 (k.splitValue c.toNat)) }

/-! ## Events of the family -/

/-- MEET_FUSION (R103). -/
def execMeetFusion (a b : SplitRef) (s : State) : Host.Outcome State Fault Refusal :=
  if s.frozen a then .next s else match s.split? a, s.split? b with
  | some x, some y => if teamOf a = teamOf b ∧ meets x y then .next (s.meet (teamOf a) x y) else .next s
  | _, _ => .next s

/-- SPILL_ROTATION (R111). -/
def execSpillRotation (r : SplitRef) (s : State) : Host.Outcome State Fault Refusal :=
  if s.frozen r then .next s else match s.ctxAt r with
  | none => .next s
  | some k =>
    if k.split.state = .ready ∧ k.mustRotate then .next (s.exchange (teamOf r) r.entry) else .next s

/-- A team that has had a ready split and issued nothing for 256 cycles gains the starvation rank (R90). -/
def Team.starve (t : Team) (cycle : Nat) : Team :=
  match t.readySince with
  | none => t
  | some c =>
    if t.rank = none ∧ max c t.lastIssue + Config.starvationLimit ≤ cycle then { t with rank := some cycle } else t

/-- A cycle passes for a team (R90): since when it has had a ready split, and the rank. -/
def Team.passCycle (t : Team) (cycle : Nat) : Team :=
  let since := if t.splits.any fun x => x.state = SplitState.ready then some (t.readySince.getD cycle) else none
  Team.starve { t with readySince := since } cycle

/-- STARVATION_RANK (R90); the passing of the cycles brings it about by itself. -/
def execStarvationRank (t : TeamRef) (s : State) : Host.Outcome State Fault Refusal :=
  .next (s.atTeam t fun u => u.starve s.cycle)

/-- CHUNK_GRANT (R84): the waiting write takes its next chunk; with the last one it is executed. -/
def execChunkGrant (r : SplitRef) (s : State) : Host.Outcome State Fault Refusal :=
  if s.frozen r then .next s else match s.ctxAt r with
  | none => .next s
  | some k =>
    match k.split.wait with
    | .chunk (key :: rest) =>
      let have_ := (tableFind k.team.chunks key).isSome
      if have_ || k.core.mayTake k.team then
        let own := decide (k.team.entryLeft > 0)
        let s := if have_ then s else s.atTeam (teamOf r) fun t => t.take key
        .next (s.modSplit r fun x =>
          { x with
            state := if rest = [] then .ready else .waitingMemory
            wait := if rest = [] then .none else .chunk rest
            drawn := if have_ then x.drawn else x.drawn ++ [(key, own)] })
      else .next s
    | _ => .next s

/-- YIELD_WAKE (R129). -/
def execYieldWake (r : SplitRef) (s : State) : Host.Outcome State Fault Refusal :=
  if s.frozen r then .next s else match s.split? r with
  | none => .next s
  | some sp =>
    match sp.wait with
    | .yield since others =>
      if others = [] ∨ since + Config.yieldLimit ≤ s.cycle then .next (s.complete r {} none) else .next s
    | _ => .next s

/-- YIELDC_WAKE (R130): the stamp is read again only after a write to its line. -/
def execYieldcWake (r : SplitRef) (s : State) : Host.Outcome State Fault Refusal :=
  if s.frozen r then .next s else match s.ctxAt r with
  | none => .next s
  | some k =>
    match k.split.wait with
    | .yieldc va target dest true =>
      match s.stampRead k va with
      | .error t => .next ((s.raise r t).reap (teamOf r))
      | .ok none => .next s
      | .ok (some (s', v)) =>
        if stampMeets v target then .next (s'.complete r { lits := 1 } (some dest))
        else .next (s'.modSplit r fun x => { x with wait := .yieldc va target dest false })
    | _ => .next s

end Sys2Proof.Machine
end

