-- ==== Sys2Proof/Machine/Tiles.lean ====
section
/-! DEFINITION. Tiles, accumulators and the joint matrix instructions (R322 to R343). -/

namespace Sys2Proof.Machine

/-! ## The tile control word (R323) -/

def ctlTag (v : W64) : Nat := field v.toNat 48 16
def ctlScOff (v : W64) : Nat := field v.toNat 40 8
def ctlSct (v : W64) : Nat := field v.toNat 36 4
def ctlScen (v : W64) : Bool := v.getLsbD 35
def ctlRbytes (v : W64) : Nat := field v.toNat 16 9
def ctlRows (v : W64) : Nat := field v.toNat 8 7
def ctlFmt (v : W64) : Nat := field v.toNat 0 4

/-- The values that `tcfg` accepts, given TILES (R347). -/
def ctlOk (v : W64) (tiles : Nat) : Bool :=
  field v.toNat 25 10 = 0 && field v.toNat 15 1 = 0 && field v.toNat 4 4 = 0 && ctlFmt v ≤ 8 &&
  1 ≤ ctlRows v && ctlRows v ≤ 64 && 1 ≤ ctlRbytes v && ctlRbytes v ≤ 256 && ctlSct v < tiles &&
  (ctlScen v || (ctlSct v = 0 && ctlScOff v = 0))

/-! ## Names (R322) -/

def Gang.tile (g : Gang) (n : Nat) : Nat := g.tiles.getD n 0
def Gang.acc (g : Gang) (n : Nat) : Nat := g.accs.getD n 0

def Tile.byteAt (t : Tile) (r b : Nat) : Nat := (tableGet 0 t.bytes (256 * r + b)).toNat

/-- n bytes of a row from byte b on, as a little-endian number. -/
def Tile.number (t : Tile) (r b n : Nat) : Nat := fromElements 8 (fun i => t.byteAt r (b + i)) n

/-- Write bytes of a row from its first one on. -/
def Tile.putRow (t : Tile) (r : Nat) (bs : List Byte) : Tile :=
  { t with bytes := bs.zipIdx.foldl (fun m (v, b) => tableSet 0 m (256 * r + b) v) t.bytes }

def Acc.entry (a : Acc) (i j : Nat) : W64 := tableGet 0 a.entries (64 * i + j)
def Acc.setEntry (a : Acc) (i j : Nat) (v : W64) : Acc := { a with entries := tableSet 0 a.entries (64 * i + j) v }
def Acc.note (a : Acc) (bits : BitVec 5) : Acc := { a with status := a.status ||| bits }

/-- The status bits of R330. -/
def statSat : BitVec 5 := 1
def statOvf : BitVec 5 := 2
def statInv : BitVec 5 := 4
def statInx : BitVec 5 := 8


/-- RoundD (R331): the pattern and the status bits it sets. -/
def roundD (x : Num) : W64 × BitVec 5 :=
  let r := fmtF64.roundFull 0 false x
  (BitVec.ofNat 64 r.bits,
    (if x = .nan then statInv else 0) ||| (if r.above then statOvf ||| statInx else 0) ||| (if r.inexact then statInx else 0))

def numD (v : W64) : Num := fmtF64.value v.toNat

/-- An I-mode sum clamped to int64. -/
def clampI (t : Int) : W64 × BitVec 5 :=
  (BitVec.ofNat 64 (narrow true true 64 t), if clamp true 64 t = t then 0 else statSat)

/-! ## Operands (R324, R325, R336) -/

/-- K of a tile's rows, where its RBYTES gives an integral one (R325). -/
def kOf (ctl : W64) : Option Nat :=
  let rb := ctlRbytes ctl
  let f := ctlFmt ctl
  if f ≤ 3 then some rb
  else if f = 4 ∨ f = 5 then (if rb % 2 = 0 then some (rb / 2) else none)
  else if f = 6 then (if rb % 32 = 0 then some rb else none)
  else if f = 7 then (if rb % 8 = 0 then some (rb / 8) else none)
  else none

/-- Element k of a bit-plane row of K elements, read from its top planes (R325). -/
def planeElement (t : Tile) (planes k r n : Nat) : Int :=
  signedOf planes (fromElements 1 (fun q =>
    t.number r (4 * ((planes - 1 - q) * (k / 32) + n / 32)) 4 / 2 ^ (n % 32)) planes)

/-- The format of a floating-point tile format. -/
def tileFmt (f : Nat) : Fmt := if f = 2 then fmtE4M3 else if f = 3 then fmtE5M2 else if f = 4 then fmtBF16 else fmtF16

/-- Element n of row r, of K, as an exact value before scaling. -/
def rawElement (t : Tile) (planes k r n : Nat) : Num :=
  match ctlFmt t.ctl with
  | 0 => Num.ofInt (signedOf 8 (t.byteAt r n))
  | 1 => Num.ofInt (t.byteAt r n)
  | 6 => Num.ofInt (planeElement t planes k r n)
  | 7 => Num.ofInt (t.number r (8 * n) 8)
  | f => if f ≤ 3 then (tileFmt f).value (t.byteAt r n) else (tileFmt f).value (t.number r (2 * n) 2)

/-- The same with its block scale, `sc` being the scale tile (R336). -/
def scaledElement (t sc : Tile) (planes k r n : Nat) : Num :=
  let x := rawElement t planes k r n
  if ctlScen t.ctl then
    let v := sc.byteAt r (ctlScOff t.ctl + n / 16)
    if v = 0xFF then .nan else x.scale ((v : Int) - 127)
  else x

/-- The integer of an element that is one. -/
def Num.int : Num → Int
  | .fin n m e _ => signedAt n m e 0
  | _ => 0

/-! ## Checks (R327, R328, R335, R341) -/

/-- A tile with the control tag of its contents (R327). -/
def Tile.tagOk (t : Tile) : Bool := ctlTag t.ctl = t.tag

/-- The rows and row bytes used lie within the filled ones (R328, first condition). -/
def Tile.shapeOk (t : Tile) : Bool := ctlRows t.ctl ≤ t.rows && ctlRbytes t.ctl ≤ t.rbytes

def eightBit (f : Nat) : Bool := f = 0 || f = 1
def eightFloat (f : Nat) : Bool := f = 2 || f = 3
def halfFloat (f : Nat) : Bool := f = 4 || f = 5

/-- The formats, modes and scales of R335. -/
def formatsOk (op : MatOp) (fa fb mode : Nat) (scaled : Bool) : Bool :=
  match op with
  | .mma =>
    (eightBit fa && eightBit fb && (mode = 0 || (mode = 1 && !scaled))) ||
    (eightFloat fa && eightFloat fb && mode = 0) || (halfFloat fa && halfFloat fb && mode = 0 && !scaled)
  | .mmab =>
    fa = 6 && ((mode = 0 && (fb = 6 || eightBit fb || eightFloat fb)) || (mode = 1 && !scaled && (fb = 6 || eightBit fb)))
  | .mmam => fa = 7 && fb = 7 && mode = 2 && !scaled

/-- The scale tile fits its operand of K elements (R328). -/
def scaleOk (t sc : Tile) (k : Nat) : Bool :=
  !ctlScen t.ctl || (ctlFmt sc.ctl = 8 && ctlRows t.ctl ≤ ctlRows sc.ctl &&
    ctlScOff t.ctl + (k + 15) / 16 ≤ ctlRbytes sc.ctl && sc.shapeOk)

/-- The operands of a joint instruction. -/
structure Joint where
  a : Tile
  b : Tile
  sa : Tile
  sb : Tile
  acc : Acc
  deriving DecidableEq, Repr

/-- A tile with its control as it stood when the rendezvous completed (R347). -/
def Core.latchedTile (c : Core) (h : Latch) (i : Nat) : Tile :=
  { c.tileAt i with ctl := (tableFind h.ctls i).getD (c.tileAt i).ctl }

/-- The tiles that a joint instruction reads, by the core's numbers. -/
def Core.jointTiles (c : Core) (g : Gang) (h : Latch) : List Nat :=
  let ia := g.tile h.xa.toNat
  let ib := g.tile h.xb.toNat
  let sc (i : Nat) : List Nat := if ctlScen (c.latchedTile h i).ctl then [g.tile (ctlSct (c.latchedTile h i).ctl)] else []
  [ia, ib] ++ sc ia ++ sc ib

def Core.joint (c : Core) (g : Gang) (h : Latch) : Joint :=
  let a := c.latchedTile h (g.tile h.xa.toNat)
  let b := c.latchedTile h (g.tile h.xb.toNat)
  { a := a, b := b, sa := c.latchedTile h (g.tile (ctlSct a.ctl)), sb := c.latchedTile h (g.tile (ctlSct b.ctl))
    acc := c.accAt (g.acc h.ad.toNat) }

/-- The first cause of R341. -/
def Joint.cause (j : Joint) (op : MatOp) (planes : Nat) : Option Nat :=
  let scaled := ctlScen j.a.ctl || ctlScen j.b.ctl
  if op = .mmab && !(2 ≤ planes && planes ≤ 8) then some 0x0E
  else if !j.a.tagOk || !j.b.tagOk || (ctlScen j.a.ctl && !j.sa.tagOk) || (ctlScen j.b.ctl && !j.sb.tagOk) then some 0x0C
  else if !formatsOk op (ctlFmt j.a.ctl) (ctlFmt j.b.ctl) j.acc.mode scaled then some 0x0D
  else match kOf j.a.ctl, kOf j.b.ctl with
    | some ka, some kb =>
      if ka = kb && j.a.shapeOk && j.b.shapeOk && scaleOk j.a j.sa ka && scaleOk j.b j.sb kb then none else some 0x0D
    | _, _ => some 0x0D

/-! ## Arithmetic (R337 to R340) -/

/-- The exact sum of some products. -/
def sumProducts : List Num → Num
  | [] => .zero false
  | x :: rest => rest.foldl (Num.add 0) x

/-- One entry under a joint instruction, from its K pairs of elements: the entry and its status bits. -/
def jointEntry (op : MatOp) (fmt mode q : Nat) (old : W64) (ps : List (Num × Num)) : W64 × BitVec 5 :=
  match op with
  | .mmam =>
    (BitVec.ofNat 64 (((old.toNat : Int) + ps.foldl (fun t (x, y) => t + x.int * y.int) 0) % (q : Int)).toNat,
      if ps.any fun (x, y) => (q : Int) ≤ x.int || (q : Int) ≤ y.int then statModr else 0)
  | _ =>
    if mode = 1 then clampI (old.toInt + ps.foldl (fun t (x, y) => t + x.int * y.int) 0)
    else if halfFloat fmt then ps.foldl (fun (t, st) (x, y) =>
        let (v, more) := roundD (Num.add 0 (numD t) (Num.mul x y))
        (v, st ||| more)) (old, 0)
    else roundD (Num.add 0 (numD old) (sumProducts (ps.map fun (x, y) => Num.mul x y)))

/-- The accumulator after a joint instruction: entries with i < M and j < N (R340). -/
def Joint.perform (j : Joint) (op : MatOp) (planes : Nat) : Acc :=
  let k := (kOf j.a.ctl).getD 0
  let fmt := ctlFmt j.a.ctl
  let q := j.acc.modulus.toNat
  (List.range (min 64 (ctlRows j.a.ctl))).foldl (fun acc i =>
    (List.range (min 64 (ctlRows j.b.ctl))).foldl (fun acc n =>
      let ps := (List.range k).map fun e => (scaledElement j.a j.sa planes k i e, scaledElement j.b j.sb planes k n e)
      let (v, st) := jointEntry op fmt j.acc.mode q (acc.entry i n) ps
      (acc.setEntry i n v).note st) acc) j.acc

/-! ## The rendezvous latch (R332 to R334) -/

/-- The latch empties; splits behind it arrive again. -/
def Core.emptyLatch (c : Core) (g : Nat) : Core := (c.modGang g fun x => { x with latch := none }).wakeBehind g

/-- Stop every held split with a trap. -/
def State.raiseHeld (s : State) (p l code : Nat) : List (Nat × Nat) → State
  | [] => s
  | (slot, e) :: rest =>
    let r : SplitRef := ⟨p, l, slot, e⟩
    let s := match s.split? r with
      | none => s
      | some sp => (s.raise r { code := code, va := sp.pc }).reap (teamOf r)
    s.raiseHeld p l code rest

/-- Every held split continues. -/
def State.completeHeld (s : State) (p l : Nat) : List (Nat × Nat) → State
  | [] => s
  | (slot, e) :: rest => (s.complete ⟨p, l, slot, e⟩ { nonIdem := true } none).completeHeld p l rest

/-- A complete rendezvous: it waits while a tile it reads is busy; then it is checked, and performed once or raised in
every held split (R341). -/
def State.finishLatch (s : State) (p l g : Nat) : State :=
  let s := s.performMatrix p l
  match s.core? p l with
  | none => s
  | some c =>
    match c.gang? g with
    | none => s
    | some x =>
      match x.latch with
      | none => s
      | some h =>
        if !h.complete then s
        else if (c.jointTiles x h).any fun i => 0 < (c.tileAt i).busy then s
        else
          let j := c.joint x h
          match j.cause h.op h.planes with
          | some code => (s.modCore p l fun c => c.emptyLatch g).raiseHeld p l code h.joined
          | none =>
            let s := s.modCore p l fun c => (c.setAcc (x.acc h.ad.toNat) (j.perform h.op h.planes)).emptyLatch g
            s.completeHeld p l h.joined

/-- The same for every gang of a core: a tile's busy mark has cleared. -/
def State.finishLatches (s : State) (p l : Nat) : State :=
  match s.core? p l with
  | none => s
  | some c => (c.gangs.map fun x => x.id).foldl (fun s g => s.finishLatch p l g) s

/-- An arrival carries what the open rendezvous does (R333). -/
def Latch.matches_ (h k : Latch) : Bool :=
  h.op = k.op && h.ad = k.ad && h.xa = k.xa && h.xb = k.xb && h.gangReg = k.gangReg && h.planes = k.planes

/-- Every team that the gang register names has joined. -/
def Core.latchFull (c : Core) (g : Nat) (h : Latch) : Bool :=
  (List.range 6).all fun i => !h.gangReg.getLsbD i ||
    h.joined.any fun (slot, _) => c.teams.any fun t => t.slot = slot && t.gang = g && t.gangix = i

/-- The arrival of a split at its gang's latch (R333). -/
def State.arriveLatch (s : State) (k : Ctx) (op : MatOp) (ad : AReg) (xa xb : XReg) : State :=
  let g := k.team.gang
  let me : Nat × Nat := (k.r.slot, k.r.entry)
  let new : Latch :=
    { op := op, ad := ad, xa := xa, xb := xb, gangReg := k.team.gangReg
      planes := if op = .mmab then modePlanes k.split.mr else 0
      opened := s.cycle, joined := [me], complete := false }
  let open_ := (k.core.gang? g).bind fun x => x.latch
  let joined : Option Latch := match open_ with
    | none => some new
    | some h =>
      if !h.complete && h.matches_ new && !(h.joined.any fun q => q.1 = k.r.slot) then some { h with joined := h.joined ++ [me] }
      else none
  match joined with
  | none => s.modSplit k.r fun x => { x with state := .waitingBarrier, wait := .behind, begun := true }
  | some h =>
    let tiles := match k.core.gang? g with
      | none => []
      | some x => x.tiles
    let full := k.core.latchFull g h
    let h := { h with
      complete := full
      ctls := if full then tiles.foldl (fun t i => tablePut t i (k.core.tileAt i).ctl) [] else h.ctls }
    let s := s.modSplit k.r fun x => { x with state := .waitingBarrier, wait := .latch, begun := true }
    (s.modCore k.r.part k.r.core fun c => c.modGang g fun x => { x with latch := some h }).finishLatch k.r.part k.r.core g

end Sys2Proof.Machine
end

