-- ==== Sys2Proof/Machine/Engine.lean ====
section
/-! DEFINITION. The copy engine (R289 to R314): templates, argument records, acceptance, the lines of a copy, stamps,
and copies that end in error. -/

namespace Sys2Proof.Machine

/-! ## Templates (R294, R295) -/

def bytesTemplate (bs : List Byte) : Template :=
  let ctrl := bytesAt bs 0 2
  let cm := bytesAt bs 4 2
  let bar := bytesAt bs 6 2
  { valid := ctrl % 2 = 1, dims := field ctrl 1 2, dst := field ctrl 3 2, scope := field ctrl 5 3
    conv := field ctrl 8 1 = 1, ctrlRsv := field ctrl 9 7, epoch := bytesAt bs 2 2
    srcType := field cm 0 4, dstType := field cm 4 4, rnd := field cm 8 3, sat := field cm 11 1 = 1, convRsv := field cm 12 4
    barEn := field bar 15 1 = 1, barIndex := field bar 0 9, barRsv := field bar 9 6
    ext0 := bytesAt bs 8 4, ext1 := bytesAt bs 12 4, ext2 := bytesAt bs 16 4
    tag := bytesAt bs 20 2, tagRsv := bytesAt bs 22 2
    sstr1 := signedOf 32 (bytesAt bs 24 4), sstr2 := signedOf 32 (bytesAt bs 28 4)
    dstr1 := signedOf 32 (bytesAt bs 32 4), dstr2 := signedOf 32 (bytesAt bs 36 4)
    relStamp := BitVec.ofNat 64 (bytesAt bs 40 8), visStamp := BitVec.ofNat 64 (bytesAt bs 48 8)
    tailRsv := bytesAt bs 56 8 }

/-- Source and destination element bytes: 1 and 1 without conversion. -/
def Template.ws (t : Template) : Nat := if t.conv then typeWidth t.srcType / 8 else 1
def Template.wd (t : Template) : Nat := if t.conv then typeWidth t.dstType / 8 else 1

/-- The run length in destination bytes, and the payload. -/
def Template.runLen (t : Template) : Nat := t.ext0 * t.wd / t.ws
def Template.payload (t : Template) : Nat := t.runLen * t.ext1 * t.ext2

/-- A valid template (R295, with the ranges of R294). -/
def Template.ok (t : Template) : Bool :=
  t.valid && t.ctrlRsv = 0 && t.convRsv = 0 && t.barRsv = 0 && t.tagRsv = 0 && t.tailRsv = 0 &&
  1 ≤ t.dims && t.dims ≤ 3 &&
  1 ≤ t.ext0 && t.ext0 ≤ 16777216 && 1 ≤ t.ext1 && t.ext1 ≤ 65536 && 1 ≤ t.ext2 && t.ext2 ≤ 65536 &&
  (t.dims ≠ 1 || (t.ext1 = 1 && t.sstr1 = 0 && t.dstr1 = 0)) &&
  (t.dims = 3 || (t.ext2 = 1 && t.sstr2 = 0 && t.dstr2 = 0)) &&
  2 ≤ t.scope && t.scope ≤ 5 &&
  (if t.conv then cvtPair t.srcType t.dstType && t.rnd ≤ 4 && t.ext0 % t.ws = 0
   else t.srcType = 0 && t.dstType = 0 && t.rnd = 0 && !t.sat) &&
  (t.dst ≠ 1 || (t.dims ≤ 2 && 1 ≤ t.runLen && t.runLen ≤ 256 && t.ext1 ≤ 64 && t.dstr1 = 0)) &&
  (t.dst ≠ 2 || 2 ≤ t.dims) &&
  (t.dst ≠ 3 || t.scope = 5) &&
  (t.dst = 1 || t.tag = 0) &&
  t.relStamp.toNat % 8 = 0 && t.visStamp.toNat % 8 = 0 &&
  t.payload < 2 ^ 40

/-- The bytes of a template as an engine finds them: word by word the cached ones or those in memory (R293, R314); one
cached from an earlier table stays in use as it is until a `csync` (R367). -/
def State.templateBytes (s : State) (x : Partition) (l lane i : Nat) : Except Nat (List Byte) :=
  let ppa := x.csr.ttbase.toNat + 64 * i
  let fresh : Except Nat (List Byte) := match x.locsOf ppa 64 with
    | none => .error 0x09
    | some locs => if locs.any (s.badAt x.tag) then .error 0x11 else .ok (s.ppaBytes x ppa 64)
  match x.tcache.find? fun e => e.1 = l && e.2.1 = i with
  | none => fresh
  | some (_, _, base, old) =>
    if base ≠ x.csr.ttbase then .ok old else
    match fresh with
    | .error c => if Config.useCachedTemplate s.tick (8 * lane) then .ok old else .error c
    | .ok new => .ok ((List.range 8).flatMap fun w =>
        ((if Config.useCachedTemplate s.tick (8 * lane + w) then old else new).drop (8 * w)).take 8)

/-- The engine of a core keeps a template (R314). -/
def Partition.cacheTemplate (x : Partition) (l i : Nat) (bs : List Byte) : Partition :=
  { x with tcache :=
      if x.tcache.any fun e => e.1 = l && e.2.1 = i && e.2.2.1 ≠ x.csr.ttbase then x.tcache
      else (l, i, x.csr.ttbase, bs) :: x.tcache.filter fun e => !(e.1 = l && e.2.1 = i) }

/-! ## Argument records (R296, R297) -/

def bytesArg (bs : List Byte) : ArgRecord :=
  { src := BitVec.ofNat 64 (bytesAt bs 0 8), dst := BitVec.ofNat 64 (bytesAt bs 8 8), seq := BitVec.ofNat 64 (bytesAt bs 16 8)
    epoch := bytesAt bs 24 2, rsv := bytesAt bs 26 6 + 2 ^ 48 * bytesAt bs 40 24, barh := BitVec.ofNat 64 (bytesAt bs 32 8) }

/-- The binding that a peer destination names. -/
def ArgRecord.binding (a : ArgRecord) : Nat := field a.dst.toNat 60 4

def Partition.bound (x : Partition) (b : Nat) : Bool := x.bindings.any fun y => y.b = b

/-- A valid record for a template, a team's TILES and a partition's bindings. -/
def ArgRecord.ok (a : ArgRecord) (t : Template) (tiles : Nat) (x : Partition) : Bool :=
  a.rsv = 0 && !a.seq.getLsbD 63 && a.epoch = t.epoch &&
  (t.dst ≠ 1 || (field a.dst.toNat 0 4 < tiles && a.dst.toNat < 16)) &&
  (t.dst ≠ 3 || (x.bound a.binding && field a.dst.toNat 58 2 = 0)) &&
  (if t.barEn then !handleReserved a.barh && !handlePh a.barh && handleIndex a.barh = 0 else a.barh = 0)

/-- The handle of the barrier that a copy counts into. -/
def copyHandle (t : Template) (a : ArgRecord) : W64 := a.barh ||| BitVec.ofNat 64 t.barIndex

/-- That barrier, while it is valid: core, number, GEN. -/
def Ctx.copyBar (k : Ctx) (t : Template) (a : ArgRecord) : Option (Nat × Nat × Nat) :=
  match k.barrier (copyHandle t a) true with
  | .error _ => none
  | .ok (l, b) =>
    match k.part.core? l with
    | none => none
    | some c => if (c.bar b).valid then some (l, b, (c.bar b).gen) else none

/-! ## Group descriptors (R222, R223) -/

/-- The words of a descriptor: HEAD, then the members that its COUNT names. -/
def State.groupFresh (s : State) (x : Partition) (ppa : Nat) : Except Nat (List W64) :=
  let word (off : Nat) : Except Nat W64 := match x.locsOf (ppa + off) 8 with
    | none => .error 0x09
    | some locs => if locs.any (s.badAt x.tag) then .error 0x11 else .ok (s.ppaWord x (ppa + off))
  match word 0 with
  | .error c => .error c
  | .ok h =>
    if h.toNat = 0 ∨ 64 < h.toNat then .error 0x09
    else match (List.range h.toNat).mapM fun j => word (64 + 8 * j) with
      | .error c => .error c
      | .ok ws => .ok (h :: ws)

/-- The words that the RTU of a tile uses: kept ones, those in memory, and where they differ either (R200). -/
def State.groupWords (s : State) (x : Partition) (tile ppa : Nat) : Except Nat (List W64) :=
  let fresh := s.groupFresh x ppa
  match x.rtuGroups.find? fun g => g.tile = tile && g.ppa = ppa with
  | none => fresh
  | some g =>
    match fresh with
    | .ok m => if m = g.words then .ok m else if Config.useCached s.tick 5 then .ok g.words else .ok m
    | .error c => if Config.useCached s.tick 5 then .ok g.words else .error c

/-- A member entry: logical core and frame. -/
def memberOf (w : W64) : Nat × Nat := (field w.toNat 0 13, field w.toNat 16 8)

def memberOk (live : Nat) (w : W64) : Bool :=
  field w.toNat 13 3 = 0 && w.toNat < 2 ^ 24 && field w.toNat 16 8 < Config.frameCount && field w.toNat 0 13 < live

def rising : List Nat → Bool
  | a :: b :: rest => a < b && rising (b :: rest)
  | _ => true

/-- The members of a descriptor, or the trap code. -/
def State.groupMembers (s : State) (x : Partition) (tile ppa : Nat) : Except Nat (List (Nat × Nat)) :=
  match s.groupWords x tile ppa with
  | .error c => .error c
  | .ok ws =>
    let ms := ws.drop 1
    if ms.all (memberOk x.live) && rising (ms.map fun w => (memberOf w).1) then .ok (ms.map memberOf) else .error 0x09

/-- The RTU keeps a descriptor that an access through a virtual address has reached (R223). -/
def State.keepGroup (s : State) (p tile va ppa : Nat) : State :=
  match s.part? p with
  | none => s
  | some x =>
    match s.groupWords x tile ppa with
    | .error _ => s
    | .ok ws => s.modPart p fun y =>
        let old := (y.rtuGroups.filter fun g => g.tile = tile && g.ppa = ppa).flatMap fun g => g.pages
        { y with rtuGroups := { tile := tile, ppa := ppa, words := ws, pages := ((va / 16384) :: old).eraseDups } ::
            y.rtuGroups.filter fun g => !(g.tile = tile && g.ppa = ppa) }

/-- A pair lies in the swap set of a valid barrier of its core (R460). -/
def Core.phased (c : Core) (f : Nat) : Bool :=
  c.bars.any fun (_, b) => b.valid && b.swap && b.pair ≤ f / 2 && f / 2 < b.pair + b.pairs

/-- The frame in which a group member is read, and the one in which a scatter member is written (R460). -/
def Core.readFrame (c : Core) (f : Nat) : Nat := c.bankFrame (if c.phased f then f / 2 * 2 else f)
def Core.writeFrame (c : Core) (f : Nat) : Nat := c.bankFrame (if c.phased f then f / 2 * 2 + 1 else f)

/-- The machine byte of a member's frame; none for an absent core. -/
def Partition.memberLoc (x : Partition) (write : Bool) (m : Nat × Nat) (off : Nat) : Option Nat :=
  match x.core? m.1 with
  | none => none
  | some c => if c.absent then none else some (scratchLoc c.tile c.phys (if write then c.writeFrame m.2 else c.readFrame m.2) off)

/-! ## Checking an aperture store (R291, R298, R303) -/

/-- The block of a scatter member: first and last byte relative to the frame (R303). -/
def blockFits (t : Template) (o : Nat) : Bool :=
  if t.dims = 3 then
    let far : Int := o + ((t.ext1 : Int) - 1) * t.dstr1
    0 ≤ far && far + t.runLen ≤ 16384 && o + t.runLen ≤ 16384
  else o + t.runLen ≤ 16384

/-- The extent that a scatter spreads over the members. -/
def Template.outer (t : Template) : Nat := if t.dims = 3 then t.ext2 else t.ext1

/-- The members of a scatter destination: kind, offset, members (R303). -/
def State.checkScatter (s : State) (k : Ctx) (t : Template) (a : ArgRecord) : Except Trap (Nat × Nat × List (Nat × Nat)) :=
  let va := a.dst
  match s.translate k.part k.core.tile { cls := 6, write := true, sup := k.team.sup, kindOk := fun n => n = 1 || n = 5 } va.toNat with
  | .error c => .error { code := c, va := va, cls := 6 }
  | .ok q =>
    match s.groupMembers k.part k.core.tile (entryFrame q.entry) with
    | .error c => .error { code := c, va := va, cls := 6 }
    | .ok ms =>
      if t.outer = ms.length && blockFits t (va.toNat % 16384) then .ok (q.kind, va.toNat % 16384, ms)
      else .error (k.cause 0x15)

/-- An aperture lane's own address checks (R290, R291). -/
def apertureOk (l : Nat) (q : Xl) : Bool :=
  field q.ppa 35 17 = 0 && field q.ppa 52 4 = 0 && field q.ppa 22 13 = l && q.ppa % 64 = 0 && q.ppa % 16384 < 2048

/-- The machine bytes of the argument record that a datum names, where it can be read. -/
def State.argLocs (s : State) (k : Ctx) (datum : W64) : List Nat :=
  match s.reachBy k { cls := 0, data := true } (BitVec.ofNat 64 (datum.toNat / 2 ^ 16 * 64)) 64 with
  | .error _ => []
  | .ok q => q.locs

/-- One lane of an aperture store: its trap, or the copy that it offers. -/
def State.checkOffer (s : State) (k : Ctx) (lane : Nat) (ea datum : W64) : Except Trap Offer :=
  match s.translate k.part k.core.tile { cls := 1, write := true, sup := k.team.sup, kindOk := fun n => n = 3 } ea.toNat with
  | .error c => .error { code := c, va := ea, cls := 1 }
  | .ok q =>
    let i := datum.toNat % 2 ^ 16
    let argVa : W64 := BitVec.ofNat 64 (datum.toNat / 2 ^ 16 * 64)
    if !apertureOk k.r.core q then .error { code := 0x09, va := ea, cls := 1 }
    else if k.part.csr.ttsize ≤ i then .error (k.cause 0x15)
    else match s.reachBy k { cls := 0, data := true } argVa 64 with
      | .error (c, va) => .error { code := c, va := BitVec.ofNat 64 va, cls := 0 }
      | .ok ra =>
        match s.templateBytes k.part k.r.core lane i with
        | .error c => .error { code := c, va := ea, cls := 0 }
        | .ok bs =>
          let t := bytesTemplate bs
          let a := bytesArg (s.reachBytes k.part.tag ra)
          if !t.ok || !a.ok t k.team.hdr.tiles k.part then .error (k.cause 0x15)
          else if t.barEn && (k.copyBar t a).isNone then .error (k.cause 0x10)
          else
            let chan := q.ppa % 16384 / 64
            if t.dst = 2 then
              match s.checkScatter k t a with
              | .error e => .error e
              | .ok sc => .ok { va := ea, chan := chan, tmpl := t, arg := a, argVa := argVa, scatter := some sc }
            else .ok { va := ea, chan := chan, tmpl := t, arg := a, argVa := argVa, scatter := none }

/-- What a checked lane leaves in the RTU and in the engine: the translations of the aperture, of the record and of
a scatter destination, and the template. -/
def State.keepOffer (s : State) (k : Ctx) (lane : Nat) (ea datum : W64) (o : Offer) : State :=
  let p := k.r.part
  let tile := k.core.tile
  let keepAt (s : State) (cls : Nat) (write : Bool) (kindOk : Nat → Bool) (va : Nat) : State :=
    match s.translate k.part tile { cls := cls, write := write, sup := k.team.sup, kindOk := kindOk } va with
    | .error _ => s
    | .ok q => s.keep p tile va write q
  let s1 := keepAt s 1 true (fun n => n = 3) ea.toNat
  let s1 := keepAt s1 0 false (fun n => n = 0 || n = 2) o.argVa.toNat
  let s1 := match o.scatter with
    | none => s1
    | some _ =>
      let s2 := keepAt s1 6 true (fun n => n = 1 || n = 5) o.arg.dst.toNat
      match s.translate k.part tile { cls := 6, write := true, sup := k.team.sup, kindOk := fun n => n = 1 || n = 5 } o.arg.dst.toNat with
      | .error _ => s2
      | .ok q => s2.keepGroup p tile o.arg.dst.toNat (entryFrame q.entry)
  match s.templateBytes k.part k.r.core lane (datum.toNat % 2 ^ 16) with
  | .error _ => s1
  | .ok bs => s1.modPart p fun x => x.cacheTemplate k.r.core (datum.toNat % 2 ^ 16) bs

/-! ## The lines of a copy (R299, R304) -/

/-- Run number q is run (j, k). -/
def Template.runJ (t : Template) (q : Nat) : Nat := q % t.ext1
def Template.runK (t : Template) (q : Nat) : Nat := q / t.ext1
def Template.runs (t : Template) : List Nat := List.range (t.ext1 * t.ext2)

/-- A byte address modulo 2⁶⁴. -/
def address64 (a : Int) : Nat := patternOf 64 a

/-- Where run q begins in the source, and in a memory or peer destination. -/
def runSrc (t : Template) (a : ArgRecord) (q : Nat) : Nat :=
  address64 ((a.src.toNat : Int) + (t.runJ q : Int) * t.sstr1 + (t.runK q : Int) * t.sstr2)
def runDst (t : Template) (a : ArgRecord) (q : Nat) : Nat :=
  let base := if t.dst = 3 then field a.dst.toNat 0 58 else a.dst.toNat
  address64 ((base : Int) + (t.runJ q : Int) * t.dstr1 + (t.runK q : Int) * t.dstr2)

/-- The destination lines of a copy: 64-byte lines, tile rows, or scatter blocks. -/
def destLines (t : Template) (a : ArgRecord) : List Nat :=
  match t.dst with
  | 1 => List.range t.ext1
  | 2 => List.range t.outer
  | _ => (t.runs.flatMap fun q =>
      (List.range ((runDst t a q % 64 + t.runLen + 63) / 64)).map fun i => (runDst t a q / 64 + i) % 2 ^ 58).eraseDups

/-- One byte of a line: where it goes, and the run and the byte of the run that it is. -/
structure Cell where
  dest : Nat
  run : Nat
  byte : Nat
  deriving DecidableEq, Repr

/-- The bytes of run q in a 64-byte line. -/
def runCells (t : Template) (a : ArgRecord) (line q : Nat) : List Cell :=
  (List.range 64).filterMap fun i =>
    let b := address64 ((64 * line + i : Nat) - (runDst t a q : Int))
    if b < t.runLen then some ⟨64 * line + i, q, b⟩ else none

/-- The bytes of a line, by runs: for a tile the column, for a scatter the offset in the frame. -/
def lineCells (t : Template) (a : ArgRecord) (o line : Nat) : List Cell :=
  match t.dst with
  | 1 => (List.range t.runLen).map fun b => ⟨b, line, b⟩
  | 2 =>
    if t.dims = 3 then (List.range t.ext1).flatMap fun (j : Nat) => (List.range t.runLen).map fun (b : Nat) =>
      ⟨address64 ((o : Int) + (j : Int) * t.dstr1 + b), j + t.ext1 * line, b⟩
    else (List.range t.runLen).map fun b => ⟨o + b, line, b⟩
  | _ => t.runs.flatMap (runCells t a line)

/-- A fault of an engine: code, address, class, and for 0x0A the member. -/
structure EngineFault where
  code : Nat
  va : Nat
  cls : Nat
  arg : Nat := 0
  deriving DecidableEq, Repr

/-- An engine's access on behalf of a team: a copy's destination counts as remote (R234). -/
def State.engineReach (s : State) (x : Partition) (tile : Nat) (sup : Bool) (w : Want) (va n : Nat) : Except EngineFault Reach :=
  match s.reach x tile sup (fun _ => true) w (BitVec.ofNat 64 va) n with
  | .error (c, a) => .error ⟨c, a, w.cls, 0⟩
  | .ok q => .ok q

/-- One destination element of a run from its source bytes (R300). -/
def convertElement (t : Template) (v : Nat) : Nat :=
  if t.conv then (valueAs t.srcType v).deliver t.rnd t.sat t.dstType else v

/-- The bytes of some cells of one run, all contiguous, with the source's reach. -/
def State.runData (s : State) (x : Partition) (tile : Nat) (sup : Bool) (t : Template) (a : ArgRecord) (cells : List Cell) :
    Except EngineFault (List (Nat × Byte) × Reach) :=
  match cells with
  | [] => .ok ([], { locs := [], pages := [] })
  | c :: _ =>
    let lo := (cells.foldl (fun m y => min m y.byte) c.byte) / t.wd
    let hi := greatest (cells.map fun y => y.byte) / t.wd
    let from_ := address64 ((runSrc t a c.run : Int) + (lo * t.ws : Nat))
    match s.engineReach x tile sup { cls := 5, data := true, oneLane := false } from_ ((hi + 1 - lo) * t.ws) with
    | .error e => .error e
    | .ok q =>
      let src := s.reachBytes x.tag q
      .ok (cells.map fun y =>
        (y.dest, BitVec.ofNat 8 (convertElement t (bytesAt src ((y.byte / t.wd - lo) * t.ws) t.ws) / 2 ^ (8 * (y.byte % t.wd)))), q)

/-- The bytes of a line, run by run, or the first fault. -/
def State.lineData (s : State) (x : Partition) (tile : Nat) (sup : Bool) (t : Template) (a : ArgRecord) :
    List (List Cell) → Except EngineFault (List (Nat × Byte) × List Reach)
  | [] => .ok ([], [])
  | cells :: rest =>
    match s.runData x tile sup t a cells with
    | .error e => .error e
    | .ok (bs, q) =>
      match s.lineData x tile sup t a rest with
      | .error e => .error e
      | .ok (more, qs) => .ok (bs ++ more, q :: qs)

/-- The cells of a line by run, in an order that the rules leave open where runs overlap (R299). -/
def cellRuns (tick : Nat) (cells : List Cell) : List (List Cell) :=
  let runs := (cells.map fun c => c.run).eraseDups
  let runs := if (cells.map fun c => c.dest).eraseDups.length = cells.length then runs
    else sortBy (fun q => Config.rank tick 1 q) runs
  runs.map fun q => cells.filter fun c => c.run = q

/-! ## Copies in their queues -/

def Channel.modCopy (ch : Channel) (id : Nat) (f : Copy → Copy) : Channel :=
  { ch with queue := ch.queue.map fun y => if y.id = id then f y else y }

def State.modChan (s : State) (p l n : Nat) (f : Channel → Channel) : State :=
  s.modCore p l fun c => c.setChan n (f (c.chan n))

def State.modCopy (s : State) (p l n id : Nat) (f : Copy → Copy) : State := s.modChan p l n fun ch => ch.modCopy id f

/-- A copy by its number, as it stands. -/
def State.copyAt (s : State) (p l n id : Nat) : Option Copy :=
  (s.core? p l).bind fun c => (c.chan n).queue.find? fun y => y.id = id

/-- A channel on which a copy is suspended moves nothing (R309). -/
def Channel.suspended (ch : Channel) : Bool := ch.queue.any fun y => y.suspended

def Issuer.handle (i : Issuer) : W32 := handleOf i.kind i.launch i.ordinal
def Issuer.sup (i : Issuer) : Bool := i.kind = .service

/-- The record of an engine's fault (R309). -/
def State.engineEvent (s : State) (p : Nat) (i : Issuer) (e : EngineFault) (w : Option Waiter) : State :=
  s.event p
    { va := BitVec.ofNat 64 e.va, code := e.code, cls := e.cls, sup := i.sup, absent := e.code = 0x0A, team := i.handle
      split := 0xFFFF, arg := e.arg, region := 0, waiter := w }

/-- The splits of a core whose `cabort` waited for a copy that has now left its queue (R319). -/
def State.wakeCancel (s : State) (p l id : Nat) : State :=
  match s.core? p l with
  | none => s
  | some c =>
    (c.teams.flatMap fun t => t.splits.map fun x => (t.slot, x)).foldl (fun s (slot, x) =>
      match x.wait with
      | .cancel ids =>
        let left := ids.filter (· ≠ id)
        if left = ids then s
        else if left = [] then s.complete ⟨p, l, slot, x.entry⟩ {} none
        else s.modSplit ⟨p, l, slot, x.entry⟩ fun y => { y with wait := .cancel left }
      | _ => s) s

/-- A line is done: it leaves the lists of its copy, and its bytes leave PENDING. -/
def State.lineDone (s : State) (p l n : Nat) (y : Copy) (line bytes : Nat) : State :=
  let s := s.modCopy p l n y.id fun z =>
    { z with left := z.left.filter (· ≠ line), held := z.held.filter (fun h => h.line ≠ line), owed := z.owed - bytes }
  s.subtractPending p y.bar bytes

/-- The engine writes a line that it holds, and releases it (R256, R257). -/
def State.writeHeld (s : State) (p l n : Nat) (y : Copy) (h : HeldLine) : State :=
  (s.store p .engine h.cells).lineDone p l n y h.line h.bytes

/-- A line that an engine holds lies on a core that does not answer, or a link on its way may not send (R429). -/
def State.heldWaits (s : State) (p l : Nat) (h : HeldLine) : Bool :=
  match s.part? p, s.core? p l with
  | some x, some c => x.silent (h.cells.map (·.1)) || s.awaitsLink x c.tile (h.cells.map (·.1))
  | _, _ => false

/-- The same for one line, as it stands: an exchange of banks may have written its bytes (R235). -/
def State.writeHeldLine (s : State) (p l n id line : Nat) : State :=
  match s.copyAt p l n id with
  | none => s
  | some y => match y.held.find? fun h => h.line = line with
    | none => s
    | some h => if s.heldWaits p l h then s else s.writeHeld p l n y h

/-- Every line that a copy holds is written (R256), as far as its way may send: none is held across a fault, and none is given
up. Log entry 86. -/
def State.writeAllHeld (s : State) (p l n id : Nat) : State :=
  match s.copyAt p l n id with
  | none => s
  | some y => y.held.foldl (fun s h => s.writeHeldLine p l n id h.line) s

/-- Nothing waits on the records of a copy that has ended (R310, R372). -/
def State.detachCopy (s : State) (p id : Nat) : State := s.modPart p fun x => x.detach fun w => w = .copy id

/-- A copy leaves its queue (R289); a fill that has not ended in error gives its tile the new tag (R302). -/
def State.leaveQueue (s : State) (p l n : Nat) (y : Copy) : State :=
  let s := (s.detachCopy p y.id).modChan p l n fun ch => { ch with queue := ch.queue.filter fun z => z.id ≠ y.id }
  let s := if y.tmpl.dst = 1 then s.modCore p l fun c =>
      let t := c.tileAt y.tile
      let t := { t with busy := t.busy - 1 }
      c.setTile y.tile (if y.error then t else { t with tag := y.tmpl.tag, rows := y.tmpl.ext1, rbytes := y.tmpl.runLen })
    else s
  (s.wakeCancel p l y.id).finishLatches p l

/-- A copy ends in error (R311): what it has not written is subtracted from PENDING; the stamps follow in their turn. A
line that it holds it has undertaken to write (R256, R257), and it writes those whose way may not send before its stamps. A
source-release stamp that it has written already is not written again: R306 has each stamp written once, R311 has both written
with bit 63, and the model leaves the first as it is (log entry 96). -/
def State.failCopy (s : State) (p l n : Nat) (y : Copy) : State :=
  let s := (s.writeAllHeld p l n y.id).detachCopy p y.id
  match s.copyAt p l n y.id with
  | none => s
  | some z =>
    let rest := total (z.held.map fun h => h.bytes)
    let s := s.modCopy p l n y.id fun w =>
      { w with error := true, suspended := false, left := z.held.map fun h => h.line, unacked := [], owed := rest }
    s.subtractPending p y.bar (z.owed - rest)

/-- What a fault does to a copy in progress (R309); no line is held across it (R304). -/
def State.copyFault (s : State) (p l n : Nat) (y : Copy) (e : EngineFault) : State :=
  if e.code = 0x08 then
    ((s.writeAllHeld p l n y.id).modCopy p l n y.id fun z => { z with suspended := true }).engineEvent p y.issuer e (some (.copy y.id))
  else (s.engineEvent p y.issuer e none).failCopy p l n y

/-! ## Acceptance (R298, R265) -/

/-- Accept one offered copy into a channel that has room. -/
def State.accept (s : State) (k : Ctx) (o : Offer) : State :=
  let p := k.r.part
  let l := k.r.core
  let t := o.tmpl
  let bar := if t.barEn then k.copyBar t o.arg else none
  let pending := match bar with
    | none => 0
    | some (lb, b, _) => match k.part.core? lb with
      | none => 0
      | some c => (c.bar b).pending
  let fails := t.barEn && (bar.isNone || 2 ^ 40 ≤ pending + t.payload)
  let tile := match k.core.gang? k.team.gang with
    | none => 0
    | some g => g.tiles.getD (o.arg.dst.toNat % 16) 0
  let y : Copy :=
    { id := k.part.copyCount, issuer := k.team.issuer, tmpl := t, arg := o.arg, argVa := o.argVa, scatter := o.scatter
      bar := if fails then none else bar, tile := if t.dst = 1 then tile else 0
      left := if fails then [] else destLines t o.arg, held := [], unacked := []
      owed := if fails then 0 else t.payload
      suspended := false, error := fails, relDone := false, visDone := false }
  let s := (if t.dst = 1 then s.performMatrix p l else s).modPart p fun x => { x with copyCount := x.copyCount + 1 }
  let s := s.modChan p l o.chan fun ch => { ch with queue := ch.queue ++ [y], lastSeq := o.arg.seq }
  let s := if t.dst = 1 then s.modCore p l fun c => c.setTile tile { c.tileAt tile with busy := (c.tileAt tile).busy + 1 } else s
  match fails, bar with
  | true, _ => s.engineEvent p y.issuer ⟨0x10, o.argVa.toNat, 7, 0⟩ none
  | false, some (lb, b, _) => s.modCore p lb fun c => c.setBar b { c.bar b with pending := (c.bar b).pending + t.payload }
  | false, none => s

/-- Accept offers in order until a channel has no free slot; what is left waits. -/
def State.acceptAll (s : State) (r : SplitRef) : List Offer → State × List Offer
  | [] => (s, [])
  | o :: rest =>
    match s.ctxAt r with
    | none => (s, [])
    | some k =>
      if Config.channelDepth ≤ (k.core.chan o.chan).queue.length then (s, o :: rest)
      else (s.accept k o).acceptAll r rest

/-! ## Stamps (R306, R307) -/

/-- The value of a copy's stamps. -/
def Copy.stamp (y : Copy) : W64 := if y.error then y.arg.seq ||| (1 <<< 63) else y.arg.seq

/-- Machine lines that other copies hold (R256), or that lie on a core that does not answer. -/
def Partition.heldByOthers (x : Partition) (id : Nat) (locs : List Nat) : Bool :=
  x.silent locs || x.cores.any fun c => c.chans.any fun (_, ch) => ch.queue.any fun y =>
    y.id ≠ id && y.held.any fun h => h.cells.any fun e => locs.any fun a => a / 64 = e.1 / 64

/-- Some of these bytes lie on a core whose state is lost. -/
def Partition.onLost (x : Partition) (locs : List Nat) : Bool :=
  x.cores.any fun c => c.lost && locs.any (inScratch c.tile c.phys)

/-- Write a stamp as an engine: its fault, nothing while another copy holds the line or a link on the way may not send (R429),
or the state after it. A copy in error writes no stamp on a core whose state is lost (R313). -/
def State.writeStamp (s : State) (p l : Nat) (y : Copy) (va : W64) : Except EngineFault (Option State) :=
  match s.part? p, s.core? p l with
  | some x, some c =>
    match s.engineReach x c.tile y.issuer.sup { cls := 6, write := true, kinds := [0] } va.toNat 8 with
    | .error e => .error e
    | .ok q =>
      if y.error && x.onLost q.locs then .ok (some s)
      else if x.heldByOthers y.id q.locs || s.awaitsLink x c.tile q.locs then .ok none
      else .ok (some ((s.keepPages p l c.tile true q.pages).store p .engine (q.locs.zip (leBytes 8 y.stamp.toNat))))
  | _, _ => .ok none

/-- A stamp write that fails is not made (R307). A copy already ending in error leaves its queue. Of the others, 0x08
suspends the copy; any other cause ends it in error (R309), with the visible stamp still to write unless it is the one
that failed. -/
def State.stampFault (s : State) (p l n : Nat) (y : Copy) (e : EngineFault) : State :=
  if y.error then (s.engineEvent p y.issuer e none).leaveQueue p l n y
  else if e.code = 0x08 then s.copyFault p l n y e
  else
    let s := (s.copyFault p l n y e).modCopy p l n y.id fun z => { z with relDone := true }
    if y.relDone then s.leaveQueue p l n { y with error := true } else s

/-- A copy whose payload is done and that has no stamp left to write passes its place in its channel (R289, R307). -/
def Copy.passes (y : Copy) : Bool :=
  y.unacked = [] && (y.relDone || y.tmpl.relStamp = 0) && y.tmpl.visStamp = 0

/-- The next stamp of a copy whose payload is done: the source-release stamp, then the visible one (R306). -/
def State.stampStep (s : State) (p l n : Nat) (y : Copy) : State :=
  if !y.relDone then
    if y.tmpl.relStamp = 0 then s.modCopy p l n y.id fun z => { z with relDone := true }
    else match s.writeStamp p l y y.tmpl.relStamp with
      | .error e => s.stampFault p l n y e
      | .ok none => s
      | .ok (some s) => s.modCopy p l n y.id fun z => { z with relDone := true }
  else if y.unacked ≠ [] then s
  else if y.tmpl.visStamp = 0 then s.leaveQueue p l n y
  else match s.writeStamp p l y y.tmpl.visStamp with
    | .error e => s.stampFault p l n y e
    | .ok none => s
    | .ok (some s) => (s.modChan p l n fun ch => { ch with lastVis := y.stamp }).leaveQueue p l n y

/-- A stamp that the journal of a core without state owes (R313), and whether it still waits for its way; a write that meets a
fault is not made, and posts its record (R307). -/
def State.journalStamp (s : State) (p l : Nat) (y : Copy) (va : W64) : State × Bool :=
  if va = 0 then (s, false) else match s.writeStamp p l y va with
    | .ok (some t) => (t, false)
    | .ok none => (s, true)
    | .error e => (s.engineEvent p y.issuer e none, false)

/-- The XMC writes the stamps of a copy that an unreadable core's engine had accepted, as far as their ways may send (R313). -/
def State.endJournal (s : State) (p l n : Nat) (y : Copy) : State :=
  match s.journalStamp p l y (if y.relDone then 0 else y.tmpl.relStamp) with
  | (s, true) => s
  | (s, false) =>
    match (s.modCopy p l n y.id fun z => { z with relDone := true }).journalStamp p l y y.tmpl.visStamp with
    | (s, true) => s
    | (s, false) => (s.detachCopy p y.id).modChan p l n fun ch => { ch with queue := ch.queue.filter fun z => z.id ≠ y.id }

/-! ## Performing a line (R304) -/

/-- Where the bytes of a memory line go: the reach from its lowest byte to its highest. -/
def State.lineReach (s : State) (x : Partition) (tile : Nat) (sup : Bool) (cells : List Cell) : Except EngineFault (Nat × Reach) :=
  let lo := match cells with
    | [] => 0
    | c :: rest => rest.foldl (fun m y => min m y.dest) c.dest
  let hi := greatest (cells.map fun c => c.dest)
  match s.engineReach x tile sup { cls := 6, write := true, shadow := true, oneLane := false } lo (hi + 1 - lo) with
  | .error e => .error e
  | .ok q => .ok (lo, q)

def State.keepAll (s : State) (p l tile : Nat) : List Reach → State
  | [] => s
  | q :: rest => (s.keepPages p l tile false q.pages).keepAll p l tile rest

/-- Contiguous pieces of the bytes of a peer line. -/
def segments : List (Nat × Byte) → List (Nat × List Byte)
  | [] => []
  | (a, b) :: rest =>
    match segments rest with
    | [] => [(a, [b])]
    | (o, bs) :: more => if o = a + 1 then (a, b :: bs) :: more else (a, [b]) :: (o, bs) :: more

/-- How a record names a byte of a peer window: its offset with bit 63 set (R308). -/
def windowVa (off : Nat) : Nat := off ||| 2 ^ 63

/-- What a copy writes in one destination line of memory: the machine bytes with their values, the translations of its
source and of its destination; nothing where a scatter's member is absent on a KIND 1 page (R303); or the first fault. -/
def State.linePut (s : State) (x : Partition) (c : Core) (y : Copy) (line : Nat) :
    Except EngineFault (Option (List (Nat × Byte) × List Reach × List (Nat × Xl))) :=
  let t := y.tmpl
  let sup := y.issuer.sup
  let o := match y.scatter with
    | none => 0
    | some (_, o, _) => o
  let cells := lineCells t y.arg o line
  match t.dst, y.scatter with
  | 2, some (kind, _, ms) =>
    let m := ms.getD line (0, 0)
    if (x.memberLoc true m 0).isNone then (if kind = 5 then .error ⟨0x0A, y.arg.dst.toNat, 6, line⟩ else .ok none)
    else match s.lineData x c.tile sup t y.arg (cellRuns s.tick cells) with
      | .error e => .error e
      | .ok (bytes, qs) => .ok (some (bytes.filterMap fun (d, b) => (x.memberLoc true m d).map fun a => (a, b), qs, []))
  | _, _ =>
    match s.lineData x c.tile sup t y.arg (cellRuns s.tick cells) with
    | .error e => .error e
    | .ok (bytes, qs) => match s.lineReach x c.tile sup cells with
      | .error e => .error e
      | .ok (lo, q) => .ok (some (bytes.filterMap fun (d, b) => (q.locs[d - lo]?).map fun a => (a, b), qs, q.pages))

/-- The engine reads, converts and writes one line of a copy, or meets a fault. It reads the source of a line in the step
that takes the line, which is the step that writes it unless the line is taken ahead (log entry 81). A line for a bound
partition waits while no peer port may send (R429). -/
def State.performLine (s : State) (x : Partition) (c : Core) (p l n : Nat) (y : Copy) (line : Nat) : State :=
  let t := y.tmpl
  let sup := y.issuer.sup
  let o := match y.scatter with
    | none => 0
    | some (_, o, _) => o
  let cells := lineCells t y.arg o line
  match t.dst with
  | 1 =>
    match s.lineData x c.tile sup t y.arg (cellRuns s.tick cells) with
    | .error e => s.copyFault p l n y e
    | .ok (bytes, qs) =>
      let s := (s.keepAll p l c.tile qs).modCore p l fun c =>
        let f := c.tileAt y.tile
        c.setTile y.tile { f with bytes := bytes.foldl (fun m (d, b) => tableSet 0 m (256 * line + d) b) f.bytes }
      s.lineDone p l n y line cells.length
  | 3 =>
    if !x.bound y.arg.binding then s.copyFault p l n y ⟨0x09, windowVa ((cells.map fun c => c.dest).headD 0), 6, 0⟩
    else match s.peerPort with
      | none => s
      | some port => match s.lineData x c.tile sup t y.arg (cellRuns s.tick cells) with
        | .error e => s.copyFault p l n y e
        | .ok (bytes, qs) =>
          match cells.find? fun c => 2 ^ 58 ≤ c.dest with
          | some c => s.copyFault p l n y ⟨0x09, windowVa c.dest, 6, 0⟩
          | none =>
            let final := bytes.foldl (fun m (d, b) => tablePut m d b) []
            let s := (segments final).foldl (fun s (o, bs) => s.sendPeer port (.peerLine p y.arg.binding o bs))
              (s.keepAll p l c.tile qs)
            s.modCopy p l n y.id fun z => { z with left := z.left.filter (· ≠ line), unacked := z.unacked ++ [line] }
  | _ =>
    match s.linePut x c y line with
    | .error e => s.copyFault p l n y e
    | .ok none => s.lineDone p l n y line cells.length
    | .ok (some (put, qs, pages)) =>
      if x.heldByOthers y.id (put.map (·.1)) then s
      else (((s.keepAll p l c.tile qs).keepPages p l c.tile true pages).store p .engine put).lineDone p l n y line cells.length

/-- The machine bytes of a destination line in memory, as far as they map. -/
def State.linePutLocs (s : State) (x : Partition) (c : Core) (y : Copy) (line : Nat) : List Nat :=
  let o := match y.scatter with
    | none => 0
    | some (_, o, _) => o
  let cells := lineCells y.tmpl y.arg o line
  match y.tmpl.dst, y.scatter with
  | 2, some (_, _, ms) => cells.filterMap fun e => x.memberLoc true (ms.getD line (0, 0)) e.dest
  | 0, _ => match s.lineReach x c.tile y.issuer.sup cells with
    | .error _ => []
    | .ok (_, q) => q.locs
  | _, _ => []

/-- The machine bytes that one line of a copy reads and writes, as far as they map. -/
def State.lineLocs (s : State) (x : Partition) (c : Core) (y : Copy) (line : Nat) : List Nat :=
  let t := y.tmpl
  let o := match y.scatter with
    | none => 0
    | some (_, o, _) => o
  let from_ := match s.lineData x c.tile y.issuer.sup t y.arg (cellRuns s.tick (lineCells t y.arg o line)) with
    | .error _ => []
    | .ok (_, qs) => qs.flatMap fun q => q.locs
  from_ ++ s.linePutLocs x c y line

/-- Take a line ahead of its turn (R257): its fault, nothing while another copy holds it or a link on its way may not send
(R429), or the state in which it is taken, its data read and every store to it that waited performed. A tile row is held by
the mark of its tile (R302). -/
def State.takeLine (s : State) (x : Partition) (c : Core) (p l n : Nat) (y : Copy) (line : Nat) : Except EngineFault (Option State) :=
  if y.tmpl.dst = 1 ∨ (y.held.any fun h => h.line = line) then .ok (some s)
  else
    let s := s.performLines p ((s.linePutLocs x c y line).map fun a => a / 64)
    match s.linePut x c y line with
    | .error e => .error e
    | .ok none => .ok (some s)
    | .ok (some (put, qs, pages)) =>
      if x.heldByOthers y.id (put.map (·.1)) || s.awaitsLink x c.tile (s.lineLocs x c y line) then .ok none
      else
        let o := match y.scatter with
          | none => 0
          | some (_, o, _) => o
        .ok (some (((s.keepAll p l c.tile qs).keepPages p l c.tile true pages).modCopy p l n y.id fun z =>
          { z with held := z.held ++ [{ line := line, cells := put, bytes := (lineCells y.tmpl y.arg o line).length }] }))

/-- Copies that fill one tile are performed in acceptance order (R302); one that ends in error fills nothing more (R311). -/
def Core.earlierFill (c : Core) (y : Copy) : Bool :=
  y.tmpl.dst = 1 && !y.error && c.chans.any fun (_, ch) => ch.queue.any fun z => z.tmpl.dst = 1 && z.tile = y.tile && z.id < y.id

end Sys2Proof.Machine
end

