-- ==== Sys2Proof/Machine/Integer.lean ====
section
/-! DEFINITION. Vector integer and lane movement (R134 to R153). -/

namespace Sys2Proof.Machine

/-! ## Shared by the family -/

/-- The value of a lane operand: one container, or a pair (R139). -/
def Ctx.operand (k : Ctx) (wide : Bool) (r : VReg) (l : Nat) : Nat :=
  if wide then (k.team.pair r l).toNat else (k.team.lane r l).toNat

/-- Write a container or a pair in some lanes. -/
def putOperand (wide : Bool) (d : VReg) (ls : List Nat) (f : Nat → Nat) : List Put :=
  if wide then putPairs d ls fun l => BitVec.ofNat 64 (f l) else putLanes d ls fun l => BitVec.ofNat 32 (f l)

/-- The names that a destination of n registers writes. -/
def namesOf (d : VReg) (n : Nat) : List Nat := (List.range n).map (d.toNat + ·)

def without (marks written : List Nat) : List Nat := marks.filter fun x => !written.contains x

def spanOf (wide : Bool) : Nat := if wide then 2 else 1

/-- Under types 11 and 12 every lane operand starts at an even name (R53, R139). -/
def pairsOk (wide : Bool) (rs : List VReg) : Bool := !wide || rs.all evenReg

/-- An instruction of the integer class: one result an element, from the elements of vd, va and vb (R139). -/
def elementwise (d : VReg) (a : VSrc) (b : Option VSrc) (f : (t w : Nat) → (sat : Bool) → (d a b : Nat) → Nat) :
    State → Host.Outcome State Fault Refusal := fun s =>
  s.issue fun s k =>
    let t := k.type
    let wide := typeWide t
    let w := typeWidth t
    let sat := modeSat k.split.mr
    let vb (l : Nat) : Nat := match b with
      | some r => k.operand wide r.reg l
      | none => 0
    let marks := markV a (spanOf wide) ++ (match b with
      | some r => markV r (spanOf wide)
      | none => [])
    { legal := pairsOk wide (d :: a.reg :: (b.map fun r => r.reg).toList)
      typed := typeInteger t
      shape := { marks := without marks (namesOf d (spanOf wide)), sweep := true }
      eff := s.writeLanes k (putOperand wide d k.acting fun l =>
        fromElements w (fun e => f t w sat (element w (k.operand wide d l) e) (element w (k.operand wide a.reg l) e)
          (element w (vb l) e)) (elementCount t)) }

/-- An exact result of an element operation, narrowed under SAT (R141). -/
def exactly (f : (d a b : Int) → Int) (t w : Nat) (sat : Bool) (d a b : Nat) : Nat :=
  narrow sat (typeSigned t) w (f (valueOf (typeSigned t) w d) (valueOf (typeSigned t) w a) (valueOf (typeSigned t) w b))

/-- An instruction of class "None" on containers (R138). -/
def containerwise (d : VReg) (a : VSrc) (b : Option VSrc) (f : (d a b : W32) → W32) :
    State → Host.Outcome State Fault Refusal := fun s =>
  s.issue fun s k =>
    let vb (l : Nat) : W32 := match b with
      | some r => k.v r l
      | none => 0
    let marks := markV a 1 ++ (match b with
      | some r => markV r 1
      | none => [])
    { shape := { marks := without marks (namesOf d 1), sweep := true }
      eff := s.writeLanes k (putLanes d k.acting fun l => f (k.team.lane d l) (k.v a l) (vb l)) }

/-! ## Arithmetic -/

/-- R141. -/
def execVadd (d : VReg) (a b : VSrc) (s : State) : Host.Outcome State Fault Refusal :=
  elementwise d a (some b) (exactly fun _ x y => x + y) s

/-- R141. -/
def execVsub (d : VReg) (a b : VSrc) (s : State) : Host.Outcome State Fault Refusal :=
  elementwise d a (some b) (exactly fun _ x y => x - y) s

/-- R141. -/
def execVmul (d : VReg) (a b : VSrc) (s : State) : Host.Outcome State Fault Refusal :=
  elementwise d a (some b) (exactly fun _ x y => x * y) s

/-- R142: the high half of the exact product. -/
def execVmulh (d : VReg) (a b : VSrc) (s : State) : Host.Outcome State Fault Refusal :=
  elementwise d a (some b) (fun t w _ _ x y =>
    patternOf w (Int.fdiv (valueOf (typeSigned t) w x * valueOf (typeSigned t) w y) (2 ^ w : Nat))) s

/-- R141: the old vd is the addend. -/
def execVmad (d : VReg) (a b : VSrc) (s : State) : Host.Outcome State Fault Refusal :=
  elementwise d a (some b) (exactly fun z x y => z + x * y) s

/-- The quotient of R143. -/
def divide (t w : Nat) (sat : Bool) (_ x y : Nat) : Nat :=
  if y = 0 then 2 ^ w - 1
  else narrow sat (typeSigned t) w (Int.tdiv (valueOf (typeSigned t) w x) (valueOf (typeSigned t) w y))

/-- The remainder of R143. -/
def remainder (t w : Nat) (_ : Bool) (_ x y : Nat) : Nat :=
  if y = 0 then x else patternOf w (Int.tmod (valueOf (typeSigned t) w x) (valueOf (typeSigned t) w y))

/-- R143. -/
def execVdiv (d : VReg) (a b : VSrc) (s : State) : Host.Outcome State Fault Refusal := elementwise d a (some b) divide s

/-- R143. -/
def execVrem (d : VReg) (a b : VSrc) (s : State) : Host.Outcome State Fault Refusal := elementwise d a (some b) remainder s

/-- R144. -/
def execVmin (d : VReg) (a b : VSrc) (s : State) : Host.Outcome State Fault Refusal :=
  elementwise d a (some b) (fun t w _ => exactly (fun _ x y => min x y) t w false) s

/-- R144. -/
def execVmax (d : VReg) (a b : VSrc) (s : State) : Host.Outcome State Fault Refusal :=
  elementwise d a (some b) (fun t w _ => exactly (fun _ x y => max x y) t w false) s

/-- R144. -/
def execVabs (d : VReg) (a : VSrc) (s : State) : Host.Outcome State Fault Refusal :=
  elementwise d a none (exactly fun _ x _ => if x < 0 then -x else x) s

/-- R144. -/
def execVneg (d : VReg) (a : VSrc) (s : State) : Host.Outcome State Fault Refusal :=
  elementwise d a none (exactly fun _ x _ => -x) s

/-! ## Logic, shifts, counting -/

/-- R145. -/
def execVand (d : VReg) (a b : VSrc) (s : State) : Host.Outcome State Fault Refusal :=
  containerwise d a (some b) (fun _ x y => x &&& y) s

/-- R145. -/
def execVor (d : VReg) (a b : VSrc) (s : State) : Host.Outcome State Fault Refusal :=
  containerwise d a (some b) (fun _ x y => x ||| y) s

/-- R145. -/
def execVxor (d : VReg) (a b : VSrc) (s : State) : Host.Outcome State Fault Refusal :=
  containerwise d a (some b) (fun _ x y => x ^^^ y) s

/-- R145. -/
def execVnot (d : VReg) (a : VSrc) (s : State) : Host.Outcome State Fault Refusal :=
  containerwise d a none (fun _ x _ => ~~~x) s

/-- R146: a shift by w or more leaves nothing of the value in range, so the amount counts up to w. -/
def execVshl (d : VReg) (a b : VSrc) (s : State) : Host.Outcome State Fault Refusal :=
  elementwise d a (some b) (fun t w sat _ x n =>
    narrow sat (typeSigned t) w (valueOf (typeSigned t) w x * (2 ^ min n w : Nat))) s

/-- R146. -/
def execVshr (d : VReg) (a b : VSrc) (s : State) : Host.Outcome State Fault Refusal :=
  elementwise d a (some b) (fun t w _ _ x n => patternOf w (Int.fdiv (valueOf (typeSigned t) w x) (2 ^ min n w : Nat))) s

/-- R146. -/
def execVrot (d : VReg) (a b : VSrc) (s : State) : Host.Outcome State Fault Refusal :=
  elementwise d a (some b) (fun _ w _ _ x n => x * 2 ^ (n % w) % 2 ^ w + x / 2 ^ (w - n % w)) s

/-- The number of 1 bits among the low w bits. -/
def popCount (v w : Nat) : Nat := total ((List.range w).map fun i => v / 2 ^ i % 2)

/-- The number of leading 0 bits of a w-bit pattern. -/
def leadingZeros (v : Nat) : Nat → Nat
  | 0 => 0
  | w + 1 => if v / 2 ^ w % 2 = 1 then 0 else 1 + leadingZeros v w

/-- R147. -/
def execVpop (d : VReg) (a : VSrc) (s : State) : Host.Outcome State Fault Refusal :=
  elementwise d a none (fun _ w _ _ x _ => popCount x w) s

/-- R147. -/
def execVclz (d : VReg) (a : VSrc) (s : State) : Host.Outcome State Fault Refusal :=
  elementwise d a none (fun _ w _ _ x _ => leadingZeros x w) s

/-! ## Bit fields (R148) -/

def fieldPos (b : W32) : Nat := b.toNat % 32
def fieldLen (b : W32) : Nat := min (field b.toNat 8 6) (32 - fieldPos b)

/-- The field of a container, extended by its top bit or by zero. -/
def extractField (signed : Bool) (a b : W32) : W32 :=
  if fieldLen b = 0 then 0 else BitVec.ofInt 32 (valueOf signed (fieldLen b) (field a.toNat (fieldPos b) (fieldLen b)))

/-- The container d with its field replaced by the low bits of a. -/
def insertField (d a b : W32) : W32 :=
  let m : W32 := BitVec.ofNat 32 ((2 ^ fieldLen b - 1) * 2 ^ fieldPos b)
  (d &&& ~~~m) ||| (BitVec.ofNat 32 (a.toNat * 2 ^ fieldPos b) &&& m)

/-- R148. -/
def execVbfe (d : VReg) (a b : VSrc) (s : State) : Host.Outcome State Fault Refusal :=
  s.issue fun s k =>
    { typed := typeInteger k.type
      shape := { marks := without (markV a 1 ++ markV b 1) (namesOf d 1), sweep := true }
      eff := s.writeLanes k (putLanes d k.acting fun l => extractField (typeSigned k.type) (k.v a l) (k.v b l)) }

/-- R148. -/
def execVbfi (d : VReg) (a b : VSrc) (s : State) : Host.Outcome State Fault Refusal := containerwise d a (some b) insertField s

/-! ## Moves (R149) -/

/-- R149. -/
def execVsel (d : VReg) (a : VSrc) (b : PSrc) (s : State) : Host.Outcome State Fault Refusal :=
  s.issue fun s k =>
    { shape := { marks := without (markV a 1) (namesOf d 1) ++ markP b, sweep := true }
      eff := s.writeLanes k (putLanes d k.acting fun l => if k.p b l then k.v a l else k.team.lane d l) }

/-- R149. -/
def execVmov (d : VReg) (a : VSrc) (s : State) : Host.Outcome State Fault Refusal := containerwise d a none (fun _ x _ => x) s

/-- R149. -/
def execVmovl (d : VReg) (lit : W32) (s : State) : Host.Outcome State Fault Refusal :=
  s.issue fun s k => { shape := { lits := 1, sweep := true }, eff := s.writeLanes k (putLanes d k.acting fun _ => lit) }

/-- R149. -/
def execVbcast (d : VReg) (a : SReg) (s : State) : Host.Outcome State Fault Refusal :=
  s.issue fun s k =>
    { legal := pairsOk (typeWide k.type) [d], typed := k.type ≤ 13, shape := { sweep := true }
      eff := s.writeLanes k (putOperand (typeWide k.type) d k.acting fun _ => (k.s a).toNat) }

/-- The scale of R150. -/
def leaScale (t : Nat) : Nat := if t = 13 then 4 else typeWidth t / 8

/-- R150. -/
def execVlea (d : VReg) (a b : VSrc) (s : State) : Host.Outcome State Fault Refusal :=
  s.issue fun s k =>
    { legal := Instr.wf (.vlea d a b), typed := k.type ≤ 13
      shape := { marks := without (markV a 2 ++ markV b 1) (namesOf d 2), sweep := true }
      eff := s.writeLanes k (putPairs d k.acting fun l =>
        k.v2 a l + (if typeSigned k.type then (k.v b l).signExtend 64 else (k.v b l).setWidth 64) *
          BitVec.ofNat 64 (leaScale k.type)) }

/-! ## Permutes (R151) -/

/-- The container of va in a source lane; a lane at TEAM or above gives 0. -/
def Ctx.gather (k : Ctx) (a : VSrc) (src : Nat) : W32 := if src < k.team.hdr.team then k.v a src else 0

/-- R151. -/
def execVshuf (d : VReg) (a b : VSrc) (s : State) : Host.Outcome State Fault Refusal :=
  s.issue fun s k =>
    { shape := { marks := without (markV a 1 ++ markV b 1) (namesOf d 1), sweep := true }
      eff := s.writeLanes k (putLanes d k.acting fun l => k.gather a (32 * (l / 32) + (k.v b l).toNat % 32)) }

/-- R151. -/
def execVxfer (d : VReg) (a b : VSrc) (s : State) : Host.Outcome State Fault Refusal :=
  s.issue fun s k =>
    { shape := { marks := without (markV a 1 ++ markV b 1) (namesOf d 1), sweep := true }
      eff := s.writeLanes k (putLanes d k.acting fun l => k.gather a ((k.v b l).toNat % 1024)) }

/-! ## Compare and identifiers -/

/-- The condition on every element of two operands (R152). -/
def compareAll (t cmp a b : Nat) : Bool :=
  (List.range (elementCount t)).all fun e =>
    let x := element (typeWidth t) a e
    let y := element (typeWidth t) b e
    compareInt cmp (valueOf (typeSigned t) (typeWidth t) x) (valueOf (typeSigned t) (typeWidth t) y) x y

/-- R152. -/
def execVcmp (d : PReg) (a b : VSrc) (s : State) : Host.Outcome State Fault Refusal :=
  s.issue fun s k =>
    let wide := typeWide k.type
    { legal := pairsOk wide [a.reg, b.reg], typed := typeInteger k.type
      shape := { marks := markV a (spanOf wide) ++ markV b (spanOf wide), sweep := true }
      eff := s.writeLanes k (putPreds d k.acting fun l =>
        compareAll k.type (modeCmp k.split.mr) (k.operand wide a.reg l) (k.operand wide b.reg l)) }

/-- Field n of the team, n from 1 to 5, given the ordinal and the extents from f1 (R75). -/
def workField (ordinal : Nat) : List Nat → Nat → Nat
  | [], _ => 0
  | e :: _, 0 => ordinal % e
  | e :: rest, n + 1 => workField (ordinal / e) rest n

/-- The work identifier of a lane (R75); in a system team it is the lane (R153). -/
def workId (t : Team) (l : Nat) : Nat :=
  match t.kind with
  | .launched =>
    l + total ((List.range 5).map fun i => workField t.ordinal t.hdr.ext i * 2 ^ total (t.hdr.w.take (i + 1)))
  | _ => l

/-- R153. -/
def execVidr (d : VReg) (c : Byte) (s : State) : Host.Outcome State Fault Refusal :=
  s.issue fun s k =>
    { legal := Instr.wf (.vidr d c), shape := { sweep := true }
      eff := s.writeLanes k (putLanes d k.acting fun l => BitVec.ofNat 32 (match c.toNat with
        | 0 => l
        | 1 => l % 32
        | 2 => l / 32
        | 3 => workId k.team l
        | _ => workId k.team l / 2 ^ 32)) }

end Sys2Proof.Machine
end

