-- ==== Sys2Proof/Machine/Memory.lean ====
section
/-! DEFINITION. The memory instructions (R210 to R231). -/

namespace Sys2Proof.Machine

/-! ## Shared by the family -/

/-- The accesses of some lanes at their effective addresses. -/
def accesses (ls : List Nat) (ea : Nat → W64) (size : Nat) : List LaneAccess := ls.map fun l => ⟨l, ea l, size⟩

/-- A per-lane load. -/
def loadAct (s : State) (k : Ctx) (legal typed : Bool) (align : Option Nat) (marks : List Nat) (as : List LaneAccess)
    (puts : (Nat → Nat) → List Put) (into : Option (Nat → LoadInto)) : Act :=
  { legal := legal, typed := typed, shape := { marks := marks, sweep := true }
    eff := s.loadLanes k { cls := 0, data := true } align as puts into }

/-- Does a store touch a phased page? Then it is non-idempotent (R114). -/
def State.touchesPhased (s : State) (k : Ctx) (cls : Nat) (as : List LaneAccess) : Bool :=
  as.any fun a => match s.translate k.part k.core.tile
      { cls := cls, write := true, sup := k.team.sup, kindOk := fun n => n = 0 || n = 2 } a.ea.toNat with
    | .ok q => q.kind = 2
    | .error _ => false

/-- A store of a team goes to the shadow bank where it counts as remote (R234). -/
def storeWant : Want := { cls := 1, write := true, shadow := true }

/-- A per-lane store. -/
def storeAct (s : State) (k : Ctx) (legal : Bool) (align : Option Nat) (marks : List Nat) (as : List LaneAccess)
    (bytes : Nat → List Byte) : Act :=
  { legal := legal, shape := { marks := marks, sweep := true, nonIdem := s.touchesPhased k 1 as }
    eff := s.storeLanes k storeWant align as bytes }

/-- A releasing store: above split scope, what the split stored before it is performed before it (R219, R246). -/
def releaseAct (s : State) (k : Ctx) (c : Byte) (legal : Bool) (marks : List Nat) (as : List LaneAccess)
    (bytes : Nat → List Byte) : Act :=
  storeAct (if c = 0 then s else s.performOwn k.r) k legal (some 0x07) marks as bytes

/-- The marks of a memory operand. -/
def markMem (m : Base) (i : Index) : List Nat := markBase m ++ markIndex i

/-! ## Loads and stores (R215) -/

/-- R215. -/
def execLd8 (d : VReg) (m : Base) (i : Index) (s : State) : Host.Outcome State Fault Refusal :=
  s.issue fun s k => loadAct s k (Instr.wf (.ld8 d m i)) (k.type ≤ 13) none (without (markMem m i) (namesOf d 1))
    (accesses k.acting (k.address m i) 1) (fun v => putLanes d k.acting fun l => extend k.type 8 (v l))
    (some fun l => .lane d.toNat l k.type 8)
/-- R215. -/
def execLd16 (d : VReg) (m : Base) (i : Index) (s : State) : Host.Outcome State Fault Refusal :=
  s.issue fun s k => loadAct s k (Instr.wf (.ld16 d m i)) (k.type ≤ 13) none (without (markMem m i) (namesOf d 1))
    (accesses k.acting (k.address m i) 2) (fun v => putLanes d k.acting fun l => extend k.type 16 (v l))
    (some fun l => .lane d.toNat l k.type 16)
/-- R215. -/
def execLd32 (d : VReg) (m : Base) (i : Index) (s : State) : Host.Outcome State Fault Refusal :=
  s.issue fun s k => loadAct s k (Instr.wf (.ld32 d m i)) true none (without (markMem m i) (namesOf d 1))
    (accesses k.acting (k.address m i) 4) (fun v => putLanes d k.acting fun l => BitVec.ofNat 32 (v l))
    (some fun l => .lane d.toNat l 1 32)
/-- R215: one 8-byte access. -/
def execLd64 (d : VReg) (m : Base) (i : Index) (s : State) : Host.Outcome State Fault Refusal :=
  s.issue fun s k => loadAct s k (Instr.wf (.ld64 d m i)) true none (without (markMem m i) (namesOf d 2))
    (accesses k.acting (k.address m i) 8) (fun v => putPairs d k.acting fun l => BitVec.ofNat 64 (v l))
    (some fun l => .pair d.toNat l)
/-- R215. -/
def execSt8 (a : VSrc) (m : Base) (i : Index) (s : State) : Host.Outcome State Fault Refusal :=
  s.issue fun s k => storeAct s k (Instr.wf (.st8 a m i)) none (markV a 1 ++ markMem m i)
    (accesses k.acting (k.address m i) 1) fun l => leBytes 1 (k.v a l).toNat
/-- R215. -/
def execSt16 (a : VSrc) (m : Base) (i : Index) (s : State) : Host.Outcome State Fault Refusal :=
  s.issue fun s k => storeAct s k (Instr.wf (.st16 a m i)) none (markV a 1 ++ markMem m i)
    (accesses k.acting (k.address m i) 2) fun l => leBytes 2 (k.v a l).toNat
/-- R215. -/
def execSt32 (a : VSrc) (m : Base) (i : Index) (s : State) : Host.Outcome State Fault Refusal :=
  s.issue fun s k => storeAct s k (Instr.wf (.st32 a m i)) none (markV a 1 ++ markMem m i)
    (accesses k.acting (k.address m i) 4) fun l => leBytes 4 (k.v a l).toNat

/-- The KIND of the leaf that maps an address, where the walk finds one. -/
def State.kindAt (s : State) (k : Ctx) (ea : W64) : Option Nat :=
  if ea.toNat ≥ 2 ^ 58 then none
  else match s.walk k.part k.core.tile ea.toNat [0, 1, 2, 3] (s.rootOf k.part k.core.tile) [] with
    | .ok q => some q.kind
    | .error _ => none

/-- The lanes of an aperture store, in lane order, each with its own cause. -/
def State.checkLanes (s : State) (k : Ctx) (datum : Nat → W64) : List LaneAccess → Except Trap (List (LaneAccess × Offer))
  | [] => .ok []
  | a :: rest =>
    match s.checkOffer k a.lane a.ea (datum a.lane) with
    | .error t => .error t
    | .ok o => match s.checkLanes k datum rest with
      | .error t => .error t
      | .ok os => .ok ((a, o) :: os)

/-- The checks of an aperture store: a lane whose page is no aperture stops the whole instruction, before any other
cause, also before a walk fault of a lower lane (R291; log entry 94). -/
def State.checkOffers (s : State) (k : Ctx) (datum : Nat → W64) (as : List LaneAccess) : Except Trap (List (LaneAccess × Offer)) :=
  match as.find? fun a => (s.kindAt k a.ea).any fun n => n ≠ 3 with
  | some a => .error { code := 0x09, va := a.ea, cls := 1 }
  | none => s.checkLanes k datum as

/-- An aperture store (R298): every lane is checked, its argument record read after the split's own stores to it (R242),
then the copies are accepted in lane order. -/
def apertureEff (s : State) (k : Ctx) (datum : Nat → W64) (marks : List Nat) (as : List LaneAccess) : Eff :=
  let records := as.flatMap fun a => s.argLocs k (datum a.lane)
  if s.blocked k.part k.core.tile records then .stay s
  else
    let s := s.performMine k.r records
    match s.checkOffers k datum as with
    | .error t => .trap t
    | .ok os =>
      let s := os.foldl (fun s (a, o) => s.keepOffer k a.lane a.ea (datum a.lane) o) s
      match s.acceptAll k.r (os.map fun x => x.2) with
      | (s, []) => .done s
      | (s, left) => s.wait k.r .waitingMemory (.aperture left marks)

/-- What completes with an aperture store. -/
def apertureShape (marks : List Nat) : Shape := { marks := marks, sweep := true, nonIdem := true }

/-- R215, R298: one 8-byte access, or one copy for each lane. -/
def execSt64 (a : VSrc) (m : Base) (i : Index) (s : State) : Host.Outcome State Fault Refusal :=
  s.issue fun s k =>
    let as := accesses k.acting (k.address m i) 8
    let marks := markV a 2 ++ markMem m i
    if as.any fun x => s.kindAt k x.ea = some 3 then
      { legal := Instr.wf (.st64 a m i), shape := apertureShape marks, eff := apertureEff s k (k.v2 a) marks as }
    else storeAct s k (Instr.wf (.st64 a m i)) none marks as fun l => leBytes 8 (k.v2 a l).toNat

/-! ## Scalar access (R216) -/

/-- R216. -/
def execLds (d : SReg) (m : SReg) (i : SIndex) (s : State) : Host.Outcome State Fault Refusal :=
  s.issue fun s k =>
    let ea := k.scalarAddress m i
    { scalar := true
      eff := match s.reachBy k { cls := 0, data := true } ea 8 with
        | .error (c, va) => .trap { code := c, va := BitVec.ofNat 64 va, cls := 0 }
        | .ok q =>
          if s.blocked k.part k.core.tile q.locs then .stay s
          else
            let s := s.performMine k.r q.locs
            .done (((s.keepReach k false q).modTeam k.r.part k.r.core k.r.slot fun t =>
              t.setScalar d (BitVec.ofNat 64 (s.readReach k.part.tag q))).leaveLoads k.r k.part.tag (Config.late s.tick)
                [(.scalar d.toNat, readsOf ⟨0, ea, 8⟩ q)]) }

/-- R216. -/
def execSts (a : SReg) (m : SReg) (i : SIndex) (s : State) : Host.Outcome State Fault Refusal :=
  s.issue fun s k =>
    let as : List LaneAccess := [⟨0, k.scalarAddress m i, 8⟩]
    { shape := { nonIdem := s.touchesPhased k 1 as }
      eff := s.storeLanes k storeWant none as fun _ => leBytes 8 (k.s a).toNat }

/-! ## Strided access (R217) -/

/-- The address of lane l. -/
def Ctx.strided (k : Ctx) (a b : SReg) (l : Nat) : W64 := k.s a + BitVec.ofNat 64 l * k.s b

/-- R217. -/
def execLdw (d : VReg) (a b : SReg) (s : State) : Host.Outcome State Fault Refusal :=
  s.issue fun s k => loadAct s k true true none [] (accesses k.acting (k.strided a b) 4)
    (fun v => putLanes d k.acting fun l => BitVec.ofNat 32 (v l)) (some fun l => .lane d.toNat l 1 32)
/-- R217. -/
def execStw (c : VSrc) (a b : SReg) (s : State) : Host.Outcome State Fault Refusal :=
  s.issue fun s k => storeAct s k true none (markV c 1) (accesses k.acting (k.strided a b) 4) fun l =>
    leBytes 4 (k.v c l).toNat

/-! ## Bit planes (R218) -/

/-- R218: lanes of planes that PLANES leaves out make no access and receive 0. -/
def execLdbp (d : VReg) (m : Base) (i : Index) (s : State) : Host.Outcome State Fault Refusal :=
  s.issue fun s k =>
    let planes := modePlanes k.split.mr
    loadAct s k (Instr.wf (.ldbp d m i)) (2 ≤ planes && planes ≤ 8) none (without (markMem m i) (namesOf d 1))
      (accesses (k.acting.filter fun l => l % 32 / 4 < planes) (k.address m i) 4)
      (fun v => putLanes d k.acting fun l => BitVec.ofNat 32 (v l)) (some fun l => .lane d.toNat l 1 32)

/-! ## Acquire and release (R219) -/

/-- R219. -/
def execLda32 (d : VReg) (m : Base) (c : Byte) (s : State) : Host.Outcome State Fault Refusal :=
  s.issue fun s k => loadAct s k (Instr.wf (.lda32 d m c)) true (some 0x07) (without (markBase m) (namesOf d 1))
    (accesses k.acting (k.address m .none) 4) (fun v => putLanes d k.acting fun l => BitVec.ofNat 32 (v l)) none
/-- R219. -/
def execLda64 (d : VReg) (m : Base) (c : Byte) (s : State) : Host.Outcome State Fault Refusal :=
  s.issue fun s k => loadAct s k (Instr.wf (.lda64 d m c)) true (some 0x07) (without (markBase m) (namesOf d 2))
    (accesses k.acting (k.address m .none) 8) (fun v => putPairs d k.acting fun l => BitVec.ofNat 64 (v l)) none
/-- R219. -/
def execStl32 (a : VSrc) (m : Base) (c : Byte) (s : State) : Host.Outcome State Fault Refusal :=
  s.issue fun s k => releaseAct s k c (Instr.wf (.stl32 a m c)) (markV a 1 ++ markBase m)
    (accesses k.acting (k.address m .none) 4) fun l => leBytes 4 (k.v a l).toNat
/-- R219. -/
def execStl64 (a : VSrc) (m : Base) (c : Byte) (s : State) : Host.Outcome State Fault Refusal :=
  s.issue fun s k => releaseAct s k c (Instr.wf (.stl64 a m c)) (markV a 2 ++ markBase m)
    (accesses k.acting (k.address m .none) 8) fun l => leBytes 8 (k.v2 a l).toNat

/-! ## Hints (R220, R221) -/

/-- R220: no architectural effect. -/
def execPref (m : Base) (i : Index) (s : State) : Host.Outcome State Fault Refusal :=
  s.issue fun s _ => { legal := Instr.wf (.pref m i), shape := { marks := markMem m i, sweep := true }, eff := .done s }

/-- The faults of `evict` in a lane (R221): the address, the walk, and the privilege of the leaf. -/
def State.evictFault (s : State) (k : Ctx) (ea : W64) : Option Nat :=
  if ea.toNat ≥ 2 ^ 58 then some 0x09
  else match s.walk k.part k.core.tile ea.toNat [0, 1, 2, 3] (s.rootOf k.part k.core.tile) [] with
    | .error c => some c
    | .ok q => if entryS q.entry && !k.team.sup then some 0x09 else none

/-- The machine line that a lane's `evict` drops from its home slice: one of a KIND 0 page with HOME 00 or 10 whose leaf
passes the checks of a read. -/
def State.evictLine (s : State) (k : Ctx) (ea : W64) : Option Nat :=
  match s.translate k.part k.core.tile { cls := 0, write := false, sup := k.team.sup, kindOk := fun n => n = 0 } ea.toNat with
  | .error _ => none
  | .ok q => if q.home = 0 ∨ q.home = 2 then (k.part.locOf q.ppa).map fun a => a / 64 else none


/-- R221. -/
def execEvict (m : Base) (i : Index) (s : State) : Host.Outcome State Fault Refusal :=
  s.issue fun s k =>
    { legal := Instr.wf (.evict m i), shape := { marks := markMem m i, sweep := true }
      eff := match k.acting.findSome? fun l => (s.evictFault k (k.address m i l)).map fun c => (c, k.address m i l) with
        | some (c, va) => .trap { code := c, va := va, cls := 0 }
        | none => .done (s.dropLines (k.acting.filterMap fun l => s.evictLine k (k.address m i l))) }

/-! ## Group loads (R222 to R230) -/

/-- A lane of a group load: its translation, its members and its offset. -/
structure GroupLane where
  lane : Nat
  ea : W64
  page : Xl
  members : List (Nat × Nat)
  deriving DecidableEq, Repr

def GroupLane.locs (x : Partition) (g : GroupLane) (m : Nat × Nat) : Option (List Nat) :=
  (List.range 4).mapM fun i => x.memberLoc false m (g.ea.toNat % 16384 + i)

/-- The first member of a lane that stops the load: absent on a KIND 5 page, or with uncorrectable data (R228, R229). -/
def State.groupStop (s : State) (x : Partition) (g : GroupLane) : Option (Nat × Bool) :=
  let gone := if g.page.kind = 5 then g.members.findIdx? fun m => (g.locs x m).isNone else none
  match gone with
  | some j => some (j, true)
  | none => (g.members.findIdx? fun m => match g.locs x m with
      | none => false
      | some locs => locs.any (s.badAt x.tag)).map fun j => (j, false)

/-- Check one lane of a group load. -/
def State.groupLane (s : State) (k : Ctx) (l : Nat) (ea : W64) : Except Trap GroupLane :=
  if ea.toNat % 4 ≠ 0 then .error { code := 0x09, va := ea, cls := 4 }
  else match s.translate k.part k.core.tile { cls := 4, write := false, sup := k.team.sup, kindOk := fun n => n = 1 || n = 5 } ea.toNat with
    | .error c => .error { code := c, va := ea, cls := 4 }
    | .ok q => match s.groupMembers k.part k.core.tile (entryFrame q.entry) with
      | .error c => .error { code := c, va := ea, cls := 4 }
      | .ok ms =>
        let g : GroupLane := ⟨l, ea, q, ms⟩
        match s.groupStop k.part g with
        | some (j, gone) => .error { code := 0x0A, va := ea, cls := 4, arg := j, absent := gone }
        | none => .ok g

def State.groupLanes (s : State) (k : Ctx) (ea : Nat → W64) : List Nat → Except Trap (List GroupLane)
  | [] => .ok []
  | l :: rest =>
    match s.groupLane k l (ea l) with
    | .error t => .error t
    | .ok g => match s.groupLanes k ea rest with
      | .error t => .error t
      | .ok gs => .ok (g :: gs)

/-- The value of a lane (R224, R227). -/
def State.groupValue (s : State) (x : Partition) (op t : Nat) (g : GroupLane) : Nat :=
  treeOf (combine op t) g.members.length (g.members.map fun m => match g.locs x m with
    | none => identityOf op t
    | some locs => s.readLocs x.tag locs)

/-- The reads that a lane of a group load makes: one for each member, each at its own moment (R231); an absent member counts
as the identity (R227). -/
def GroupLane.reads (x : Partition) (op t : Nat) (g : GroupLane) : List LoadPart :=
  g.members.map fun m => match g.locs x m with
    | none => { locs := [], cached := [], got := some (leBytes 4 (identityOf op t)) }
    | some locs => { locs := locs, cached := [], got := none }

/-- What a group load leaves in the RTU, and TSTAT.GABSENT (R227, R230). -/
def State.keepGroups (s : State) (k : Ctx) (gs : List GroupLane) : State :=
  let s := gs.foldl (fun s g =>
    (s.keep k.r.part k.core.tile g.ea.toNat false g.page).keepGroup k.r.part k.core.tile g.ea.toNat (entryFrame g.page.entry)) s
  if gs.any fun g => g.members.any fun m => (g.locs k.part m).isNone then
    s.atTeam (teamOf k.r) fun u => { u with gabsent := true }
  else s

/-- R224. -/
def execGld (d : VReg) (m : Base) (c : Byte) (s : State) : Host.Outcome State Fault Refusal :=
  s.issue fun s k =>
    let op := c.toNat
    let t := k.type
    { legal := Instr.wf (.gld d m c)
      typed := !(op = 2 || op = 3) || t = 0 || t = 1 || t = 6
      shape := { marks := without (markBase m) (namesOf d 1), sweep := true }
      eff := match s.groupLanes k (k.address m .none) k.acting with
        | .error t => .trap t
        | .ok gs =>
          if gs.any fun g => g.members.any fun x => s.blocked k.part k.core.tile ((g.locs k.part x).getD []) then .stay s
          else
            let s := s.performMine k.r (gs.flatMap fun g => g.members.flatMap fun m => (g.locs k.part m).getD [])
            let value (l : Nat) : Nat := match gs.find? fun g => g.lane = l with
              | none => 0
              | some g => s.groupValue k.part op t g
            let ws := putLanes d k.acting fun l => BitVec.ofNat 32 (value l)
            s.withChunks k ws fun s => .done (((s.keepGroups k gs).putAll k.r ws).leaveLoads k.r k.part.tag (Config.late s.tick)
              (gs.map fun g => (.group d.toNat g.lane op t, g.reads k.part op t))) }

/-! ## Event of the family -/

/-- QUEUE_SLOT_FREE (R298): the next copies of a waiting aperture store are accepted. -/
def execQueueSlotFree (r : SplitRef) (s : State) : Host.Outcome State Fault Refusal :=
  if s.frozen r then .next s else match s.split? r with
  | none => .next s
  | some sp =>
    match sp.wait with
    | .aperture left marks =>
      match s.acceptAll r left with
      | (s, []) => .next (s.complete r (apertureShape marks) none)
      | (s, more) => .next (s.modSplit r fun x => { x with wait := .aperture more marks })
    | _ => .next s

end Sys2Proof.Machine
end

