-- ==== Sys2Proof/Machine/Sync.lean ====
section
/-! DEFINITION. Ordering, atomics, barriers, the grid barrier and monitors (R239 to R288). A fence above split scope
performs every store of the split that waits to be performed. -/

namespace Sys2Proof.Machine

/-! ## Fences (R251, R257) -/

/-- R251: scope 0 adds nothing to program order. -/
def execFence (c : Byte) (s : State) : Host.Outcome State Fault Refusal :=
  s.issue fun s k => { legal := Instr.wf (.fence c), eff := .done (if c = 0 then s else s.performOwn k.r) }

def Issuer.same (a b : Issuer) : Bool := a.kind = b.kind && a.launch = b.launch && a.ordinal = b.ordinal

/-- The unfinished copies of a team in its core's channels: channel and copy. -/
def Core.copiesOf (c : Core) (i : Issuer) : List (Nat × Copy) :=
  c.chans.flatMap fun (n, ch) => (ch.queue.filter fun y => y.issuer.same i).map fun y => (n, y)

/-- The lines that a copy still has to take before a `fencee` of its team may complete: none for a copy to a bound
partition or one that has ended in error. -/
def Copy.toTake (y : Copy) : List Nat := if y.tmpl.dst = 3 || y.error then [] else y.left

/-- Have the engine take the lines of a copy ahead; a fault stops it there. The flag says whether every line is taken. -/
def State.takeLines (s : State) (p l n id : Nat) : List Nat → State × Bool
  | [] => (s, true)
  | line :: rest =>
    match s.part? p, s.core? p l with
    | some x, some c =>
      match (c.chan n).queue.find? fun y => y.id = id with
      | none => (s, true)
      | some y =>
        match s.takeLine x c p l n y line with
        | .error e => (s.copyFault p l n y e, false)
        | .ok none => (s, false)
        | .ok (some s) => s.takeLines p l n id rest
    | _, _ => (s, true)

/-- The same for every copy of a team; a suspended copy has not met the condition. -/
def State.takeCopies (s : State) (p l : Nat) : List (Nat × Copy) → State × Bool
  | [] => (s, true)
  | (n, y) :: rest =>
    let (s, a) := if y.suspended then (s, false) else s.takeLines p l n y.id y.toTake
    let (s, b) := s.takeCopies p l rest
    (s, a && b)

/-- The team has issued drains that are not yet performed (R257, 2). -/
def Ctx.drains (k : Ctx) : Bool :=
  (k.core.drains.any fun d => d.issuer.same k.team.issuer) || k.part.flights.any fun f => f.issuer.same k.team.issuer

/-- R257. -/
def execFencee (c : Byte) (s : State) : Host.Outcome State Fault Refusal :=
  s.issue fun s k =>
    { legal := Instr.wf (.fencee c)
      eff :=
        let (s, taken) := (s.performOwn k.r).takeCopies k.r.part k.r.core (k.core.copiesOf k.team.issuer)
        if taken && !k.drains then .done s else .stay s }

/-! ## Atomics (R252 to R255) -/

/-- The TYPE classes of R253. -/
def AtomOp.typed (op : AtomOp) (t : Nat) : Bool := if op = .fadd then t = 6 else t = 0 || t = 1 || typeWide t

/-- How many data operands an atomic has (R252, R253). -/
def AtomOp.operands (op : AtomOp) : Nat := if op = .cas then 2 else 1

/-- The pairs of R253: `n` is how many operands of the width stand from vc on. -/
def atomicLegal (t : Nat) (d : ADest) (c : VSrc) (n : Nat) : Bool :=
  if typeWide t then
    evenReg c.reg && c.reg.toNat + 2 * n ≤ 64 && (match d with
      | .discard => true
      | .to r => evenReg r)
  else c.reg.toNat + n ≤ 64

/-- The data operand number i from vc on. -/
def Ctx.atomicData (k : Ctx) (c : VSrc) (i l : Nat) : Nat :=
  if typeWide k.type then
    fromElements 32 (fun j => (k.team.container (c.reg.toNat + 2 * i + j) l).toNat) 2
  else (k.team.container (c.reg.toNat + i) l).toNat

/-- One lane's atomic. -/
def Ctx.atomicOf (k : Ctx) (op : AtomOp) (d : ADest) (c : VSrc) (a : LaneAccess) (q : Reach) : LateAtomic :=
  { part := { locs := q.locs, cached := q.cached, got := none }, op := op, type := k.type, rnd := modeRnd k.split.mr
    a := k.atomicData c 0 a.lane, b := if op = .cas then k.atomicData c 1 a.lane else 0
    into := match d with
      | .discard => none
      | .to r => some (if typeWide k.type then .pair r.toNat a.lane else .lane r.toNat a.lane 1 32) }

/-- The containers that an atomic's result takes. -/
def atomicPuts (t : Nat) (d : ADest) (ls : List Nat) (f : Nat → Nat) : List Put :=
  match d with
  | .discard => []
  | .to r => putOperand (typeWide t) r ls f

/-- An atomic instruction (R254). The order among lanes that meet is not defined (R255). Its operand names are checked only
under a TYPE that it accepts: under any other TYPE the cause is 0x0E (log entry 78). -/
def atomicOp (op : AtomOp) (d : ADest) (m : Base) (c : VSrc) : State → Host.Outcome State Fault Refusal := fun s =>
  s.issue fun s k =>
    let t := k.type
    let n := op.operands
    let as := accesses k.acting (k.address m .none) (atomicWidth t)
    let written := match d with
      | .discard => []
      | .to r => namesOf r (spanOf (typeWide t))
    { legal := m.wf && (!op.typed t || atomicLegal t d c n)
      typed := op.typed t
      shape := { marks := without (markBase m ++ markV c (n * spanOf (typeWide t))) written, sweep := true, nonIdem := true }
      eff := match s.reachLanes k { cls := 2, write := true, shadow := true, data := true } (some 0x07) as with
        | .error e => .trap e
        | .ok qs =>
          if qs.any fun q => s.blocked k.part k.core.tile q.2.locs then .stay s
          else (s.performMine k.r (qs.flatMap fun q => q.2.locs)).withChunks k (atomicPuts t d k.acting fun _ => 0) fun s =>
            let order := if overlap (qs.map fun q => q.2.locs) then sortBy (fun q : LaneAccess × Reach => Config.rank s.tick 0 q.1.lane) qs else qs
            let (s, olds) := (s.keepLanes k true qs).performAtomics k.r k.part.tag (Config.late s.tick)
              (order.map fun (a, q) => (a.lane, k.atomicOf op d c a q))
            .done (s.putAll k.r (atomicPuts t d k.acting fun l => ((olds.find? fun o => o.1 = l).map fun o => o.2).getD 0)) }

/-- R254. -/
def execAadd (d : ADest) (m : Base) (c : VSrc) (s : State) : Host.Outcome State Fault Refusal :=
  atomicOp .add d m c s
/-- R254. -/
def execAmin (d : ADest) (m : Base) (c : VSrc) (s : State) : Host.Outcome State Fault Refusal :=
  atomicOp .min d m c s
/-- R254. -/
def execAmax (d : ADest) (m : Base) (c : VSrc) (s : State) : Host.Outcome State Fault Refusal :=
  atomicOp .max d m c s
/-- R254. -/
def execAand (d : ADest) (m : Base) (c : VSrc) (s : State) : Host.Outcome State Fault Refusal :=
  atomicOp .and d m c s
/-- R254. -/
def execAor (d : ADest) (m : Base) (c : VSrc) (s : State) : Host.Outcome State Fault Refusal :=
  atomicOp .or d m c s
/-- R254. -/
def execAxor (d : ADest) (m : Base) (c : VSrc) (s : State) : Host.Outcome State Fault Refusal :=
  atomicOp .xor d m c s
/-- R254. -/
def execAxchg (d : ADest) (m : Base) (c : VSrc) (s : State) : Host.Outcome State Fault Refusal :=
  atomicOp .xchg d m c s
/-- R254: the compare value stands in vc, the swap value behind it (R253). -/
def execAcas (d : ADest) (m : Base) (c : VSrc) (s : State) : Host.Outcome State Fault Refusal :=
  atomicOp .cas d m c s
/-- R254: F32, one rounding. -/
def execAfadd (d : ADest) (m : Base) (c : VSrc) (s : State) : Host.Outcome State Fault Refusal :=
  atomicOp .fadd d m c s

/-! ## Named barriers (R260 to R274) -/

/-- Take the chunks of a predicate result that is written at the end of a wait, and go on; a trap gives them back (R39). -/
def State.withPred (s : State) (k : Ctx) (pd : PReg) (f : State → Eff) : Eff :=
  let ws := putPreds pd k.lanes fun _ => false
  let got := (k.core.takeChunks k.team (chunksOf ws) []).2.1
  s.withChunks k ws fun s => f (s.modSplit k.r fun x => { x with drawn := x.drawn ++ got })

/-- R269, checked in the order of its entry: the handle's 0x10 comes before the 0x02 of a configuration word that is no
good (log entry 41). -/
def execBinit (a b : SReg) (s : State) : Host.Outcome State Fault Refusal :=
  s.issue fun s k =>
    { shape := { nonIdem := true }
      eff := match k.barrier (k.s a) false with
        | .error c => .trap (k.cause c)
        | .ok (l, n) => if configOk (k.s b) then .done (s.initBar k.r.part l n (k.s b)) else .trap (k.cause 0x02) }

/-- R270: a remote arrival crosses the fabric before it is counted (R264). -/
def execBarv (a : SReg) (s : State) : Host.Outcome State Fault Refusal :=
  s.issue fun s k =>
    let h := k.s a
    { shape := { nonIdem := true }
      eff := match k.barrier h true with
        | .error c => .trap (k.cause c)
        | .ok (l, n) =>
          if handleRemote h then
            (s.performOwn k.r).wait k.r .waitingBarrier (.remote (handleCore h) (handleSlot h) (handleIndex h))
          else .settled (s.arriveAt k.r l n none) }

/-- R270. -/
def execBarx (d : PReg) (a : SReg) (s : State) : Host.Outcome State Fault Refusal :=
  s.issue fun s k =>
    { shape := { nonIdem := true }
      eff := match k.barrier (k.s a) false with
        | .error c => .trap (k.cause c)
        | .ok (l, n) =>
          if (k.core.bar n).valid then s.withPred k d fun s => .settled (s.arriveAt k.r l n (some d))
          else .trap (k.cause 0x10) }

/-- A wait for a phase to end (R271). -/
def phaseWait (d : PReg) (a : SReg) (limited : Bool) : State → Host.Outcome State Fault Refusal := fun s =>
  s.issue fun s k =>
    let h := k.s a
    { eff := match k.barrier h false with
        | .error c => .trap (k.cause c)
        | .ok (_, n) => s.withPred k d fun s =>
            let b := k.core.bar n
            if !b.valid then .done (s.putPredAll k.r d false)
            else if b.phase ≠ handlePh h then .done (s.putPredAll k.r d true)
            else s.wait k.r .waitingBarrier (.bwait n d (if limited then some s.cycle else none)) }

/-- R271. -/
def execBwait (d : PReg) (a : SReg) (s : State) : Host.Outcome State Fault Refusal := phaseWait d a false s
/-- R271. -/
def execBtry (d : PReg) (a : SReg) (s : State) : Host.Outcome State Fault Refusal := phaseWait d a true s

/-- R272. -/
def execBinv (a : SReg) (s : State) : Host.Outcome State Fault Refusal :=
  s.issue fun s k =>
    { shape := { nonIdem := true }
      eff := match k.barrier (k.s a) false with
        | .error c => .trap (k.cause c)
        | .ok (l, n) => .done (s.invalidateBar k.r.part l n) }

/-- R273. -/
def execBexp (a b : SReg) (s : State) : Host.Outcome State Fault Refusal :=
  s.issue fun s k =>
    { shape := { nonIdem := true }
      eff := match k.barrier (k.s a) false with
        | .error c => .trap (k.cause c)
        | .ok (l, n) =>
          match (k.core.bar n).expectMore ((k.s b).setWidth 32) with
          | .error c => .trap (k.cause c)
          | .ok x => .done ((s.modCore k.r.part l fun c => c.setBar n x).checkBar k.r.part l n) }

/-! ## The grid barrier (R276 to R280) -/

/-- R276. -/
def execGbar (s : State) : Host.Outcome State Fault Refusal :=
  s.issue fun s k =>
    { shape := { nonIdem := true }
      eff := .done (((s.performOwn k.r).atTeam (teamOf k.r) fun t => { t with grid := some k.core.gph }).modCore
        k.r.part k.r.core fun c => { c with garr := true }) }

/-- A wait for a grid release (R280). One that a reshape with a grid reset cut short receives 0 (R421). -/
def gridWait (d : PReg) (limited : Bool) : State → Host.Outcome State Fault Refusal := fun s =>
  s.issue fun s k =>
    { eff := s.withPred k d fun s =>
        if k.split.gridCut = .zero ∨ k.split.gridCut = .replay then
          .done ((s.putPredAll k.r d false).modSplit k.r fun x => { x with gridCut := .none })
        else if k.team.grid = some (!k.core.gph) then
          .done ((s.atTeam (teamOf k.r) fun t => { t with grid := none }).putPredAll k.r d true)
        else s.wait k.r .waitingBarrier (.grid d (if limited then some s.cycle else none)) }

/-- R280. -/
def execGbwait (d : PReg) (s : State) : Host.Outcome State Fault Refusal := gridWait d false s
/-- R280. -/
def execGbtry (d : PReg) (s : State) : Host.Outcome State Fault Refusal := gridWait d true s

/-! ## Monitors (R283 to R287) -/

/-- R284, on a KIND 0 page only. -/
def execMon (a : SReg) (s : State) : Host.Outcome State Fault Refusal :=
  s.issue fun s k =>
    { eff := match s.reachBy k { cls := 0, kinds := [0] } (k.s a) 1 with
        | .error (c, va) => .trap { code := c, va := BitVec.ofNat 64 va, cls := 0 }
        | .ok q => .done ((s.keepReach k false q).atTeam (teamOf k.r) fun t =>
            { t with monitor := { armed := true, trig := false, line := q.ppa / 64 * 64 } }) }

/-- R286. -/
def execMwait (s : State) : Host.Outcome State Fault Refusal :=
  s.issue fun s k =>
    { eff := if k.team.monitor.ends then .settled (s.finishMonitor k.r none)
        else s.wait k.r .waitingMemory (.monitor none s.cycle) }

/-- R286. -/
def execMtry (d : PReg) (s : State) : Host.Outcome State Fault Refusal :=
  s.issue fun s k =>
    { eff := s.withPred k d fun s =>
        if k.team.monitor.ends then .settled (s.finishMonitor k.r (some d))
        else s.wait k.r .waitingMemory (.monitor (some d) s.cycle) }

/-! ## Events of the family -/

/-- The time limit of a wait has run out. -/
def timeUp (since cycle : Nat) : Bool := since + Config.tryLimit ≤ cycle

/-- BTRY_TIMEOUT (R271). -/
def execBtryTimeout (r : SplitRef) (s : State) : Host.Outcome State Fault Refusal :=
  if s.frozen r then .next s else match s.split? r with
  | none => .next s
  | some sp =>
    match sp.wait with
    | .bwait _ d (some since) => if timeUp since s.cycle then .next (s.finishWait r {} (some (d, false))) else .next s
    | _ => .next s

/-- GBTRY_TIMEOUT (R280): the record stays. -/
def execGbtryTimeout (r : SplitRef) (s : State) : Host.Outcome State Fault Refusal :=
  if s.frozen r then .next s else match s.split? r with
  | none => .next s
  | some sp =>
    match sp.wait with
    | .grid d (some since) => if timeUp since s.cycle then .next (s.finishWait r {} (some (d, false))) else .next s
    | _ => .next s

/-- MTRY_TIMEOUT (R286). -/
def execMtryTimeout (r : SplitRef) (s : State) : Host.Outcome State Fault Refusal :=
  if s.frozen r then .next s else match s.split? r with
  | none => .next s
  | some sp =>
    match sp.wait with
    | .monitor (some d) since => if timeUp since s.cycle then .next (s.finishMonitor r (some d)) else .next s
    | _ => .next s

/-- MONITOR_WAKE (R286). -/
def execMonitorWake (r : SplitRef) (s : State) : Host.Outcome State Fault Refusal :=
  if s.frozen r then .next s else match s.ctxAt r with
  | none => .next s
  | some k =>
    match k.split.wait with
    | .monitor d _ => if k.team.monitor.ends then .next (s.finishMonitor r d) else .next s
    | _ => .next s

/-- The owning core counts a remote arrival or returns the trap (R262, R264). -/
def State.countRemote (s : State) (k : Ctx) (l slot index : Nat) : State :=
  match k.part.remoteBar k.team.launch l slot index with
  | some b => s.arriveAt k.r l b none
  | none => (s.raise k.r (k.cause 0x10)).reap (teamOf k.r)

/-- REMOTE_ARRIVAL (R264): it waits for a core that does not answer (R409) and for the links on its way (R429). -/
def execRemoteArrival (r : SplitRef) (s : State) : Host.Outcome State Fault Refusal :=
  if s.frozen r then .next s else match s.ctxAt r with
  | none => .next s
  | some k =>
    match k.split.wait with
    | .remote l slot index =>
      if (k.part.core? l).any Core.silent ∨ s.awaitsCore k.part k.r.core l then .next s else .next (s.countRemote k l slot index)
    | _ => .next s

/-- EARLY_ROOM (R264). -/
def execEarlyRoom (r : SplitRef) (s : State) : Host.Outcome State Fault Refusal :=
  if s.frozen r then .next s else match s.split? r with
  | none => .next s
  | some sp =>
    match sp.wait with
    | .early l b d => .next (s.arriveAt r l b d)
    | _ => .next s

/-- GRID_RELEASE (R277): the release begins once every input is 1, and reaches the cores one after another. A quiesce
holds it back (R278). -/
def execGridRelease (p l : Nat) (s : State) : Host.Outcome State Fault Refusal :=
  match s.part? p with
  | none => .next s
  | some x =>
    let due := match x.releasing with
      | some ls => ls
      | none => if x.cores.all Core.gridInput then List.range x.live else []
    if x.hold ≠ .suspended ∧ due.contains l ∧ !((x.core? l).any fun c => c.warm.isSome) then
      let left := due.filter (· ≠ l)
      .next ((s.gridReach p l).modPart p fun y => { y with releasing := if left = [] then none else some left })
    else .next s

end Sys2Proof.Machine
end

