-- ==== Sys2Proof/Machine/Copy.lean ====
section
/-! DEFINITION. The copy-engine instructions (R315 to R321) and the events of the engine. -/

namespace Sys2Proof.Machine

/-! ## Waiting for a stamp (R316, R317) -/

/-- R317: the stamp is read; where it does not meet the target, the split waits. -/
def stampWait (a b : SReg) (pd : Option PReg) (s : State) (k : Ctx) : Act :=
  { eff := match s.stampRead k (k.s a) with
      | .error t => .trap t
      | .ok none => .stay s
      | .ok (some (s', v)) =>
        let go (s : State) : Eff :=
          if stampMeets v (k.s b) then .settled (s.finishWait k.r {} (pd.map fun d => (d, true)))
          else s.wait k.r .waitingMemory (.stamp (k.s a) (k.s b) pd s.cycle false)
        match pd with
        | none => go s'
        | some d => s'.withPred k d go }

/-- R317. -/
def execSwait (a b : SReg) (s : State) : Host.Outcome State Fault Refusal := s.issue fun s k => stampWait a b none s k
/-- R317. -/
def execStry (d : PReg) (a b : SReg) (s : State) : Host.Outcome State Fault Refusal :=
  s.issue fun s k => stampWait a b (some d) s k

/-! ## Queries, cancellation, templates (R318 to R320) -/

/-- The state code of a channel (R318). A channel that holds both a suspended copy and one that ends in error reads 2
(log entry 79). -/
def Channel.code (ch : Channel) : Nat :=
  if ch.queue = [] then 0 else if ch.suspended then 2 else if ch.queue.any fun y => y.error then 3 else 1

/-- The values of R318. The bytes of a line sent over a binding count until it is acknowledged (log entry 79). -/
def Channel.query (ch : Channel) (sel : Nat) : W64 :=
  match sel with
  | 0 => BitVec.ofNat 64 ch.queue.length
  | 1 => BitVec.ofNat 64 ch.code
  | 2 => ch.lastSeq
  | 3 => ch.lastVis
  | _ => BitVec.ofNat 64 (total (ch.queue.map fun y => y.owed))

/-- R318: a bad selector is trap 0x02, which goes before the trap of a diverged team (R66). -/
def execCqry (d : SReg) (a : SReg) (s : State) : Host.Outcome State Fault Refusal :=
  s.issue fun s k =>
    let q := (k.s a).toNat
    { legal := q < 256 && q / 32 < 5, scalar := true
      eff := s.writeScalar k d ((k.core.chan (q % 32)).query (q / 32)) }

/-- R319: the team's copies in the named queues end in error; the split waits until they have left. -/
def execCabort (a : SReg) (s : State) : Host.Outcome State Fault Refusal :=
  s.issue fun s k =>
    let v := (k.s a).toNat
    let mine := (k.core.copiesOf k.team.issuer).filter fun (n, _) => v / 32 % 2 = 1 || n = v % 32
    { legal := v < 64
      eff :=
        if mine = [] then .done s
        else
          let s := mine.foldl (fun s (n, y) => if y.error then s else s.failCopy k.r.part k.r.core n y) s
          s.wait k.r .waitingMemory (.cancel (mine.map fun x => x.2.id)) }

/-- The machine lines of a template, or of every template of the table. -/
def Partition.templateLines (x : Partition) (one : Option Nat) : List Nat :=
  (one.elim (List.range x.csr.ttsize) fun i => [i]).flatMap fun i =>
    ((x.locsOf (x.csr.ttbase.toNat + 64 * i) 64).getD []).map fun a => a / 64

/-- R320: the split's own stores to the templates are performed, so that a later copy finds them (R314); no other access is. -/
def execCsync (a : SReg) (s : State) : Host.Outcome State Fault Refusal :=
  s.issue fun s k =>
    let v := (k.s a).toNat
    let every := v / 4096 % 2 = 1
    { legal := v < 8192 && (every || v % 4096 < k.part.csr.ttsize)
      eff := .done ((s.performMyLines k.r (k.part.templateLines (if every then none else some (v % 4096)))).modPart k.r.part fun x =>
        { x with tcache := if every then [] else x.tcache.filter fun e => e.2.1 ≠ v % 4096 }) }

/-! ## Events of the family -/

/-- STAMP_WAIT_WAKE (R317): the stamp is read again only after a write to its line. -/
def execStampWaitWake (r : SplitRef) (s : State) : Host.Outcome State Fault Refusal :=
  if s.frozen r then .next s else match s.ctxAt r with
  | none => .next s
  | some k =>
    match k.split.wait with
    | .stamp va target pd since true =>
      match s.stampRead k va with
      | .error t => .next ((s.raise r t).reap (teamOf r))
      | .ok none => .next s
      | .ok (some (s', v)) =>
        if stampMeets v target then .next (s'.finishWait r {} (pd.map fun d => (d, true)))
        else .next (s'.modSplit r fun x => { x with wait := .stamp va target pd since false })
    | _ => .next s

/-- STRY_TIMEOUT (R317): the predicate says whether the value read last meets the target. Where the line has been written
since, it is read once more; while an engine holds the line, the value read last stands, which did not. -/
def execStryTimeout (r : SplitRef) (s : State) : Host.Outcome State Fault Refusal :=
  if s.frozen r then .next s else match s.ctxAt r with
  | none => .next s
  | some k =>
    match k.split.wait with
    | .stamp va target (some d) since wrote =>
      if timeUp since s.cycle then
        if !wrote then .next (s.finishWait r {} (some (d, false)))
        else match s.stampRead k va with
        | .error t => .next ((s.raise r t).reap (teamOf r))
        | .ok none => .next (s.finishWait r {} (some (d, false)))
        | .ok (some (s', v)) => .next (s'.finishWait r {} (some (d, stampMeets v target)))
      else .next s
    | _ => .next s

/-- COPY_LINE (R304, R306): the engine performs one line of a copy, or, its payload done, writes its next stamp once
the copy is the oldest of its channel (R307). The stamps of a core without state are the XMC's (R313). -/
def execCopyLine (r : CopyRef) (line : Nat) (s : State) : Host.Outcome State Fault Refusal :=
  match s.part? r.part, s.core? r.part r.core with
  | some x, some c =>
    let ch := c.chan r.chan
    match ch.queue[r.pos]? with
    | none => .next s
    | some y =>
      if x.hold = .suspended ∨ c.silent ∨ ch.suspended then .next s
      else if c.absent then .next (if r.pos = 0 then s.endJournal r.part r.core r.chan y else s)
      else if let some h := y.held.find? fun h => h.line = line then
        .next (if s.heldWaits r.part r.core h then s else s.writeHeld r.part r.core r.chan y h)
      else if c.earlierFill y then .next s
      else if y.left.contains line then
        .next (if x.silent (s.lineLocs x c y line) || s.awaitsLink x c.tile (s.lineLocs x c y line) then s
          else s.performLine x c r.part r.core r.chan y line)
      else if y.left = [] ∧ (r.pos = 0 ∨ y.passes) then .next (s.stampStep r.part r.core r.chan y)
      else .next s
  | _, _ => .next s

/-- Bytes of a bound partition's peer window (R308, R366). -/
def Partition.windowSize (x : Partition) : Nat := field x.csr.pwctl.toNat 16 32 * 16384

/-- PEER_LINE_RECEIVE (R308): a line that a binding in force brings is checked against the window, written and
acknowledged; during a quiesce it waits at the port (R404), and while no port may send the acknowledgement (R429). -/
def execPeerLineReceive (p b off : Nat) (bytes : List Byte) (s : State) : Host.Outcome State Fault Refusal :=
  match s.part? p with
  | none => .next s
  | some x =>
    if !x.bound b ∨ x.hold = .suspended then .next s
    else match s.peerPort with
      | none => .next s
      | some port =>
        match if off + bytes.length ≤ x.windowSize then x.locsOf (x.csr.pwbase.toNat + off) bytes.length else none with
        | none => .next (s.sendPeer port (.peerAck p b false))
        | some locs =>
          if x.blocked locs then .next s
          else .next (((s.performLines p (locs.map fun a => a / 64)).store p .other (locs.zip bytes)).sendPeer port (.peerAck p b true))

/-- The fault of a copy whose line the bound partition does not take: the byte's window offset with bit 63 set. -/
def windowFault (y : Copy) (line : Nat) : EngineFault :=
  ⟨0x09, windowVa (((lineCells y.tmpl y.arg 0 line).map fun c => c.dest).headD 0), 6, 0⟩

/-- PEER_LINE_ACK (R308). After alarm level 2 nothing arrives (R440). -/
def execPeerLineAck (r : CopyRef) (line : Nat) (ok : Bool) (s : State) : Host.Outcome State Fault Refusal :=
  match s.core? r.part r.core with
  | none => .next s
  | some c =>
    match (c.chan r.chan).queue[r.pos]? with
    | none => .next s
    | some y =>
      if s.halted ∨ !y.unacked.contains line then .next s
      else if ok then
        let s := s.modCopy r.part r.core r.chan y.id fun z => { z with unacked := z.unacked.filter (· ≠ line) }
        .next (s.lineDone r.part r.core r.chan y line (lineCells y.tmpl y.arg 0 line).length)
      else .next (s.copyFault r.part r.core r.chan y (windowFault y line))

end Sys2Proof.Machine
end

