-- ==== Sys2Proof/Machine/Illegal.lean ====
section
/-! DEFINITION. An opcode that no row lists (R62, R65). -/

namespace Sys2Proof.Machine

/-- ILLEGAL_OPCODE: trap 0x01. -/
def execIllegalOpcode (_w : W32) (s : State) : Host.Outcome State Fault Refusal :=
  s.issue fun _ k => { eff := .trap (k.cause 0x01) }

end Sys2Proof.Machine
end

