-- ==== Sys2Proof/Machine/Bar.lean ====
section
/-! DEFINITION. What the host stream of a virtual function carries (R429, R447): the BARs' bytes (R462, R463), completions and
MSI-X writes, at once or, in order, once the stream has a new key. -/

namespace Sys2Proof.Machine

/-- What stands behind one byte of a BAR: memory of the partition, or a register byte. -/
inductive BarByte where
  | mem (loc : Nat)
  | value (b : Byte)
  deriving DecidableEq, Repr

/-- A byte of BAR 0 or BAR 2. -/
def State.barByte (s : State) (x : Partition) (bar off : Nat) : BarByte :=
  if bar = 2 then (if off < x.alloc then .mem (x.base + off) else .value 0)
  else if off < 64 then match x.locOf (x.csr.mboxppa.toNat + off) with
    | some a => .mem a
    | none => .value (Config.barByte s.tick off)
  else if 0x1000 ≤ off ∧ off < 0x1040 then .value (tableGet 0 x.msixTable (off - 0x1000))
  else if 0x2000 ≤ off ∧ off < 0x2008 then .value (BitVec.ofNat 8 (x.msixPending / 256 ^ (off - 0x2000)))
  else .value (Config.barByte s.tick off)

def State.barValue (s : State) (tag : Nat) : BarByte → Byte
  | .mem a => s.byteAt tag a
  | .value b => b

def State.barBad (s : State) (tag : Nat) : BarByte → Bool
  | .mem a => s.badAt tag a
  | .value _ => false

/-- The machine bytes that a host write reaches. -/
def State.barCells (s : State) (x : Partition) (bar off : Nat) (bytes : List Byte) : List (Nat × Byte) :=
  bytes.zipIdx.filterMap fun (b, i) => match s.barByte x bar (off + i) with
    | .mem a => some (a, b)
    | .value _ => none

/-- The bytes of the MSI-X table that a host write reaches. -/
def msixCells (bar off : Nat) (bytes : List Byte) : List (Nat × Byte) :=
  if bar ≠ 0 then [] else bytes.zipIdx.filterMap fun (b, i) =>
    if 0x1000 ≤ off + i ∧ off + i < 0x1040 then some (off + i - 0x1000, b) else none

/-- A vector whose pending bit is set fires once it is no longer masked (R447). -/
def State.firePending (s : State) (p v : Nat) : State :=
  if (s.part? p).any fun x => x.msixPending.testBit v && !x.msixMasked v then
    (s.modPart p fun x => { x with msixPending := x.msixPending - 2 ^ v }).fireMsix p v
  else s

/-- An armed monitor of the partition watches a machine line. -/
def Partition.watches (x : Partition) (line : Nat) : Bool :=
  x.cores.any fun c => c.teams.any fun t => t.monitor.armed && x.reachesLine [64 * line] t.monitor.line

/-- The bytes that a host write puts into memory; slices may keep the copies that they hold of its lines (R205, log entry
72), but none of a line that an armed monitor watches: what reads after its wait finds the write (R286). -/
def State.hostStore (s : State) (x : Partition) (cells : List (Nat × Byte)) : State :=
  let s := ((cells.map fun c => c.1 / 64).eraseDups).foldl (fun s line =>
    if x.watches line then s.dropLines [line] else s.sliceKeeps x line) s
  { s.store x.pindex .other cells with slices := s.slices }

/-- Send a completion over the function's IDE stream. -/
def State.completion (s : State) (p : Nat) (data : List Byte) (poisoned : Bool) : State :=
  (s.count (.host p)).emit (.completion p data poisoned)

/-- A BAR read is answered (R447, R463). -/
def State.barRead (s : State) (x : Partition) (bar off n : Nat) : State :=
  let bs := (List.range n).map fun i => s.barByte x bar (off + i)
  if bs.any (s.barBad x.tag) then s.completion x.pindex (List.replicate n 0) true
  else s.completion x.pindex (bs.map (s.barValue x.tag)) false

/-- A BAR write is performed (R447, R462): the write of a system-scope agent, which rings no doorbell. -/
def State.barWrite (s : State) (x : Partition) (bar off : Nat) (bytes : List Byte) : State :=
  let s := (s.hostStore x (s.barCells x bar off bytes)).modPart x.pindex fun y =>
    { y with msixTable := (msixCells bar off bytes).foldl (fun t e => tableSet 0 t e.1 e.2) y.msixTable }
  (List.range 4).foldl (fun s v => s.firePending x.pindex v) s

/-- A unit goes over the host stream. Accesses that waited find the interface as it is now (R446). -/
def State.hostUnit (s : State) (p : Nat) (u : HostUnit) : State :=
  match s.part? p with
  | none => s
  | some x => match u with
    | .read bar off n => if x.tdisp = .run then s.barRead x bar off n else s.emit (.unsupported p)
    | .write bar off bytes => if x.tdisp = .run then s.barWrite x bar off bytes else s
    | .msix v => s.sendMsix p v

/-- A BAR access goes over the host stream: at once, in order after what waits there for a new key, or not at all (R429). -/
def State.hostAccess (s : State) (x : Partition) (u : HostUnit) : State :=
  match s.hostPath x with
  | .closed => s
  | .waits => s.modPart x.pindex fun y => { y with hostWait := y.hostWait ++ [u] }
  | .clear => s.hostUnit x.pindex u

/-- The stream has a new key: what waited goes, in order (R429). -/
def State.flushHost (s : State) (p : Nat) : State :=
  match s.part? p with
  | none => s
  | some x => x.hostWait.foldl (fun s u => s.hostUnit p u) (s.modPart p fun y => { y with hostWait := [] })

end Sys2Proof.Machine
end

