-- ==== Sys2Proof/Machine/Fetch.lean ====
section
/-! DEFINITION. Fetching the word at a split's pc, and the causes that stand before execution (R34, R35, R41, R44, R64,
R66). -/

namespace Sys2Proof.Machine

/-- What fetching leads to. -/
inductive Fetched where
  /-- the split is not ready, or the word's line is held by an engine: nothing issues -/
  | idle
  | trap (s : State) (t : Trap)
  | run (s : State) (i : Instr)

/-- The opcodes that R64 denies to some team: supervisor-only ones, `launch` outside the root team, `csrr` of a
supervisor CSR. -/
def wordAllowed (t : Team) (w : W32) : Bool :=
  let op := opcodeOf w
  if op = 0xD3#8 ∨ op = 0xD4#8 ∨ op = 0xD5#8 ∨ op = 0xD6#8 ∨ op = 0xD7#8 ∨ op = 0xD8#8 then t.sup
  else if op = 0xDB#8 then t.kind = .root
  else if op = 0xD2#8 then t.sup || w.toNat % 256 < 0x10 || !csrListed (w.extractLsb' 0 8)
  else true

/-- The encoded register names that a word may read or write (R50): every one that a field names, with the registers
behind it that a form may cover (R53); more than it really touches does no harm. Calls write v63 and `ret` reads it (R123,
R124). -/
def touches (i : Instr) : List Nat :=
  match encode i with
  | [] => []
  | w :: _ =>
    let n := if (opcodeOf w).toNat / 32 = 2 then 32 else 4
    63 :: [field w.toNat 16 7, field w.toNat 8 7, field w.toNat 0 7].flatMap fun f => (List.range n).map (f + ·)

/-- The access of a fetch (R198). -/
def fetchWant : Want := { cls := 3, kinds := [0], data := true }

/-- The words that bytes hold. -/
def wordsOf (s : State) (tag : Nat) (q : Reach) : List W32 :=
  let bs := s.reachBytes tag q
  (takeWords (bs.length / 4) bs).getD []

/-- Fetch the instruction of a split: the word, then its literals, which lie in the same fetch block (R44), each after the
split's own stores to it (R242). A fetch fault of a literal word comes behind trap 0x16 and before every cause that needs the
literal (log entry 75). -/
def State.fetch (s : State) (r : SplitRef) : Fetched :=
  match s.ctxAt r with
  | none => .idle
  | some k =>
    if k.split.state ≠ .ready || s.frozen r || k.mustRotate then .idle
    else match s.reachBy k fetchWant k.split.pc 4 with
      | .error (c, va) => .trap s { code := c, va := BitVec.ofNat 64 va, cls := 3 }
      | .ok q =>
        if s.blocked k.part k.core.tile q.locs then .idle
        else
          let s0 := s.performMine r q.locs
          let s1 := s0.keepReach k false q
          match wordsOf s0 k.part.tag q with
          | [w] =>
            let n := if opcodeAssigned (opcodeOf w) then literalCount (opcodeOf w) else 0
            if slotOf k.split.pc + n > 15 then .trap s1 (k.cause 0x16)
            else match if n = 0 then .ok { locs := [], pages := [] } else s.reachBy k fetchWant (k.split.pc + 4) (4 * n) with
              | .error (c, va) => .trap s1 { code := c, va := BitVec.ofNat 64 va, cls := 3 }
              | .ok ql =>
                let s2 := s1.performMine r ql.locs
                match decodeWord w (wordsOf s2 k.part.tag ql) with
                | .ok i => .run s2 i
                | .error _ => .trap s2 (k.cause (if wordAllowed k.team w then 0x02 else 0x0B))
          | _ => .idle

end Sys2Proof.Machine
end

