-- ==== Sys2Proof/Machine/Matrix.lean ====
section
/-! DEFINITION. Tile and accumulator instructions (R322 to R361). -/

namespace Sys2Proof.Machine

/-! ## Shared by the family -/

/-- The number in the core of a tile or accumulator name of the issuing team's gang. -/
def Ctx.tileNo (k : Ctx) (x : XReg) : Nat := match k.core.gang? k.team.gang with
  | none => 0
  | some g => g.tile x.toNat
def Ctx.accNo (k : Ctx) (a : AReg) : Nat := match k.core.gang? k.team.gang with
  | none => 0
  | some g => g.acc a.toNat
def Ctx.tile (k : Ctx) (x : XReg) : Tile := k.core.tileAt (k.tileNo x)
def Ctx.acc (k : Ctx) (a : AReg) : Acc := k.core.accAt (k.accNo a)

def State.setTile (s : State) (k : Ctx) (x : XReg) (t : Tile) : State :=
  s.modCore k.r.part k.r.core fun c => c.setTile (k.tileNo x) t
def State.setAcc (s : State) (k : Ctx) (a : AReg) (v : Acc) : State :=
  s.modCore k.r.part k.r.core fun c => c.setAcc (k.accNo a) v

/-- The team is held in a rendezvous that has completed and is still to be performed. -/
def Ctx.latched (k : Ctx) : Bool :=
  match (k.core.gang? k.team.gang).bind fun g => g.latch with
  | none => false
  | some h => h.complete && h.joined.any fun q => q.1 = k.r.slot

/-- An instruction waits while a tile it names is busy (R302, R346), and while a joint instruction that it follows is still
to be performed (R343). -/
def whenIdle (s : State) (k : Ctx) (xs : List XReg) (e : Eff) : Eff :=
  if k.latched || xs.any fun x => 0 < (k.tile x).busy then .stay s else e

/-! ## Tiles (R347 to R350) -/

/-- R347. -/
def execTcfg (d : XReg) (a : SReg) (s : State) : Host.Outcome State Fault Refusal :=
  s.issue fun s k =>
    { legal := k.tileOk d && ctlOk (k.s a) k.team.hdr.tiles
      eff := whenIdle s k [d] (.done (s.setTile k d { k.tile d with ctl := k.s a })) }

/-- The fill state as `trd` returns it (R348). -/
def Tile.fillWord (t : Tile) : W64 := BitVec.ofNat 64 (t.tag * 2 ^ 48 + t.rbytes * 2 ^ 16 + t.rows * 2 ^ 8)

/-- R348. -/
def execTrd (d : SReg) (a : XReg) (s : State) : Host.Outcome State Fault Refusal :=
  s.issue fun s k =>
    { legal := k.tileOk a, scalar := true, eff := whenIdle s k [a] (s.writeScalar k d (k.tile a).fillWord) }

/-- R349. -/
def execTzero (d : XReg) (s : State) : Host.Outcome State Fault Refusal :=
  s.issue fun s k =>
    let t := k.tile d
    { legal := k.tileOk d
      eff := whenIdle s k [d] (.done (s.setTile k d { t with bytes := [], tag := ctlTag t.ctl, rows := 64, rbytes := 256 })) }

/-- R349. -/
def execTmov (d a : XReg) (s : State) : Host.Outcome State Fault Refusal :=
  s.issue fun s k =>
    let t := k.tile a
    { legal := k.tileOk d && k.tileOk a
      eff := whenIdle s k [d, a] (.done (s.setTile k d
        { k.tile d with bytes := t.bytes, tag := t.tag, rows := t.rows, rbytes := t.rbytes })) }

/-- Check the addresses of a block piece by piece in rising order, so that the lowest faulting byte is met first (R350). -/
def State.reachPieces (s : State) (k : Ctx) (w : Want) : List (Nat × Nat) → Except (Nat × Nat) Reach
  | [] => .ok { locs := [], pages := [] }
  | (va, n) :: rest =>
    match s.reachBy k w (BitVec.ofNat 64 va) n with
    | .error e => .error e
    | .ok q => match s.reachPieces k w rest with
      | .error e => .error e
      | .ok more => .ok { locs := q.locs ++ more.locs, pages := q.pages ++ more.pages, cached := q.cached ++ more.cached }

/-- Check n bytes at an effective address for a block access: every byte's walk, leaf and kind, then the data (R350). -/
def State.reachBlock (s : State) (k : Ctx) (w : Want) (ea : W64) (n : Nat) : Except Trap Reach :=
  if ea.toNat ≥ 2 ^ 58 then .error { code := 0x09, va := ea, cls := w.cls }
  else match s.reachPieces k { w with oneLane := false, data := false } (pieces (n / 16384 + 2) ea.toNat n) with
    | .error (c, a) => .error { code := c, va := BitVec.ofNat 64 a, cls := w.cls }
    | .ok q => match if w.data then s.firstBad k.part.tag q.locs else none with
      | some i => .error { code := 0x11, va := BitVec.ofNat 64 (ea.toNat + i), cls := w.cls }
      | none => .ok q

/-- The single-copy-atomic parts of a block store: each aligned 8-byte unit that it covers whole, other bytes one by one
(R350). -/
def storeUnits : Nat → List (Nat × Byte) → List (List (Nat × Byte))
  | 0, _ => []
  | _, [] => []
  | n + 1, c :: rest =>
    if c.1 % 8 = 0 && 8 ≤ (c :: rest).length then (c :: rest).take 8 :: storeUnits n (rest.drop 7)
    else [c] :: storeUnits n rest

/-- Store a block, some of its parts later (R28, R245). -/
def State.storeBlock (s : State) (r : SplitRef) (locs : List Nat) (bytes : List Byte) : State :=
  (s.performMine r locs).performParts r (Config.late s.tick) (storeUnits locs.length (locs.zip bytes))

/-- The single-copy-atomic parts of a block load: each aligned 8-byte unit that it covers whole, other bytes one by one (R350),
each with its place in the block. -/
def loadUnits (cached : List Nat) : Nat → Nat → List Nat → List (Nat × LoadPart)
  | 0, _, _ => []
  | _, _, [] => []
  | n + 1, i, a :: rest =>
    let part (ls : List Nat) : LoadPart := { locs := ls, cached := cached.filter fun c => ls.contains c, got := none }
    if a % 8 = 0 && 8 ≤ (a :: rest).length then
      (i, part ((a :: rest).take 8)) :: loadUnits cached n (i + 8) (rest.drop 7)
    else (i, part [a]) :: loadUnits cached n (i + 1) rest

/-- Does a reach touch a phased page? -/
def Reach.phased (q : Reach) : Bool := q.pages.any fun x => x.2.kind = 2

def blockRead : Want := { cls := 0, data := true }

/-- R350. -/
def execTld (d : XReg) (m : SReg) (i : SIndex) (s : State) : Host.Outcome State Fault Refusal :=
  s.issue fun s k =>
    let t := k.tile d
    let rows := ctlRows t.ctl
    let rb := ctlRbytes t.ctl
    { legal := k.tileOk d
      eff := whenIdle s k [d] (match s.reachBlock k blockRead (k.scalarAddress m i) (rows * rb) with
        | .error e => .trap e
        | .ok q =>
          if s.blocked k.part k.core.tile q.locs then .stay s
          else
            let s := s.performMine k.r q.locs
            let bs := s.reachBytes k.part.tag q
            let t' := (List.range rows).foldl (fun (u : Tile) r => u.putRow r ((bs.drop (r * rb)).take rb)) t
            .done (((s.keepReach k false q).setTile k d { t' with tag := ctlTag t.ctl, rows := rows, rbytes := rb }).leaveLoads
              k.r k.part.tag (Config.late s.tick)
              ((loadUnits q.cached q.locs.length 0 q.locs).map fun (i, u) => (.tile (k.tileNo d) i rb, [u])))) }

/-- R350. -/
def execTst (a : XReg) (m : SReg) (i : SIndex) (s : State) : Host.Outcome State Fault Refusal :=
  s.issue fun s k =>
    let t := k.tile a
    let rows := ctlRows t.ctl
    let rb := ctlRbytes t.ctl
    let reach := s.reachBlock k storeWant (k.scalarAddress m i) (rows * rb)
    { legal := k.tileOk a
      shape := { nonIdem := match reach with
        | .error _ => false
        | .ok q => q.phased }
      eff := whenIdle s k [a] (match reach with
        | .error e => .trap e
        | .ok q =>
          if !t.tagOk then .trap (k.cause 0x0C)
          else if !t.shapeOk then .trap (k.cause 0x0D)
          else if s.blocked k.part k.core.tile q.locs then .stay s
          else .done ((s.keepReach k true q).storeBlock k.r q.locs ((List.range rows).flatMap fun r =>
            (List.range rb).map fun b => BitVec.ofNat 8 (t.byteAt r b)))) }

/-! ## Joint issue (R332, R333) -/

/-- R332. -/
def execGang (a : SReg) (s : State) : Host.Outcome State Fault Refusal :=
  s.issue fun s k =>
    let v := (k.s a).toNat
    { legal := v < 2 ^ k.team.hdr.gang && (k.s a).getLsbD k.team.gangix
      eff := .done (s.atTeam (teamOf k.r) fun t => { t with gangReg := BitVec.ofNat 6 v }) }

/-- A joint instruction arrives at the latch (R333); PLANES is checked when the rendezvous completes (R341). -/
def jointOp (op : MatOp) (d : AReg) (a b : XReg) : State → Host.Outcome State Fault Refusal := fun s =>
  s.issue fun s k =>
    { legal := k.accOk d && k.tileOk a && k.tileOk b, shape := { nonIdem := true }
      eff := .settled (s.arriveLatch k op d a b) }

/-- R337, R338. -/
def execMma (d : AReg) (a b : XReg) (s : State) : Host.Outcome State Fault Refusal := jointOp .mma d a b s
/-- R339. -/
def execMmam (d : AReg) (a b : XReg) (s : State) : Host.Outcome State Fault Refusal := jointOp .mmam d a b s
/-- R337. -/
def execMmab (d : AReg) (a b : XReg) (s : State) : Host.Outcome State Fault Refusal := jointOp .mmab d a b s

/-! ## Accumulators (R351 to R354) -/

/-- The moduli of M mode, as R181 has them. -/
def modeModulusOk (q : W64) : Bool := q.getLsbD 0 && 3 ≤ q.toNat && q.toNat < 2 ^ 62

/-- R351. -/
def execAcfg (d : AReg) (a b : SReg) (s : State) : Host.Outcome State Fault Refusal :=
  s.issue fun s k =>
    let m := (k.s a).toNat
    { legal := k.accOk d && m < 3
      eff := if m = 2 && !modeModulusOk (k.s b) then .trap (k.cause 0x12)
        else whenIdle s k [] (.done (s.setAcc k d
          { entries := [], mode := m, modulus := if m = 2 then k.s b else 0, status := 0 })) }

/-- R352. -/
def execAstat (d : SReg) (a : AReg) (s : State) : Host.Outcome State Fault Refusal :=
  s.issue fun s k =>
    { legal := k.accOk a, scalar := true
      eff := whenIdle s k [] (s.writeScalar k d (BitVec.ofNat 64 ((k.acc a).status.toNat + (k.acc a).mode * 2 ^ 8))) }

/-- R353. -/
def execAclr (d : AReg) (s : State) : Host.Outcome State Fault Refusal :=
  s.issue fun s k =>
    { legal := k.accOk d, eff := whenIdle s k [] (.done (s.setAcc k d { k.acc d with entries := [], status := 0 })) }

/-- R353. -/
def execAmov (d a : AReg) (s : State) : Host.Outcome State Fault Refusal :=
  s.issue fun s k => { legal := k.accOk d && k.accOk a, eff := whenIdle s k [] (.done (s.setAcc k d (k.acc a))) }

/-- R353. -/
def execAswap (d a : AReg) (s : State) : Host.Outcome State Fault Refusal :=
  s.issue fun s k =>
    { legal := k.accOk d && k.accOk a, shape := { nonIdem := true }
      eff := whenIdle s k [] (.done ((s.setAcc k d (k.acc a)).setAcc k a (k.acc d))) }

/-- An accumulator with loaded entries (R354). -/
def Acc.load (a : Acc) (v : Nat → Nat) : Acc :=
  (List.range 4096).foldl (fun (x : Acc) i => x.loadEntry i (v i)) { a with entries := [] }

/-- The reads of entry i from its 8 bytes: one where they are aligned, otherwise one a byte (R211, R350). -/
def entryReads (q : Reach) (i : Nat) : List LoadPart :=
  (loadUnits q.cached 8 0 ((q.locs.drop (8 * i)).take 8)).map fun u => u.2

/-- R354: the entries that are read later hold 0 until then (log entry 10). -/
def execAload (d : AReg) (m : SReg) (i : SIndex) (s : State) : Host.Outcome State Fault Refusal :=
  s.issue fun s k =>
    { legal := k.accOk d
      eff := whenIdle s k [] (match s.reachBlock k blockRead (k.scalarAddress m i) 32768 with
        | .error e => .trap e
        | .ok q =>
          if s.blocked k.part k.core.tile q.locs then .stay s
          else
            let s := s.performMine k.r q.locs
            let bs := s.reachBytes k.part.tag q
            let waits (n : Nat) : Bool := (List.range (entryReads q n).length).any fun j => Config.late s.tick (8192 * n + j)
            .done (((s.keepReach k false q).setAcc k d ((k.acc d).load fun n => if waits n then 0 else bytesAt bs (8 * n) 8)).leaveLoads
              k.r k.part.tag (Config.late s.tick)
              ((List.range 4096).map fun n => (.acc (k.accNo d) n, entryReads q n)))) }

/-! ## Drains to memory (R355) -/

/-- The width of a drained entry. -/
def drainWidth (t : Nat) : Nat := if typeWide t then 8 else 4

/-- The types and modes of R355. -/
def drainTyped (t mode : Nat) : Bool := typeWide t || ((t = 6 || t = 0) && mode ≤ 1)

/-- A drained entry. -/
def drainValue (t rnd : Nat) (sat : Bool) (mode : Nat) (v : W64) : Nat :=
  if typeWide t then v.toNat
  else
    let x := if mode = 0 then numD v else Num.ofInt v.toInt
    x.deliver rnd sat t

/-- The lines of n bytes at an address, each with the PPA of its first byte under the translations of the check. -/
def drainLines (l : Nat) (w : Want) (ea n : Nat) (pages : List (Nat × Xl)) : List (Nat × Nat) :=
  (List.range ((ea % 64 + n + 63) / 64)).filterMap fun i =>
    let line := ea / 64 + i
    (pages.find? fun (va, _) => va / 16384 = 64 * line / 16384).map fun (_, q) =>
      (line, bankPpa w (remoteTo l q) q / 16384 * 16384 + 64 * line % 16384)

/-- R355: the drain takes the entries and starts. -/
def execAdrain (a : AReg) (m : SReg) (i : SIndex) (s : State) : Host.Outcome State Fault Refusal :=
  s.issue fun s k =>
    let t := k.type
    let acc := k.acc a
    let ea := k.scalarAddress m i
    let n := 4096 * drainWidth t
    let reach := s.reachBlock k storeWant ea n
    { legal := k.accOk a, typed := drainTyped t acc.mode
      shape := { nonIdem := match reach with
        | .error _ => false
        | .ok q => q.phased }
      eff := whenIdle s k [] (match reach with
        | .error e => .trap e
        | .ok q =>
          let d : Drain :=
            { issuer := k.team.issuer, ea := ea.toNat, type := t, rnd := modeRnd k.split.mr, sat := modeSat k.split.mr
              mode := acc.mode, entries := acc.entries, left := drainLines k.r.core storeWant ea.toNat n q.pages }
          .done ((s.keepReach k true q).modCore k.r.part k.r.core fun c => { c with drains := c.drains ++ [d] })) }

/-- The bytes of a drain in a line: place in the line and byte. -/
def Drain.lineBytes (d : Drain) (line : Nat) : List (Nat × Byte) :=
  let w := drainWidth d.type
  (List.range 64).filterMap fun b =>
    let at_ := 64 * line + b
    if d.ea ≤ at_ ∧ at_ < d.ea + 4096 * w then
      let o := at_ - d.ea
      let v := drainValue d.type d.rnd d.sat d.mode (tableGet 0 d.entries (o / w))
      some (b, BitVec.ofNat 8 (v / 2 ^ (8 * (o % w))))
    else none

/-- DRAIN_LINE (R355): one destination line is taken and written. -/
def execDrainLine (p l n line : Nat) (s : State) : Host.Outcome State Fault Refusal :=
  match s.part? p, s.core? p l with
  | some x, some c =>
    match c.drains[n]? with
    | none => .next s
    | some d =>
      match d.left.find? fun e => e.1 = line with
      | none => .next s
      | some (_, ppa) =>
        let put := (d.lineBytes line).filterMap fun (b, v) => (x.locOf (ppa + b)).map fun a => (a, v)
        if x.hold = .suspended ∨ c.silent ∨ x.heldByOthers x.copyCount (put.map (·.1)) ∨ s.awaitsLink x c.tile (put.map (·.1)) then
          .next s
        else
          let left := d.left.filter fun e => e.1 ≠ line
          .next ((s.store p .engine put).modCore p l fun c =>
            { c with drains := if left = [] then c.drains.eraseIdx n else listSet c.drains n { d with left := left } })
  | _, _ => .next s

/-! ## Peer drains (R356 to R359) -/

/-- The accumulator of a target slot for an issuer's launch: its number on that core. -/
def Partition.drainTarget (x : Partition) (ok : Team → Bool) (l slot acc : Nat) : Option Nat :=
  match x.core? l with
  | none => none
  | some c =>
    if c.absent then none
    else match c.team? slot with
      | none => none
      | some t =>
        if !ok t then none
        else (c.gang? t.gang).bind fun g => g.accs[acc]?

/-- The port's own address checks (R290, R356). -/
def portOk (x : Partition) (q : Xl) : Bool :=
  let peer := field q.ppa 52 4
  field q.ppa 35 17 = 0 && field q.ppa 10 4 = 0 && field q.ppa 0 3 = 0 &&
  (if peer = 0 then field q.ppa 22 13 < x.live else x.bound peer)

/-- Take an accumulator's contents for a peer drain, and clear it (R358). -/
def Acc.taken (a : Acc) : DrainData := { entries := a.entries, mode := a.mode, modulus := a.modulus, status := a.status }
def Acc.cleared (a : Acc) : Acc := { a with entries := [], status := 0 }

/-- A drain can set out: inside the partition at once, over a binding while a peer port may send (R429). -/
def State.mayFly (s : State) (q : Xl) : Bool := field q.ppa 52 4 = 0 || s.peerPort.isSome

/-- Start a peer drain: the source is taken and cleared, and the entries travel. -/
def startFlight (s : State) (k : Ctx) (a : AReg) (ea : W64) (q : Xl) : State :=
  let peer := field q.ppa 52 4
  let f : Flight :=
    { issuer := k.team.issuer, srcCore := k.r.core, binding := peer, core := field q.ppa 22 13, slot := field q.ppa 6 4
      acc := field q.ppa 3 3, va := ea, data := (k.acc a).taken }
  let s := (s.keep k.r.part k.core.tile ea.toNat true q).setAcc k a (k.acc a).cleared
  let s := s.modPart k.r.part fun x => { x with flights := x.flights ++ [f] }
  if peer = 0 then s else s.sendPeer (s.peerPort.getD 0) (.peerDrain k.r.part peer f.core f.slot f.acc f.data)

/-- R357, R358. -/
def execAdrainp (a : AReg) (m : SReg) (s : State) : Host.Outcome State Fault Refusal :=
  s.issue fun s k =>
    let ea := k.s m
    let acc := k.acc a
    { legal := k.accOk a, shape := { nonIdem := true }
      eff := whenIdle s k [] (match s.translate k.part k.core.tile { cls := 1, write := true, sup := k.team.sup, kindOk := fun n => n = 4 } ea.toNat with
        | .error c => .trap { code := c, va := ea, cls := 1 }
        | .ok q =>
          if !portOk k.part q then .trap { code := 0x09, va := ea, cls := 1 }
          else if !s.mayFly q then .stay s
          else if field q.ppa 52 4 ≠ 0 then .done (startFlight s k a ea q)
          else
            let l := field q.ppa 22 13
            match k.part.drainTarget (fun t => sameLaunch t.launch k.team.launch) l (field q.ppa 6 4) (field q.ppa 3 3) with
            | none => .trap { code := 0x09, va := ea, cls := 1 }
            | some n =>
              let target := match k.part.core? l with
                | none => Acc.reset
                | some c => c.accAt n
              if (l = k.r.core && n = k.accNo a) || target.mode ≠ acc.mode || target.modulus ≠ acc.modulus then
                .trap (k.cause 0x0D)
              else .done (startFlight s k a ea q)) }

/-- One drained entry added into an entry (R358). -/
def addDrained (mode q : Nat) (t x : W64) : W64 × BitVec 5 :=
  match mode with
  | 0 => roundD (Num.add 0 (numD t) (numD x))
  | 1 => clampI (t.toInt + x.toInt)
  | _ => (BitVec.ofNat 64 ((t.toNat + x.toNat) % q), if q ≤ x.toNat then statModr else 0)

/-- The addition, as one step. -/
def Acc.addDrain (a : Acc) (d : DrainData) : Acc :=
  ((List.range 4096).foldl (fun (x : Acc) i =>
    let (v, st) := addDrained a.mode a.modulus.toNat (tableGet 0 x.entries i) (tableGet 0 d.entries i)
    { x with entries := tableSet 0 x.entries i v }.note st) a).note d.status

/-- What a drain finds at its target: the answer, and the state after an addition. -/
def State.drainInto (s : State) (p : Nat) (x : Partition) (ok : Team → Bool) (l slot acc : Nat) (d : DrainData) :
    State × DrainAnswer :=
  let s := s.performMatrix p l
  match x.drainTarget ok l slot acc, s.core? p l with
  | some n, some c =>
    if (c.accAt n).mode ≠ d.mode ∨ (c.accAt n).modulus ≠ d.modulus then (s, .wrongConfiguration)
    else (s.modCore p l fun c => c.setAcc n ((c.accAt n).addDrain d), .added)
  | _, _ => (s, .notAdmitted)

/-- The record of a drain that is not added (R359). -/
def State.drainRecord (s : State) (p : Nat) (f : Flight) (a : DrainAnswer) : State :=
  match a with
  | .added => s
  | .wrongConfiguration => s.engineEvent p f.issuer ⟨0x0D, f.va.toNat, 1, 0⟩ none
  | .notAdmitted => s.engineEvent p f.issuer ⟨0x09, f.va.toNat, 1, 0⟩ none

/-- The accumulator that a flight inside the partition is bound for, as far as it can be named. -/
def Partition.flightTarget (x : Partition) (f : Flight) : Option Nat :=
  x.drainTarget (fun t => sameLaunch t.launch f.issuer.launch) f.core f.slot f.acc

/-- An earlier drain from the same core into the same accumulator is still on its way (R344). -/
def Partition.overtakes (x : Partition) (n : Nat) (f : Flight) : Bool :=
  (x.flights.take n).any fun e => e.binding = f.binding && e.srcCore = f.srcCore && e.core = f.core &&
    (if f.binding = 0 then x.flightTarget e = x.flightTarget f else e.acc = f.acc)

/-- PEER_DRAIN_ADDITION (R358): drained entries reach their target, as far as links on the way may send (R429). -/
def execPeerDrainAddition (p : Nat) (d : DrainSource) (s : State) : Host.Outcome State Fault Refusal :=
  match s.part? p with
  | none => .next s
  | some x =>
    if x.hold = .suspended then .next s
    else match d with
      | .inside n =>
        match x.flights[n]? with
        | none => .next s
        | some f =>
          if f.binding ≠ 0 ∨ x.overtakes n f ∨ (x.core? f.core).any Core.silent ∨ s.awaitsCore x f.srcCore f.core then .next s
          else
            let (s, a) := s.drainInto p x (fun t => sameLaunch t.launch f.issuer.launch) f.core f.slot f.acc f.data
            .next ((s.modPart p fun y => { y with flights := y.flights.eraseIdx n }).drainRecord p f a)
      | .bound b l slot acc data =>
        if !x.bound b ∨ (x.core? l).any Core.silent then .next s
        else match s.peerPort with
          | none => .next s
          | some port =>
            if !x.csr.pwctl.getLsbD b then .next (s.sendPeer port (.drainAck p b .notAdmitted))
            else
              let (s, a) := s.drainInto p x (fun t => t.kind = .launched) l slot acc data
              .next (s.sendPeer port (.drainAck p b a))

/-- DRAIN_ACKNOWLEDGEMENT (R357, R359): the answer from a bound partition. After alarm level 2 none arrives (R440). -/
def execDrainAcknowledgement (p n : Nat) (answer : DrainAnswer) (s : State) : Host.Outcome State Fault Refusal :=
  match s.part? p with
  | none => .next s
  | some x =>
    match x.flights[n]? with
    | none => .next s
    | some f =>
      if s.halted ∨ f.binding = 0 then .next s
      else .next ((s.modPart p fun y => { y with flights := y.flights.eraseIdx n }).drainRecord p f answer)

/-- RENDEZVOUS_TIMEOUT (R334). -/
def execRendezvousTimeout (p l g : Nat) (s : State) : Host.Outcome State Fault Refusal :=
  match (s.core? p l).bind fun c => (c.gang? g).bind fun x => x.latch with
  | none => .next s
  | some h =>
    if h.complete ∨ s.cycle < h.opened + Config.rendezvousLimit ∨ (s.core? p l).any Core.silent ∨
        (s.part? p).any fun x => x.hold = .suspended then .next s
    else
      let s := s.modCore p l fun c =>
        { c.emptyLatch g with teams := (c.emptyLatch g).teams.map fun t =>
            if (h.joined.any fun q => q.1 = t.slot) then { t with timeouts := t.timeouts + 1 } else t }
      .next (s.raiseHeld p l 0x0F h.joined)

end Sys2Proof.Machine
end

