-- ==== Sys2Proof/Machine/Scalar.lean ====
section
/-! DEFINITION. Scalars and predicates (R154 to R161). -/

namespace Sys2Proof.Machine

/-- A scalar result of two scalars. -/
def scalarOp (d a b : SReg) (f : W64 → W64 → W64) : State → Host.Outcome State Fault Refusal := fun s =>
  s.issue fun s k => { scalar := true, eff := s.writeScalar k d (f (k.s a) (k.s b)) }

/-- R155. -/
def execSadd (d a b : SReg) (s : State) : Host.Outcome State Fault Refusal := scalarOp d a b (fun x y => x + y) s
/-- R155. -/
def execSsub (d a b : SReg) (s : State) : Host.Outcome State Fault Refusal := scalarOp d a b (fun x y => x - y) s
/-- R155. -/
def execSmul (d a b : SReg) (s : State) : Host.Outcome State Fault Refusal := scalarOp d a b (fun x y => x * y) s
/-- R155. -/
def execSand (d a b : SReg) (s : State) : Host.Outcome State Fault Refusal := scalarOp d a b (fun x y => x &&& y) s
/-- R155. -/
def execSor (d a b : SReg) (s : State) : Host.Outcome State Fault Refusal := scalarOp d a b (fun x y => x ||| y) s
/-- R155. -/
def execSxor (d a b : SReg) (s : State) : Host.Outcome State Fault Refusal := scalarOp d a b (fun x y => x ^^^ y) s
/-- R156. -/
def execSshl (d a b : SReg) (s : State) : Host.Outcome State Fault Refusal :=
  scalarOp d a b (fun x y => x <<< (y.toNat % 64)) s
/-- R156. -/
def execSshr (d a b : SReg) (s : State) : Host.Outcome State Fault Refusal :=
  scalarOp d a b (fun x y => if y.getLsbD 6 then x.sshiftRight (y.toNat % 64) else x >>> (y.toNat % 64)) s

/-- R157. -/
def execSmov (d a : SReg) (s : State) : Host.Outcome State Fault Refusal :=
  s.issue fun s k => { scalar := true, eff := s.writeScalar k d (k.s a) }

/-- R157. -/
def execSmovl (d : SReg) (lit : W32) (s : State) : Host.Outcome State Fault Refusal :=
  s.issue fun s k => { scalar := true, shape := { lits := 1 }, eff := s.writeScalar k d (lit.signExtend 64) }

/-- R158: the result is written in every lane of the split, whatever the guard. -/
def execScmp (d : PReg) (a b : SReg) (s : State) : Host.Outcome State Fault Refusal :=
  s.issue fun s k =>
    let x := (k.s a).toNat
    let y := (k.s b).toNat
    let v := compareInt (modeCmp k.split.mr) (valueOf (typeSigned k.type) 64 x) (valueOf (typeSigned k.type) 64 y) x y
    { typed := typeInteger k.type, eff := s.writeLanes k (putPreds d k.lanes fun _ => v) }

/-- The values of R159. -/
def Ctx.ident (k : Ctx) (sel : Nat) : W64 :=
  let launched := k.team.kind = .launched
  let n (v : Nat) : W64 := if launched then BitVec.ofNat 64 v else 0
  match sel with
  | 5 => n k.team.ordinal
  | 6 => BitVec.ofNat 64 k.r.core
  | 7 => BitVec.ofNat 64 k.part.live
  | 8 => BitVec.ofNat 64 k.part.cols
  | 9 => BitVec.ofNat 64 k.part.rows
  | 10 => BitVec.ofNat 64 k.part.lastRow
  | 11 => n k.team.phase
  | 12 => BitVec.ofNat 64 k.team.slot
  | 13 => n k.team.gangix
  | 14 => BitVec.ofNat 64 k.team.hdr.team
  | 15 => k.team.hdr.args
  | 16 => n k.team.launch
  | 17 => k.team.hdr.program
  | i => n (workField k.team.ordinal k.team.hdr.ext i)

/-- R159. -/
def execSidr (d : SReg) (c : Byte) (s : State) : Host.Outcome State Fault Refusal :=
  s.issue fun s k => { legal := Instr.wf (.sidr d c), scalar := true, eff := s.writeScalar k d (k.ident c.toNat) }

/-- A predicate result of two predicates in the acting lanes (R135, R160). -/
def predOp (d : PReg) (a b : PSrc) (f : Bool → Bool → Bool) : State → Host.Outcome State Fault Refusal := fun s =>
  s.issue fun s k =>
    { shape := { marks := without (markP a ++ markP b) [predName d], sweep := true }
      eff := s.writeLanes k (putPreds d k.acting fun l => f (k.p a l) (k.p b l)) }

/-- R160. -/
def execPand (d : PReg) (a b : PSrc) (s : State) : Host.Outcome State Fault Refusal := predOp d a b (fun x y => x && y) s
/-- R160. -/
def execPor (d : PReg) (a b : PSrc) (s : State) : Host.Outcome State Fault Refusal := predOp d a b (fun x y => x || y) s
/-- R160. -/
def execPxor (d : PReg) (a b : PSrc) (s : State) : Host.Outcome State Fault Refusal := predOp d a b (fun x y => x ^^ y) s

/-- R161. -/
def execPcnt (d : SReg) (a : PSrc) (s : State) : Host.Outcome State Fault Refusal :=
  s.issue fun s k =>
    { scalar := true, shape := { marks := markP a }
      eff := s.writeScalar k d (BitVec.ofNat 64 (k.lanes.filter (k.p a)).length) }

end Sys2Proof.Machine
end

