-- ==== Sys2Proof/Machine/Start.lean ====
section
/-! DEFINITION. A partition as it stands when it starts, with its service and root teams (R31, R79, R80, R363). -/

namespace Sys2Proof.Machine

/-- The header values of a team that the partition manager starts (R80). -/
def systemHeader (t : SystemTeam) : Header :=
  { Header.zero with
    program := t.program, entry := t.entry, team := t.team, fpentry := t.fpentry, fppeak := t.fppeak
    scratch := t.scratch, tiles := t.tiles, accs := t.accs, spill := t.spill, barriers := t.barriers, args := t.args }

/-- Frames that a team's scratchpad and spill area take (R78). -/
def framesFor (h : Header) : Nat := (h.scratch + 64 * h.spill + 16383) / 16384

/-- A core of a partition before any team is placed on it. -/
def freshCore (tile phys : Nat) : Core :=
  { tile := tile, phys := phys, absent := false, warm := none, teams := [], gangs := [], releases := [], swapped := []
    fileTiles := [], fileAccs := [], bars := [], chans := [], drains := [], garr := false, gph := false
    excuse := false, excuseOnce := false, stale := 0, unpinned := 0, remaps := 0, remap := .idle }

/-- Resources of a core that teams and releases hold. -/
def Core.heldFrames (c : Core) : List Nat :=
  (c.teams.flatMap (fun t => t.frames) ++ c.releases.flatMap (fun q => q.frames) ++ c.withheld).eraseDups
def Core.heldTiles (c : Core) : List Nat := c.gangs.flatMap (fun g => g.tiles) ++ c.releases.flatMap fun q => q.tiles
def Core.heldAccs (c : Core) : List Nat := c.gangs.flatMap (fun g => g.accs) ++ c.releases.flatMap fun q => q.accs
def Core.heldBars (c : Core) : List Nat := c.gangs.flatMap (fun g => g.bars) ++ c.releases.flatMap fun q => q.bars
def Core.heldSlots (c : Core) : List Nat := c.teams.map fun t => t.slot
def Core.heldEntries (c : Core) : List Nat := c.teams.flatMap fun t => t.splits.map fun x => x.entry

/-- The n lowest of the numbers below `limit` that are not held. -/
def lowest (limit : Nat) (held : List Nat) (n : Nat) : List Nat := ((List.range limit).filter fun i => !held.contains i).take n

/-- A core has room for a team of the partition manager: a slot, its reserves of entries and registers (R79, R96), its peak
footprint (R80) beside the reserve pool of the launched teams (R84), frames, tiles, accumulators and barriers. -/
def Core.fitsSystem (c : Core) (t : SystemTeam) : Bool :=
  let h := systemHeader t
  !c.absent && !c.silent && c.teams.length < Config.slotCount && 2 ≤ c.freeEntries && 1 ≤ c.freeRegisters &&
  h.fppeak + c.reservePool ≤ c.freeChunks && c.heldFrames.length + framesFor h ≤ Config.frameCount &&
  c.heldTiles.length + h.tiles ≤ Config.tileFileCount && c.heldAccs.length + h.accs ≤ Config.accCount &&
  c.heldBars.length + h.barriers ≤ Config.barrierCount

/-- A core with tiles, accumulators and barriers in their reset state (R326, R260) and the pairs of some frames with their
even frame in front (R233). -/
def Core.fresh (c : Core) (tiles accs bars frames : List Nat) : Core :=
  let c := tiles.foldl (fun c i => c.setTile i Tile.reset) c
  let c := accs.foldl (fun c i => c.setAcc i Acc.reset) c
  let c := bars.foldl (fun c i => c.setBar i Barrier.reset) c
  { c with swapped := c.swapped.filter fun f => !(frames.contains f && frames.contains (f + 1)) }

/-- Start a team of the partition manager on a core that has room for it, on the lowest free slot, entry, frames and so
on. -/
def Core.startSystem (c : Core) (kind : TeamKind) (gang cycle : Nat) (t : SystemTeam) : Core :=
  let h := systemHeader t
  let slot := (leastFree Config.slotCount c.heldSlots).getD 0
  let entry := (leastFree Config.entryCount c.heldEntries).getD 0
  let frames := lowest Config.frameCount c.heldFrames (framesFor h)
  let g : Gang :=
    { id := gang, kind := kind, launch := 0, width := 1, tiles := lowest Config.tileFileCount c.heldTiles h.tiles
      accs := lowest Config.accCount c.heldAccs h.accs, bars := lowest Config.barrierCount c.heldBars h.barriers, latch := none }
  let u := newTeam kind 0 (match kind with | .root => 1 | _ => 0) h 0 slot entry cycle frames gang 0
  let c := c.fresh g.tiles g.accs g.bars frames
  { c with teams := c.teams ++ [u], gangs := c.gangs ++ [g] }

/-- Start those of the lost system teams that logical core 0 has room for (R411). Where the core that took number 0 is full,
a team waits there for room: log entry 80. -/
def Partition.restartSystem (x : Partition) (cycle : Nat) : Partition :=
  x.restarts.foldl (fun x kind =>
    let t := match kind with
      | .service => x.service
      | _ => x.root
    if (x.core? 0).any fun c => c.fitsSystem t then
      { x.modCore 0 (fun c => c.startSystem kind x.gangCount cycle t) with
        gangCount := x.gangCount + 1, restarts := x.restarts.filter fun k => k ≠ kind }
    else x) x

/-- CSRs at partition start (R366). -/
def startCsrs (s1root eqbase : W64) (logn : Nat) (ttbase : W64) (ttsize : Nat) (mboxppa : W64) : Csrs :=
  { mboxva := 0, peermap := 0, s1root := s1root, eqbase := eqbase, en := true, logn := logn, ttbase := ttbase
    ttsize := ttsize, mboxppa := mboxppa, pwbase := 0, pwctl := 0 }

/-- A partition at its start, its two system teams not yet placed. -/
def freshPartition (p owner gen base alloc cols depth cycle : Nat) (tiles : List Nat) (cores : List Core) (csr : Csrs)
    (service root : SystemTeam) : Partition :=
  { pindex := p, owner := owner, gen := gen, base := base, alloc := alloc, cols := cols, tiles := tiles, reshapes := 0
    depth := depth, cores := cores, csr := csr, service := service, root := root, started := cycle, rtu := []
    rtuRoots := [], rtuGroups := [], tcache := [], queue := [], heldEvents := [], posted := 0, merged := 0
    launches := [], lastLaunch := 0, pointer := 0, admitted := 0, gangCount := 2, copyCount := 0, flights := []
    releasing := none, hold := .running, mapGen := 0, mapTiles := tiles, banksGone := [], bindings := []
    tdisp := .configUnlocked, sessions := [], msix := [], msixTable := [], msixPending := 0, report := []
    detour := false }

/-- Place the service team and the root team on core 0 (R31). -/
def Partition.startTeams (x : Partition) : Partition :=
  x.modCore 0 fun c => (c.startSystem .service 0 x.started x.service).startSystem .root 1 x.started x.root

/-! ## A state in which one instruction is about to be fetched -/

/-- The service or root team of `State.loadWord`: one lane, every tile, accumulator and barrier or none. -/
def loadTeam (many : Bool) : SystemTeam :=
  { program := 0x10000, entry := 0, args := 0, team := 1, fpentry := 0, fppeak := 64, scratch := 0, spill := 0
    tiles := if many then 16 else 0, accs := if many then 8 else 0, barriers := if many then 4 else 0 }

/-- A stage-1 tree at PPA `0x4000`: one table whose entry 0 names the table at `0x8000`, whose entry 0 is a level-1
leaf that maps virtual addresses 0 to 2³⁶ − 1 onto region 0, readable, writable, executable, accessed and dirty. -/
def loadTables : List (Nat × Byte) :=
  (leBytes 8 0x8071).zipIdx.map (fun (b, i) => (0x4000 + i, b)) ++
  (leBytes 8 0x607).zipIdx.map fun (b, i) => (0x8000 + i, b)

/-- The partition with index 0 is one live core and 1 MiB, its service team (for `launch` its root team) ready at a
word with these bytes; `call` and `callx` stand in slot 15 (R46), any other word in slot 0. The next turn issues it. -/
def State.loadWord (s : State) (bytes : List Byte) : State :=
  let op := bytes.getD 3 0
  let root := op = 0xDB#8
  let at_ : Nat := if op = 0x06#8 ∨ op = 0x07#8 then 0x1003C else 0x10000
  let csr := startCsrs 0x4000 0x1000 6 0x3000 64 0x2000
  let x := freshPartition 0 1 0 0 0x100000 1 1 s.cycle [0] [freshCore 0 0] csr (loadTeam (!root)) (loadTeam root)
  let x := x.startTeams.modCore 0 fun c =>
    { c with teams := c.teams.map fun t => { t with splits := t.splits.map fun y =>
        { y with pc := BitVec.ofNat 64 at_ } } }
  let r : SplitRef := ⟨0, 0, if root then 1 else 0, if root then 1 else 0⟩
  let s := { s with
    parts := x :: s.parts.filter fun y => y.pindex ≠ 0
    turns := Turn.issue r :: s.turns }
  s.putBytes x.tag (loadTables ++ bytes.zipIdx.map fun (b, i) => (at_ + i, b))

end Sys2Proof.Machine
end

