-- ==== Sys2Proof/Machine/System.lean ====
section
/-! DEFINITION. System and trap instructions, the event queue as the service team serves it, invalidation, launches and
the dispatcher (R73 to R82, R362 to R394). -/

namespace Sys2Proof.Machine

/-! ## Trap and breakpoint (R392) -/

/-- R392. -/
def execTrap (c : Byte) (s : State) : Host.Outcome State Fault Refusal :=
  s.issue fun _ k => { eff := .trap { code := 0x13, va := k.split.pc, arg := c.toNat } }
/-- R392. -/
def execBrkpt (s : State) : Host.Outcome State Fault Refusal :=
  s.issue fun _ k => { eff := .trap (k.cause 0x14) }

/-! ## Queries (R386, R387) -/

/-- The values of R386. -/
def Ctx.shapeValue (k : Ctx) (grade sel : Nat) : Nat :=
  match sel with
  | 0 => grade
  | 1 => k.part.live
  | 2 => k.part.rows
  | 3 => k.part.cols
  | 4 => k.part.lastRow
  | 5 => k.part.tiles.length
  | 6 => k.part.reshapes
  | 7 => k.part.gen
  | _ => k.part.owner

/-- R386. -/
def execSysq (d : SReg) (c : Byte) (s : State) : Host.Outcome State Fault Refusal :=
  s.issue fun s k =>
    { legal := Instr.wf (.sysq d c), scalar := true
      eff := s.writeScalar k d (BitVec.ofNat 64 (k.shapeValue s.grade c.toNat)) }

/-- The counters of R387. -/
def Ctx.counter (k : Ctx) (cycle sel : Nat) : Nat :=
  match sel with
  | 0 => cycle - k.part.started
  | 1 => k.team.sweeps
  | 2 => k.core.stale
  | 3 => k.core.unpinned
  | 4 => k.core.remaps
  | 5 => k.part.posted
  | 6 => k.part.merged
  | 7 => k.team.replays
  | 8 => k.team.preemptions
  | _ => k.team.timeouts

/-- R387. -/
def execPerf (d : SReg) (c : Byte) (s : State) : Host.Outcome State Fault Refusal :=
  s.issue fun s k =>
    { legal := Instr.wf (.perf d c), scalar := true
      eff := s.writeScalar k d (BitVec.ofNat 64 (k.counter s.cycle c.toNat)) }

/-! ## Control and status registers (R365 to R367) -/

/-- TSTAT (R366). -/
def Team.tstat (t : Team) : Nat :=
  (if t.gabsent then 1 else 0) + (if t.preempted then 2 else 0) + (if t.replayed then 4 else 0)

/-- PEERMAP (R366). -/
def Partition.peerMap (x : Partition) : Nat := total (((x.bindings.map fun b => b.b).eraseDups).map fun b => 2 ^ b)

/-- The value of a CSR. -/
def Ctx.csrValue (k : Ctx) (i : Nat) : W64 :=
  let r := k.part.csr
  match i with
  | 0x00 => BitVec.ofNat 64 k.team.tstat
  | 0x01 => k.team.handle.setWidth 64
  | 0x02 => r.mboxva
  | 0x03 => BitVec.ofNat 64 k.part.peerMap
  | 0x10 => r.s1root
  | 0x11 => r.eqbase
  | 0x12 => BitVec.ofNat 64 ((if r.en then 256 else 0) + r.logn)
  | 0x13 => r.ttbase
  | 0x14 => BitVec.ofNat 64 r.ttsize
  | 0x15 => r.mboxppa
  | 0x16 => r.pwbase
  | _ => r.pwctl

/-- R365. -/
def execCsrr (d : SReg) (c : Byte) (s : State) : Host.Outcome State Fault Refusal :=
  s.issue fun s k =>
    { allowed := k.team.sup || c.toNat < 0x10 || !csrListed c, legal := Instr.wf (.csrr d c), scalar := true
      eff := s.writeScalar k d (k.csrValue c.toNat) }

/-- A PPA of region 0 or 1 that is a multiple of 2^low (R366). -/
def csrPpa (v : W64) (low : Nat) : Bool := v.toNat < 2 ^ 57 && v.toNat % 2 ^ low = 0

/-- The queue area lies where R365 lets it. -/
def Partition.queueFits (x : Partition) (base logn : Nat) : Bool :=
  let n := 64 + 32 * 2 ^ logn
  if base / 2 ^ 56 = 0 then base + n ≤ x.alloc
  else field base 35 21 = 0 && field base 22 13 < x.live && base % 2 ^ 22 + n ≤ Config.frameCount * 16384

/-- The peer window lies within the allocation (R404). -/
def Partition.windowFits (x : Partition) (base pages : Nat) : Bool := pages = 0 || base + pages * 16384 ≤ x.alloc

/-- The values that a CSR accepts (R365 to R367). -/
def Partition.csrAccepts (x : Partition) (i : Nat) (v : W64) : Bool :=
  let n := v.toNat
  let r := x.csr
  match i with
  | 0x02 => n < 2 ^ 58 && n % 64 = 0
  | 0x10 => csrPpa v 14
  | 0x11 => csrPpa v 12 && x.queueFits n r.logn && x.queue = []
  | 0x12 =>
    let logn := n % 32
    n < 512 && field n 5 3 = 0 && 6 ≤ logn && logn ≤ 16 &&
    (logn = r.logn || (x.queueFits r.eqbase.toNat logn && x.queue = []))
  | 0x13 => csrPpa v 6
  | 0x14 => 1 ≤ n && n ≤ 4096
  | 0x16 => n < 2 ^ 56 && n % 16384 = 0 && x.windowFits n (field r.pwctl.toNat 16 32)
  | 0x17 => n < 2 ^ 48 && n % 2 = 0 && x.windowFits r.pwbase.toNat (field n 16 32)
  | _ => false

/-- Write a CSR. A new EQBASE moves the queue: the words of the new header are written when their counts next change. Log
entry 93. -/
def Csrs.put (r : Csrs) (i : Nat) (v : W64) : Csrs :=
  match i with
  | 0x02 => { r with mboxva := v }
  | 0x10 => { r with s1root := v }
  | 0x11 => { r with eqbase := v }
  | 0x12 => { r with en := v.getLsbD 8, logn := v.toNat % 32 }
  | 0x13 => { r with ttbase := v }
  | 0x14 => { r with ttsize := v.toNat }
  | 0x16 => { r with pwbase := v }
  | 0x17 => { r with pwctl := v }
  | _ => r

/-- R365, R367. -/
def execCsrw (a : SReg) (c : Byte) (s : State) : Host.Outcome State Fault Refusal :=
  s.issue fun s k =>
    { allowed := k.team.sup, legal := Instr.wf (.csrw a c) && k.part.csrAccepts c.toNat (k.s a)
      eff := .done (s.modPart k.r.part fun x => { x with csr := x.csr.put c.toNat (k.s a) }) }

/-! ## Invalidation (R384) -/

/-- A cached entry is a leaf or an intermediate entry on the walk of an address. -/
def RtuEntry.covers (e : RtuEntry) (va : Nat) : Bool := e.va = va / 2 ^ levelShift e.level

/-- Some access or engine operation still to be performed uses a translation of an address that a test picks (R384): a drain,
a line that a copy holds, a scatter whose members were found through it, accepted or offered, a peer drain on its way, an
aperture store whose copies have not all been accepted. -/
def Partition.usesPage (x : Partition) (f : Nat → Bool) : Bool :=
  (x.cores.any fun c =>
    (c.drains.any fun d => d.left.any fun e => f (64 * e.1)) ||
    (c.chans.any fun e => e.2.queue.any fun y =>
      (y.tmpl.dst = 0 && y.held.any fun h => f (64 * h.line)) || (y.scatter.isSome && y.left ≠ [] && f y.arg.dst.toNat)) ||
    c.teams.any fun t => t.splits.any fun y => match y.wait with
      | .aperture left _ => left.any fun o => f o.va.toNat || (o.scatter.isSome && f o.arg.dst.toNat)
      | _ => false) ||
  x.flights.any fun g => f g.va.toNat

/-- An address lies in a page that the cached entries of another map, or in its 16 KiB page. -/
def Partition.samePage (x : Partition) (va a : Nat) : Bool :=
  (3 :: (x.rtu.filter fun e => e.covers va && entryKind e.entry ≠ 7).map fun e => e.level).any fun level =>
    a / 2 ^ levelShift level = va / 2 ^ levelShift level

/-- What `tlbi` removes (R384): the leaves and the intermediate entries on the walk of an address, and the group descriptors
that a leaf among them names or that were reached through any of them. -/
def Partition.invalidate (x : Partition) (va : Nat) : Partition :=
  let gone := x.rtu.filter fun e => e.covers va
  { x with
    rtu := x.rtu.filter fun e => !e.covers va
    rtuGroups := x.rtuGroups.filter fun g =>
      !((gone.any fun e => entryFrame e.entry = g.ppa || g.pages.any fun n => e.covers (16384 * n)) || g.pages.contains (va / 16384)) }

/-- R384: it completes once everything that used a removed translation is performed. -/
def execTlbi (a : SReg) (s : State) : Host.Outcome State Fault Refusal :=
  s.issue fun s k =>
    let va := (k.s a).toNat
    { allowed := k.team.sup, legal := va < 2 ^ 58
      eff :=
        if k.part.usesPage (k.part.samePage va) then .stay s
        else .done ((s.performPart k.r.part).modPart k.r.part fun x => x.invalidate va) }

/-- The gate of R418 opens: the teams behind it are restored. -/
def Partition.openGate (x : Partition) : Partition :=
  if x.hold = .gated then
    { x with hold := .running, cores := x.cores.map fun c => { c with teams := c.teams.map Team.restore } }
  else x

/-- R384; a partition held behind a `tlbia` after a quiesce lets its other teams go on (R418). -/
def execTlbia (s : State) : Host.Outcome State Fault Refusal :=
  s.issue fun s k =>
    { allowed := k.team.sup
      eff :=
        if k.part.usesPage (fun _ => true) then .stay s
        else .done ((s.performPart k.r.part).modPart k.r.part fun x =>
          { x.openGate with rtu := [], rtuGroups := [], rtuRoots := [] }) }

/-! ## Launch headers (R73, R74) -/

def bytesHeader (bs : List Byte) : Header :=
  { program := BitVec.ofNat 64 (bytesAt bs 0 8), entry := bytesAt bs 8 4
    w := (List.range 6).map fun i => bytesAt bs (12 + i) 1
    team := bytesAt bs 18 2
    ext := (List.range 5).map fun i => bytesAt bs (20 + 8 * i) 8
    fpentry := bytesAt bs 60 2, fppeak := bytesAt bs 62 2, scratch := bytesAt bs 64 4, tiles := bytesAt bs 68 1
    accs := bytesAt bs 69 1, spill := bytesAt bs 70 2, barriers := bytesAt bs 72 2, gang := bytesAt bs 74 1
    phases := bytesAt bs 75 1, prio := bytesAt bs 76 1, args := BitVec.ofNat 64 (bytesAt bs 80 8)
    after0 := BitVec.ofNat 64 (bytesAt bs 88 8), after1 := BitVec.ofNat 64 (bytesAt bs 96 8)
    stamp := BitVec.ofNat 64 (bytesAt bs 104 8) }

/-- The teams of a launch. -/
def Header.count (h : Header) : Nat := h.ext.foldl (· * ·) 1

/-- A valid header: the limits of R73 and the conditions of R74; `bs` are its bytes, for the reserved ones. -/
def headerOk (bs : List Byte) (h : Header) : Bool :=
  h.program.toNat < 2 ^ 58 && h.program.toNat % 64 = 0 && h.entry < 2 ^ 24 &&
  h.w.all (fun w => w < 64) && h.w.getD 0 0 ≤ 10 && total h.w ≤ 64 &&
  1 ≤ h.team && h.team ≤ 1024 && h.team ≤ 2 ^ h.w.getD 0 0 &&
  ((List.range 5).all fun i => 1 ≤ h.ext.getD i 0 && h.ext.getD i 0 ≤ 2 ^ h.w.getD (i + 1) 0) &&
  h.fpentry ≤ h.fppeak && 1 ≤ h.fppeak && h.fppeak ≤ 2304 &&
  h.scratch + 64 * h.spill ≤ 3145728 && h.tiles ≤ 16 && h.accs ≤ 8 && h.spill ≤ 4096 && h.barriers ≤ 512 &&
  1 ≤ h.gang && h.gang ≤ 6 && 1 ≤ h.phases && h.phases ≤ 8 && h.prio < 4 &&
  bytesAt bs 77 3 = 0 && h.stamp.toNat % 8 = 0 && bytesAt bs 112 16 = 0 &&
  h.count ≤ 2 ^ 20 && h.count % h.gang = 0

/-! ## Device-side launch (R388, R389) -/

/-- Has a launch completed? A launch that is no longer listed has. -/
def Partition.completed (x : Partition) (n : Nat) : Bool := x.launches.all fun h => h.n ≠ n || h.done

/-- Launch identifier n may be assigned now: at most 4,095 launches are incomplete at once. -/
def Partition.windowOpen (x : Partition) : Bool :=
  let n := x.lastLaunch + 1
  n ≤ 4095 || x.completed (n - 4095)

/-- Assign the next identifier to a header, and queue or refuse it. -/
def Partition.addLaunch (x : Partition) (bs : List Byte) : Partition :=
  let n := x.lastLaunch + 1
  let h := bytesHeader bs
  let ok := headerOk bs h && h.after0.toNat < n && h.after1.toNat < n
  let written := h.stamp ≠ 0 && h.stamp.toNat % 8 = 0
  let e : Launch := { n := n, hdr := h, refused := !ok, placed := 0, ended := 0, error := !ok, stampWaits := false, done := false }
  { x with lastLaunch := n, launches := if ok || written then x.launches ++ [e] else x.launches }

/-- R389. -/
def execLaunch (a : SReg) (s : State) : Host.Outcome State Fault Refusal :=
  s.issue fun s k =>
    let sa := k.s a
    { allowed := k.team.kind = .root, shape := { nonIdem := true }
      eff :=
        if sa.toNat % 64 ≠ 0 ∨ 2 ^ 58 ≤ sa.toNat then .trap { code := 0x09, va := sa, cls := 0 }
        else match s.reachBlock k blockRead sa 128 with
          | .error t => .trap t
          | .ok q =>
            if s.blocked k.part k.core.tile q.locs then .stay s
            else
              let s := s.performOwn k.r
              let bs := s.reachBytes k.part.tag q
              let s := s.keepReach k false q
              if k.part.windowOpen then .done (s.modPart k.r.part fun x => x.addLaunch bs)
              else s.wait k.r .waitingMemory (.launch bs) }

/-- The splits of the root team that wait for the window of R389 assign their identifiers, as far as it is open. -/
def State.assignLaunches (s : State) (p : Nat) : State :=
  match s.part? p with
  | none => s
  | some x =>
    (x.cores.zipIdx.flatMap fun (c, l) => c.teams.flatMap fun t => t.splits.map fun y => (SplitRef.mk p l t.slot y.entry, y.wait)).foldl
      (fun s (r, w) => match w, s.part? p with
        | .launch bs, some y =>
          if y.windowOpen then (s.modPart p fun z => z.addLaunch bs).complete r { nonIdem := true } none else s
        | _, _ => s) s

/-! ## Serving records (R373 to R377) -/

/-- The posted record with the lowest sequence. -/
def oldestPosted : List (Nat × QSlot) → Option (Nat × QSlot)
  | [] => none
  | (i, r) :: rest =>
    match oldestPosted rest with
    | none => if r.state = .posted then some (i, r) else none
    | some (j, q) => if r.state = .posted ∧ r.seq < q.seq then some (i, r) else some (j, q)

/-- R374. -/
def execFqpop (d : SReg) (s : State) : Host.Outcome State Fault Refusal :=
  s.issue fun s k =>
    { allowed := k.team.sup, scalar := true, shape := { nonIdem := true }
      eff := match oldestPosted k.part.queue with
        | none => s.writeScalar k d 0
        | some (i, r) =>
          (s.modPart k.r.part fun x => { x with queue := tablePut x.queue i { r with state := .inService } }).writeScalar k d
            (BitVec.ofNat 64 (2 ^ 63 + i * 2 ^ 32 + r.seq % 2 ^ 32)) }

/-- The in-service record that a handle names. -/
def Partition.served (x : Partition) (h : W64) : Option (Nat × QSlot) :=
  let i := field h.toNat 32 16
  if !h.getLsbD 63 ∨ field h.toNat 48 15 ≠ 0 ∨ 2 ^ x.csr.logn ≤ i then none
  else match tableFind x.queue i with
    | none => none
    | some r => if r.state = .inService ∧ r.seq % 2 ^ 32 = h.toNat % 2 ^ 32 then some (i, r) else none

/-- Where the copy with a number stands: core and channel. -/
def Partition.findCopy (x : Partition) (id : Nat) : Option (Nat × Nat × Copy) :=
  (x.cores.zipIdx.flatMap fun (c, l) => c.chans.flatMap fun (n, ch) =>
    (ch.queue.filter fun y => y.id = id).map fun y => (l, n, y)).head?

/-- Resume a split that is stopped in spill records: it is ready there, at its region entry (R112, R376). -/
def State.resumeRun (s : State) (t : TeamRef) (first : Nat) : State :=
  match (s.placed t).find? fun q => q.1 = .run first with
  | none => s
  | some (at_, sp) => (((s.putPlaced t at_ sp.toRegion).atTeam t fun u =>
      { u with replayed := true, replays := u.replays + 1, monitor := u.monitor.stir })).refillCore t.part t.core

/-- Resume (R376): behind the word of `trap` and `brkpt` a split may reach a block; at its region entry it replays (R113). -/
def State.resume (s : State) (p code : Nat) (w : Waiter) : State :=
  match w with
  | .split l slot e =>
    let s := s.resumeSplit ⟨p, l, slot, e⟩ code
    if code = 0x13 ∨ code = 0x14 then s.checkArrival ⟨p, l, slot, e⟩ else s
  | .run l slot first => s.resumeRun ⟨p, l, slot⟩ first
  | .copy id =>
    match (s.part? p).bind fun x => x.findCopy id with
    | none => s
    | some (l, n, _) => s.modCopy p l n id fun z => { z with suspended := false }
  | .stamp n => s.modPart p fun x => x.modLaunch n fun h => { h with stampWaits := false }

/-- End (R377). -/
def State.finish (s : State) (p : Nat) (w : Waiter) : State :=
  match w with
  | .split l slot _ | .run l slot _ => s.killTeam ⟨p, l, slot⟩
  | .copy id =>
    match (s.part? p).bind fun x => x.findCopy id with
    | none => s
    | some (l, n, y) => if y.suspended then s.failCopy p l n y else s
  | .stamp n => (s.modPart p fun x => x.modLaunch n fun h => { h with stampWaits := false, done := true }).assignLaunches p

/-- End the waiters of a record one after another; a team that has ended has taken its other waiters with it (R372). -/
def State.finishAll (s : State) (p i : Nat) : List Waiter → State
  | [] => s
  | w :: rest =>
    let there := match (s.part? p).bind fun x => tableFind x.queue i with
      | none => false
      | some r => r.attached.contains w
    (if there then s.finish p w else s).finishAll p i rest

def State.freeSlot (s : State) (p i : Nat) : State := s.modPart p fun x => { x with queue := tableDrop x.queue i }

/-- R375. -/
def execFqrep (a : SReg) (s : State) : Host.Outcome State Fault Refusal :=
  s.issue fun s k =>
    let r := k.part.served (k.s a)
    { allowed := k.team.sup, legal := r.isSome, shape := { nonIdem := true }
      eff := match r with
        | none => .trap (k.cause 0x02)
        | some (i, q) => .done ((q.attached.foldl (fun s w => s.resume k.r.part q.code w) (s.performOwn k.r)).freeSlot k.r.part i) }

/-- R375, R364: where the issuing team is among the waiters it has restarted, and nothing of it completes. -/
def execFqkill (a : SReg) (s : State) : Host.Outcome State Fault Refusal :=
  s.issue fun s k =>
    let r := k.part.served (k.s a)
    { allowed := k.team.sup, legal := r.isSome, shape := { nonIdem := true }
      eff := match r with
        | none => .trap (k.cause 0x02)
        | some (i, q) =>
          let s' := ((s.performOwn k.r).finishAll k.r.part i q.attached).freeSlot k.r.part i
          let mine := q.attached.any fun w => match w with
            | .split l slot _ | .run l slot _ => l = k.r.core && slot = k.r.slot
            | _ => false
          if mine then .settled s' else .done s' }

/-! ## Dispatch (R76 to R78, R390) -/

/-- A queued launch is eligible and still has teams to place. -/
def Partition.placeable (x : Partition) (h : Launch) : Bool :=
  !h.refused && !h.done && h.placed < h.hdr.count && x.completed h.hdr.after0.toNat && x.completed h.hdr.after1.toNat

/-- The launch that the dispatcher serves: higher priority, then lower identifier. -/
def firstLaunch : List Launch → Option Launch
  | [] => none
  | h :: rest =>
    match firstLaunch rest with
    | none => some h
    | some g => if g.hdr.prio < h.hdr.prio ∨ (g.hdr.prio = h.hdr.prio ∧ h.n < g.n) then some h else some g

/-- The admission check of R78. -/
def Core.admits (c : Core) (h : Header) : Bool :=
  let g := h.gang
  !c.absent && !c.silent &&
  c.teams.length + g ≤ Config.slotCount &&
  2 * g ≤ c.freeEntries && g ≤ c.freeRegisters &&
  g * h.fpentry + max c.reservePool h.fppeak ≤ c.freeChunks &&
  c.heldFrames.length + g * framesFor h ≤ Config.frameCount &&
  c.heldTiles.length + h.tiles ≤ Config.tileFileCount &&
  c.heldAccs.length + h.accs ≤ Config.accCount &&
  c.heldBars.length + h.barriers ≤ Config.barrierCount

/-- The first core at or after the pointer that passes the check; logical core 0 takes no launched team while a system team
that lost its core still waits for room there (log entry 80). -/
def Partition.findCore (x : Partition) (h : Header) : Option Nat :=
  ((List.range x.live).map fun i => (x.pointer + i) % x.live).find? fun l => match x.core? l with
    | none => false
    | some c => c.admits h && (l ≠ 0 || x.restarts = [])

/-- n distinct numbers below a limit, none held. -/
def drawOk (limit n : Nat) (held drawn : List Nat) : Bool :=
  drawn.length = n && drawn.eraseDups.length = n && drawn.all fun i => i < limit && !held.contains i

/-- The pick takes exactly what the header asks for, from what is free. -/
def Core.pickOk (c : Core) (h : Header) (k : Pick) : Bool :=
  let g := h.gang
  drawOk Config.slotCount g c.heldSlots k.slots && drawOk Config.entryCount g c.heldEntries k.entries &&
  k.frames.length = g && (k.frames.all fun f => f.length = framesFor h) &&
  drawOk Config.frameCount (g * framesFor h) c.heldFrames k.frames.flatten &&
  drawOk Config.tileFileCount h.tiles c.heldTiles k.tiles && drawOk Config.accCount h.accs c.heldAccs k.accs &&
  drawOk Config.barrierCount h.barriers c.heldBars k.bars

/-- Place a gang, or a team alone, on a core: tiles, accumulators and barriers in their reset state (R326, R260), the
drawn pairs of frames with their even frame in front (R233), one split a team (R81). -/
def Core.place (c : Core) (h : Launch) (k : Pick) (gang age cycle : Nat) : Core :=
  let g := h.hdr.gang
  let c := k.frames.foldl (fun c fs => c.fresh [] [] [] fs) (c.fresh k.tiles k.accs k.bars [])
  let new := (List.range g).map fun i =>
    newTeam .launched h.n (h.placed + i) h.hdr age (k.slots.getD i 0) (k.entries.getD i 0) cycle (k.frames.getD i []) gang i
  { c with
    gangs := c.gangs ++ [{ id := gang, kind := .launched, launch := h.n, width := g, tiles := k.tiles, accs := k.accs, bars := k.bars, latch := none }]
    teams := c.teams ++ new }

/-- The pairs whose banks, or whose place in a swap set, a placement resets. -/
def Core.drawnPairs (c : Core) (k : Pick) : List Nat :=
  ((k.frames.flatten.filter fun f => c.swapped.contains (f / 2 * 2)).map (· / 2)).eraseDups ++ k.bars.flatMap c.barPairs

/-- DISPATCH (R76), once the drawn pairs are settled. -/
def execDispatch (p : Nat) (pick : Pick) (s : State) : Host.Outcome State Fault Refusal :=
  match s.part? p with
  | none => .next s
  | some x =>
    if x.hold ≠ .running then .next s
    else match firstLaunch (x.launches.filter x.placeable) with
      | none => .next s
      | some h =>
        match (x.findCore h.hdr).bind fun l => (x.core? l).map fun c => (l, c) with
        | none => .next s
        | some (l, c) =>
          if !c.pickOk h.hdr pick then .next s
          else .next ((s.settlePairs p l (c.drawnPairs pick)).modPart p fun y =>
            { (y.modCore l fun c => c.place h pick y.gangCount y.admitted s.cycle).modLaunch h.n
                (fun e => { e with placed := e.placed + h.hdr.gang }) with
              pointer := (l + 1) % y.live, admitted := y.admitted + 1, gangCount := y.gangCount + 1 })

/-! ## Events of the family -/

/-- DEFERRED_RELEASE (R127). -/
def execDeferredRelease (p l n : Nat) (s : State) : Host.Outcome State Fault Refusal :=
  match s.core? p l with
  | none => .next s
  | some c =>
    match c.releases[n]? with
    | none => .next s
    | some q =>
      if c.owes q.launch q.teams then .next s
      else .next (s.modCore p l fun c => { c with releases := c.releases.eraseIdx n })

/-- HELD_EVENT_POST (R370): the oldest held event is posted where it may be; HELD is written once the header maps. Nothing
of either takes place while alarm level 2 holds the module (R440). -/
def execHeldEventPost (p : Nat) (s : State) : Host.Outcome State Fault Refusal :=
  .next (if s.halted then s else (s.postHeld p).showHeld p)

/-- A launch's work has ended (R391): every team, and every copy that its teams started. -/
def Partition.workEnded (x : Partition) (h : Launch) : Bool :=
  h.refused || (h.ended = h.hdr.count && !(x.cores.any fun c => c.chans.any fun (_, ch) =>
    ch.queue.any fun y => y.issuer.launch = h.n))

/-- The completion stamp (R391). -/
def Launch.stampValue (h : Launch) : W64 := BitVec.ofNat 64 (h.n % 2 ^ 63 + (if h.error then 2 ^ 63 else 0))

/-- A launch whose work has ended completes (R391): the stamp is written, as a write of the root team on a KIND 0 page, or
the write waits on a record; then the launch is complete. A stamp written fires MSI-X vector 2 (R447). -/
def State.completeLaunch (s : State) (p n : Nat) : State :=
  match s.part? p with
  | none => s
  | some x =>
    match x.launches.find? fun h => h.n = n, x.core? 0 with
    | some h, some c =>
      if h.done ∨ h.stampWaits ∨ !x.workEnded h then s
      else
        let finished (s : State) : State := (s.modPart p fun y => y.modLaunch n fun e => { e with done := true }).assignLaunches p
        if h.hdr.stamp = 0 then finished s
        else match s.reach x c.tile false (remoteTo 0) { cls := 1, write := true, kinds := [0] } h.hdr.stamp 8 with
          | .error (code, va) =>
            (s.modPart p fun y => y.modLaunch n fun e => { e with stampWaits := true }).event p
              { va := BitVec.ofNat 64 va, code := code, cls := 1, sup := false, absent := false, team := BitVec.allOnes 32
                split := 0xFFFF, arg := 0, region := 0, waiter := some (.stamp n) }
          | .ok q =>
            if s.blocked x c.tile q.locs then s
            else finished (((s.keepPages p 0 c.tile true q.pages).store p .other
              (q.locs.zip (leBytes 8 h.stampValue.toNat))).fireMsix p 2)
    | _, _ => s

/-- LAUNCH_COMPLETION (R391). A quiesce writes the stamps at its step 3 and none afterwards (R419). -/
def execLaunchCompletion (p n : Nat) (s : State) : Host.Outcome State Fault Refusal :=
  .next (if (s.part? p).any fun x => x.hold = .suspended then s else s.completeLaunch p n)

end Sys2Proof.Machine
end

