-- ==== Sys2Proof/Machine/Quiesce.lean ====
section
/-! DEFINITION. The quiesce protocol (R419 to R423): pre-emption (R378 to R381), the engines' work run to its end, the loss of
teams (R410 to R412, R313), the moves of state, the shape report (R445), and the resumption. -/

namespace Sys2Proof.Machine

/-- The state in which an event leaves the module. -/
def State.after (s : State) : Host.Outcome State Fault Refusal → State
  | .next t => t
  | _ => s

def Partition.teamRefs (x : Partition) : List TeamRef :=
  x.cores.zipIdx.flatMap fun (c, l) => c.teams.map fun t => ⟨x.pindex, l, t.slot⟩

def Partition.splitRefs (x : Partition) : List SplitRef :=
  x.cores.zipIdx.flatMap fun (c, l) => c.teams.flatMap fun t => t.splits.map fun y => ⟨x.pindex, l, t.slot, y.entry⟩

def State.splitsOf (s : State) (p : Nat) : List SplitRef :=
  match s.part? p with
  | none => []
  | some x => x.splitRefs

def State.teamsOf (s : State) (p : Nat) : List TeamRef :=
  match s.part? p with
  | none => []
  | some x => x.teamRefs

/-! ## Moving the state of a core (R201, R409, R417) -/

/-- Change a table's keys; where two keys come to agree the later entry stays. -/
def rekey (f : Nat → Nat) : List (Nat × α) → List (Nat × α) → List (Nat × α)
  | [], out => out
  | (k, v) :: rest, out => rekey f rest (tablePut out (f k) v)

/-- The lines of a range of machine bytes that begins at `lo` carry the quarantine owner, and hold nothing. -/
def State.vacate (s : State) (tile phys : Nat) : State :=
  { s with
    mem := s.mem.filter fun c => !inScratch tile phys c.1
    tags := s.tags.filter fun t => !inScratch tile phys (64 * t.1)
    bad := s.bad.filter fun a => !inScratch tile phys a }

/-- The contents of the frames of one physical core move to another; the vacated frames carry the quarantine owner. -/
def State.moveFrames (s : State) (tile phys tile' phys' : Nat) : State :=
  let lo := scratchLoc tile phys 0 0
  let lo' := scratchLoc tile' phys' 0 0
  let s := s.vacate tile' phys'
  let mine := s.mem.filter fun c => inScratch tile phys c.1
  let tags := s.tags.filter fun t => inScratch tile phys (64 * t.1)
  let bad := s.bad.filter (inScratch tile phys)
  let s := s.vacate tile phys
  { s with
    mem := rekey (fun a => a - lo + lo') mine s.mem
    tags := rekey (fun a => a - lo / 64 + lo' / 64) tags s.tags
    bad := bad.map (fun a => a - lo + lo') ++ s.bad }

/-- The physical cores of a tile in a state. -/
def TileInfo.coresIn (t : TileInfo) (st : PhysState) : List Nat :=
  (t.cores.zipIdx.filter fun (c, _) => c = st).map fun (_, i) => i

def State.modTile (s : State) (t : Nat) (f : TileInfo → TileInfo) : State := { s with tiles := s.tiles.modify t f }

def State.setTileState (s : State) (t : Nat) (st : TileState) : State := s.modTile t fun x => { x with state := st }

def State.setPhys (s : State) (t c : Nat) (st : PhysState) : State := s.modTile t fun x => { x with cores := x.cores.set c st }


/-- The cores that a release has still to reach, under other numbers (R277). -/
def stillToReach (f : Nat → Option Nat) (ls : List Nat) : Option (List Nat) :=
  match ls.filterMap f with
  | [] => none
  | l => some l

/-- Renumber what names a logical core: waiters on records, templates kept by engines, a release on its way. A number that is
gone takes its templates with it. -/
def Partition.renumber (x : Partition) (f : Nat → Option Nat) : Partition :=
  let wf (w : Waiter) : Waiter := match w with
    | .split l slot e => .split ((f l).getD l) slot e
    | .run l slot first => .run ((f l).getD l) slot first
    | w => w
  { x with
    queue := x.queue.map fun (i, r) => (i, { r with attached := r.attached.map wf })
    heldEvents := x.heldEvents.map fun e => { e with waiter := e.waiter.map wf }
    tcache := x.tcache.filterMap fun (l, e) => (f l).map fun k => (k, e)
    releasing := x.releasing.bind (stillToReach f) }

/-- A new column count, or the old one as far as LIVE allows (R414). -/
def Partition.setCols (x : Partition) (cols : Option Nat) : Partition :=
  { x with cols := match cols with
      | some c => c
      | none => min x.cols x.live }

/-- The new slice map of a reshape, which every tile named has received when the reshape is done: what waited for a map is sent
again (R206). -/
def Partition.newMap (x : Partition) (have_ : List Nat) : Partition :=
  { x with
    mapGen := x.mapGen + 1, mapTiles := have_, mapHeld := [], banksGone := []
    cores := x.cores.map fun c => { c with remap := .idle } }

/-- A core with empty state takes a lost number (R410): its frames carry the quarantine owner. -/
def State.substitute (s : State) (p l tile phys : Nat) : State :=
  (s.vacate tile phys).modCore p l fun c => { c with tile := tile, phys := phys, lost := false }

/-- A live core moves, with everything it holds, to another physical core. -/
def State.moveCore (s : State) (p l tile phys : Nat) : State :=
  match s.core? p l with
  | none => s
  | some c =>
    if c.lost then s.substitute p l tile phys
    else (s.moveFrames c.tile c.phys tile phys).modCore p l fun c => { c with tile := tile, phys := phys, warm := none }

/-! ## Step 2: pre-emption (R378 to R380) -/

/-- What stands at a split's pc. -/
inductive NextWord where
  | region (liveIn : BitVec 128)
  | other
  | unreadable
  deriving DecidableEq, Repr

/-- The word at a split's pc with its literals. -/
def State.nextWord (s : State) (k : Ctx) : NextWord :=
  match s.reachBy k fetchWant k.split.pc 20 with
  | .ok q =>
    match wordsOf s k.part.tag q with
    | w :: lits => match decodeWord w lits with
      | .ok (.region w0 w1 w2 w3) => .region (liveInOf w0 w1 w2 w3)
      | _ => .other
    | [] => .other
  | .error _ => match s.reachBy k fetchWant k.split.pc 4 with
    | .error _ => .unreadable
    | .ok _ => .other

/-- The split is saved behind its last instruction, not at its region entry. -/
def State.savedBehind (s : State) (k : Ctx) : Bool := k.split.nonIdem && s.nextWord k ≠ .other

/-- Where a split is saved (R379). After a non-idempotent instruction that is the `region` word behind it; where the
program has put another word there (R114), the region entry. -/
def State.savePoint (s : State) (k : Ctx) : Split :=
  let x := k.split
  if s.savedBehind k then { x with state := .ready, wait := .none, drawn := [], begun := false, sent := [] }
  else { x.toRegion with
    gridCut := match x.wait with
      | .grid _ _ => .waiting
      | _ => x.toRegion.gridCut }

/-- The live-in mask with which a split is saved; every name where the word cannot be read. -/
def State.savedMask (s : State) (k : Ctx) : BitVec 128 :=
  if k.split.nonIdem then match s.nextWord k with
    | .region m => m
    | .unreadable => BitVec.allOnes 128
    | .other => k.split.liveIn
  else k.split.liveIn

/-- A split replays its region after a pre-emption (R366, R387). -/
def Team.noteReplay (t : Team) : Team := { t with replayed := true, replays := t.replays + 1 }

/-- Save a resident split, once in a quiesce: it is stopped (R94). Until the engines have ended, `late` being false, what must
complete first is left (R379); what has not completed by then has had no effect, and replays (log entry 83). -/
def State.saveSplit (s : State) (late : Bool) (r : SplitRef) : State :=
  match s.ctxAt r with
  | none => s
  | some k =>
    if k.split.state = .stopped ∨ k.split.state = .parked then s
    else if !late && mustComplete k.core k.team k.split then s
    else
      let t := s.modSplit r fun _ => (s.savePoint k).heldIf true
      if s.savedBehind k then t else t.atTeam (teamOf r) Team.noteReplay

/-- An instruction that has been issued completes: a remote arrival, which traps where its target is lost; `barx` gives 0 and
its arrival stands (R270). -/
def State.completeIssued (s : State) (r : SplitRef) : State :=
  match s.ctxAt r with
  | none => s
  | some k => match k.split.wait with
    | .remote l slot index => s.countRemote k l slot index
    | _ => s

def State.cutBarx (s : State) (r : SplitRef) : State :=
  match s.split? r with
  | none => s
  | some x => match x.wait with
    | .barx _ _ pd => s.finishWait r { nonIdem := true } (some (pd, false))
    | _ => s

/-- A rendezvous that has not completed is withdrawn by all its teams and empties (R334). -/
def Core.withdrawAll (c : Core) : Core :=
  { c with gangs := c.gangs.map fun g => { g with latch := g.latch.filter fun h => h.complete } }

/-- Every team is pre-empted (R378, R287, R381, R387); none of its splits has been saved yet. -/
def Team.preempt (t : Team) : Team :=
  { t.restore with preempted := true, preemptions := t.preemptions + 1, monitor := t.monitor.stir }

def Core.preempt (c : Core) : Core := { c.withdrawAll with teams := c.teams.map Team.preempt }

/-- Step 2, up to what is carried into step 3. -/
def State.preempt (s : State) (p : Nat) : State :=
  let s := (s.splitsOf p).foldl State.completeIssued (s.performPart p)
  let s := (s.splitsOf p).foldl State.cutBarx s
  let s := s.modPart p fun x => { x with cores := x.cores.map Core.preempt }
  (s.splitsOf p).foldl (fun s r => s.saveSplit false r) s

/-- A run with a new place in the spill order. -/
def SpillRun.resaved (q : SpillRun) (first seq : Nat) (y : Split) : SpillRun :=
  if q.first = first ∧ q.isSplit then { q with seq := seq, nonIdem := y.nonIdem, gridCut := y.gridCut } else q

/-- The record of a ready spilled split is rewritten with its saved point and a new SEQ (R379). -/
def State.saveSpilled (s : State) (t : TeamRef) (run : SpillRun) : State :=
  match s.part? t.part, s.core? t.part t.core, s.teamAt t with
  | some x, some c, some u =>
    let sp := bytesSplit (s.spillBytes t u run.first 192) run
    let y := s.savePoint ⟨entryOf t sp.entry, x, c, u, sp⟩
    let s := s.putSpill t u run.first 0 (leBytes 8 y.pc.toNat ++ leBytes 4 y.mr.toNat)
    let s := s.putSpill t u run.first 56 (leBytes 4 u.nextSeq)
    s.atTeam t fun v =>
      { (if run.nonIdem && y.nonIdem then v else v.noteReplay) with
        nextSeq := v.nextSeq + 1
        spilled := v.spilled.map fun q => q.resaved run.first u.nextSeq y }
  | _, _, _ => s

def State.saveTeamSpilled (s : State) (t : TeamRef) : State :=
  match s.teamAt t with
  | none => s
  | some u => (sortBy (fun q => q.seq) (u.spilled.filter fun q => q.isSplit && q.ready)).foldl (fun s q => s.saveSpilled t q) s

/-- The chunks that a team's splits were not saved with are gone, unless a trap has stopped one of them (R380). -/
def State.dropChunks (s : State) (t : TeamRef) : State :=
  match s.part? t.part, s.core? t.part t.core, s.teamAt t with
  | some x, some c, some u =>
    let ps := (s.placed t).map fun q => q.2
    if ps.any fun y => y.state = .stopped && !y.saved then s
    else
      let saved := (ps.filter fun y => y.state ≠ .parked).map fun y =>
        (y.mask, s.savedMask ⟨entryOf t y.entry, x, c, u, y⟩)
      let kept (key : Nat) : Bool := saved.any fun (m, live) => maskWord m (key % 32) ≠ 0 && live.getLsbD (key / 32)
      s.atTeam t fun v => { v with chunks := v.chunks.filter fun q => kept q.1 }
  | _, _, _ => s

/-! ## Step 3: the engines run to their end -/

/-- Every copy in the partition's queues, by acceptance: core, channel, copy. -/
def Partition.copyList (x : Partition) : List (Nat × Nat × Copy) :=
  sortBy (fun q : Nat × Nat × Copy => q.2.2.id)
    (x.cores.zipIdx.flatMap fun (c, l) => c.chans.flatMap fun (n, ch) => ch.queue.map fun y => (l, n, y))

def State.copiesOf (s : State) (p : Nat) : List (Nat × Nat × Copy) :=
  match s.part? p with
  | none => []
  | some x => x.copyList

/-- The next piece of work of a copy: its next line, the answer to a line sent over a binding, its next stamp. A copy that has
been suspended, or whose next line finds no peer port or no link that may send, ends in error, and a line that it still holds
then is given up (log entry 86). -/
def State.copyWork (s : State) (p l n id : Nat) : State :=
  match s.part? p, s.core? p l, s.copyAt p l n id with
  | some x, some c, some y =>
    if y.suspended then s.failCopy p l n y
    else match y.left, y.unacked with
      | line :: _, _ =>
        if let some h := y.held.find? fun h => h.line = line then
          if s.heldWaits p l h then s.lineDone p l n y line h.bytes else s.writeHeld p l n y h
        else if (y.tmpl.dst = 3 && s.peerPort.isNone) || s.awaitsLink x c.tile (s.lineLocs x c y line) then s.failCopy p l n y
        else s.performLine x c p l n y line
      | [], line :: _ =>
        let pos := (c.chan n).queue.findIdx fun z => z.id = id
        s.after (execPeerLineAck ⟨p, l, n, pos⟩ line (Config.peerAnswer s.tick id (line + 1) ≠ 0) s)
      | [], [] => s.stampStep p l n y
  | _, _, _ => s

def State.runCopy (s : State) (p l n id : Nat) : Nat → State
  | 0 => s
  | fuel + 1 => (s.copyWork p l n id).runCopy p l n id fuel


/-- The engine of this core is gone. -/
def State.gone (s : State) (p l : Nat) : Bool := (s.core? p l).any fun c => c.absent || c.lost

/-- The partition is being destroyed (R399). -/
def State.ends (s : State) (p : Nat) : Bool := (s.part? p).any fun x => x.ending

/-- Does a copy read, write or stamp a byte of this scratchpad? -/
def State.copyTouches (s : State) (x : Partition) (c : Core) (tile phys : Nat) (y : Copy) : Bool :=
  ((destLines y.tmpl y.arg).any fun line => (s.lineLocs x c y line).any (inScratch tile phys)) ||
  [y.tmpl.relStamp, y.tmpl.visStamp].any fun va => va ≠ 0 &&
    match s.engineReach x c.tile y.issuer.sup { cls := 6, write := true, kinds := [0] } va.toNat 8 with
    | .error _ => false
    | .ok q => q.locs.any (inScratch tile phys)

/-- A copy of a core's engine with an end on a core whose state is lost (R312, R411). -/
def State.touchesLost (s : State) (p l : Nat) (y : Copy) : Bool :=
  match s.part? p, s.core? p l with
  | some x, some c => x.cores.any fun k => k.lost && s.copyTouches x c k.tile k.phys y
  | _, _ => false

/-- A copy that ends in error at step 3 of a quiesce: a suspended one, one of a partition that is being destroyed, one that
was accepted after a core it touches had lost its state (R312, R411, R419). -/
def State.mustFail (s : State) (p l : Nat) (y : Copy) : Bool := y.suspended || (!y.error && (s.ends p || s.touchesLost p l y))

/-- Every copy runs to its end: those that must fail in error, the others in the order of their acceptance. Lines taken ahead
(R257) are written first, so that no copy holds a line of another. -/
def State.runCopies (s : State) (p : Nat) : State :=
  let s := (s.copiesOf p).foldl (fun s (l, n, y) => if !s.gone p l ∧ s.mustFail p l y then s.failCopy p l n y else s) s
  let s := (s.copiesOf p).foldl (fun s (l, n, y) => if s.gone p l then s else s.writeAllHeld p l n y.id) s
  let s := (s.copiesOf p).foldl (fun s (l, n, y) =>
    if s.gone p l then s else s.runCopy p l n y.id (2 * y.left.length + y.unacked.length + 6)) s
  (s.copiesOf p).foldl (fun s (l, n, y) => if s.gone p l then s.endJournal p l n y else s) s

/-- A drain to memory writes its lines. -/
def State.runDrains (s : State) (p l : Nat) : Nat → State
  | 0 => s
  | fuel + 1 =>
    match (s.core? p l).bind fun c => c.drains.head? with
    | none => s
    | some d => match d.left with
      | [] => s
      | (line, _) :: _ => (s.after (execDrainLine p l 0 line s)).runDrains p l fuel

def answerOf (n : Nat) : DrainAnswer := if n % 3 = 0 then .added else if n % 3 = 1 then .wrongConfiguration else .notAdmitted

/-- The peer drains reach their targets; one sent over a binding gets its answer. -/
def State.runFlights (s : State) (p : Nat) : Nat → State
  | 0 => s
  | fuel + 1 =>
    match (s.part? p).bind fun x => x.flights.head? with
    | none => s
    | some f =>
      (if f.binding = 0 then s.after (execPeerDrainAddition p (.inside 0) s)
       else s.after (execDrainAcknowledgement p 0 (answerOf (Config.peerAnswer s.tick fuel 0)) s)).runFlights p fuel

/-- The waiting aperture stores and arrivals of step 2 go on. -/
def State.runCarried (s : State) (r : SplitRef) : State :=
  match s.split? r with
  | none => s
  | some x => match x.wait with
    | .aperture _ _ => s.after (execQueueSlotFree r s)
    | .early _ _ _ => s.after (execEarlyRoom r s)
    | _ => s

/-- The drains of each core, and how many lines they still write; the launches; the peer drains on their way. -/
def State.drainLoads (s : State) (p : Nat) : List (Nat × Nat) :=
  match s.part? p with
  | none => []
  | some x => x.cores.zipIdx.map fun ((c : Core), l) => (l, total (c.drains.map fun d => d.left.length))

def State.launchesOf (s : State) (p : Nat) : List Nat :=
  match s.part? p with
  | none => []
  | some x => x.launches.map fun h => h.n

def State.flightCount (s : State) (p : Nat) : Nat :=
  match s.part? p with
  | none => 0
  | some x => x.flights.length

/-- One round of step 3. -/
def State.engineRound (s : State) (p : Nat) : State :=
  let s := s.runCopies p
  let s := (s.drainLoads p).foldl (fun s e => s.runDrains p e.1 e.2) s
  let s := s.runFlights p (s.flightCount p)
  let s := (s.splitsOf p).foldl State.runCarried s
  (s.launchesOf p).foldl (fun s n => s.completeLaunch p n) s

def State.engineRounds (s : State) (p : Nat) : Nat → State
  | 0 => s
  | fuel + 1 => (s.engineRound p).engineRounds p fuel

def Wait.offers : Wait → Nat
  | .aperture left _ => left.length
  | _ => 0

/-- Rounds enough for the aperture stores that wait: each round starts at least one copy of theirs. -/
def State.waitingOffers (s : State) (p : Nat) : Nat :=
  total ((s.splitsOf p).map fun r => match s.split? r with
    | none => 0
    | some y => y.wait.offers)

/-- What ended teams held for copies that have now ended is free (R127). -/
def Core.dropReleases (c : Core) : Core := { c with releases := c.releases.filter fun q => c.owes q.launch q.teams }

/-- Step 3. -/
def State.drainEngines (s : State) (p : Nat) : State :=
  (s.engineRounds p (s.waitingOffers p + 2)).modPart p fun x => { x with cores := x.cores.map Core.dropReleases }

/-- A core being substituted ends its transfer (R409). -/
def State.endWarm (s : State) (p : Nat) : State :=
  match s.part? p with
  | none => s
  | some x => x.cores.zipIdx.foldl (fun s (c, l) => match c.warm with
      | some n => s.moveCore p l c.tile n
      | none => s) s

/-- Steps 1 to 4; a quiesce begins once no core of the partition is being substituted. An arrival of `barx` that step 3 has
counted ends with 0 as well (R270). -/
def State.quiesceBegin (s : State) (p : Nat) : State :=
  let s := (((s.endWarm p).preempt p).drainEngines p).performPart p
  let s := (s.splitsOf p).foldl State.cutBarx s
  let s := (s.splitsOf p).foldl (fun s r => s.saveSplit true r) s
  let s := (s.teamsOf p).foldl State.reap s
  let s := (s.splitsOf p).foldl (fun s r => s.saveSplit true r) s
  let s := (s.teamsOf p).foldl State.saveTeamSpilled s
  let s := (s.teamsOf p).foldl State.dropChunks s
  s.modPart p fun x =>
    { x with gateWas := x.hold = .gated, hold := .suspended, moves := [], liveWas := x.live, erased := false
             failedNow := [], emptied := [] }

/-! ## Step 6: the shape report (R445) -/

def band (d : Nat) : Nat := (d + 2) / 3

/-- The bytes of the report that its signature covers. -/
def Partition.reportBody (x : Partition) (grade : Nat) (digest : BitVec 256) (nonce : BitVec 256) (prev : BitVec 256) : List Byte :=
  let absent := (x.cores.filter fun c => c.absent).length
  leBytes 4 0x52504853 ++ leBytes 2 1 ++ leBytes 1 grade ++ leBytes 1 x.pindex ++ leBytes 2 x.owner ++ leBytes 2 x.gen ++
  leBytes 4 x.reshapes ++ leBytes 2 x.live ++ leBytes 2 x.cols ++ leBytes 2 x.rows ++ leBytes 2 x.lastRow ++
  leBytes 1 x.tiles.length ++ leBytes 1 x.depth ++ leBytes 1 (band x.depth) ++
  leBytes 1 ((if absent = 0 then 0 else 1) + (if x.detour then 2 else 0) + (if x.erased then 4 else 0)) ++
  leBytes 2 absent ++ leBytes 2 x.moves.length ++ leBytes 32 digest.toNat ++ leBytes 32 nonce.toNat ++ leBytes 32 prev.toNat ++
  x.moves.flatMap fun (old, new) => leBytes 2 old ++ leBytes 2 new

def State.slot (s : State) (k : Nat) : VaultSlot := tableGet VaultSlot.reset s.vault k

/-- A body with its signature under the attestation key, which stands in slot 1 (R432, R443, R445); where that slot holds no key
in use, under its material as it stands: log entry 92. -/
def State.signed (s : State) (body : List Byte) : List Byte := body ++ leBytes 64 (Config.sm2 (s.slot 1).key s.tick body).toNat

/-- Sign the report of the partition as it stands. -/
def State.signReport (s : State) (p : Nat) : State :=
  s.modPart p fun x =>
    let prev : BitVec 256 := if x.report = [] then 0 else Config.sm3 x.report
    { x with report := s.signed (x.reportBody s.grade s.digest 0 prev) }

/-! ## Step 7 (R421, R418) -/

/-- What the resumption does to a split, resident or spilled, that a grid wait was cut short for. -/
def GridCut.resume (reset : Bool) : GridCut → GridCut
  | .waiting => if reset then .zero else .none
  | g => g

/-- A team at the resumption: its monitor triggers (R287), and unless the gate of R418 holds it, it is restored. -/
def Team.resume (reset gated : Bool) (t : Team) : Team :=
  let u := if gated && t.kind ≠ .service then t else t.restore
  { u with
    monitor := t.monitor.stir
    splits := u.splits.map fun y => { y with gridCut := y.gridCut.resume reset }
    spilled := t.spilled.map fun q => { q with gridCut := q.gridCut.resume reset } }

/-- A core at the resumption: excuse bits (R421). -/
def Core.resumeCore (reset gated : Bool) (c : Core) : Core :=
  { c with excuse := c.absent || c.lost || c.excuseOnce, teams := c.teams.map (Team.resume reset gated) }

/-- The service and root teams that no core holds. -/
def Partition.missing (x : Partition) : List TeamKind :=
  [TeamKind.service, .root].filter fun kind => !(x.cores.any fun c => c.teams.any fun t => t.kind = kind)

/-- The system teams that were lost start again on logical core 0 (R411), at once or as soon as it has room. -/
def Partition.restartLost (x : Partition) (cycle : Nat) : Partition := ({ x with restarts := x.missing }).restartSystem cycle

/-- The partition and the logical number that a physical core serves. -/
def State.serves (s : State) (t c : Nat) : Option (Nat × Nat) :=
  (s.parts.flatMap fun x => (x.cores.zipIdx.filter fun (k, _) => k.tile = t && k.phys = c && !k.absent).map
    fun (_, l) => (x.pindex, l)).head?

/-! ## Frames and lines that nobody is given (R441, R442) -/

/-- The scratchpad frame of a machine line, counted over the module; none for a line of second-tier memory. -/
def frameOf (line : Nat) : Option Nat := if 64 * line < 2 ^ 48 then none else some ((64 * line - 2 ^ 48) / 16384)

/-- The owner's current generation. -/
def State.genOf (s : State) (owner : Nat) : Nat := tableGet 0 s.gens owner

/-- The frames that hold a line of an owner. -/
def State.ownedFrames (s : State) (owner : Nat) : List Nat :=
  ((s.tags.filter fun t => t.2 / 4096 = owner).filterMap fun t => frameOf t.1).eraseDups

/-- A scrub for this reason and owner covers what carries this tag (R441); one for alarm level 2 covers every owner. -/
def State.scrubbed (s : State) (reason owner tag : Nat) : Bool :=
  (reason = 3 || tag / 4096 = owner) && tag % 4096 ≠ s.genOf (tag / 4096)

/-- A scrub to come (R441): from now on what it covers carries the quarantine owner. -/
def State.askScrub (s : State) (reason owner : Nat) (pindex : Option Nat) (vacated : List Nat) : State :=
  let covers := (s.tags.filter fun t => s.scrubbed reason owner t.2).map fun t => t.1
  let job : ScrubJob :=
    { reason := reason, owner := owner, pindex := pindex, newGen := s.genOf owner, started := false
      lines := 0, frames := 0, bad := [], covers := covers, vacated := vacated
      tags := s.worn.filter (s.scrubbed reason owner) }
  { covers.foldl (fun s l => s.wipeLine Config.quarantineTag l) s with scrubs := s.scrubs ++ [job] }

/-- A change, and the scrub of the owner's frames that it vacates, where it vacates any (R422, R441). -/
def State.scrubAfter (s : State) (owner : Nat) (f : State → State) : State :=
  let t := f s
  let gone := (s.ownedFrames owner).filter fun q => !(t.ownedFrames owner).contains q
  if gone = [] then t else t.askScrub 2 owner none gone

/-- The owner that a scrub names still holds the core of a frame: a partition keeps its memory over an erasing reshape. -/
def State.keepsFrame (s : State) (j : ScrubJob) (f : Nat) : Bool :=
  j.reason = 1 && s.parts.any fun x => x.owner = j.owner &&
    x.cores.any fun c => c.tile * Config.coresPerTile + c.phys = f / Config.frameCount

/-- The frames, counted over the module, that a scrub without a receipt covers, unless their partition keeps them, and those
that a scrub could not write. -/
def State.withheldFrames (s : State) : List Nat :=
  (s.scrubs.flatMap fun j => (j.covers.filterMap frameOf ++ j.vacated).filter fun f => !s.keepsFrame j f) ++
  (s.quarantine.filter fun w => w.toNat / 2 ^ 62 = 1).map fun w => w.toNat % 2 ^ 62

/-- Those of them that lie on a physical core, by the core's numbers. -/
def State.withheldOn (s : State) (tile phys : Nat) : List Nat :=
  ((s.withheldFrames.filter fun f => f / Config.frameCount = tile * Config.coresPerTile + phys).map fun f =>
    f % Config.frameCount).eraseDups

/-- Every core knows which of its frames no team is given. -/
def State.noteWithheld (s : State) : State :=
  if s.withheldFrames = [] ∧ (s.parts.all fun x => x.cores.all fun c => c.withheld = []) then s
  else { s with parts := s.parts.map fun x => { x with cores := x.cores.map fun c => { c with withheld := s.withheldOn c.tile c.phys } } }

/-! ## Tiles that leave a partition (R3, R14, R395, R402) -/

def State.tileIs (s : State) (t : Nat) (st : TileState) : Bool := (s.tiles[t]?).any fun i => i.state = st

/-- A tile that is degraded or dead (R395). -/
def State.tileFailed (s : State) (t : Nat) : Bool := s.tileIs t .degraded || s.tileIs t .dead

/-- The live cores of a tile, as far as they carry numbers (R16). -/
def TileInfo.liveCores (i : TileInfo) : Nat := min (i.coresIn .live).length Config.logicalPerTile

/-- How many failed tiles are still held by a partition, and wait for another to take their place. -/
def State.awaited (s : State) : Nat :=
  (s.tiles.zipIdx.filter fun (i, t) => (i.state = .degraded || i.state = .dead) && s.parts.any fun x => x.tiles.contains t).length

/-- The module's count of live cores (R3): those of the tiles in service, and those of the spare tiles that will take the place
of failed ones. Log entry 95. -/
def State.liveCount (s : State) : Nat :=
  total ((s.tiles.filter fun i => i.state = .assigned || i.state = .free).map TileInfo.liveCores) +
  total (((s.tiles.filter fun i => i.state = .spare).map TileInfo.liveCores).take s.awaited)

/-- The count is taken again, and reported to the operator where it has gone down (R3). -/
def State.noteLive (s : State) : State :=
  let n := s.liveCount
  let t : State := { s with liveKnown := n }
  if n < s.liveKnown then t.emit (.liveCores n) else t

/-- The first spare tile. -/
def State.spareTile (s : State) : Option Nat := (List.range s.tiles.length).find? fun t => s.tileIs t .spare

/-- A failed tile that no partition holds, or that its partition gives up, is out of service: a spare tile comes in for it
(R14), or the count goes down (R3). -/
def State.coverFree (s : State) : State :=
  (match s.spareTile with
    | some n => s.setTileState n .free
    | none => s).noteLive

/-- A tile leaves its partition in a quiesce: it is free, or, where it had failed, dead once the quiesce has completed (R395). -/
def State.emptyTile (s : State) (p t : Nat) : State :=
  if s.tileIs t .assigned then s.setTileState t .free else s.modPart p fun x => { x with emptied := x.emptied ++ [t] }

/-- A tile leaves its partition, and no other takes its place there: for a failed one a spare tile comes into service. -/
def State.releaseTile (s : State) (p t : Nat) : State :=
  if s.tileFailed t then (s.emptyTile p t).coverFree else s.emptyTile p t

/-- The partitions whose detours lead through a dead tile: their tables stand at its router and they do not hold it, or send
traffic of channel 3 on from it and do. -/
def State.throughDead (s : State) : List Nat :=
  ((s.tiles.zipIdx.filter fun (i, _) => i.state = .dead).flatMap fun (i, t) => (i.router.filter fun e =>
    (s.part? e.1).any fun x => x.hold ≠ .suspended &&
      (!x.tiles.contains t || e.2.any fun r => r.chan = 3 && r.port ≠ 4)).map fun e => e.1).eraseDups

/-! ## Slices (R206) -/

/-- The slices flush what they keep of a partition's lines. -/
def State.flushSlices (s : State) (x : Partition) : State :=
  { s with slices := s.slices.filter fun c => !(x.base ≤ 64 * c.1 && 64 * c.1 < x.base + x.alloc) }

/-- Restart a system team at its entry block (R364, R422). -/
def State.restartSystem (s : State) (p : Nat) : State :=
  (s.teamsOf p).foldl (fun s t => match s.teamAt t with
    | some u => if u.kind = .launched then s else s.killTeam t
    | none => s) s

/-- Steps 6 and 7. -/
def State.quiesceEnd (s : State) (p : Nat) : State :=
  match s.part? p with
  | none => s
  | some x =>
    let reset := decide (x.live ≠ x.liveWas)
    let gated := x.gateWas || x.moves ≠ []
    let s := ((s.flushSlices x).reroute p).noteWithheld.modPart p fun x => { x with reshapes := x.reshapes + 1 }
    let s := s.signReport p
    let s := if reset then (s.gridReset p).modPart p fun x => { x with pointer := 0 } else s
    let s := s.modPart p fun x => ({ x with cores := x.cores.map (Core.resumeCore reset gated) }).restartLost s.cycle
    let s := if x.erased then s.restartSystem p else s
    let s := s.modPart p fun x =>
      { x with hold := if gated then .gated else .running, gateWas := false, queued := [], failedNow := []
               dropped := [], emptied := [] }
    let s := if x.erased then s else s.fireMsix p 0
    let s := x.emptied.foldl (fun s t => s.setTileState t .dead) s
    { s with turns := s.turns ++ x.queued.map Turn.event }

/-- The depth of the grid-barrier tree over the tiles a partition holds now (R275, R403). -/
def State.setDepth (s : State) (p : Nat) : State := s.modPart p fun x => { x with depth := s.newDepth x.tiles }

/-- The partitions whose detours lead through a tile that is dead now get other routes, each in a quiesce of its own (R402). -/
def State.leaveDead (s : State) : State :=
  s.throughDead.foldl (fun s q => ((s.quiesceBegin q).setDepth q).quiesceEnd q) s

/-- Steps 6 and 7, and what follows for the partitions whose detours led through a tile that the quiesce has emptied. -/
def State.endQuiesce (s : State) (p : Nat) : State := (s.quiesceEnd p).leaveDead

/-- One reshape as one quiesce. While a quiesce is in progress, the change is folded into it, which starts again at step 3
(R415). A module that alarm level 2 holds carries out none (R440). -/
def State.quiesce (s : State) (p : Nat) (f : State → State) : State :=
  match s.part? p with
  | none => s
  | some x =>
    if s.halted then s
    else if x.hold = .suspended then f (s.drainEngines p)
    else (f (s.quiesceBegin p)).endQuiesce p

/-! ## Losing a core's state (R411, R412, R313) -/

/-- The record of a lost team. -/
def lostEvent (u : Team) : Event :=
  { va := 0, code := 0x11, cls := 0, sup := u.sup, absent := false, team := u.handle, split := 0xFFFF, arg := 0, region := 0
    waiter := none }

/-- A copy that an unreadable core's engine had accepted is in error; a barrier elsewhere that it still owes bytes
becomes invalid (R313). Nothing waits on its records any longer (R372). -/
def State.loseCopy (s : State) (p l n : Nat) (y : Copy) : State :=
  let s := (s.detachCopy p y.id).modCopy p l n y.id fun z =>
    { z with error := true, suspended := false, left := [], held := [], unacked := [], owed := 0 }
  match y.bar with
  | none => s
  | some (lb, b, gen) =>
    match s.core? p lb with
    | none => s
    | some c => if lb ≠ l ∧ (c.bar b).gen = gen then s.invalidateBar p lb b else s

/-- A team on the core is lost: its record, its waiters, its launch's error flag (R411). -/
def State.loseTeam (s : State) (p l : Nat) (u : Team) : State :=
  let s := s.modPart p fun x =>
    (x.detachTeam l u.slot).modLaunch u.launch fun h => { h with ended := h.ended + 1, error := true }
  s.event p (lostEvent u)

/-- Drains with an end on the core: one inside the partition, or one to memory, posts its record (R359, R419). -/
def State.loseDrains (s : State) (p l tile phys : Nat) : State :=
  match s.part? p with
  | none => s
  | some x =>
    let onCore (f : Flight) : Bool := f.srcCore = l || (f.binding = 0 && f.core = l)
    let dead := x.flights.filter onCore
    let s := s.modPart p fun y => { y with flights := y.flights.filter fun f => !onCore f }
    let s := dead.foldl (fun s f => s.drainRecord p f .notAdmitted) s
    let hits (m : Nat) (d : Drain) : Bool := m = l || d.left.any fun e => (x.locOf e.2).any (inScratch tile phys)
    let gone := x.cores.zipIdx.flatMap fun (c, m) => c.drains.filter (hits m)
    let s := s.modPart p fun y => { y with cores := y.cores.zipIdx.map fun (c, m) =>
      { c with drains := c.drains.filter fun d => !hits m d } }
    gone.foldl (fun s d => s.engineEvent p d.issuer ⟨0x09, d.ea, 1, 0⟩ none) s

/-- What stays of a core whose state is gone: its number, its grid input and phase, the journal of its copies, and the
counters of the logical core (R387). -/
def Core.emptied (c : Core) (substitute : Bool) : Core :=
  { freshCore c.tile c.phys with
    absent := !substitute, lost := substitute, garr := c.garr, gph := c.gph, excuse := true, excuseOnce := substitute
    stale := c.stale, unpinned := c.unpinned, remaps := c.remaps
    chans := (c.chans.map fun (n, ch) => (n, { Channel.reset with queue := ch.queue })).filter fun (_, ch) => ch.queue ≠ [] }

/-- The state of a logical core is gone: its teams are lost, its copies and those of others that touch it end in error,
its excuse bit is set (R411, R279). `substitute` says that another core will take its number. -/
def State.loseCore (s : State) (p l : Nat) (substitute : Bool) : State :=
  match s.part? p, s.core? p l with
  | some x, some c =>
    let hit := x.copyList.filter fun (m, _, y) => m ≠ l && !y.error && match x.core? m with
      | none => false
      | some cm => s.copyTouches x cm c.tile c.phys y
    let s := hit.foldl (fun s (m, n, y) => s.failCopy p m n y) s
    let s := (x.copyList.filter fun (m, _, _) => m = l).foldl (fun s (_, n, y) => s.loseCopy p l n y) s
    let s := s.loseDrains p l c.tile c.phys
    let s := s.modCore p l fun c => c.emptied substitute
    c.teams.foldl (fun s u => s.loseTeam p l u) s
  | _, _ => s

/-! ## Compaction (R417) -/

/-- The absent numbers, and what fills each below the new LIVE: the highest remaining live core. -/
def Partition.fills (x : Partition) : List (Nat × Nat) :=
  let new := (x.cores.filter fun c => !c.absent).length
  let holes := (x.cores.zipIdx.filter fun (c, k) => c.absent && k < new).map fun (_, k) => k
  let high := ((x.cores.zipIdx.filter fun (c, k) => !c.absent && new ≤ k).map fun (_, k) => k).reverse
  high.zip holes

/-- The cores of a partition that come back from retirement (R413): spares of its tiles in service, as far as a tile supplies
fewer than 64 numbers. -/
def State.returned (s : State) (x : Partition) : List (Nat × Nat) :=
  x.tiles.flatMap fun t => match s.tiles[t]? with
    | none => []
    | some i =>
      if i.state = .assigned then
        ((i.coresIn .spare).take (Config.logicalPerTile - (i.coresIn .live).length)).map fun c => (t, c)
      else []

/-- They receive the numbers from LIVE on, with frames that carry the quarantine owner. -/
def State.numberReturned (s : State) (p : Nat) : State :=
  match s.part? p with
  | none => s
  | some x =>
    (s.returned x).foldl (fun s (t, c) =>
      (((s.setPhys t c .live).vacate t c).modPart p fun y => { y with cores := y.cores ++ [freshCore t c] }).noteLive) s

/-- Remove every absent number. -/
def Partition.compact (x : Partition) : Partition :=
  let new := (x.cores.filter fun c => !c.absent).length
  let fills := x.fills
  let y := x.renumber fun l => match fills.find? fun m => m.1 = l with
    | some (_, k) => some k
    | none => if l < new && !(x.core? l).any fun c => c.absent then some l else none
  let cores := (List.range new).filterMap fun k => match fills.find? fun m => m.2 = k with
    | some (h, _) => y.core? h
    | none => y.core? k
  let removed := (x.cores.zipIdx.filter fun (c, k) => c.absent && new ≤ k).map fun (_, k) => (k, 0xFFFF)
  { y with cores := cores, moves := x.moves ++ fills ++ removed }

/-- A degraded or dead tile without a core left leaves the partition (R414). -/
def State.dropTiles (s : State) (p : Nat) : State :=
  match s.part? p with
  | none => s
  | some x =>
    let bad (t : Nat) : Bool := s.tileFailed t && !(x.cores.any fun c => c.tile = t)
    let s := (x.tiles.filter bad).foldl (fun s t => s.releaseTile p t) s
    s.modPart p fun y => { y with tiles := y.tiles.filter fun t => !bad t }

/-- The change that a compaction makes, and the scrub of the frames that the absent cores leave; LIVE stays at least 1. The
column count changes only with LIVE (R414). -/
def State.compact (s : State) (p : Nat) (cols : Option Nat) : State :=
  match s.part? p with
  | none => s
  | some x =>
    if x.cores.all fun c => c.absent then s
    else s.scrubAfter x.owner fun s =>
      let s := (x.cores.filter fun c => c.absent && x.tiles.contains c.tile && (s.serves c.tile c.phys).isNone).foldl
        (fun s c => s.vacate c.tile c.phys) s
      let s := ((s.modPart p Partition.compact).numberReturned p).dropTiles p
      (s.modPart p fun y => (if y.live = x.live then y else y.setCols cols).newMap y.tiles).setDepth p

/-- Logical core 0 is never left absent (R412). -/
def State.keepZero (s : State) (p : Nat) : State :=
  if (s.core? p 0).any fun c => c.absent then s.quiesce p fun s => s.compact p none else s

end Sys2Proof.Machine
end

