-- ==== Sys2Proof/Machine/Partitions.lean ====
section
/-! DEFINITION. Events of partitions, tiles, cores and links: reshapes (R414 to R423, R461), retirement and return of cores
(R408 to R413), slice maps (R206), repair (R405 to R407), peer bindings (R404). -/

namespace Sys2Proof.Machine

/-! ## Commands -/

def State.status (s : State) (x : PmStatus) : State := s.emit (.status x)

def distinct (l : List Nat) : Bool := l.eraseDups.length = l.length

/-- The physical cores of a tile that carry logical numbers (R16, R397). -/
def State.liveOn (s : State) (t : Nat) : List Nat :=
  match s.tiles[t]? with
  | none => []
  | some i => (i.coresIn .live).take Config.logicalPerTile

/-- A column count that a command gives lies from 1 to LIVE (R397, R414). -/
def colsOk (cols : Option Nat) (live : Nat) : Bool := cols.all fun c => 1 ≤ c && c ≤ live

def State.newCores (s : State) (ts : List Nat) : List Core := ts.flatMap fun t => (s.liveOn t).map (freshCore t)

/-- A physical core can take over what a core holds: no frame in use there is one that nobody is given (R442). -/
def State.takes (s : State) (c : Core) (t n : Nat) : Bool :=
  let bad := s.withheldOn t n
  (c.teams.flatMap (fun u => u.frames) ++ c.releases.flatMap fun q => q.frames).all fun f => !bad.contains f

/-! ## Tiles that take another's place (R14, R414, R461) -/

/-- The cores of a partition on a tile, absent ones apart, by logical number. -/
def Partition.onTile (x : Partition) (t : Nat) : List Nat :=
  (x.cores.zipIdx.filter fun (c, _) => c.tile = t && !c.absent).map fun (_, l) => l

/-- Where the cores of a tile go: logical number and new physical core. -/
def State.seats (s : State) (x : Partition) (old new : Nat) : List (Nat × Nat) := (x.onTile old).zip (s.liveOn new)

/-- A tile can take another's place: a free one, or a spare one for a tile that has failed (R14), with cores enough; the
partition stays connected (R396), under a tree that is not too deep (R275). -/
def State.mayReplace (s : State) (x : Partition) (old new : Nat) : Bool :=
  let ts := x.tiles.map fun t => if t = old then new else t
  !x.tiles.contains new && (s.tileIs new .free || (s.tileIs new .spare && s.tileFailed old)) &&
  (x.onTile old).length ≤ (s.liveOn new).length &&
  ((s.seats x old new).all fun (l, n) => (x.core? l).all fun c => s.takes c new n) &&
  s.connected ts && s.treeDepth ts ≤ Config.depthLimit

def State.replacements (s : State) (x : Partition) (t : Nat) : List Nat :=
  (List.range s.tiles.length).filter (s.mayReplace x t)

/-- A tile that may be migrated: one that has failed, or one of the two tiles of a failed link inside the partition (R414,
R406). -/
def State.mayMigrate (s : State) (x : Partition) (t : Nat) : Bool :=
  s.tileFailed t || (List.range Config.edgeCount).any fun e =>
    !s.edgeUp t e && (Config.neighbour t e).any x.tiles.contains

/-- A tile's RTU keeps nothing for the partition any longer. -/
def Partition.forgetTile (x : Partition) (t : Nat) : Partition :=
  { x with
    rtu := x.rtu.filter fun e => e.tile ≠ t, rtuRoots := x.rtuRoots.filter fun e => e.1 ≠ t
    rtuGroups := x.rtuGroups.filter fun e => e.tile ≠ t }

/-- Lose each core of a partition on a tile that still has its state. -/
def State.loseTile (s : State) (p t : Nat) (substitute : Bool) : State :=
  match s.part? p with
  | none => s
  | some x => (x.onTile t).foldl (fun s l =>
      if (s.core? p l).any fun c => c.lost then s.modCore p l fun c => { c with absent := !substitute, lost := substitute, excuseOnce := substitute }
      else s.loseCore p l substitute) s

/-- The quiesce in which a failed tile leaves its partition without a substitute (R461, R412). -/
def State.leaveTile (s : State) (p t : Nat) : State :=
  s.quiesce p fun s => match s.part? p with
    | none => s
    | some x =>
      let rest := x.tiles.filter (· ≠ t)
      let s := s.scrubAfter x.owner fun s =>
        let s := (x.cores.filter fun c => c.tile = t).foldl (fun s c => s.vacate c.tile c.phys) s
        ((s.modPart p fun y => (({ y with tiles := rest }).newMap rest).forgetTile t).emptyTile p t).setDepth p
      if (s.core? p 0).any fun c => c.absent then s.compact p none else s

/-- A failed tile for which nothing is left leaves its partition (R461). -/
def State.strandTile (s : State) (p t : Nat) : State :=
  match s.part? p with
  | none => s
  | some x =>
    if x.tiles.contains t && s.tileFailed t && s.replacements x t = [] then ((s.loseTile p t false).leaveTile p t).coverFree
    else s

/-- Every failed tile whose replacement is no longer to be had leaves its partition (R461). -/
def State.strand (s : State) : State :=
  if s.halted then s
  else (s.parts.flatMap fun x => (x.tiles.filter s.tileFailed).map fun t => (x.pindex, t)).foldl (fun s (p, t) => s.strandTile p t) s

/-- A reshape command: refused with MODULE-HELD after alarm level 2 (R440), queued during a quiesce (R415), otherwise
checked and carried out. -/
def State.command (s : State) (p : Nat) (i : Instr) (ok : Partition → Bool) (f : State → State) :
    Host.Outcome State Fault Refusal :=
  match s.part? p with
  | none => .next s
  | some x =>
    if s.halted then .next (s.status .moduleHeld)
    else if x.hold = .suspended then .next (s.modPart p fun y => { y with queued := y.queued ++ [i] })
    else if ok x then .next ((s.quiesce p f).strand.status .ok)
    else .next (s.status .refused)

/-! ## Grow, shrink, compaction, migration (R414, R416, R417) -/

def State.growOk (s : State) (g : GrowPlan) (x : Partition) : Bool :=
  let ts := x.tiles ++ g.tiles
  let n := (s.newCores g.tiles).length
  g.tiles ≠ [] && distinct g.tiles && (g.tiles.all fun t => s.tileIs t .free) && ts.length ≤ 72 &&
  0 < n && s.connected ts && s.depthOk ts g.depth && colsOk g.cols (x.live + n + (s.returned x).length)

/-- GROW (R414); cores that have come back from retirement receive numbers too (R413). -/
def execGrow (p : Nat) (g : GrowPlan) (s : State) : Host.Outcome State Fault Refusal :=
  s.command p (.grow p g) (s.growOk g) fun s =>
    let s := (s.modPart p fun x => { x with cores := x.cores ++ s.newCores g.tiles }).numberReturned p
    (g.tiles.foldl (fun s t => s.setTileState t .assigned) s).modPart p fun x =>
      let tiles := x.tiles ++ g.tiles
      (({ x with tiles := tiles, depth := g.depth }).setCols g.cols).newMap tiles

def State.shrinkOk (s : State) (g : ShrinkPlan) (x : Partition) : Bool :=
  let rest := x.tiles.filter fun t => !g.release.contains t
  let stay := (x.cores.take g.live).zipIdx
  let moving := (stay.filter fun (c, _) => !c.absent && g.release.contains c.tile).map fun (_, l) => l
  let kept := (stay.filter fun (c, _) => !c.absent && !g.release.contains c.tile).flatMap fun (c, _) =>
    (c.tile, c.phys) :: c.warm.toList.map fun n => (c.tile, n)
  1 ≤ g.live && g.live < x.live && rest ≠ [] && distinct g.release && (g.release.all x.tiles.contains) &&
  s.connected rest && s.depthOk rest g.depth && colsOk g.cols g.live &&
  ((x.cores.drop g.live).all fun c => c.teams.all fun t => t.kind ≠ .launched) &&
  distinct (g.moves.map fun m => m.1) && (moving.all (g.moves.map fun m => m.1).contains) &&
  ((g.moves.map fun m => m.1).all moving.contains) &&
  distinct (g.moves.map fun m => Config.coresPerTile * m.2.1 + m.2.2) &&
  g.moves.all fun (l, t, c) => rest.contains t && (s.liveOn t).contains c && !kept.contains (t, c) &&
    (x.core? l).all fun k => s.takes k t c

/-- The change that a shrink makes: the surviving cores leave the released tiles, the removed ones leave nothing. -/
def State.shrink (s : State) (p : Nat) (g : ShrinkPlan) : State :=
  match s.part? p with
  | none => s
  | some x => s.scrubAfter x.owner fun s =>
    let gone := (x.cores.drop g.live).filter fun c => !c.absent
    let s := gone.foldl (fun s c => s.vacate c.tile c.phys) s
    let s := g.moves.foldl (fun s (l, t, c) => s.moveCore p l t c) s
    let s := g.release.foldl (fun s t => s.releaseTile p t) s
    let tiles := x.tiles.filter fun t => !g.release.contains t
    s.modPart p fun y =>
      ((g.release.foldl Partition.forgetTile (({ y with
          tiles := tiles, depth := g.depth, cores := y.cores.take g.live
          moves := y.moves ++ (List.range' g.live (x.live - g.live)).map fun l => (l, 0xFFFF) }).renumber
        fun l => if l < g.live then some l else none)).setCols g.cols).newMap tiles

/-- SHRINK (R416). -/
def execShrink (p : Nat) (g : ShrinkPlan) (s : State) : Host.Outcome State Fault Refusal :=
  s.command p (.shrink p g) (s.shrinkOk g) fun s => s.shrink p g

/-- COMPACTION (R417). A column count may come with it where LIVE changes (R414). -/
def execCompaction (p : Nat) (cols : Option Nat) (s : State) : Host.Outcome State Fault Refusal :=
  s.command p (.compaction p cols)
    (fun x => colsOk cols ((x.cores.filter fun c => !c.absent).length + (s.returned x).length)) fun s => s.compact p cols

def State.migrate (s : State) (p old new : Nat) : State :=
  match s.part? p with
  | none => s
  | some x => s.scrubAfter x.owner fun s =>
    let s := (s.seats x old new).foldl (fun s (l, c) => s.moveCore p l new c) s
    let s := (s.emptyTile p old).setTileState new .assigned
    let tiles := x.tiles.map fun t => if t = old then new else t
    (s.modPart p fun y => (({ y with tiles := tiles }).newMap tiles).forgetTile old).setDepth p

/-- A migration that is carried out now. Where a free tile takes the place of a failed one the count of live cores may have
gone down (R3). -/
def State.migrateNow (s : State) (p old new : Nat) : State :=
  (s.quiesce p fun s => s.migrate p old new).strand.noteLive.status .ok

/-- MIGRATION (R414): that of a tile which failed during the quiesce in progress is folded into it, any other waits (R415). -/
def execMigration (p old new : Nat) (s : State) : Host.Outcome State Fault Refusal :=
  match s.part? p with
  | none => .next s
  | some x =>
    if s.halted then .next (s.status .moduleHeld)
    else if x.hold = .suspended ∧ !x.failedNow.contains old then
      .next (s.modPart p fun y => { y with queued := y.queued ++ [.migration p old new] })
    else if x.tiles.contains old ∧ s.mayMigrate x old ∧ s.mayReplace x old new then .next (s.migrateNow p old new)
    else .next (s.status .refused)

/-! ## Suspension (R423) -/

/-- Steps 1 to 4, and the partition is held. -/
def State.suspendPart (s : State) (p : Nat) : State :=
  match s.part? p with
  | none => s
  | some x => if x.hold = .suspended then s else s.quiesceBegin p

/-- Steps 5 to 7, once neither the host nor heat holds the partition. -/
def State.resumePart (s : State) (p : Nat) : State :=
  match s.part? p with
  | none => s
  | some x => if x.hold = .suspended ∧ !x.byHost ∧ !x.byHeat then s.endQuiesce p else s

/-- SUSPEND (R423). -/
def execSuspend (p : Nat) (s : State) : Host.Outcome State Fault Refusal :=
  match s.part? p with
  | none => .next s
  | some _ =>
    if s.halted then .next (s.status .moduleHeld)
    else .next (((s.suspendPart p).modPart p fun x => { x with byHost := true }).status .ok)

/-- RESUME (R423). -/
def execResume (p : Nat) (s : State) : Host.Outcome State Fault Refusal :=
  match s.part? p with
  | none => .next s
  | some x =>
    if s.halted then .next (s.status .moduleHeld)
    else if !x.byHost then .next (s.status .refused)
    else .next (((s.modPart p fun x => { x with byHost := false }).resumePart p).status .ok)

/-! ## Cores: retirement, substitution, return (R408 to R413) -/


/-- A spare core of a tile that can take over what a core holds. -/
def State.spareOn (s : State) (t : Nat) (k : Core) : Option Nat :=
  (s.tiles[t]?).bind fun i => (i.coresIn .spare).find? fun n => s.takes k t n

/-- The core that a warm substitution moves to a physical core. -/
def State.warmTarget (s : State) (t c : Nat) : Option (Nat × Nat) :=
  (s.parts.flatMap fun x => (x.cores.zipIdx.filter fun (k, _) => k.tile = t && k.warm = some c).map fun (_, l) => (x.pindex, l)).head?

/-- The spare that a warm substitution fills has failed: another spare takes its place, or the core becomes absent (R408). -/
def State.retarget (s : State) (p l t : Nat) : State :=
  match s.core? p l with
  | none => s
  | some k => match s.spareOn t k with
    | some n => (s.setPhys t n .live).modCore p l fun k => { k with warm := some n }
    | none => (((s.modCore p l fun k => { k with warm := none }).loseCore p l false).noteLive).keepZero p

/-- A core that serves nobody is retired; a spare takes its place among the cores to be numbered. A module that alarm level 2
holds only notes it (R440), and reports its count (R3). -/
def State.retireIdle (s : State) (t c : Nat) : State :=
  let was := (s.tiles[t]?).bind fun i => i.cores[c]?
  let s := s.setPhys t c .retired
  if s.halted ∨ was ≠ some .live then s.noteLive
  else match s.warmTarget t c with
    | some (p, l) => s.retarget p l t
    | none => match (s.tiles[t]?).bind fun i => (i.coresIn .spare).head? with
      | some n => s.setPhys t n .live
      | none => s.noteLive.strand

/-- Cold substitution (R410): the state is lost, and a spare takes the number in one quiesce. -/
def State.coldSubstitute (s : State) (p l t n : Nat) : State :=
  (s.loseCore p l true).quiesce p fun s => s.substitute p l t n

/-- A warm substitution begins (R409): issue on the core stops, what it has issued is performed. -/
def State.warmSubstitute (s : State) (p l n : Nat) : State :=
  (s.performPart p).modCore p l fun k => { k with warm := some n }

/-- A core that serves a logical number is retired (R408). A transfer to a spare that is under way goes on while the
core can be read. -/
def State.retireCore (s : State) (p l t c : Nat) (readable : Bool) (k : Core) : State :=
  match k.warm with
  | some n => if readable then s else s.coldSubstitute p l t n
  | none =>
    match s.spareOn t (if readable then k else freshCore t c) with
    | some n =>
      let s := (s.setPhys t c .retired).setPhys t n .live
      if readable then
        (if (s.part? p).any fun x => x.hold = .suspended then s.moveCore p l t n else s.warmSubstitute p l n)
      else s.coldSubstitute p l t n
    | none => (((s.setPhys t c .retired).loseCore p l false).noteLive).keepZero p

/-- CORE_RETIREMENT (R408). A module that alarm level 2 holds only notes it (R440). -/
def execCoreRetirement (t c : Nat) (readable : Bool) (s : State) : Host.Outcome State Fault Refusal :=
  match s.serves t c with
  | none => .next (s.retireIdle t c)
  | some (p, l) =>
    match s.core? p l with
    | none => .next s
    | some k =>
      if s.halted then .next (s.setPhys t c .retired).noteLive
      else if k.lost then .next s
      else .next (s.retireCore p l t c readable k)

/-- WARM_SUBSTITUTION_DONE (R409). A module that alarm level 2 holds moves nothing (R440). -/
def execWarmSubstitutionDone (p l : Nat) (s : State) : Host.Outcome State Fault Refusal :=
  match if s.halted then none else s.core? p l with
  | none => .next s
  | some k => match k.warm with
    | none => .next s
    | some n => .next (s.moveCore p l k.tile n).noteWithheld

/-- CORE_RETURN (R413): the core is a spare of its tile from now on. One that still serves a number, because the transfer to its
spare is under way or its tile waits for a migration, has passed no self-test and does not return. -/
def execCoreReturn (t c : Nat) (s : State) : Host.Outcome State Fault Refusal :=
  if ((s.tiles[t]?).bind fun i => i.cores[c]?) = some .retired ∧ s.serves t c = none then .next (s.setPhys t c .spare)
  else .next s

/-! ## Tiles (R407, R461) -/

/-- The partition that holds a tile. -/
def State.holds (s : State) (t : Nat) : Option Nat := (s.parts.find? fun x => x.tiles.contains t).map fun x => x.pindex

/-- A tile of a partition has failed: its cores lose their state where it cannot be read and wait for the migration, or leave
with the tile where none can come (R461). -/
def State.failHeld (s : State) (p t : Nat) (readable : Bool) : State :=
  let s := s.modPart p fun x => if x.hold = .suspended then { x with failedNow := t :: x.failedNow } else x
  let s := s.noteLive
  match s.part? p with
  | none => s
  | some x => if readable ∨ s.replacements x t = [] then s else s.loseTile p t true

/-- A tile becomes degraded or dead (R407); no detour leads through a dead one (R402). A module that alarm level 2 holds only notes it (R440). -/
def State.failTile (s : State) (t : Nat) (readable : Bool) : State :=
  if s.tileIs t .dead ∨ t ≥ s.tiles.length ∨ (s.tileIs t .degraded ∧ readable) then s
  else
    let wasFree := s.tileIs t .free
    let s := s.modTile t fun i =>
      { i with state := if readable then .degraded else .dead, cores := i.cores.map fun _ => .retired }
    if s.halted then s.noteLive
    else (match s.holds t with
      | none => (if wasFree then s.coverFree else s.noteLive).strand
      | some p => (s.failHeld p t readable).strand).leaveDead

/-- TILE_DEGRADED (R407). -/
def execTileDegraded (t : Nat) (readable : Bool) (s : State) : Host.Outcome State Fault Refusal := .next (s.failTile t readable)

/-- A router drops a packet (R401): it is counted, its sender waits, and the tile of the router is treated as degraded. Where
the tile is not the sender's own partition's, that partition's quiesce follows at once. -/
def State.dropPacket (s : State) (t : Nat) (sender : Option SplitRef) : State :=
  let s := { s with drops := s.drops + 1 }
  match sender with
  | none => s.failTile t true
  | some r =>
    let s := (s.modPart r.part fun x => { x with dropped := x.dropped ++ [r] }).failTile t true
    if (s.part? r.part).any fun x => x.tiles.contains t || !x.dropped.contains r then s else s.quiesce r.part id

/-- ROUTER_DROP (R401): a packet whose tag matches a table of a router that is not faulty goes its way. -/
def execRouterDrop (s : State) : Host.Outcome State Fault Refusal :=
  let x := s.inputs
  .next (if s.routed x.dropTile x.dropTag && !x.dropFaulty then s else s.dropPacket x.dropTile x.dropSender)

/-- SRAM_ROW_REPAIR (R407): the content is corrected before a spare row takes the place, so nothing changes. -/
def execSramRowRepair (_t _c : Nat) (_a : SramArray) (s : State) : Host.Outcome State Fault Refusal := .next s

/-! ## Slice maps (R18, R206) -/

/-- The generation of the map that a tile of a partition holds. -/
def Partition.heldGen (x : Partition) (t : Nat) : Nat := (tableFind x.mapHeld t).getD x.mapGen

/-- The banks retired since the map of a generation: each retirement brings a generation of its own. -/
def Partition.goneSince (x : Partition) (gen : Nat) : List (Nat × Nat × Nat) :=
  x.banksGone.drop (x.banksGone.length - (x.mapGen - gen))

/-- A request for a line under the map of a generation reaches a bank that has been flushed and retired since (R206). -/
def State.superseded (s : State) (x : Partition) (gen line : Nat) : Bool :=
  let since := x.goneSince gen
  (x.homeBank ((s.banksRetired x).filter fun b => !since.contains b) gen line).any since.contains

/-- A bank of a tile of the partition is retired: its lines are flushed, and the tiles have still to receive the new map. -/
def State.retireBank (s : State) (x : Partition) (t slice bank : Nat) : State :=
  { s with slices := s.slices.filter fun c => s.bankOf x c.1 ≠ some (t, slice, bank) }.modPart x.pindex fun y =>
    { y with
      mapGen := y.mapGen + 1, mapTiles := [], mapHeld := y.tiles.foldl (fun l u => tablePut l u (y.heldGen u)) []
      banksGone := y.banksGone ++ [(t, slice, bank)] }

/-- SLICE_BANK_RETIREMENT (R206, R407): the bank is retired for good, whoever holds the tile. -/
def execSliceBankRetirement (t slice bank : Nat) (s : State) : Host.Outcome State Fault Refusal :=
  if slice < Config.sliceCount ∧ bank < Config.bankCount ∧ !((s.tiles[t]?).any fun i => i.banksGone.contains (slice, bank)) then
    let s' := match (s.holds t).bind s.part? with
      | none => s
      | some x => s.retireBank x t slice bank
    .next (s'.modTile t fun i => { i with banksGone := i.banksGone ++ [(slice, bank)] })
  else .next s

/-- REMAP (R206): a request made under an older map for a line whose bank has been retired is sent again under the newest
one; where that one is superseded in turn, the request waits for the update. -/
def execRemap (p l line : Nat) (s : State) : Host.Outcome State Fault Refusal :=
  match s.part? p, s.core? p l with
  | some x, some c =>
    if x.mapTiles.contains c.tile ∨ c.remap = .waiting then .next s
    else if c.remap = .resent ∧ s.superseded x c.remapGen line then
      .next (s.modCore p l fun c => { c with remaps := c.remaps + 1, remap := .waiting })
    else if s.superseded x (x.heldGen c.tile) line then
      .next (s.modCore p l fun c => { c with remaps := c.remaps + 1, remap := .resent, remapGen := x.mapGen })
    else .next s
  | _, _ => .next s

/-- A tile has received the newest map; what every tile's map leaves out need not be known any longer. -/
def Partition.receiveMap (x : Partition) (t : Nat) : Partition :=
  let held := tableDrop x.mapHeld t
  { x with
    mapTiles := x.mapTiles ++ [t], mapHeld := held, banksGone := if held = [] then [] else x.banksGone
    cores := x.cores.map fun c => if c.tile = t then { c with remap := .idle } else c }

/-- SLICE_MAP_UPDATE (R206): the tile has the new map, and what waited for it is sent again. -/
def execSliceMapUpdate (p t : Nat) (s : State) : Host.Outcome State Fault Refusal :=
  match s.part? p with
  | none => .next s
  | some x =>
    if x.tiles.contains t ∧ !x.mapTiles.contains t then .next (s.modPart p fun y => y.receiveMap t) else .next s

/-! ## Links (R405, R406) -/

/-- What is known of a UCIe module; one not listed works in full. -/
def State.ucieAt (s : State) (t e m : Nat) : Ucie :=
  (s.ucie.find? fun u => u.tile = t && u.edge = e && u.mod = m).getD { tile := t, edge := e, mod := m, cond := .full, repairing := false }

def State.putUcie (s : State) (u : Ucie) : State :=
  { s with ucie := u :: s.ucie.filter fun v => !(v.tile = u.tile && v.edge = u.edge && v.mod = u.mod) }

def moduleExists (s : State) (t e m : Nat) : Bool := t < s.tiles.length && e < Config.edgeCount && m < 8

/-- LANE_REPAIR (R405): the module is retrained onto a spare lane; one that has no spare lane left runs in a degraded mode
(R406) and is not repaired. -/
def execLaneRepair (t e m : Nat) (s : State) : Host.Outcome State Fault Refusal :=
  let u := s.ucieAt t e m
  if moduleExists s t e m ∧ u.cond = .full then .next (s.putUcie { u with repairing := true }) else .next s

/-- LANE_REPAIR_DONE (R405): the module carries its full rate, under the same link key. -/
def execLaneRepairDone (t e m : Nat) (s : State) : Host.Outcome State Fault Refusal :=
  let u := s.ucieAt t e m
  if u.repairing then .next (s.putUcie { u with repairing := false }) else .next s

/-- The worse of two conditions: lost lanes do not come back. -/
def worseCondition : LaneCondition → LaneCondition → LaneCondition
  | .shut, _ => .shut
  | _, .shut => .shut
  | .half, _ => .half
  | .full, c => c

/-- One end of a module takes a condition. -/
def State.degradeEnd (s : State) (t e m : Nat) (cond : LaneCondition) : State :=
  let u := s.ucieAt t e m
  s.putUcie { u with cond := worseCondition u.cond cond, repairing := false }

/-- The tiles of a link that a partition holds both, as the migrations that may follow (R406): the first tile for which
another can come. -/
def State.wayOut (s : State) (p t u : Nat) : Option Instr :=
  (s.part? p).bind fun x =>
    ([t, u].filterMap fun old => if x.tiles.contains t && x.tiles.contains u then
        ((s.replacements x old).head?).map fun new => Instr.migration p old new else none).head?

/-- The migration of one of the two tiles of a failed link is scheduled (R406). -/
def State.planMove (s : State) (p t u : Nat) : State :=
  match s.wayOut p t u with
  | none => s
  | some i => { s with turns := s.turns ++ [.event i] }

/-- A partition whose traffic used a link that has failed: new routes in one quiesce (R402), and where both tiles of the link
are its own the migration of one of them is scheduled (R406). -/
def State.leaveLink (s : State) (p t u : Nat) : State := (s.quiesce p fun s => s.setDepth p).planMove p t u

/-- The partitions that hold both tiles of a link. -/
def State.holdBoth (s : State) (t u : Nat) : List Nat :=
  (s.parts.filter fun x => x.tiles.contains t && x.tiles.contains u).map fun x => x.pindex

/-- A link has failed, in both directions (R406): the partitions whose tables use it are rerouted, and one that holds both its
tiles has a migration scheduled whether its tables use the link or not. -/
def State.failLink (s : State) (t e : Nat) : State :=
  let s := s.putSeal { s.seal (.ucie t e) with up := false }
  match facing t e with
  | none => s.putSeal { s.seal (.io t e) with up := false }
  | some (u, f) =>
    let s := s.putSeal { s.seal (.ucie u f) with up := false }
    let users := (s.usersOf t e ++ s.usersOf u f).eraseDups
    let s := users.foldl (fun s p => s.leaveLink p t u) s
    ((s.holdBoth t u).filter fun p => !users.contains p).foldl (fun s p => s.planMove p t u) s

/-- MODULE_DEGRADE (R406): both ends of the module; four modules shut down fail the link. -/
def execModuleDegrade (t e m : Nat) (cond : LaneCondition) (s : State) : Host.Outcome State Fault Refusal :=
  if !moduleExists s t e m then .next s
  else
    let failed := s.linkFailed t e
    let s := s.degradeEnd t e m cond
    let s := match facing t e with
      | none => s
      | some (u, f) => s.degradeEnd u f m cond
    .next (if s.linkFailed t e ∧ !failed then s.failLink t e else s)

/-! ## Peer bindings (R404) -/

/-- PEER_BINDING (R404): refused where the attestation or the check of a shape report failed, or the number is in use, or no
peer port is in use. -/
def execPeerBinding (p b : Nat) (far : PeerEnd) (s : State) : Host.Outcome State Fault Refusal :=
  match s.part? p with
  | none => .next s
  | some x =>
    if s.halted then .next (s.status .moduleHeld)
    else if 1 ≤ b ∧ b ≤ 15 ∧ far.attested ∧ !x.bound b ∧ s.peerPort.isSome then
      .next ((s.modPart p fun y => { y with bindings := y.bindings ++ [{ b := b, far := far }] }).status .ok)
    else .next (s.status .refused)

/-- The lines and drains in flight over a binding are dropped: the copies end in error, the drains are lost (R308,
R359). -/
def State.endBinding (s : State) (p b : Nat) : State :=
  match s.part? p with
  | none => s
  | some x =>
    let s := s.modPart p fun y => { y with
      bindings := y.bindings.filter fun q => q.b ≠ b, flights := y.flights.filter fun f => f.binding ≠ b || b = 0 }
    let s := (x.flights.filter fun f => f.binding = b && b ≠ 0).foldl (fun s f => s.drainRecord p f .notAdmitted) s
    (x.copyList.filter fun (_, _, y) => y.tmpl.dst = 3 && y.arg.binding = b && y.unacked ≠ []).foldl
      (fun s (l, n, y) => s.copyFault p l n y (windowFault y (y.unacked.headD 0))) s

/-- BINDING_END (R404). A module that alarm level 2 holds has ended every binding's traffic already (R440). -/
def execBindingEnd (p b : Nat) (s : State) : Host.Outcome State Fault Refusal :=
  match s.part? p with
  | none => .next s
  | some x => if x.bound b && !s.halted then .next (s.endBinding p b) else .next s

end Sys2Proof.Machine
end

