-- ==== Sys2Proof/Machine/Vault.lean ====
section
/-! DEFINITION. The Vault (R432 to R435), the Mint (R436, R437), sealed links (R429, R430) and the alarms (R438 to R440). -/

namespace Sys2Proof.Machine

/-! ## Slots (R432) -/

def State.setSlot (s : State) (k : Nat) (v : VaultSlot) : State := { s with vault := tableSet VaultSlot.reset s.vault k v }

/-- The stream whose sealing units a key is loaded into: memory, detours and host streams (R428, R432). -/
def VaultSlot.stream? (v : VaultSlot) : Option Stream :=
  match v.use with
  | .memory => some (.memory v.owner)
  | .detour => some (.detour v.owner)
  | .hostStream => some (.host v.owner)
  | _ => none

/-- A key is loaded into its sealing units (R433), whose counter begins again under it (R429). -/
def State.loadKey (s : State) (v : VaultSlot) : State :=
  match v.stream? with
  | none => s
  | some x => s.putSeal ((s.seal x).rekeyed v.key)

/-- The sealing units that hold a key no longer hold it. -/
def State.unloadKey (s : State) (v : VaultSlot) : State :=
  { s with seals := s.seals.map fun q => if some q.stream = v.stream? ∧ q.key = v.key then { q with key := 0 } else q }

/-- A slot becomes empty: its material and every copy of it in a sealing unit are overwritten with zeros (R433). -/
def State.emptySlot (s : State) (k : Nat) : State := (s.unloadKey (s.slot k)).setSlot k VaultSlot.reset

/-- The first slot of a partition index, and the place of a purpose among its three. -/
def ownSlot (p : Nat) (use : Purpose) : Nat :=
  8 + 3 * p + match use with
    | .detour => 1
    | .hostStream => 2
    | _ => 0

/-- The use of a slot (R432). -/
def slotFits (k : Nat) (use : Purpose) (p : Nat) : Bool :=
  match use with
  | .identity => k = 0
  | .attestation => k = 1
  | .operator => 2 ≤ k && k ≤ 7
  | _ => p < 64 && (k = ownSlot p use || (200 ≤ k && k ≤ 255))

def VaultSlot.inUse (v : VaultSlot) : Bool := v.state = .provisioned || v.state = .active || v.state = .retiring

/-- A slot of a partition index for a purpose. -/
def keyFor (p : Nat) (use : Purpose) (v : VaultSlot) : Bool := v.owner = p && v.use = use && v.state ≠ .empty

/-- The active slot of a partition index for a purpose. -/
def State.activeSlot (s : State) (p : Nat) (use : Purpose) : Option Nat :=
  (s.vault.find? fun (_, v) => keyFor p use v && v.state = .active).map fun (k, _) => k

/-- The first empty replacement slot. -/
def State.spareSlot (s : State) : Option Nat := (List.range' 200 56).find? fun k => (s.slot k).state = .empty

/-- The slot in which a new partition's key is generated: its own, or a replacement where that one is revoked (R435). -/
def State.birthSlot (s : State) (p : Nat) (use : Purpose) : Option Nat :=
  match (s.slot (ownSlot p use)).state with
  | .empty => some (ownSlot p use)
  | .revoked => s.spareSlot
  | _ => none

/-! ## Births and deaths of keys (R433, R437, R439) -/

/-- What refuses every birth of a key, whatever its slot: alarm level 1 (R439), an unhealthy Mint (R437). -/
def State.birthRefusal (s : State) : Option PmStatus :=
  if s.alarm1 then some .keyRefused else if !s.mintHealthy then some .keyEntropy else none

/-- Generate a key into a slot, or the refusal: alarm level 1, a slot that does not take it, an unhealthy Mint. -/
def State.generate (s : State) (k : Nat) (use : Purpose) (p : Nat) : Except PmStatus State :=
  if s.alarm1 then .error .keyRefused
  else if (s.slot k).state ≠ .empty ∨ !slotFits k use p then .error .keyState
  else if !s.mintHealthy then .error .keyEntropy
  else .ok (s.setSlot k { state := .provisioned, key := Config.mintDraw (1024 * s.tick + k), use := use, owner := p, since := 0 })

/-- Bind a provisioned key: it is active, and loaded into its sealing units. -/
def State.bindSlot (s : State) (k : Nat) : Except PmStatus State :=
  if s.alarm1 then .error .keyRefused
  else if (s.slot k).state ≠ .provisioned then .error .keyState
  else .ok ((s.setSlot k { s.slot k with state := .active }).loadKey (s.slot k))

/-- What a command answers. -/
def State.reply (s : State) (r : Except PmStatus State) : Host.Outcome State Fault Refusal :=
  match r with
  | .error e => .next (s.status e)
  | .ok t => .next (t.status .ok)

/-- GENERATE (R433). -/
def execGenerate (k : Nat) (use : Purpose) (p : Nat) (s : State) : Host.Outcome State Fault Refusal :=
  s.reply (s.generate k use p)

/-- An operator key that can unwrap an import stands in slots 2 to 7. -/
def State.operatorKey (s : State) : Bool := (List.range' 2 6).any fun k => (s.slot k).inUse

/-- IMPORT (R433). The keys of slots 0 to 7 come in under the provisioning guide, not under an operator key. -/
def execImportKey (k : Nat) (use : Purpose) (p : Nat) (key : BitVec 512) (s : State) : Host.Outcome State Fault Refusal :=
  s.reply (if s.alarm1 then .error .keyRefused
    else if (s.slot k).state ≠ .empty ∨ !slotFits k use p ∨ (8 ≤ k ∧ !s.operatorKey) then .error .keyState
    else .ok (s.setSlot k { state := .provisioned, key := key, use := use, owner := p, since := 0 }))

/-- BIND (R433). -/
def execBindKey (k : Nat) (s : State) : Host.Outcome State Fault Refusal := s.reply (s.bindSlot k)

/-- DISCARD (R433). -/
def execDiscard (k : Nat) (s : State) : Host.Outcome State Fault Refusal :=
  s.reply (if (s.slot k).state = .provisioned then .ok (s.emptySlot k) else .error .keyState)

/-- A replacement for an active detour or host-stream key becomes active, and the sender uses it alone; the old one retires
(R434). That is a bind, which alarm level 1 refuses (R439). -/
def State.rotate (s : State) (k r : Nat) : Except PmStatus State :=
  let old := s.slot k
  if s.alarm1 then .error .keyRefused
  else if old.state ≠ .active ∨ (old.use ≠ .detour ∧ old.use ≠ .hostStream) ∨ r < 200 ∨ 255 < r then .error .keyState
  else
    let ready : Except PmStatus State :=
      if (s.slot r).state = .provisioned ∧ (s.slot r).use = old.use ∧ (s.slot r).owner = old.owner then .ok s
      else s.generate r old.use old.owner
    match ready with
    | .error e => .error e
    | .ok s => .ok (((s.setSlot r { s.slot r with state := .active }).setSlot k
        { old with state := .retiring, since := s.cycle }).loadKey (s.slot r))

/-- ROTATE (R433): where the replacement slot is empty its key is generated first (R437). What waited for the new key of a
host stream goes (R429). -/
def execRotate (k r : Nat) (s : State) : Host.Outcome State Fault Refusal :=
  s.reply ((s.rotate k r).map fun t => if (s.slot k).use = .hostStream then t.flushHost (s.slot k).owner else t)

/-- The purposes of a partition's three keys (R432). -/
def partitionUses : List Purpose := [.memory, .detour, .hostStream]

/-- DESTROY (R433): the key of a partition that has been destroyed. -/
def execDestroy (k : Nat) (s : State) : Host.Outcome State Fault Refusal :=
  let v := s.slot k
  s.reply (if (v.state = .active ∨ v.state = .retiring) ∧ partitionUses.contains v.use ∧ (s.part? v.owner).isNone then
      .ok (s.emptySlot k)
    else .error .keyState)

/-- RETIRING_END (R433): the last unit under the key has been received or dropped, or 1 ms has passed. -/
def execRetiringEnd (k : Nat) (s : State) : Host.Outcome State Fault Refusal :=
  if (s.slot k).state = .retiring then .next (s.emptySlot k) else .next s

/-- Revoke a slot. -/
def State.revoke (s : State) (k : Nat) : State :=
  if (s.slot k).inUse then s.setSlot k { s.slot k with state := .revoked } else s

/-- REVOKE (R433). -/
def execRevoke (k : Nat) (s : State) : Host.Outcome State Fault Refusal :=
  s.reply (if (s.slot k).inUse then .ok (s.revoke k) else .error .keyState)

/-- A key of this stream stands in a slot (R432). -/
def slotted : Stream → Bool
  | .detour _ => true
  | .host _ => true
  | .memory _ => true
  | _ => false

/-- Every slot becomes empty, with every copy of its key (R433); a stream without a key carries nothing. -/
def State.zeroise (s : State) : State :=
  { s with
    vault := []
    seals := s.seals.map fun q => if slotted q.stream then { q with key := 0, up := false } else q }

/-- The partition whose data a machine line of second-tier memory holds. -/
def State.holderOf (s : State) (line : Nat) : Option Partition :=
  if line < 2 ^ 42 then s.parts.find? fun x => x.tag = s.tagOf line else none

/-- A second-tier line, sealed under a partition's memory key, reads under no key that there is now as it was written: its bytes
are free values, but for what a slice keeps in clear (R205, R428, R431). Log entry 97. -/
def State.garble (s : State) (line : Nat) : State :=
  match s.holderOf line with
  | none => s
  | some x =>
    let s := s.sliceKeeps x line
    { s with mem := (List.range 64).foldl (fun m i => tableSet 0 m (64 * line + i) (Config.garbled s.tick (64 * line + i))) s.mem }

/-- ZEROISE_RESET (R433): the memory keys of running partitions are among those that are gone. -/
def execZeroiseReset (s : State) : Host.Outcome State Fault Refusal :=
  .next (((s.tags.map fun t => t.1).foldl State.garble s).zeroise)

/-! ## Alarm level 1 (R438, R439) -/

/-- The Vault slots whose key an alarm's source names. -/
def State.namedSlots (s : State) : AlarmSource → List Nat
  | .tagFailures (.detour p) => (s.vault.filter fun (_, v) => keyFor p .detour v && v.inUse).map fun (k, _) => k
  | .tagFailures (.host p) => (s.vault.filter fun (_, v) => keyFor p .hostStream v && v.inUse).map fun (k, _) => k
  | _ => []

/-- Alarm level 1. -/
def State.raiseAlarm1 (s : State) (src : AlarmSource) : State :=
  ((s.namedSlots src).foldl State.revoke { s with alarm1 := true }).emit (.alarm 1 src)

/-- The level that a source raises (R438). -/
def alarmLevel : AlarmSource → Nat
  | .tagFailures _ => 1
  | .mintStartup => 1
  | .supplyShort => 1
  | .firmware => 1
  | .tamper => 2
  | .supplyLong => 2
  | .operatorCommand => 2

/-- ALARM_LEVEL_1 (R439). -/
def execAlarmLevel1 (s : State) : Host.Outcome State Fault Refusal :=
  if alarmLevel s.inputs.alarm = 1 then .next (s.raiseAlarm1 s.inputs.alarm) else .next s

/-- ALARM_CLEAR (R439). -/
def execAlarmClear (s : State) : Host.Outcome State Fault Refusal := .next { s with alarm1 := false }

/-! ## The Mint (R436, R437) -/

/-- CONTINUOUS_TEST_FAILURE (R436). -/
def execContinuousTestFailure (s : State) : Host.Outcome State Fault Refusal := .next { s with mintHealthy := false }

/-- A start-up test of the Mint; three failures in a row raise alarm level 1. -/
def State.mintTest (s : State) (pass : Bool) : State :=
  if pass then { s with mintTested := some s.cycle, mintHealthy := true, mintFails := 0 }
  else
    let s := { s with mintTested := some s.cycle, mintHealthy := false, mintFails := s.mintFails + 1 }
    if 3 ≤ s.mintFails then s.raiseAlarm1 .mintStartup else s

/-- A second has passed since the last start-up test. -/
def State.retestDue (s : State) : Bool := s.mintTested.all fun c => c + Config.cyclesPerSecond ≤ s.cycle

/-- MINT_RETEST (R436): once a second while the Mint is not healthy. -/
def execMintRetest (s : State) : Host.Outcome State Fault Refusal :=
  if s.mintHealthy ∨ !s.retestDue then .next s else .next (s.mintTest s.inputs.mintSource)

/-! ## Sealed links and streams (R429, R430) -/

/-- A new key for a stream: detour and host-stream keys rotate, the key of a link is drawn and stands in no slot (R432). -/
def State.newKey (s : State) : Stream → Except PmStatus State
  | .detour p => match s.activeSlot p .detour, s.spareSlot with
    | some k, some r => s.rotate k r
    | _, _ => .error .keyState
  | .host p => match s.activeSlot p .hostStream, s.spareSlot with
    | some k, some r => s.rotate k r
    | _, _ => .error .keyState
  | .memory _ => .error .keyState
  | x => if s.mintHealthy then .ok (s.putSeal ((s.seal x).rekeyed (Config.mintDraw (1024 * s.tick + 256))))
    else .error .keyEntropy

/-- REKEY (R429): at 2⁶² the stream takes a new key, its counter begins again, and what waited goes in order. Where no key can
be drawn the old one stays, and the stream sends nothing until a later try (R437). -/
def execRekey (x : Stream) (s : State) : Host.Outcome State Fault Refusal :=
  if (s.seal x).counter < Config.rekeyLimit then .next s
  else match s.newKey x with
    | .error e => .next (s.status e)
    | .ok t => .next (match x with
      | .host p => t.flushHost p
      | _ => t)

/-- A stream that has failed: a UCIe link has failed under R406, the interface of a host stream enters ERROR (R446) and what
waited for the stream is dropped, a detour carries no access any more, a peer link sends no more. -/
def State.failStream (s : State) (x : Stream) : State :=
  let s := s.putSeal { s.seal x with up := false, fails := [] }
  match x with
  | .ucie t e => s.failLink t e
  | .io t e => s.failLink t e
  | .host p => s.modPart p fun y => { y with tdisp := .error, hostWait := [] }
  | _ => s

/-- The tile that a packet came from whose tag has failed: a free choice among the partition's. -/
def State.failedSource (s : State) (p : Nat) : Nat :=
  match s.part? p with
  | none => 0
  | some x => x.tiles.getD (Config.rank s.tick 6 p % max 1 x.tiles.length) 0

/-- A unit is sent again under the next counter, or, where the key is used up, once there is a new one (R429, R430). -/
def State.sendAgain (s : State) (q : Seal) : Seal :=
  match q.stream with
  | .detour p =>
    let m := s.failedSource p
    let n := tableGet 0 q.sources m + 1
    if n ≤ Config.rekeyLimit then { q with sources := tableSet 0 q.sources m n, counter := max q.counter n }
    else { q with resend := q.resend ++ [m] }
  | _ => if q.counter < Config.rekeyLimit then { q with counter := q.counter + 1 } else { q with resend := q.resend ++ [0] }

/-- TAG_FAILURE (R430): the unit is sent again; more than 8 failures in one second fail the link and raise alarm level 1. The
seal of memory has no tag (R428). -/
def execTagFailure (x : Stream) (s : State) : Host.Outcome State Fault Refusal :=
  match x with
  | .memory _ => .next s
  | _ =>
    let q := s.seal x
    let fails := (q.fails.filter fun f => s.cycle < f + Config.cyclesPerSecond) ++ [s.cycle]
    let s := s.putSeal { s.sendAgain q with fails := fails }
    if 8 < fails.length then .next ((s.failStream x).raiseAlarm1 (.tagFailures x)) else .next s

/-! ## Generations (R209) -/

/-- The next generation may be given now: no line can still carry it. -/
def State.mayBump (s : State) (x : Partition) : Bool := !s.worn.contains (x.owner * 4096 + (x.gen + 1) % 4096)

/-- A partition's generation takes its next value. -/
def State.bump (s : State) (p : Nat) : State :=
  match s.part? p with
  | none => s
  | some x =>
    let g := (x.gen + 1) % 4096
    let s := s.modPart p fun y => { y with gen := g }
    { s with gens := tablePut s.gens x.owner g, worn := if s.worn.contains x.tag then s.worn else x.tag :: s.worn }

/-- An operation waits with its bump until a scrub has covered the generation (R209): it is tried again at the next receipt. -/
def State.waitBump (s : State) (i : Instr) : State := if s.bumps.contains i then s else { s with bumps := s.bumps ++ [i] }

/-! ## Alarm level 2 (R440) -/

/-- A partition after alarm level 2: held for good, its interface in ERROR, its sessions ended, nothing queued for it. -/
def Partition.hold2 (x : Partition) : Partition :=
  { x with hold := .suspended, tdisp := .error, sessions := [], queued := [], hostWait := [] }

/-- Every sealed link and stream is dropped. -/
def State.dropSeals (s : State) : State := { s with seals := s.seals.map fun q => { q with up := false } }

/-- ALARM_LEVEL_2 (R440). Stores that have not been performed are not performed any more; what a quiesce, a scrub or a waiting
operation had still to do is not done. -/
def execAlarmLevel2 (s : State) : Host.Outcome State Fault Refusal :=
  if alarmLevel s.inputs.alarm ≠ 2 then .next s
  else
    let s := (s.parts.map fun x => x.pindex).foldl State.bump s
    .next (({ s with
      parts := s.parts.map Partition.hold2, scrubs := [], bumps := [], late := [], halted := true, alarm2 := true
      : State }).zeroise.dropSeals.emit (.alarm 2 s.inputs.alarm))

end Sys2Proof.Machine
end

