-- ==== Sys2Proof/Machine/Lifecycle.lean ====
section
/-! DEFINITION. Creation, destruction and erasure of partitions (R396 to R399, R422), scrubs and receipts (R441 to R443),
bring-up, power and heat (R425 to R427). -/

namespace Sys2Proof.Machine

/-! ## Creation (R396 to R399) -/

/-- Resources of the two system teams fit logical core 0 (R79, R80, R19), `held` of whose frames nobody is given (R442). -/
def systemOk (a b : SystemTeam) (held : Nat) : Bool :=
  let ha := systemHeader a
  let hb := systemHeader b
  1 ≤ a.team && a.team ≤ 1024 && 1 ≤ b.team && b.team ≤ 1024 &&
  a.fpentry ≤ a.fppeak && b.fpentry ≤ b.fppeak && a.fppeak + b.fppeak ≤ Config.chunkCount &&
  a.tiles + b.tiles ≤ Config.tileFileCount && a.accs + b.accs ≤ Config.accCount &&
  a.barriers + b.barriers ≤ Config.barrierCount && held + framesFor ha + framesFor hb ≤ Config.frameCount

/-- Frames of the first core of some tiles that nobody is given. -/
def State.withheldAtZero (s : State) (ts : List Nat) : Nat :=
  match s.newCores ts with
  | [] => 0
  | c :: _ => (s.withheldOn c.tile c.phys).length

/-- A machine address lies outside a range. -/
def outside (base n a : Nat) : Bool := a < base || base + n ≤ a

/-- A range of second-tier memory is free, holds no line that is quarantined for good (R442), and none that a scrub without a
receipt covers (R441). -/
def State.rangeFree (s : State) (base n : Nat) : Bool :=
  (s.parts.all fun x => x.base + x.alloc ≤ base || base + n ≤ x.base) &&
  (s.quarantine.all fun w => w.toNat / 2 ^ 62 ≠ 0 || outside base n (w.toNat % 2 ^ 62)) &&
  s.scrubs.all fun j => j.covers.all fun line => outside base n (64 * line)

/-- The partition index and the owner number are free (R396, R435, R441). -/
def State.numbersFree (s : State) (p owner : Nat) : Bool :=
  p < 64 && owner < Config.quarantineOwner && (s.parts.all fun x => x.pindex ≠ p && x.owner ≠ owner) &&
  (s.scrubs.all fun j => j.owner ≠ owner && j.pindex ≠ some p && j.reason ≠ 3) &&
  s.vault.all fun (_, v) => !(v.owner = p && partitionUses.contains v.use && v.inUse)

/-- After alarm level 2 the identity key and operator keys have to be provisioned again (R440). -/
def State.provisioned (s : State) : Bool := !s.reprovision || ((s.slot 0).inUse && s.operatorKey)

/-- Lines of second-tier memory that are quarantined for good (R442). -/
def State.badLines (s : State) : Nat := (s.quarantine.filter fun w => w.toNat / 2 ^ 62 = 0).length

/-- Step 1 of R399: the numbers, the tiles and their tree can be had (R396). -/
def State.tilesOk (s : State) (c : CreateSpec) : Bool :=
  s.numbersFree c.pindex c.owner && s.provisioned &&
  1 ≤ c.tiles.length && c.tiles.length ≤ 72 && distinct c.tiles && (c.tiles.all fun t => s.tileIs t .free) &&
  s.connected c.tiles && s.depthOk c.tiles c.depth

/-- Second-tier memory for a partition: a free range of what there is, and no more in all than may be allocated, which each
line that is quarantined for good has made less (R442). -/
def State.memoryOk (s : State) (c : CreateSpec) : Bool :=
  0 < c.alloc && c.base % 64 = 0 && c.alloc % 64 = 0 && c.base + c.alloc ≤ s.capacity + 64 * s.badLines &&
  total (s.parts.map fun x => x.alloc) + c.alloc ≤ s.capacity && s.rangeFree c.base c.alloc

/-- Steps 3 to 6 of R399: the command can be carried out once it has its keys. -/
def State.createOk (s : State) (c : CreateSpec) : Bool :=
  let live := total (c.tiles.map fun t => (s.liveOn t).length)
  1 ≤ live && colsOk c.cols live && c.port < 4 && s.hostPortOn c.port && s.memoryOk c &&
  c.generation < 4096 && !s.worn.contains (c.owner * 4096 + c.generation) &&
  csrPpa c.s1root 14 && csrPpa c.eqbase 12 && csrPpa c.ttbase 6 && csrPpa c.mboxppa 6 &&
  6 ≤ c.logn && c.logn ≤ 16 && 1 ≤ c.ttsize && c.ttsize ≤ 4096 && systemOk c.service c.root (s.withheldAtZero c.tiles)

/-- Generate and bind a partition's three keys (R434). Alarm level 1 and an unhealthy Mint refuse that whatever the slots hold
(R437, R439). -/
def State.partitionKeys (s : State) (p : Nat) : List Purpose → Except PmStatus State
  | [] => .ok s
  | use :: rest =>
    match s.birthRefusal, s.birthSlot p use with
    | some e, _ => .error e
    | none, none => .error .keyState
    | none, some k =>
      match s.generate k use p with
      | .error e => .error e
      | .ok t => match t.bindSlot k with
        | .error e => .error e
        | .ok t => t.partitionKeys p rest


/-- Place the partition: tiles, routing tables, stage 2, CSRs, the image that stands in memory, the two system teams, the first
report. -/
def State.install (s : State) (c : CreateSpec) : State :=
  let cores := (s.newCores c.tiles).map fun k => { k with withheld := s.withheldOn k.tile k.phys }
  let x := { freshPartition c.pindex c.owner c.generation c.base c.alloc (c.cols.getD (min cores.length 64)) c.depth s.cycle
    c.tiles cores (startCsrs c.s1root c.eqbase c.logn c.ttbase c.ttsize c.mboxppa) c.service c.root with port := c.port }
  let s := c.tiles.foldl (fun s t => s.setTileState t .assigned) s
  let s := { s with parts := s.parts ++ [x], gens := tablePut s.gens c.owner c.generation }
  let s := (s.flushSlices x).reroute c.pindex
  let s := s.putBytes x.tag (c.image.filterMap fun (ppa, b) => (x.locOf ppa).map fun a => (a, b))
  (s.modPart c.pindex Partition.startTeams).signReport c.pindex

/-- A partition that is created while the module is hot is held until it has cooled (R427). -/
def State.holdIfHot (s : State) (p : Nat) : State :=
  if s.hot then (s.suspendPart p).modPart p fun x => { x with byHeat := true } else s

/-- What refuses a creation, in the order of the steps of R399, alarm level 1 before them (R439): the tiles, the keys, all that
follows. -/
def State.creation (s : State) (c : CreateSpec) : Except PmStatus State :=
  if s.alarm1 then .error .keyRefused
  else if !s.tilesOk c then .error .refused
  else match s.partitionKeys c.pindex partitionUses with
    | .error e => .error e
    | .ok t => if s.createOk c then .ok t else .error .refused

/-- PARTITION_CREATION (R399): a failed step leaves nothing of the earlier ones. The tiles that it takes may leave a failed
tile elsewhere without a replacement (R461). -/
def execPartitionCreation (s : State) : Host.Outcome State Fault Refusal :=
  match s.inputs.create with
  | none => .next s
  | some c =>
    if s.halted ∨ !s.booted then .next (s.status .moduleHeld)
    else s.reply ((s.creation c).map fun t => ((t.install c).holdIfHot c.pindex).strand)

/-! ## Destruction (R399, R435) -/

/-- Every key of a partition index that is not revoked goes (R435). -/
def State.dropKeys (s : State) (p : Nat) : State :=
  { s with vault := s.vault.filter fun (_, v) => !(v.owner = p && partitionUses.contains v.use && v.inUse) }

/-- A partition is destroyed: every team is pre-empted, every copy, those of waiting aperture stores among them, ends in
error, the generation is bumped, keys, seals, routing tables and tiles are given up, and a scrub is asked for (R399, R435). -/
def State.destroyPart (s : State) (p : Nat) (x : Partition) : State :=
  let s := (s.modPart p fun y => { y with ending := true }).quiesceBegin p
  let s := (((s.bump p).dropKeys p).dropRoutes p).flushSlices x
  let failed := x.emptied ++ x.tiles.filter s.tileFailed
  let s := x.tiles.foldl (fun s t => s.releaseTile p t) s
  let s := { failed.foldl (fun s t => s.setTileState t .dead) s with
    parts := s.parts.filter fun y => y.pindex ≠ p
    seals := s.seals.filter fun q => q.stream ≠ Stream.detour p && q.stream ≠ Stream.host p && q.stream ≠ Stream.memory p }
  (s.askScrub 0 x.owner (some p) []).leaveDead

/-- DESTRUCTION (R399); it waits where the generation cannot yet be bumped (R209). -/
def execDestruction (p : Nat) (s : State) : Host.Outcome State Fault Refusal :=
  match s.part? p with
  | none => .next s
  | some x =>
    if s.halted then .next (s.status .moduleHeld)
    else if !s.mayBump x then .next (s.waitBump (.destruction p))
    else .next ((s.destroyPart p x).status .ok)

/-! ## Erasure (R422) -/

/-- A launched team that is still there is ended. -/
def State.endLaunched (s : State) (t : TeamRef) : State :=
  match s.teamAt t with
  | some u => if u.kind = .launched then s.removeTeam t u true else s
  | none => s

def State.killLaunched (s : State) (t : TeamRef) : State :=
  match s.teamAt t with
  | some u => if u.kind = .launched then s.killTeam t else s
  | none => s

/-- Steps 2 to 5 of an erasing reshape: the new memory key in slot r takes the place of the old one. -/
def State.erase (s : State) (p r : Nat) (x : Partition) : State :=
  let s := (s.teamsOf p).foldl State.endLaunched s
  let old := s.activeSlot p .memory
  let s := s.bump p
  let s := s.setSlot r { s.slot r with state := .active }
  let s := match old with
    | none => s
    | some k => s.setSlot k { s.slot k with state := .retiring, since := s.cycle }
  let s := (x.bindings.map fun b => b.b).foldl (fun s b => s.endBinding p b) s
  (s.modPart p fun y => { y with erased := true, tdisp := .error }).askScrub 1 x.owner none []

/-- ERASING_RESHAPE (R422): alarm level 1 and an unhealthy Mint refuse it before anything else of it is looked at; then it
waits where the generation cannot yet be bumped (R209). -/
def execErasingReshape (p : Nat) (s : State) : Host.Outcome State Fault Refusal :=
  match s.part? p with
  | none => .next s
  | some x =>
    if s.halted then .next (s.status .moduleHeld)
    else if x.hold = .suspended then .next (s.modPart p fun y => { y with queued := y.queued ++ [.erasingReshape p] })
    else match s.birthRefusal, s.spareSlot with
      | some e, _ => .next (s.status e)
      | none, none => .next (s.status .keyState)
      | none, some r =>
        if !s.mayBump x then .next (s.waitBump (.erasingReshape p))
        else s.reply ((s.generate r .memory p).map fun s =>
          ((s.teamsOf p).foldl State.killLaunched s).quiesce p fun s => s.erase p r x)

/-! ## Scrubs (R441 to R443) -/

/-- The frame lies on a retired core. -/
def State.frameRetired (s : State) (f : Nat) : Bool :=
  let c := f / Config.frameCount
  ((s.tiles[c / Config.coresPerTile]?).bind fun t => t.cores[c % Config.coresPerTile]?) = some .retired

/-- A line of second-tier memory that a scrub cannot write and verify. -/
def State.badLine (s : State) (line : Nat) : Option (W64 × Nat) :=
  if Config.scrubFails s.tick line then some (BitVec.ofNat 64 (64 * line), 2) else none

/-- A frame that is retired, or cannot be written and verified; WHERE counts the frames of the module: log entry 92. -/
def State.badFrame (s : State) (f : Nat) : Option (W64 × Nat) :=
  if s.frameRetired f then some (BitVec.ofNat 64 (2 ^ 62 + f), 1)
  else if Config.scrubFails s.tick (2 ^ 42 + 256 * f) then some (BitVec.ofNat 64 (2 ^ 62 + f), 2)
  else none

/-- The second-tier lines and the frames that a scrub covers. -/
def ScrubJob.memLines (j : ScrubJob) : List Nat := j.covers.filter fun l => (frameOf l).isNone
def ScrubJob.frameList (j : ScrubJob) : List Nat := (j.covers.filterMap frameOf ++ j.vacated).eraseDups

/-- The lines and frames that a scrub still has to write: a partition that keeps its memory over an erasing reshape may have
written some since, and these carry its own tag (R441). -/
def State.scrubLines (s : State) (j : ScrubJob) : List Nat :=
  j.memLines.filter fun l => s.tagOf l = Config.quarantineTag
def State.scrubFrames (s : State) (j : ScrubJob) : List Nat :=
  let own := j.covers.filter fun l => s.tagOf l ≠ Config.quarantineTag
  j.frameList.filter fun f => !(own.any fun l => frameOf l = some f)

/-- What a scrub, carried out, has written and what it could not write (R442). -/
def State.scrub (s : State) (j : ScrubJob) : ScrubJob :=
  { j with
    started := true
    lines := ((s.scrubLines j).filter fun l => (s.badLine l).isNone).length
    frames := ((s.scrubFrames j).filter fun f => (s.badFrame f).isNone).length
    bad := (s.scrubLines j).filterMap s.badLine ++ (s.scrubFrames j).filterMap s.badFrame }

/-- SCRUB (R441): the oldest scrub that has not been carried out. What it covers has carried the quarantine owner since it was
asked for, except what its owner has written since. -/
def execScrub (s : State) : Host.Outcome State Fault Refusal :=
  match pullFirst (fun (j : ScrubJob) => !j.started) s.scrubs with
  | none => .next s
  | some (j, rest) => .next { s with scrubs := rest ++ [s.scrub j] }

/-- The bytes of a receipt that its signature covers (R443); NEWGEN of REASON 3: log entry 92. -/
def receiptBody (j : ScrubJob) (seq : Nat) : List Byte :=
  leBytes 4 0x42524353 ++ leBytes 2 1 ++ leBytes 1 j.reason ++ leBytes 1 (if j.bad = [] then 0 else 1) ++
  leBytes 2 (if j.reason = 3 then 0xFFFF else j.owner) ++ leBytes 2 j.newGen ++ leBytes 2 j.bad.length ++ leBytes 2 0 ++
  leBytes 8 j.lines ++ leBytes 4 j.frames ++ leBytes 4 0 ++ leBytes 8 seq ++ leBytes 24 0 ++
  j.bad.flatMap fun (w, why) => leBytes 8 w.toNat ++ leBytes 8 why

/-- SCRUB_RECEIPT (R442, R443): the receipt goes out, its owner's old generations are covered, what could not be written never
returns to service, and the operations that waited for a bump are tried again (R209). SEQ goes on when the module is
provisioned anew: log entry 92. -/
def execScrubReceipt (s : State) : Host.Outcome State Fault Refusal :=
  match pullFirst (fun (j : ScrubJob) => j.started) s.scrubs with
  | none => .next s
  | some (j, rest) =>
    let new := (j.bad.map fun b => b.1).filter fun w => !s.quarantine.contains w
    let lost := (new.filter fun w => w.toNat / 2 ^ 62 = 0).length
    .next ((({ s with
      scrubs := rest, receipts := s.receipts + 1, quarantine := s.quarantine ++ new
      capacity := s.capacity - 64 * lost, turns := s.turns ++ s.bumps.map Turn.event, bumps := []
      worn := s.worn.filter fun t => !j.tags.contains t : State }).noteWithheld).emit
        (.receipt (s.signed (receiptBody j (s.receipts + 1)))))

/-! ## Bring-up (R425) -/

/-- Tiles in service at most, by grade (R1). -/
def serviceLimit (grade : Nat) : Nat := if grade = 0 then 72 else 68

/-- The tile states that the self-tests give, no more tiles in service than the grade allows (R14, R1). -/
def tileStates : Nat → List TileState → List TileState
  | _, [] => []
  | n, t :: rest =>
    match t with
    | .assigned | .free => match n with
      | 0 => .spare :: tileStates 0 rest
      | m + 1 => .free :: tileStates m rest
    | _ => t :: tileStates n rest

/-- Spare tiles come in until the grade's count is in service (R14, R425). -/
def bringIn : Nat → List TileState → List TileState
  | 0, l => l
  | _, [] => []
  | n + 1, .spare :: rest => .free :: bringIn n rest
  | n + 1, t :: rest => t :: bringIn (n + 1) rest

def inService (l : List TileState) : Nat := (l.filter fun t => t = .free).length

/-- What a self-test says of a tile: one that has failed before stays as it is (R395), one without a usable edge is dead. -/
def testTile (was found : TileState) (cut : Bool) : TileState :=
  if was = .degraded ∨ was = .dead then was else if cut then .dead else found

/-- The tile states after bring-up. -/
def bringUpStates (limit : Nat) (found : List TileState) : List TileState :=
  let l := tileStates limit found
  bringIn (limit - inService l) l

/-- The cores of a tile after self-test: the first 64 that pass carry numbers, the others are spare. -/
def spareMap (failed : Nat → Bool) : Nat → List Nat → List PhysState
  | _, [] => []
  | n, c :: rest =>
    if failed c then .retired :: spareMap failed n rest
    else match n with
      | 0 => .spare :: spareMap failed 0 rest
      | m + 1 => .live :: spareMap failed m rest

/-- A tile after bring-up. A core that has been retired before stays so until it is returned (R413), a bank for good (R407). -/
def bringUpTile (b : BringUp) (was : TileInfo) (st : TileState) (t : Nat) : TileInfo :=
  let failed (c : Nat) : Bool :=
    st = .degraded || st = .dead || b.failed.contains (t, c) || was.cores[c]? = some .retired
  { was with
    state := st, cores := spareMap failed Config.logicalPerTile (List.range Config.coresPerTile), duty := 16, router := [] }

/-- Every partition is gone after a power cycle: its tag is worn, its keys are no longer loaded (R425, R209). Nothing that
waited for one goes on. -/
def State.dropPartitions (s : State) : State :=
  let s := (s.parts.map fun x => x.pindex).foldl State.bump s
  let s := (s.parts.map fun x => x.pindex).foldl State.dropKeys s
  { s with
    parts := [], seals := [], ucie := [], hot := false, duty := 16, late := [], slices := [], bumps := []
    tiles := s.tiles.map fun i => if i.state = .assigned then { i with state := .free } else i }

/-- A link trained at stage 2, with its key from the Mint (R432), a draw of its own (log entry 59); without one it stays
down (R437). -/
def trained (tick i : Nat) (up : Bool) (x : Stream) : Seal :=
  { stream := x, counter := 0, fails := [], up := up, key := if up then Config.mintDraw (1024 * tick + 300 + i) else 0 }

/-- The links of the module: both directions of every edge, and the peer ports; an edge that joins two tiles has nothing to
carry as an edge to an I/O tile. -/
def linkList : List Stream :=
  ((List.range Config.tileCount).flatMap fun t => (List.range Config.edgeCount).map fun e => Stream.ucie t e) ++
  (List.range 16).map Stream.peer ++
  (List.range Config.tileCount).flatMap fun t => (List.range Config.edgeCount).map fun e => Stream.io t e

/-- Stage 2 (R425): the modules as they train, and the links with their keys. -/
def State.trainLinks (s : State) (b : BringUp) : State :=
  { s with
    ucie := b.ucie.map fun (t, e, m, cond) => { tile := t, edge := e, mod := m, cond := cond, repairing := false }
    seals := linkList.zipIdx.map fun (x, i) => trained s.tick i b.drawOk x
    mintHealthy := s.mintHealthy && b.drawOk }

/-- No edge of a tile can be used: every one that leads to a neighbour is down. -/
def State.cutOff (s : State) (t : Nat) : Bool :=
  ((List.range Config.edgeCount).any fun e => !s.edgeUp t e) &&
  (List.range Config.edgeCount).all fun e => !s.edgeUp t e || (Config.neighbour t e).isNone

/-- Stages 4 to 6 (R425): channels and ports that do not train are out of use. -/
def trainedIo (b : BringUp) (n : Nat) : IoTile :=
  { lpddr := (List.range 32).map fun c => !b.lpddrLost.contains (n, c)
    cxl := [!b.cxlLost.contains (n, 0), !b.cxlLost.contains (n, 1)]
    peers := [!b.peerLost.contains (n, 0), !b.peerLost.contains (n, 1)]
    host := if n % 2 = 0 then some (!b.hostLost.contains (n / 2)) else none }

/-- The second-tier bytes that the trained channels and ports can reach (R23). -/
def reachable (io : List IoTile) : Nat :=
  min Config.memoryBytes
    (Config.channelBytes * total (io.map fun t => (t.lpddr.filter id).length) +
      if io.any fun t => t.cxl.any id then Config.cxlBytes else 0)

/-- A grade A module that cannot place 72 tiles in service reports its live cores (R425); the count is known from here on. -/
def State.reportShort (s : State) : State :=
  let t : State := { s with liveKnown := s.liveCount }
  if s.grade = 0 ∧ (s.tiles.filter fun (t : TileInfo) => t.state = .free).length < 72 then t.emit (.liveCores s.liveCount) else t

/-- Stage 3 (R425): the self-tests, the spare map, and the spare tiles that come in. -/
def State.testTiles (s : State) (b : BringUp) : State :=
  let found := (List.range Config.tileCount).map fun t =>
    testTile ((s.tiles[t]?).getD TileInfo.reset).state (b.tiles.getD t .spare) (s.cutOff t)
  { s with tiles := (bringUpStates (serviceLimit s.grade) found).zipIdx.map fun (st, t) =>
      bringUpTile b ((s.tiles[t]?).getD TileInfo.reset) st t }

/-- Stages 4 to 6 (R425): memory channels and ports. Lines that are quarantined for good do not count (R442). -/
def State.trainPorts (s : State) (b : BringUp) : State :=
  let io := (List.range 8).map (trainedIo b)
  { s with io := io, capacity := min b.memory (reachable io) - 64 * s.badLines }

/-- Slot 1 is certified by slot 0 at each boot, where both hold keys (R432). -/
def State.certify (s : State) : State := { s with certified := (s.slot 0).inUse && (s.slot 1).inUse }

/-- POWER_ON (R425). -/
def execPowerOn (s : State) : Host.Outcome State Fault Refusal :=
  let b := s.inputs.bringUp
  let held (s : State) (stage : Nat) : State := { s with booted := false, halted := true }.emit (.physical stage)
  let s := s.dropPartitions.mintTest b.mintOk
  if !b.mintOk then .next (held s 1)
  else
    let s := ((s.trainLinks b).testTiles b).trainPorts b
    let s := ({ s with digest := b.digest }).certify
    if !b.firmwareOk then .next (held (s.raiseAlarm1 .firmware) 7)
    else
      let s := if s.alarm2 then ({ s with alarm2 := false, reprovision := true }).askScrub 3 0xFFFF none [] else s
      let s := { s with booted := true, halted := false }
      .next s.reportShort

/-! ## Power and heat (R426, R427) -/

def lower (d : Nat) : Nat := max 1 (d - 1)
def higher (d : Nat) : Nat := min 16 (d + 1)

/-- POWER_SAMPLE (R426). -/
def execPowerSample (s : State) : Host.Outcome State Fault Refusal :=
  .next (if 24000 ≤ s.inputs.watts then { s with duty := lower s.duty }
    else if s.inputs.watts < 23000 then { s with duty := higher s.duty } else s)

/-- Suspend every partition for heat, those too that came since an earlier report, and tell the host (R427). -/
def State.suspendHot (s : State) : State :=
  let s := (s.parts.map fun x => x.pindex).foldl (fun s p =>
    (s.suspendPart p).modPart p fun x => { x with byHeat := true }) s
  { s with hot := true }.emit (.physical 105)

def State.resumeCool (s : State) : State :=
  { (s.parts.map fun x => x.pindex).foldl (fun s p =>
      (s.modPart p fun x => { x with byHeat := false }).resumePart p) s with hot := false }

/-- Die temperatures, by tile. -/
def State.heat (s : State) (temp : Nat → Nat) : State :=
  let ts := List.range s.tiles.length
  let s := { s with tiles := s.tiles.zipIdx.map fun (x, t) =>
      { x with duty := if 95 < temp t then lower x.duty else higher x.duty } }
  if s.halted then s
  else if ts.any fun t => 105 ≤ temp t then s.suspendHot
  else if s.hot && ts.all fun t => temp t < 90 then s.resumeCool
  else s

/-- THERMAL_REPORT (R427). -/
def execThermalReport (s : State) : Host.Outcome State Fault Refusal := .next (s.heat fun t => s.inputs.temps.getD t 0)

/-- COOLANT_FLOW_LOSS (R427): treated as 105 °C on every tile. -/
def execCoolantFlowLoss (s : State) : Host.Outcome State Fault Refusal := .next (s.heat fun _ => 105)

end Sys2Proof.Machine
end

