-- ==== Sys2Proof/Machine/Numeric.lean ====
section
/-! DEFINITION. Floating point, conversions, block scales, bit planes and residues (R163 to R192). -/

namespace Sys2Proof.Machine

/-! ## Floating-point arithmetic (R170 to R174) -/

/-- The types of the floating-point class (R167). -/
def floatClass (t : Nat) : Bool := t = 6 || t = 7 || t = 8

/-- One result an element, from the elements of vd, va and vb. -/
def floatwise (d : VReg) (a : VSrc) (b : Option VSrc) (f : (m : Fmt) → (rnd d a b : Nat) → Nat) :
    State → Host.Outcome State Fault Refusal := fun s =>
  s.issue fun s k =>
    let t := k.type
    let w := typeWidth t
    let vb (l : Nat) : Nat := match b with
      | some r => (k.v r l).toNat
      | none => 0
    let marks := markV a 1 ++ (match b with
      | some r => markV r 1
      | none => [])
    { typed := floatClass t
      shape := { marks := without marks (namesOf d 1), sweep := true }
      eff := s.writeLanes k (putLanes d k.acting fun l => BitVec.ofNat 32 (fromElements w
        (fun e => f (fmtOf t) (modeRnd k.split.mr) (element w (k.team.lane d l).toNat e) (element w (k.v a l).toNat e)
          (element w (vb l) e)) (32 / w))) }

/-- An exact result rounded once, SAT treated as 0 (R170). -/
def rounded (f : (m : Fmt) → (rnd : Nat) → (d a b : Num) → Num) (m : Fmt) (rnd d a b : Nat) : Nat :=
  m.round rnd false (f m rnd (m.value d) (m.value a) (m.value b))

/-- Significant bits that quotients and roots keep below the last one of the format. -/
def Fmt.guardBits (m : Fmt) : Nat := m.fbits + 4

/-- R170. -/
def execFadd (d : VReg) (a b : VSrc) (s : State) : Host.Outcome State Fault Refusal :=
  floatwise d a (some b) (rounded fun _ rnd _ x y => Num.add rnd x y) s
/-- R170. -/
def execFsub (d : VReg) (a b : VSrc) (s : State) : Host.Outcome State Fault Refusal :=
  floatwise d a (some b) (rounded fun _ rnd _ x y => Num.add rnd x y.negate) s
/-- R170. -/
def execFmul (d : VReg) (a b : VSrc) (s : State) : Host.Outcome State Fault Refusal :=
  floatwise d a (some b) (rounded fun _ _ _ x y => Num.mul x y) s
/-- R170: the old vd is the addend, and the sum is rounded once. -/
def execFfma (d : VReg) (a b : VSrc) (s : State) : Host.Outcome State Fault Refusal :=
  floatwise d a (some b) (rounded fun _ rnd z x y => Num.add rnd (Num.mul x y) z) s
/-- R170. -/
def execFdiv (d : VReg) (a b : VSrc) (s : State) : Host.Outcome State Fault Refusal :=
  floatwise d a (some b) (rounded fun m _ _ x y => Num.div m.guardBits x y) s
/-- R170. -/
def execFrcp (d : VReg) (a : VSrc) (s : State) : Host.Outcome State Fault Refusal :=
  floatwise d a none (rounded fun m _ _ x _ => x.recip m.guardBits) s
/-- R170. -/
def execFrsq (d : VReg) (a : VSrc) (s : State) : Host.Outcome State Fault Refusal :=
  floatwise d a none (rounded fun m _ _ x _ => x.rsqrt m.guardBits) s
/-- R170. -/
def execFsqrt (d : VReg) (a : VSrc) (s : State) : Host.Outcome State Fault Refusal :=
  floatwise d a none (rounded fun m _ _ x _ => x.sqrt m.guardBits) s
/-- R170. -/
def execFexp2 (d : VReg) (a : VSrc) (s : State) : Host.Outcome State Fault Refusal :=
  floatwise d a none (rounded fun _ _ _ x _ => x.exp2) s
/-- R170. -/
def execFlog2 (d : VReg) (a : VSrc) (s : State) : Host.Outcome State Fault Refusal :=
  floatwise d a none (rounded fun _ _ _ x _ => x.log2) s

/-- R171. -/
def execFmin (d : VReg) (a b : VSrc) (s : State) : Host.Outcome State Fault Refusal :=
  floatwise d a (some b) (fun m _ _ x y => m.pick false x y) s
/-- R171. -/
def execFmax (d : VReg) (a b : VSrc) (s : State) : Host.Outcome State Fault Refusal :=
  floatwise d a (some b) (fun m _ _ x y => m.pick true x y) s
/-- R172. -/
def execFabs (d : VReg) (a : VSrc) (s : State) : Host.Outcome State Fault Refusal :=
  floatwise d a none (fun m _ _ x _ => if m.isNan x then m.nan else m.mag x) s
/-- R172. -/
def execFneg (d : VReg) (a : VSrc) (s : State) : Host.Outcome State Fault Refusal :=
  floatwise d a none (fun m _ _ x _ => if m.isNan x then m.nan else m.sign (!m.neg x) + m.mag x) s
/-- R174. -/
def execFclass (d : VReg) (a : VSrc) (s : State) : Host.Outcome State Fault Refusal :=
  floatwise d a none (fun m _ _ x _ => m.classOf x) s

/-- The condition on every element (R173). -/
def compareFloats (t cmp a b : Nat) : Bool :=
  (List.range (elementCount t)).all fun e => (fmtOf t).compare cmp (element (typeWidth t) a e) (element (typeWidth t) b e)

/-- R173. -/
def execFcmp (d : PReg) (a b : VSrc) (s : State) : Host.Outcome State Fault Refusal :=
  s.issue fun s k =>
    { typed := floatClass k.type
      shape := { marks := markV a 1 ++ markV b 1, sweep := true }
      eff := s.writeLanes k (putPreds d k.acting fun l =>
        compareFloats k.type (modeCmp k.split.mr) (k.v a l).toNat (k.v b l).toNat) }

/-! ## Conversions (R175, R176, R188, R189) -/

/-- Elements a lane converts (R175). -/
def convCount (src dst : Nat) : Nat :=
  if typeWide src || typeWide dst then 1 else max (32 / typeWidth src) (32 / typeWidth dst)

/-- Containers that n elements of a type take. -/
def groupSize (n t : Nat) : Nat := n * typeWidth t / 32

/-- A group of 1, 2 or 4 stands at a multiple of its size. -/
def groupOk (r : VReg) (n : Nat) : Bool := r.toNat % n = 0

/-- The containers of a group as one number, the first lowest. -/
def Ctx.group (k : Ctx) (r : VReg) (n l : Nat) : Nat :=
  fromElements 32 (fun i => (k.team.container (r.toNat + i) l).toNat) n

/-- Write a number over the containers of a group. -/
def putGroup (r : VReg) (n : Nat) (ls : List Nat) (f : Nat → Nat) : List Put :=
  ls.flatMap fun l => (List.range n).map fun i => ⟨r.toNat + i, l, BitVec.ofNat 32 (f l / 2 ^ (32 * i))⟩

/-- A conversion: `ok` says which pairs of source and destination types it accepts, and `f` converts one element, given
the lane's container of vb, the element's number and its pattern. -/
def converting (d : VReg) (a : VSrc) (b : Option VSrc) (ok : (src dst : Nat) → Bool)
    (f : (src dst rnd : Nat) → (sat : Bool) → (scales e v : Nat) → Nat) : State → Host.Outcome State Fault Refusal := fun s =>
  s.issue fun s k =>
    let src := modeSrc k.split.mr
    let dst := k.type
    let n := convCount src dst
    let gS := groupSize n src
    let gD := groupSize n dst
    let vb (l : Nat) : Nat := match b with
      | some r => (k.v r l).toNat
      | none => 0
    let marks := markV a gS ++ (match b with
      | some r => markV r 1
      | none => [])
    { legal := !ok src dst || (groupOk d gD && groupOk a.reg gS)
      typed := ok src dst
      shape := { marks := without marks (namesOf d gD), sweep := true }
      eff := s.writeLanes k (putGroup d gD k.acting fun l =>
        fromElements (typeWidth dst) (fun e => f src dst (modeRnd k.split.mr) (modeSat k.split.mr) (vb l) e
          (element (typeWidth src) (k.group a.reg gS l) e)) n) }

/-- R175, R176. Under SAT = 1 an infinity becomes the type's greatest value, between identical types too: log entry 91. -/
def execCvt (d : VReg) (a : VSrc) (s : State) : Host.Outcome State Fault Refusal :=
  converting d a none cvtPair (fun src dst rnd sat _ _ v => (valueAs src v).deliver rnd sat dst) s

/-- The 8-bit types of the block-scale instructions (R167). -/
def scaledType (t : Nat) : Bool := t = 4 || t = 5 || t = 9 || t = 10

/-- R188. -/
def execCvtsc (d : VReg) (a b : VSrc) (s : State) : Host.Outcome State Fault Refusal :=
  converting d a (some b) (fun src dst => floatClass src && scaledType dst) (fun src dst rnd sat scales e v =>
    let sc := element 8 scales e
    if sc = 0xFF then (if typeFloat dst then (fmtOf dst).nan else 0)
    else ((valueAs src v).scale (127 - (sc : Int))).deliver rnd sat dst) s

/-- R189. -/
def execCvtus (d : VReg) (a b : VSrc) (s : State) : Host.Outcome State Fault Refusal :=
  converting d a (some b) (fun src dst => scaledType src && floatClass dst) (fun src dst rnd sat scales e v =>
    let sc := element 8 scales e
    if sc = 0xFF then (fmtOf dst).nan else (fmtOf dst).round rnd sat ((valueAs src v).scale ((sc : Int) - 127))) s

/-! ## Block scales (R177, R178, R182 to R185) -/

/-- Lanes that hold one block of 16 elements (R182). -/
def blockLanes (t : Nat) : Nat := typeWidth t / 2

/-- The largest magnitude among patterns; a NaN prevails (R182). -/
def Fmt.amax (m : Fmt) (vs : List Nat) : Nat := if vs.any m.isNan then m.nan else greatest (vs.map m.mag)

/-- R182. -/
def execVamax (d : VReg) (a : VSrc) (s : State) : Host.Outcome State Fault Refusal :=
  s.issue fun s k =>
    let m := fmtOf k.type
    let w := typeWidth k.type
    let elems (l : Nat) : List Nat := (List.range (32 / w)).map fun e => element w (k.v a l).toNat e
    let block (l : Nat) : Nat := m.amax ((k.acting.filter fun i => i / blockLanes k.type = l / blockLanes k.type).flatMap elems)
    { typed := floatClass k.type
      shape := { marks := without (markV a 1) (namesOf d 1), sweep := true }
      eff := s.writeLanes k (putLanes d k.acting fun l => BitVec.ofNat 32 (fromElements w (fun _ => block l) (32 / w))) }

/-- emax of a target format (R183). -/
def targetEmax (t : Nat) : Int := if t = 4 then 6 else if t = 5 then 7 else if t = 9 then 8 else 15

/-- The scale of a magnitude (R183). -/
def scaleOf (t : Nat) : Num → Nat
  | .nan => 0xFF
  | .inf _ => 0xFF
  | .zero _ => 127
  | .fin _ m e _ => (min 254 (max 0 ((Nat.log2 m : Int) + e - targetEmax t + 127))).toNat

/-- R183. -/
def execScexp (d : VReg) (a : VSrc) (s : State) : Host.Outcome State Fault Refusal :=
  s.issue fun s k =>
    let src := modeSrc k.split.mr
    { typed := scaledType k.type && floatClass src
      shape := { marks := without (markV a 1) (namesOf d 1), sweep := true }
      eff := s.writeLanes k (putLanes d k.acting fun l =>
        BitVec.ofNat 32 (scaleOf k.type (valueAs src (element (typeWidth src) (k.v a l).toNat 0)))) }

/-- The nibbles of one scale against its predecessor (R178). -/
def scaleNibbles (p sc : Nat) : List Nat :=
  let diff : Int := (sc : Int) - p
  if p ≠ 0xFF ∧ sc ≠ 0xFF ∧ -7 ≤ diff ∧ diff ≤ 7 then [patternOf 4 diff] else [8, sc % 16, sc / 16]

/-- The stream of some scales. -/
def scaleStream : Nat → List Nat → List Nat
  | _, [] => []
  | p, sc :: rest => scaleNibbles p sc ++ scaleStream sc rest

/-- What lane i of a mask word receives of a stream (R184). -/
def streamLane (nibs : List Nat) (last i : Nat) : Nat :=
  if i < 12 then fromElements 4 (fun j => nibs.getD (8 * i + j) 0) 8
  else if i = 31 then nibs.length + 2 ^ 16 * last
  else 0

/-- R184. -/
def execScpack (d : VReg) (a b : VSrc) (s : State) : Host.Outcome State Fault Refusal :=
  s.issue fun s k =>
    let scales (l : Nat) : List Nat := (List.range 32).map fun i => (k.v a (l / 32 * 32 + i)).toNat % 256
    let before (l : Nat) : Nat := (k.v b (l / 32 * 32)).toNat % 256
    { shape := { marks := without (markV a 1 ++ markV b 1) (namesOf d 1), sweep := true }
      eff := s.writeLanes k (putLanes d k.acting fun l =>
        BitVec.ofNat 32 (streamLane (scaleStream (before l) (scales l)) ((scales l).getD 31 0) (l % 32))) }

/-- The results of decoding a stream: predecessor, starting nibble, position, blocks to go (R185). -/
def unpackFrom (nib : Nat → Nat) (o : Nat) : Nat → Nat → Nat → List Nat
  | _, _, 0 => []
  | p, k, n + 1 =>
    if 255 < k ∨ (nib k = 8 ∧ 255 < k + 2) then 0xFFFF00FF :: unpackFrom nib o p k n
    else
      let (sc, k') := if nib k = 8 then (nib (k + 1) + 16 * nib (k + 2), k + 3)
        else (patternOf 8 ((p : Int) + nib k - 16 * (nib k / 8 : Nat)), k + 1)
      (sc + 2 ^ 16 * (k' - o)) :: unpackFrom nib o sc k' n

/-- R185. -/
def execScunpk (d : VReg) (a b : VSrc) (s : State) : Host.Outcome State Fault Refusal :=
  s.issue fun s k =>
    let nib (l i : Nat) : Nat := element 4 (k.v a (l / 32 * 32 + i / 8)).toNat (i % 8)
    let vb (l : Nat) : Nat := (k.v b (l / 32 * 32)).toNat
    let res (l : Nat) : List Nat := unpackFrom (nib l) (field (vb l) 8 8) (vb l % 256) (field (vb l) 8 8) 32
    { shape := { marks := without (markV a 1 ++ markV b 1) (namesOf d 1), sweep := true }
      eff := s.writeLanes k (putLanes d k.acting fun l => BitVec.ofNat 32 ((res l).getD (l % 32) 0)) }

/-! ## Bit planes (R179, R186, R187) -/

/-- The plane word of lane i of a mask word, `byte j` being element j (R186). -/
def planeWord (byte : Nat → Nat) (i : Nat) : Nat :=
  fromElements 1 (fun b => byte (32 * (i % 4) + b) / 2 ^ (7 - i / 4)) 32

/-- R186. -/
def execBppack (d : VReg) (a : VSrc) (s : State) : Host.Outcome State Fault Refusal :=
  s.issue fun s k =>
    let byte (l j : Nat) : Nat := element 8 (k.v a (l / 32 * 32 + j / 4)).toNat (j % 4)
    { shape := { marks := without (markV a 1) (namesOf d 1), sweep := true }
      eff := s.writeLanes k (putLanes d k.acting fun l => BitVec.ofNat 32 (planeWord (byte l) (l % 32))) }

/-- Element j read back from k planes, `word i` being the container of lane i of the mask word (R187). -/
def unplane (word : Nat → Nat) (k j : Nat) : Int :=
  signedOf k (fromElements 1 (fun q => word (4 * (k - 1 - q) + j / 32) / 2 ^ (j % 32)) k)

/-- R187. -/
def execBpunpk (d : VReg) (a : VSrc) (s : State) : Host.Outcome State Fault Refusal :=
  s.issue fun s k =>
    let planes := modePlanes k.split.mr
    let word (l i : Nat) : Nat := (k.v a (l / 32 * 32 + i)).toNat
    { typed := 2 ≤ planes && planes ≤ 8
      shape := { marks := without (markV a 1) (namesOf d 1), sweep := true }
      eff := s.writeLanes k (putLanes d k.acting fun l =>
        BitVec.ofNat 32 (fromElements 8 (fun e => patternOf 8 (unplane (word l) planes (4 * (l % 32) + e))) 4)) }

/-! ## Residues (R181, R190, R191) -/

/-- The moduli that the residue instructions take. -/
def modulusOk (q : Nat) : Bool := q % 2 = 1 && 3 ≤ q && q < 2 ^ 62

/-- The mathematical remainder. -/
def residue (q : Nat) (t : Int) : Nat := (t % (q : Int)).toNat

/-- A residue instruction on the pair vd and the pair va. -/
def residueOp (legal : Bool) (d : VReg) (a : VSrc) (b : SReg) (f : (q x y : Nat) → Nat) :
    State → Host.Outcome State Fault Refusal := fun s =>
  s.issue fun s k =>
    let q := (k.s b).toNat
    { legal := legal
      shape := { marks := without (markV a 2) (namesOf d 2), sweep := true }
      eff := if modulusOk q then
          s.writeLanes k (putPairs d k.acting fun l => BitVec.ofNat 64 (f q (k.team.pair d l).toNat (k.v2 a l).toNat))
        else .trap (k.cause 0x12) }

/-- R190. -/
def execVmodadd (d : VReg) (a : VSrc) (b : SReg) (s : State) : Host.Outcome State Fault Refusal :=
  residueOp (Instr.wf (.vmodadd d a b)) d a b (fun q x y => residue q ((x : Int) + y)) s
/-- R190. -/
def execVmodsub (d : VReg) (a : VSrc) (b : SReg) (s : State) : Host.Outcome State Fault Refusal :=
  residueOp (Instr.wf (.vmodsub d a b)) d a b (fun q x y => residue q ((x : Int) - y)) s
/-- R190. -/
def execVmodmul (d : VReg) (a : VSrc) (b : SReg) (s : State) : Host.Outcome State Fault Refusal :=
  residueOp (Instr.wf (.vmodmul d a b)) d a b (fun q x y => residue q ((x : Int) * y)) s

/-- A butterfly on the quad vd with the twiddle pair va: x and y of the quad, and w. -/
def butterfly (legal : Bool) (d : VReg) (a : VSrc) (b : SReg) (f : (q : Nat) → (x y w : Int) → Int × Int) :
    State → Host.Outcome State Fault Refusal := fun s =>
  s.issue fun s k =>
    let q := (k.s b).toNat
    let pair (l i : Nat) : Int := fromElements 32 (fun j => (k.team.container (d.toNat + i + j) l).toNat) 2
    let res (l : Nat) : Nat :=
      let r := f q (pair l 0) (pair l 2) (k.v2 a l).toNat
      residue q r.1 + 2 ^ 64 * residue q r.2
    { legal := legal
      shape := { marks := without (markV a 2) (namesOf d 4), sweep := true }
      eff := if modulusOk q then s.writeLanes k (putGroup d 4 k.acting res) else .trap (k.cause 0x12) }

/-- R191. -/
def execVbfly (d : VReg) (a : VSrc) (b : SReg) (s : State) : Host.Outcome State Fault Refusal :=
  butterfly (Instr.wf (.vbfly d a b)) d a b (fun _ x y w => (x + w * y, x - w * y)) s
/-- R191. -/
def execVibfly (d : VReg) (a : VSrc) (b : SReg) (s : State) : Host.Outcome State Fault Refusal :=
  butterfly (Instr.wf (.vibfly d a b)) d a b (fun _ x y w => (x + y, (x - y) * w)) s

end Sys2Proof.Machine
end

