-- ==== Sys2Proof/Machine/Ports.lean ====
section
/-! DEFINITION. The host's side of a virtual function: SPDM (R444, R445), TDISP (R446), the BARs (R447, R462, R463). -/

namespace Sys2Proof.Machine

/-! ## SPDM (R444) -/

/-- Requests by number, for the bodies that the SPDM standard lays out. -/
inductive Spdm where
  | version | capabilities | algorithms | digests | certificate | challenge | measurements | keyExchange | finish | ideKeys
  deriving DecidableEq, Repr

def Spdm.code : Spdm → Nat
  | .version => 0
  | .capabilities => 1
  | .algorithms => 2
  | .digests => 3
  | .certificate => 4
  | .challenge => 5
  | .measurements => 6
  | .keyExchange => 7
  | .finish => 8
  | .ideKeys => 9

/-- Answer a request of a function that exists while the module is not held. -/
def State.spdm (s : State) (p : Nat) (f : Partition → State) : Host.Outcome State Fault Refusal :=
  match s.part? p with
  | none => .next s
  | some x => if s.halted then .next s else .next (f x)

def State.answer (s : State) (p : Nat) (q : Spdm) : State := s.emit (.spdm p (Config.spdmBody q.code p s.tick))

/-- GET_VERSION (R444). -/
def execGetVersion (p : Nat) (s : State) : Host.Outcome State Fault Refusal := s.spdm p fun _ => s.answer p .version
/-- GET_CAPABILITIES (R444). -/
def execGetCapabilities (p : Nat) (s : State) : Host.Outcome State Fault Refusal := s.spdm p fun _ => s.answer p .capabilities
/-- NEGOTIATE_ALGORITHMS (R444): SM2, SM3 and AES-256-GCM, and nothing else. -/
def execNegotiateAlgorithms (p : Nat) (a : SpdmAlgs) (s : State) : Host.Outcome State Fault Refusal :=
  s.spdm p fun _ => if a.sm2 && a.sm3 && a.aes256gcm then s.answer p .algorithms else s.emit (.spdmRefused p)
/-- Answer where a condition holds, otherwise refuse. -/
def State.answerIf (s : State) (p : Nat) (ok : Bool) (o : Output) : State := s.emit (if ok then o else .spdmRefused p)

/-- GET_DIGESTS (R444): there is no chain to slot 1 where slot 0 has not certified it (R432, log entry 65). -/
def execGetDigests (p : Nat) (s : State) : Host.Outcome State Fault Refusal :=
  s.spdm p fun _ => s.answerIf p s.certified (.spdm p (Config.spdmBody Spdm.digests.code p s.tick))
/-- GET_CERTIFICATE (R444). -/
def execGetCertificate (p : Nat) (s : State) : Host.Outcome State Fault Refusal :=
  s.spdm p fun _ => s.answerIf p s.certified (.spdm p (Config.spdmBody Spdm.certificate.code p s.tick))

/-- The attestation key stands in slot 1 and is not revoked (R432, R433). -/
def State.attests (s : State) : Bool := (s.slot 1).inUse

/-- CHALLENGE (R444): the response ends in the signature of slot 1 over the response and the requester's nonce. -/
def execChallenge (p : Nat) (nonce : BitVec 256) (s : State) : Host.Outcome State Fault Refusal :=
  s.spdm p fun _ =>
    let body := Config.spdmBody Spdm.challenge.code p s.tick
    s.answerIf p s.attests
      (.spdm p (body ++ leBytes 64 (Config.sm2 (s.slot 1).key s.tick (body ++ leBytes 32 nonce.toNat)).toNat))

/-- The latest report with the requester's nonce in bytes 64 to 95, signed again over the whole (R445). -/
def State.reportFor (s : State) (x : Partition) (nonce : BitVec 256) : List Byte :=
  let body := x.report.take (x.report.length - 64)
  s.signed (body.take 64 ++ leBytes 32 nonce.toNat ++ body.drop 96)

/-- GET_MEASUREMENTS (R444, R445): index 1 is the firmware's digest, index 16 the shape report, any other is absent. -/
def execGetMeasurements (p index : Nat) (nonce : BitVec 256) (s : State) : Host.Outcome State Fault Refusal :=
  s.spdm p fun x =>
    if index = 1 then s.emit (.spdm p (leBytes 32 s.digest.toNat))
    else if index = 16 then s.answerIf p s.attests (.spdm p (s.reportFor x nonce))
    else s.emit (.spdmRefused p)

/-- KEY_EXCHANGE (R444): a session opens under the next number. The answer is signed, so that it is refused where slot 1 holds no
key in use (log entry 65). -/
def execKeyExchange (p : Nat) (s : State) : Host.Outcome State Fault Refusal :=
  s.spdm p fun x =>
    let n := greatest (x.sessions.map fun q => q.1) + 1
    if s.attests then (s.modPart p fun y => { y with sessions := y.sessions ++ [(n, .opened)] }).answer p .keyExchange
    else s.emit (.spdmRefused p)

/-- Move a session on, or refuse. -/
def State.session (s : State) (p n : Nat) (ok : SpdmState → Bool) (dest : SpdmState) (q : Spdm) : Host.Outcome State Fault Refusal :=
  s.spdm p fun x =>
    match x.sessions.find? fun e => e.1 = n with
    | some (_, st) =>
      if ok st then (s.modPart p fun y =>
          { y with sessions := y.sessions.map fun e => if e.1 = n then (n, dest) else e }).answer p q
      else s.emit (.spdmRefused p)
    | none => s.emit (.spdmRefused p)

/-- FINISH (R444). -/
def execFinish (p n : Nat) (s : State) : Host.Outcome State Fault Refusal := s.session p n (fun st => st = .opened) .finished .finish

/-- The key management messages (R444): the function's IDE stream has its keys, and is set up anew under them; what waited for
a key goes. The Vault's slot keeps the host-stream key (log entry 65). -/
def execIdeKeyManagement (p n : Nat) (s : State) : Host.Outcome State Fault Refusal :=
  (if (s.part? p).any fun x => !s.halted && x.sessions.any fun e => e.1 = n && e.2 ≠ .opened then
    (s.putSeal { stream := .host p, counter := 0, fails := [], up := true, key := Config.ideKey s.tick }).flushHost p
  else s).session p n (fun st => st ≠ .opened) .keyed .ideKeys

/-! ## TDISP (R446) -/

/-- A request of the host's security manager over a session that has finished its handshake. -/
def State.tdisp (s : State) (p n : Nat) (ok : Partition → Bool) (f : Partition → Partition) : Host.Outcome State Fault Refusal :=
  s.spdm p fun x =>
    if (x.sessions.any fun e => e.1 = n && e.2 ≠ .opened) && ok x then s.modPart p f else s.emit (.spdmRefused p)

/-- LOCK_INTERFACE (R446). -/
def execLockInterface (p n : Nat) (s : State) : Host.Outcome State Fault Refusal :=
  s.tdisp p n (fun x => x.tdisp = .configUnlocked) fun x => { x with tdisp := .configLocked }

/-- START_INTERFACE (R446): the IDE stream has its keys, and has not failed. -/
def execStartInterface (p n : Nat) (s : State) : Host.Outcome State Fault Refusal :=
  s.tdisp p n (fun x => x.tdisp = .configLocked && (x.sessions.any fun e => e.2 = .keyed) && (s.seal (.host p)).up) fun x =>
    { x with tdisp := .run }

/-- STOP_INTERFACE (R446): what the function holds for the host is cleared first. -/
def execStopInterface (p n : Nat) (s : State) : Host.Outcome State Fault Refusal :=
  s.tdisp p n (fun _ => true) fun x =>
    { x with tdisp := .configUnlocked, msix := [], msixTable := [], msixPending := 0, hostWait := [] }

/-! ## The BARs (R447, R462, R463) -/

/-- BAR accesses are accepted in RUN alone, and only on the function's IDE stream (R446). -/
def State.barOpen (s : State) (x : Partition) : Bool := x.tdisp = .run && s.inputs.barIde

/-- HOST_BAR_READ (R447, R463). -/
def execHostBarRead (p bar off n : Nat) (s : State) : Host.Outcome State Fault Refusal :=
  match s.part? p with
  | none => .next s
  | some x =>
    if (bar ≠ 0 ∧ bar ≠ 2) ∨ s.halted then .next s
    else if !s.barOpen x then .next (s.emit (.unsupported p))
    else .next (s.hostAccess x (.read bar off n))

/-- HOST_BAR_WRITE (R447, R462). -/
def execHostBarWrite (p bar off : Nat) (bytes : List Byte) (s : State) : Host.Outcome State Fault Refusal :=
  match s.part? p with
  | none => .next s
  | some x =>
    if (bar ≠ 0 ∧ bar ≠ 2) ∨ s.halted ∨ !s.barOpen x then .next s
    else .next (s.hostAccess x (.write bar off bytes))

end Sys2Proof.Machine
end

