-- ==== Sys2Proof/Machine/Dispatch.lean ====
section
/-! DEFINITION. The dispatch: one arm a constructor, each the direct call of one meaning. -/

namespace Sys2Proof.Machine

def exec (i : Instr) (s : State) : Host.Outcome State Fault Refusal :=
  match i with
  | .br off => Sys2Proof.Machine.execBr off s
  | .brc p off => Sys2Proof.Machine.execBrc p off s
  | .brnc p off => Sys2Proof.Machine.execBrnc p off s
  | .bru p off => Sys2Proof.Machine.execBru p off s
  | .brx a => Sys2Proof.Machine.execBrx a s
  | .call off => Sys2Proof.Machine.execCall off s
  | .callx a => Sys2Proof.Machine.execCallx a s
  | .rcv off => Sys2Proof.Machine.execRcv off s
  | .bdnz a off => Sys2Proof.Machine.execBdnz a off s
  | .exit k => Sys2Proof.Machine.execExit k s
  | .yieldc a b lit => Sys2Proof.Machine.execYieldc a b lit s
  | .region w0 w1 w2 w3 => Sys2Proof.Machine.execRegion w0 w1 w2 w3 s
  | .mode a => Sys2Proof.Machine.execMode a s
  | .modei lit => Sys2Proof.Machine.execModei lit s
  | .modeg k => Sys2Proof.Machine.execModeg k s
  | .mrd d => Sys2Proof.Machine.execMrd d s
  | .splitq d k => Sys2Proof.Machine.execSplitq d k s
  | .vadd d a b => Sys2Proof.Machine.execVadd d a b s
  | .vsub d a b => Sys2Proof.Machine.execVsub d a b s
  | .vmul d a b => Sys2Proof.Machine.execVmul d a b s
  | .vmulh d a b => Sys2Proof.Machine.execVmulh d a b s
  | .vmad d a b => Sys2Proof.Machine.execVmad d a b s
  | .vdiv d a b => Sys2Proof.Machine.execVdiv d a b s
  | .vrem d a b => Sys2Proof.Machine.execVrem d a b s
  | .vmin d a b => Sys2Proof.Machine.execVmin d a b s
  | .vmax d a b => Sys2Proof.Machine.execVmax d a b s
  | .vabs d a => Sys2Proof.Machine.execVabs d a s
  | .vneg d a => Sys2Proof.Machine.execVneg d a s
  | .vand d a b => Sys2Proof.Machine.execVand d a b s
  | .vor d a b => Sys2Proof.Machine.execVor d a b s
  | .vxor d a b => Sys2Proof.Machine.execVxor d a b s
  | .vnot d a => Sys2Proof.Machine.execVnot d a s
  | .vshl d a b => Sys2Proof.Machine.execVshl d a b s
  | .vshr d a b => Sys2Proof.Machine.execVshr d a b s
  | .vrot d a b => Sys2Proof.Machine.execVrot d a b s
  | .vpop d a => Sys2Proof.Machine.execVpop d a s
  | .vclz d a => Sys2Proof.Machine.execVclz d a s
  | .vbfe d a b => Sys2Proof.Machine.execVbfe d a b s
  | .vbfi d a b => Sys2Proof.Machine.execVbfi d a b s
  | .vsel d a b => Sys2Proof.Machine.execVsel d a b s
  | .vmov d a => Sys2Proof.Machine.execVmov d a s
  | .vmovl d lit => Sys2Proof.Machine.execVmovl d lit s
  | .vbcast d a => Sys2Proof.Machine.execVbcast d a s
  | .vlea d a b => Sys2Proof.Machine.execVlea d a b s
  | .vshuf d a b => Sys2Proof.Machine.execVshuf d a b s
  | .vxfer d a b => Sys2Proof.Machine.execVxfer d a b s
  | .vcmp d a b => Sys2Proof.Machine.execVcmp d a b s
  | .vidr d k => Sys2Proof.Machine.execVidr d k s
  | .fadd d a b => Sys2Proof.Machine.execFadd d a b s
  | .fsub d a b => Sys2Proof.Machine.execFsub d a b s
  | .fmul d a b => Sys2Proof.Machine.execFmul d a b s
  | .ffma d a b => Sys2Proof.Machine.execFfma d a b s
  | .fmin d a b => Sys2Proof.Machine.execFmin d a b s
  | .fmax d a b => Sys2Proof.Machine.execFmax d a b s
  | .fabs d a => Sys2Proof.Machine.execFabs d a s
  | .fneg d a => Sys2Proof.Machine.execFneg d a s
  | .frcp d a => Sys2Proof.Machine.execFrcp d a s
  | .frsq d a => Sys2Proof.Machine.execFrsq d a s
  | .fsqrt d a => Sys2Proof.Machine.execFsqrt d a s
  | .fdiv d a b => Sys2Proof.Machine.execFdiv d a b s
  | .fexp2 d a => Sys2Proof.Machine.execFexp2 d a s
  | .flog2 d a => Sys2Proof.Machine.execFlog2 d a s
  | .fcmp d a b => Sys2Proof.Machine.execFcmp d a b s
  | .fclass d a => Sys2Proof.Machine.execFclass d a s
  | .cvt d a => Sys2Proof.Machine.execCvt d a s
  | .cvtsc d a b => Sys2Proof.Machine.execCvtsc d a b s
  | .cvtus d a b => Sys2Proof.Machine.execCvtus d a b s
  | .vamax d a => Sys2Proof.Machine.execVamax d a s
  | .scexp d a => Sys2Proof.Machine.execScexp d a s
  | .scpack d a b => Sys2Proof.Machine.execScpack d a b s
  | .scunpk d a b => Sys2Proof.Machine.execScunpk d a b s
  | .bppack d a => Sys2Proof.Machine.execBppack d a s
  | .bpunpk d a => Sys2Proof.Machine.execBpunpk d a s
  | .vmodadd d a b => Sys2Proof.Machine.execVmodadd d a b s
  | .vmodsub d a b => Sys2Proof.Machine.execVmodsub d a b s
  | .vmodmul d a b => Sys2Proof.Machine.execVmodmul d a b s
  | .vbfly d a b => Sys2Proof.Machine.execVbfly d a b s
  | .vibfly d a b => Sys2Proof.Machine.execVibfly d a b s
  | .ld8 d m x => Sys2Proof.Machine.execLd8 d m x s
  | .ld16 d m x => Sys2Proof.Machine.execLd16 d m x s
  | .ld32 d m x => Sys2Proof.Machine.execLd32 d m x s
  | .ld64 d m x => Sys2Proof.Machine.execLd64 d m x s
  | .st8 a m x => Sys2Proof.Machine.execSt8 a m x s
  | .st16 a m x => Sys2Proof.Machine.execSt16 a m x s
  | .st32 a m x => Sys2Proof.Machine.execSt32 a m x s
  | .st64 a m x => Sys2Proof.Machine.execSt64 a m x s
  | .lds d m x => Sys2Proof.Machine.execLds d m x s
  | .sts a m x => Sys2Proof.Machine.execSts a m x s
  | .ldw d a b => Sys2Proof.Machine.execLdw d a b s
  | .stw c a b => Sys2Proof.Machine.execStw c a b s
  | .ldbp d m x => Sys2Proof.Machine.execLdbp d m x s
  | .gld d m k => Sys2Proof.Machine.execGld d m k s
  | .lda32 d m k => Sys2Proof.Machine.execLda32 d m k s
  | .lda64 d m k => Sys2Proof.Machine.execLda64 d m k s
  | .stl32 a m k => Sys2Proof.Machine.execStl32 a m k s
  | .stl64 a m k => Sys2Proof.Machine.execStl64 a m k s
  | .pref m x => Sys2Proof.Machine.execPref m x s
  | .evict m x => Sys2Proof.Machine.execEvict m x s
  | .fence k => Sys2Proof.Machine.execFence k s
  | .fencee k => Sys2Proof.Machine.execFencee k s
  | .aadd d m c => Sys2Proof.Machine.execAadd d m c s
  | .amin d m c => Sys2Proof.Machine.execAmin d m c s
  | .amax d m c => Sys2Proof.Machine.execAmax d m c s
  | .aand d m c => Sys2Proof.Machine.execAand d m c s
  | .aor d m c => Sys2Proof.Machine.execAor d m c s
  | .axor d m c => Sys2Proof.Machine.execAxor d m c s
  | .axchg d m c => Sys2Proof.Machine.execAxchg d m c s
  | .acas d m c => Sys2Proof.Machine.execAcas d m c s
  | .afadd d m c => Sys2Proof.Machine.execAfadd d m c s
  | .binit a b => Sys2Proof.Machine.execBinit a b s
  | .barv a => Sys2Proof.Machine.execBarv a s
  | .barx d a => Sys2Proof.Machine.execBarx d a s
  | .bwait d a => Sys2Proof.Machine.execBwait d a s
  | .btry d a => Sys2Proof.Machine.execBtry d a s
  | .binv a => Sys2Proof.Machine.execBinv a s
  | .bexp a b => Sys2Proof.Machine.execBexp a b s
  | .gbwait d => Sys2Proof.Machine.execGbwait d s
  | .gbtry d => Sys2Proof.Machine.execGbtry d s
  | .mon a => Sys2Proof.Machine.execMon a s
  | .mtry d => Sys2Proof.Machine.execMtry d s
  | .swait a b => Sys2Proof.Machine.execSwait a b s
  | .stry d a b => Sys2Proof.Machine.execStry d a b s
  | .cqry d a => Sys2Proof.Machine.execCqry d a s
  | .cabort a => Sys2Proof.Machine.execCabort a s
  | .csync a => Sys2Proof.Machine.execCsync a s
  | .tcfg d a => Sys2Proof.Machine.execTcfg d a s
  | .trd d a => Sys2Proof.Machine.execTrd d a s
  | .tzero d => Sys2Proof.Machine.execTzero d s
  | .tld d m x => Sys2Proof.Machine.execTld d m x s
  | .tst a m x => Sys2Proof.Machine.execTst a m x s
  | .tmov d a => Sys2Proof.Machine.execTmov d a s
  | .gang a => Sys2Proof.Machine.execGang a s
  | .mma d a b => Sys2Proof.Machine.execMma d a b s
  | .mmam d a b => Sys2Proof.Machine.execMmam d a b s
  | .mmab d a b => Sys2Proof.Machine.execMmab d a b s
  | .acfg d a b => Sys2Proof.Machine.execAcfg d a b s
  | .astat d a => Sys2Proof.Machine.execAstat d a s
  | .aclr d => Sys2Proof.Machine.execAclr d s
  | .adrain a m x => Sys2Proof.Machine.execAdrain a m x s
  | .adrainp a m => Sys2Proof.Machine.execAdrainp a m s
  | .aswap d a => Sys2Proof.Machine.execAswap d a s
  | .amov d a => Sys2Proof.Machine.execAmov d a s
  | .aload d m x => Sys2Proof.Machine.execAload d m x s
  | .trap k => Sys2Proof.Machine.execTrap k s
  | .sysq d k => Sys2Proof.Machine.execSysq d k s
  | .csrr d k => Sys2Proof.Machine.execCsrr d k s
  | .csrw a k => Sys2Proof.Machine.execCsrw a k s
  | .tlbi a => Sys2Proof.Machine.execTlbi a s
  | .fqpop d => Sys2Proof.Machine.execFqpop d s
  | .fqrep a => Sys2Proof.Machine.execFqrep a s
  | .fqkill a => Sys2Proof.Machine.execFqkill a s
  | .perf d k => Sys2Proof.Machine.execPerf d k s
  | .launch a => Sys2Proof.Machine.execLaunch a s
  | .sadd d a b => Sys2Proof.Machine.execSadd d a b s
  | .ssub d a b => Sys2Proof.Machine.execSsub d a b s
  | .smul d a b => Sys2Proof.Machine.execSmul d a b s
  | .sand d a b => Sys2Proof.Machine.execSand d a b s
  | .sor d a b => Sys2Proof.Machine.execSor d a b s
  | .sxor d a b => Sys2Proof.Machine.execSxor d a b s
  | .sshl d a b => Sys2Proof.Machine.execSshl d a b s
  | .sshr d a b => Sys2Proof.Machine.execSshr d a b s
  | .smov d a => Sys2Proof.Machine.execSmov d a s
  | .smovl d lit => Sys2Proof.Machine.execSmovl d lit s
  | .scmp d a b => Sys2Proof.Machine.execScmp d a b s
  | .sidr d k => Sys2Proof.Machine.execSidr d k s
  | .pand d a b => Sys2Proof.Machine.execPand d a b s
  | .por d a b => Sys2Proof.Machine.execPor d a b s
  | .pxor d a b => Sys2Proof.Machine.execPxor d a b s
  | .pcnt d a => Sys2Proof.Machine.execPcnt d a s
  | .meetFusion x y => Sys2Proof.Machine.execMeetFusion x y s
  | .spillRotation r => Sys2Proof.Machine.execSpillRotation r s
  | .starvationRank t => Sys2Proof.Machine.execStarvationRank t s
  | .chunkGrant r => Sys2Proof.Machine.execChunkGrant r s
  | .dispatch p pick => Sys2Proof.Machine.execDispatch p pick s
  | .deferredRelease p l k => Sys2Proof.Machine.execDeferredRelease p l k s
  | .yieldWake r => Sys2Proof.Machine.execYieldWake r s
  | .yieldcWake r => Sys2Proof.Machine.execYieldcWake r s
  | .stampWaitWake r => Sys2Proof.Machine.execStampWaitWake r s
  | .stryTimeout r => Sys2Proof.Machine.execStryTimeout r s
  | .btryTimeout r => Sys2Proof.Machine.execBtryTimeout r s
  | .gbtryTimeout r => Sys2Proof.Machine.execGbtryTimeout r s
  | .mtryTimeout r => Sys2Proof.Machine.execMtryTimeout r s
  | .monitorWake r => Sys2Proof.Machine.execMonitorWake r s
  | .remoteArrival r => Sys2Proof.Machine.execRemoteArrival r s
  | .earlyRoom r => Sys2Proof.Machine.execEarlyRoom r s
  | .gridRelease p l => Sys2Proof.Machine.execGridRelease p l s
  | .rendezvousTimeout p l g => Sys2Proof.Machine.execRendezvousTimeout p l g s
  | .queueSlotFree r => Sys2Proof.Machine.execQueueSlotFree r s
  | .copyLine c line => Sys2Proof.Machine.execCopyLine c line s
  | .peerLineReceive p b off bytes => Sys2Proof.Machine.execPeerLineReceive p b off bytes s
  | .peerLineAck c line ok => Sys2Proof.Machine.execPeerLineAck c line ok s
  | .drainLine p l k line => Sys2Proof.Machine.execDrainLine p l k line s
  | .peerDrainAddition p d => Sys2Proof.Machine.execPeerDrainAddition p d s
  | .drainAcknowledgement p k answer => Sys2Proof.Machine.execDrainAcknowledgement p k answer s
  | .heldEventPost p => Sys2Proof.Machine.execHeldEventPost p s
  | .launchCompletion p n => Sys2Proof.Machine.execLaunchCompletion p n s
  | .remap p l line => Sys2Proof.Machine.execRemap p l line s
  | .sliceMapUpdate p t => Sys2Proof.Machine.execSliceMapUpdate p t s
  | .destruction p => Sys2Proof.Machine.execDestruction p s
  | .grow p plan => Sys2Proof.Machine.execGrow p plan s
  | .shrink p plan => Sys2Proof.Machine.execShrink p plan s
  | .compaction p cols => Sys2Proof.Machine.execCompaction p cols s
  | .migration p old new => Sys2Proof.Machine.execMigration p old new s
  | .suspend p => Sys2Proof.Machine.execSuspend p s
  | .resume p => Sys2Proof.Machine.execResume p s
  | .erasingReshape p => Sys2Proof.Machine.execErasingReshape p s
  | .coreRetirement t c readable => Sys2Proof.Machine.execCoreRetirement t c readable s
  | .warmSubstitutionDone p l => Sys2Proof.Machine.execWarmSubstitutionDone p l s
  | .coreReturn t c => Sys2Proof.Machine.execCoreReturn t c s
  | .tileDegraded t readable => Sys2Proof.Machine.execTileDegraded t readable s
  | .sramRowRepair t c a => Sys2Proof.Machine.execSramRowRepair t c a s
  | .sliceBankRetirement t slice bank => Sys2Proof.Machine.execSliceBankRetirement t slice bank s
  | .laneRepair t e m => Sys2Proof.Machine.execLaneRepair t e m s
  | .laneRepairDone t e m => Sys2Proof.Machine.execLaneRepairDone t e m s
  | .moduleDegrade t e m cond => Sys2Proof.Machine.execModuleDegrade t e m cond s
  | .peerBinding p b far => Sys2Proof.Machine.execPeerBinding p b far s
  | .bindingEnd p b => Sys2Proof.Machine.execBindingEnd p b s
  | .generate k use p => Sys2Proof.Machine.execGenerate k use p s
  | .importKey k use p key => Sys2Proof.Machine.execImportKey k use p key s
  | .bindKey k => Sys2Proof.Machine.execBindKey k s
  | .discard k => Sys2Proof.Machine.execDiscard k s
  | .rotate k r => Sys2Proof.Machine.execRotate k r s
  | .destroy k => Sys2Proof.Machine.execDestroy k s
  | .retiringEnd k => Sys2Proof.Machine.execRetiringEnd k s
  | .revoke k => Sys2Proof.Machine.execRevoke k s
  | .rekey x => Sys2Proof.Machine.execRekey x s
  | .tagFailure x => Sys2Proof.Machine.execTagFailure x s
  | .getVersion p => Sys2Proof.Machine.execGetVersion p s
  | .getCapabilities p => Sys2Proof.Machine.execGetCapabilities p s
  | .negotiateAlgorithms p algs => Sys2Proof.Machine.execNegotiateAlgorithms p algs s
  | .getDigests p => Sys2Proof.Machine.execGetDigests p s
  | .getCertificate p => Sys2Proof.Machine.execGetCertificate p s
  | .challenge p nonce => Sys2Proof.Machine.execChallenge p nonce s
  | .getMeasurements p index nonce => Sys2Proof.Machine.execGetMeasurements p index nonce s
  | .keyExchange p => Sys2Proof.Machine.execKeyExchange p s
  | .finish p session => Sys2Proof.Machine.execFinish p session s
  | .ideKeyManagement p session => Sys2Proof.Machine.execIdeKeyManagement p session s
  | .lockInterface p session => Sys2Proof.Machine.execLockInterface p session s
  | .startInterface p session => Sys2Proof.Machine.execStartInterface p session s
  | .stopInterface p session => Sys2Proof.Machine.execStopInterface p session s
  | .hostBarRead p bar off n => Sys2Proof.Machine.execHostBarRead p bar off n s
  | .hostBarWrite p bar off bytes => Sys2Proof.Machine.execHostBarWrite p bar off bytes s
  | .illegalOpcode w => Sys2Proof.Machine.execIllegalOpcode w s
  | .nop => Sys2Proof.Machine.execNop s
  | .ret => Sys2Proof.Machine.execRet s
  | .yield => Sys2Proof.Machine.execYield s
  | .gbar => Sys2Proof.Machine.execGbar s
  | .mwait => Sys2Proof.Machine.execMwait s
  | .tlbia => Sys2Proof.Machine.execTlbia s
  | .brkpt => Sys2Proof.Machine.execBrkpt s
  | .routerDrop => Sys2Proof.Machine.execRouterDrop s
  | .partitionCreation => Sys2Proof.Machine.execPartitionCreation s
  | .powerOn => Sys2Proof.Machine.execPowerOn s
  | .powerSample => Sys2Proof.Machine.execPowerSample s
  | .thermalReport => Sys2Proof.Machine.execThermalReport s
  | .coolantFlowLoss => Sys2Proof.Machine.execCoolantFlowLoss s
  | .alarmLevel1 => Sys2Proof.Machine.execAlarmLevel1 s
  | .alarmClear => Sys2Proof.Machine.execAlarmClear s
  | .alarmLevel2 => Sys2Proof.Machine.execAlarmLevel2 s
  | .continuousTestFailure => Sys2Proof.Machine.execContinuousTestFailure s
  | .mintRetest => Sys2Proof.Machine.execMintRetest s
  | .zeroiseReset => Sys2Proof.Machine.execZeroiseReset s
  | .scrub => Sys2Proof.Machine.execScrub s
  | .scrubReceipt => Sys2Proof.Machine.execScrubReceipt s

end Sys2Proof.Machine
end

