-- ==== Sys2Proof/Machine/Turns.lean ====
section
/-! DEFINITION. Who acts next: the splits that the arbiters offer (R88 to R92), and the events that the module brings about
by itself. Which of them comes next is a free choice, as is how many cycles pass; but nothing that could come next is
passed over for ever. -/

namespace Sys2Proof.Machine

/-! ## The arbiter of a core -/

/-- A team's place in the order of R89 and R90, the highest first: a team with the starvation rank by the cycle at which
it gained it, then launch priority, then age (R80, R82). -/
def Team.place (t : Team) : List Nat :=
  let top := match t.rank with
    | some c => [0, c]
    | none => [1, 0]
  match t.kind with
  | .service => top ++ [0, 0, 0, 0]
  | .root => top ++ [1, 1, 0, 0]
  | .launched => top ++ [4 - t.hdr.prio, 2, t.age, t.ordinal]

/-- How far behind the team's pointer for a unit an entry stands (R89). -/
def Team.turnOf (t : Team) (n e : Nat) : Nat := (e + 2 * Config.entryCount - 1 - t.given.getD n 0) % Config.entryCount

/-- Quad q has passed over the split so often that of its team only it and its like are offered there (R91): three times as
often as the team has resident splits, which leaves one more round of them within the bound. -/
def Team.due (t : Team) (q : Nat) (y : Split) : Bool :=
  y.onQuad q && tableGet 0 t.passed (64 * q + y.entry) ≥ 3 * t.splits.length

/-- Lexicographic order. -/
def lexBefore : List Nat → List Nat → Bool
  | [], _ => true
  | _ :: _, [] => false
  | a :: as, b :: bs => a < b || (a = b && lexBefore as bs)

/-- The least of a list by its key. -/
def firstBy {α : Type} (f : α → List Nat) : List α → Option α
  | [] => none
  | x :: rest => match firstBy f rest with
    | none => some x
    | some y => if lexBefore (f x) (f y) then some x else some y

def splitKey (r : SplitRef) : Nat := ((r.part * 8192 + r.core) * 16 + r.slot) * 64 + r.entry

/-- How many steps a turn has been passed over. -/
def State.waits (s : State) (t : Turn) : Nat :=
  match s.waited.find? fun w => w.1 = t with
  | none => 0
  | some w => w.2

/-- A split that a unit could be given to: what its next instruction issues on; none where its fetch traps, which takes no
unit (log entry 82). -/
structure Bid where
  team : Team
  split : Split
  unit : Option IssueUnit
  deriving DecidableEq, Repr

/-- The splits of a core that are ready with the operands of their next instruction collected (R89): that takes a number
of steps that is open, and finite (R92). -/
def State.bids (s : State) (p l : Nat) (c : Core) : List Bid :=
  c.teams.flatMap fun t => t.splits.filterMap fun y =>
    let r : SplitRef := ⟨p, l, t.slot, y.entry⟩
    if Config.collected s.tick (splitKey r) || s.waits (.issue r) ≥ Config.patience || y.sent ≠ [] ||
        (List.range 4).any (fun q => t.due q y) then
      match s.fetch r with
      | .idle => none
      | .trap _ _ => some ⟨t, y, none⟩
      | .run _ i => some ⟨t, y, some (unitOf i)⟩
    else none

/-- The split that a core's arbiter gives a unit to: quad 0 to 3, the scalar unit (4), the matrix engine (5) (R89, R92).
A quad on which splits of a team are due (R91) is given to no other of its splits. -/
def arbiter (bids : List Bid) (n : Nat) : Option Bid :=
  let able := bids.filter fun b => match b.unit with
    | none => false
    | some u => b.split.takes u n && (4 ≤ n || b.team.due n b.split ||
        bids.all fun o => !(o.team.slot = b.team.slot && o.unit = some .lanes && o.split.onQuad n && o.team.due n o.split))
  firstBy (fun b : Bid => b.team.place ++ [b.team.turnOf n b.split.entry]) able

/-- What unit n gives a split: one word of its instruction, with which the instruction is issued if no other is pending. -/
def Bid.turn (b : Bid) (p l n : Nat) : Turn :=
  let r : SplitRef := ⟨p, l, b.team.slot, b.split.entry⟩
  if n < 4 && 1 < b.split.pendingWords.length then .word r n else .issue r

/-- The issues that a core offers: one for each unit, and the splits whose fetch traps. -/
def State.coreIssues (s : State) (p l : Nat) (c : Core) : List Turn :=
  let bids := s.bids p l c
  ((List.range 6).filterMap fun n => (arbiter bids n).map fun b => b.turn p l n) ++
  (bids.filter fun b => b.unit.isNone).map fun b => Turn.issue ⟨p, l, b.team.slot, b.split.entry⟩

/-- The issues that a partition's arbiters offer. -/
def State.issues (s : State) (x : Partition) : List Turn := x.cores.zipIdx.flatMap fun (c, l) => s.coreIssues x.pindex l c

/-! ## Events -/

/-- What may become of a split by itself; an event whose condition does not hold changes nothing. -/
def splitEvents (r : SplitRef) (y : Split) : List Instr :=
  match y.wait with
  | .none => if y.state = .ready then [.spillRotation r] else []
  | .chunk _ => [.chunkGrant r]
  | .aperture _ _ => [.queueSlotFree r]
  | .stamp _ _ _ _ _ => [.stampWaitWake r, .stryTimeout r]
  | .yieldc _ _ _ _ => [.yieldcWake r]
  | .monitor _ _ => [.monitorWake r, .mtryTimeout r]
  | .yield _ _ => [.yieldWake r]
  | .remote _ _ _ => [.remoteArrival r]
  | .early _ _ _ => [.earlyRoom r]
  | .bwait _ _ _ => [.btryTimeout r]
  | .grid _ _ => [.gbtryTimeout r]
  | .barx _ _ _ => []
  | .cancel _ => []
  | .launch _ => []
  | .latch => []
  | .behind => []

/-- Two splits of a team may meet. -/
def teamEvents (t : TeamRef) (u : Team) : List Instr :=
  .starvationRank t ::
  (u.splits.flatMap fun a => (u.splits.filter fun b => a.entry < b.entry && meets a b).map fun b =>
    .meetFusion (entryOf t a.entry) (entryOf t b.entry)) ++
  u.splits.flatMap fun y => splitEvents (entryOf t y.entry) y

/-- The lines that a copy has to write, and its stamps. -/
def copyEvents (r : CopyRef) (y : Copy) : List Instr := (if y.left = [] then [0] else y.left).map fun line => .copyLine r line

def coreEvents (p l : Nat) (c : Core) : List Instr :=
  (c.teams.flatMap fun t => teamEvents ⟨p, l, t.slot⟩ t) ++
  (c.chans.flatMap fun (n, ch) => ch.queue.zipIdx.flatMap fun (y, pos) => copyEvents ⟨p, l, n, pos⟩ y) ++
  (c.drains.zipIdx.flatMap fun (d, n) => d.left.map fun e => .drainLine p l n e.1) ++
  ((List.range c.releases.length).map fun n => .deferredRelease p l n) ++
  (c.gangs.filterMap fun g => g.latch.map fun _ => .rendezvousTimeout p l g.id) ++
  [.gridRelease p l] ++ (if c.warm.isSome then [.warmSubstitutionDone p l] else [])

/-- n of the numbers below a limit that are not held, in an order that no rule gives (R78). -/
def freeOf (tick limit : Nat) (held : List Nat) (n : Nat) : List Nat :=
  (sortBy (fun i => Config.rank tick 3 i) ((List.range limit).filter fun i => !held.contains i)).take n

/-- Cut a list into g cutInto of n. -/
def cutInto {α : Type} (n : Nat) : Nat → List α → List (List α)
  | 0, _ => []
  | g + 1, l => l.take n :: cutInto n g (l.drop n)

/-- What the dispatcher takes on a core for the next team or gang of a launch. -/
def Core.pick (c : Core) (tick : Nat) (h : Header) : Pick :=
  { slots := freeOf tick Config.slotCount c.heldSlots h.gang, entries := freeOf tick Config.entryCount c.heldEntries h.gang
    frames := cutInto (framesFor h) h.gang (freeOf tick Config.frameCount c.heldFrames (h.gang * framesFor h))
    tiles := freeOf tick Config.tileFileCount c.heldTiles h.tiles, accs := freeOf tick Config.accCount c.heldAccs h.accs
    bars := freeOf tick Config.barrierCount c.heldBars h.barriers }

/-- The next placement (R76). -/
def Partition.dispatches (x : Partition) (tick : Nat) : List Instr :=
  match firstLaunch (x.launches.filter x.placeable) with
  | none => []
  | some h => match (x.findCore h.hdr).bind x.core? with
    | none => []
    | some c => [.dispatch x.pindex (c.pick tick h.hdr)]

def partitionEvents (tick : Nat) (x : Partition) : List Instr :=
  (x.cores.zipIdx.flatMap fun (c, l) => coreEvents x.pindex l c) ++ x.dispatches tick ++
  ((List.range x.flights.length).map fun n => .peerDrainAddition x.pindex (.inside n)) ++
  [.heldEventPost x.pindex] ++ (x.launches.map fun h => .launchCompletion x.pindex h.n)

/-- What may happen next without anything from outside. -/
def State.candidates (s : State) : List Turn :=
  (s.parts.flatMap fun x => s.issues x ++ (partitionEvents s.tick x).map Turn.event) ++
  ((List.range s.late.length).map Turn.perform) ++ s.slices.map fun c => Turn.dropSlice c.1

/-- The turn that comes next: the first one given; one that has been passed over as often as Config's bound allows; or a
free choice among a cycle's passing and what may happen (R5, R92, R245). -/
def State.nextTurn (s : State) : Turn :=
  match s.turns with
  | t :: _ => t
  | [] =>
    let all := Turn.clock :: s.candidates
    let most := greatest (all.map s.waits)
    match if Config.patience ≤ most then all.find? fun t => s.waits t = most else none with
    | some t => t
    | none => (all[Config.freeTurn s.tick % all.length]?).getD .clock

/-- The ready splits of the module, each as the turn that issues its next instruction. -/
def State.readyTurns (s : State) : List Turn :=
  s.parts.flatMap fun x => x.cores.zipIdx.flatMap fun (c, l) => c.teams.flatMap fun t =>
    (t.splits.filter fun y => y.state = .ready).map fun y => Turn.issue ⟨x.pindex, l, t.slot, y.entry⟩

/-- How often each turn has been passed over, after this one: a given turn passes over none. -/
def State.noteWaits (s : State) (t : Turn) : List (Turn × Nat) :=
  if s.turns ≠ [] then s.waited
  else (((Turn.clock :: s.candidates ++ s.readyTurns).eraseDups).filter (· ≠ t)).map fun u => (u, s.waits u + 1)

/-! ## What the other turns do -/

/-- A counter after n units, which stop at the limit at which the key must be replaced (R429). -/
def carried (counter n : Nat) : Nat := max counter (min Config.rekeyLimit (counter + n))

/-- What a link between dies, or each source of a detour, has carried in a cycle: a free number. -/
def State.countUnits (s : State) : List Seal :=
  s.seals.zipIdx.map fun (q, i) =>
    if !q.up then q
    else match q.stream with
      | .ucie _ _ | .io _ _ => { q with counter := carried q.counter (Config.units s.tick i) }
      | .detour p =>
        let tiles := match s.part? p with
          | none => []
          | some x => x.tiles
        let sources := tiles.foldl (fun t m =>
          tableSet 0 t m (carried (tableGet 0 t m) (Config.units s.tick (i + 4096 * (m + 1))))) q.sources
        { q with sources := sources, counter := max q.counter (greatest (sources.map fun e => e.2)) }
      | _ => q

/-- A cycle passes (R8). -/
def State.passCycle (s : State) : State :=
  { s with
    cycle := s.cycle + 1
    seals := s.countUnits
    parts := s.parts.map fun x =>
      let x := if x.hold = .suspended then x else x.restartSystem s.cycle
      { x with cores := x.cores.map fun c => { c with teams := c.teams.map fun t => t.passCycle (s.cycle + 1) } } }

/-- A byte of second-tier memory is changed by a party with physical access: nothing detects it (R431). -/
def State.tamper (s : State) (loc : Nat) (b : Byte) : State :=
  if loc < 2 ^ 48 then { s with mem := tableSet 0 s.mem loc b } else s

/-- A byte becomes uncorrectable (R213); what waits to touch it has been performed before. -/
def State.corrupt (s : State) (a : Nat) : State :=
  let s := s.performWhere fun w => w.meets [a]
  { s with bad := if s.bad.contains a then s.bad else a :: s.bad }

/-- The n-th waiting access is performed, or, of a load, one part, unless an engine holds its line, its core does not answer
or a link on its way may not send; the load ends with its last part. -/
def State.performNth (s : State) (n : Nat) : State :=
  match s.late[n]? with
  | none => s
  | some w => match s.part? w.writer.part with
    | none => { s with late := s.late.eraseIdx n }
    | some x =>
      if s.blocked x ((x.core? w.writer.core).elim 0 Core.tile) w.locs then s
      else match w.load with
        | none => { s with late := s.late.eraseIdx n }.performLate w
        | some (d, parts) =>
          let ps := s.readOne x.tag parts
          if ps.all fun p => p.got.isSome then { s with late := s.late.eraseIdx n }.performLate { w with load := some (d, ps) }
          else { s with late := s.late.set n { w with load := some (d, ps) } }

end Sys2Proof.Machine
end

