-- ==== Sys2Proof/Machine/Step.lean ====
section
/-! DEFINITION. One step of the module: the turn that comes next is carried out. A turn that lets a split issue fetches
the word at its pc, decodes it and executes the instruction. -/

namespace Sys2Proof.Machine

/-- What has still to be loaded into what an instruction touches is loaded before: registers of its team, and before an issue on
the matrix engine tiles and accumulators of its core (log entry 10). -/
def State.settleLoads (s : State) (r : SplitRef) (i : Instr) : State :=
  let s := s.performNamed (teamOf r) (touches i)
  if unitOf i = .matrix then s.performMatrix r.part r.core else s

/-- Issue the next instruction of a split (R35, R66), after the loads whose destinations it touches. A split that is not
ready issues nothing. -/
def stepIssue (r : SplitRef) (s : State) : Host.Outcome State Fault Refusal :=
  let s := { s with cur := r }
  match s.fetch r with
  | .idle => .next s
  | .trap s t => .next ((s.raise r t).reap (teamOf r))
  | .run s i => exec i ((s.settleLoads r i).noteIssue r (unitOf i))

/-- A quad is given to a split for one word of an instruction that has others pending; with the last the instruction is issued
(R89). Log entry 76. -/
def stepWord (r : SplitRef) (q : Nat) (s : State) : State :=
  match s.fetch r with
  | .run s i => match s.split? r with
    | none => s
    | some x =>
      if unitOf i = .lanes ∧ x.onQuad q ∧ 1 < x.pendingWords.length then
        s.modTeam r.part r.core r.slot fun t => t.noteWord x q s.cycle
      else s
  | _ => s

/-- Carry out a turn. -/
def stepTurn (t : Turn) (s : State) : Host.Outcome State Fault Refusal :=
  match t with
  | .issue r => stepIssue r s
  | .word r q => .next (stepWord r q s)
  | .event i => if i.isEvent then exec i s else .next s
  | .clock => .next s.passCycle
  | .sense x => .next { s with inputs := x }
  | .corrupt a => .next (s.corrupt a)
  | .settle a => .next { s with bad := s.bad.filter (· ≠ a) }
  | .tamper a b => .next (s.tamper a b)
  | .perform n => .next (s.performNth n)
  | .dropSlice line => .next { s with slices := s.slices.filter fun c => c.1 ≠ line }

/-- One step. -/
def step (s : State) : Host.Outcome State Fault Refusal :=
  let t := s.nextTurn
  stepTurn t { s with turns := s.turns.tail, tick := s.tick + 1, waited := s.noteWaits t }

/-- A state in which the next step fetches and runs the instruction with these bits: see `State.loadWord`. -/
def State.withFetchWord (s : State) (nbits w : Nat) : State := s.loadWord (tableBytes nbits w)

end Sys2Proof.Machine
end

