-- ==== Sys2Proof/Safety.lean ====
section
/-! DEFINITION. What claims about the machine speak of: the canonical form of its tables, what an instruction leaves as
it was, and what its completion leaves in its team. -/

namespace Sys2Proof.Machine

/-! ## The canonical form -/

/-- A memory lists its bytes by rising address, and lists none that holds what an unlisted byte reads as. -/
def Memory.wf (m : List Host.Cell) : Bool := tableWf 0 m

/-- The same for generation tags, of which an unlisted line carries the quarantine owner's (R207). -/
def Tags.wf (t : List (Nat × Nat)) : Bool := tableWf Config.quarantineTag t

/-- The same for the Vault's slots (R432). -/
def Vault.wf (v : List (Nat × VaultSlot)) : Bool := tableWf VaultSlot.reset v

/-- Equal memories, tags and Vaults are equal data. -/
def State.canonical (s : State) : Prop := Memory.wf s.mem ∧ Tags.wf s.tags ∧ Vault.wf s.vault

/-! ## What is as it was -/

/-- Every byte reads as before to a partition with this tag, but for those picked. -/
def SameBytes (tag : Nat) (but : Nat → Prop) (s t : State) : Prop := ∀ loc, ¬ but loc → t.byteAt tag loc = s.byteAt tag loc

/-- A team with the fields that the completion of an instruction may change taken from another: its splits, its chunks
and scalars, its count of sweeps and its starvation rank. -/
def Team.bare (v u : Team) : Team :=
  { v with
    splits := u.splits, chunks := u.chunks, entryLeft := u.entryLeft, sregs := u.sregs, sweeps := u.sweeps
    rank := u.rank }

/-- A split that has completed an instruction (R35, R111, R379). -/
def Split.done (nonIdem : Bool) (x : Split) : Split :=
  { x with issued := x.issued + 1, nonIdem := nonIdem, drawn := [], state := .ready, wait := .none, begun := false, sent := [] }

/-- Nothing of the team has changed but the issuing split, by `g` and by its completion, the registers, the count of
sweeps and the rank: the other splits, the records, the monitor, the frames, the header and so on are as they were. Chunks
that the instruction has written, by their keys, are no longer given back if another split's instruction traps (R39). -/
def Kept (k : Ctx) (g : Split → Split) (nonIdem : Bool) (keys : List Nat) (u v : Team) : Prop :=
  v.bare u = u ∧ v.splits = (u.claim keys).splits.map fun x => if x.entry = k.r.entry then (g x).done nonIdem else x

def SameScalars (u v : Team) : Prop := ∀ r, v.scalar r = u.scalar r

/-- Lane registers and predicates read as before, but for some names. -/
def SameLanes (but : List Nat) (u v : Team) : Prop :=
  ∀ name lane, lane < 1024 → name ∉ but → v.container name lane = u.container name lane

/-! ## How a word's instruction ends -/

/-- The module once the splits that wait in `yield` know of a sweep (R129). -/
def State.swept (s : State) (r : SplitRef) (m : Mask) (sweep : Bool) : State :=
  if sweep then s.modCore r.part r.core fun c => c.noteSweep r.slot m else s

/-- The instruction of the context's split completes, and the split goes on at an address: of the whole module only its
team has changed, from `u` to `v` with `P u v`, until the split arrives at that address. -/
def Continues (i : Instr) (s : State) (k : Ctx) (sweep : Bool) (pc : W64) (P : (u v : Team) → Prop) : Prop :=
  ∃ f : Team → Team,
    exec i s = .next (((s.modTeam k.r.part k.r.core k.r.slot f).swept k.r k.split.mask sweep).moveTo k.r pc) ∧ P k.team (f k.team)

/-- The instruction of the context's split takes an exception (R39, R369). -/
def TakesTrap (i : Instr) (s : State) (k : Ctx) (t : Trap) : Prop :=
  exec i s = .next ((s.raise k.r t).reap (teamOf k.r))

/-- The reserve rule lets a write have its chunks at once (R83, R84). -/
def Ctx.takes (k : Ctx) (ws : List Put) : Prop := (k.core.takeChunks k.team (chunksOf ws) []).2.2 = []

/-- The module once those chunks have been taken. -/
def State.taken (s : State) (k : Ctx) (ws : List Put) : State :=
  s.modTeam k.r.part k.r.core k.r.slot fun u => u.takeAll ((k.core.takeChunks k.team (chunksOf ws) []).2.1.map (·.1))

/-- The module once they have been taken by an instruction that may still wait, and trap: they are given back then (R39). -/
def State.awaits (s : State) (k : Ctx) (ws : List Put) : State :=
  (s.taken k ws).modSplit k.r fun x => { x with drawn := x.drawn ++ (k.core.takeChunks k.team (chunksOf ws) []).2.1 }

/-- The value that a list of writes gives a container, where it writes it. -/
def writtenTo (ws : List Put) (name lane : Nat) : Option W32 :=
  (ws.find? fun w => w.name = name ∧ w.lane = lane).map fun w => w.value

/-- The result of an instruction that writes containers: those of `ws` hold their values; every other one of a name that
is not marked as read last, and every scalar, reads as before. -/
def LaneResult (k : Ctx) (marks : List Nat) (ws : List Put) (u v : Team) : Prop :=
  Kept k id false (chunksOf ws) u v ∧ SameScalars u v ∧
  ∀ name lane, lane < 1024 → (∀ x, writtenTo ws name lane = some x → v.container name lane = x) ∧
    (writtenTo ws name lane = none → (name ∉ marks ∨ ∃ w ∈ ws, w.name = name) → v.container name lane = u.container name lane)

/-- The result of an instruction that writes a scalar: every other scalar, and every container of a name that is not
marked as read last, reads as before. -/
def ScalarResult (k : Ctx) (marks : List Nat) (d : SReg) (x : W64) (u v : Team) : Prop :=
  Kept k id false [] u v ∧ v.scalar d = x ∧ (∀ r, r ≠ d → v.scalar r = u.scalar r) ∧ SameLanes marks u v

/-! ## Other words -/

/-- A machine line reads as zeros under any tag but its own (R208), so nothing of it is visible to another generation. -/
def State.hidden (s : State) (tag line : Nat) : Prop := s.tagOf line ≠ tag

/-- The bytes of the entry of a leaf that a translation used. -/
def Partition.leafBytes (x : Partition) (qs : List (Nat × Xl)) (loc : Nat) : Prop :=
  ∃ q ∈ qs, ∃ i, i < 8 ∧ x.locOf (q.2.entryPpa + i) = some loc

end Sys2Proof.Machine
end

