-- ==== Sys2Proof/Certificates/Slice0/Obligations.lean ====
section
/-! DEFINITION. The statements for the provers, and the tables of results they speak of. -/

namespace Sys2Proof.Machine

/-! ## Scalar results (R132, R133, R155 to R161, R318, R348, R352, R365, R386, R387) -/

/-- An instruction that writes a scalar and reads no memory: whether it may execute, the last-read marks and literals
that it carries, its scalar and the value. -/
structure ScalarClaim where
  may : Prop := True
  marks : List Nat := []
  lits : Nat := 0
  dest : SReg
  value : W64

/-- A value modulo 2⁶⁴. -/
def mod64 (x : Int) : W64 := BitVec.ofInt 64 x

/-- The address of the fetch block that is `n` blocks from the word's own (R40). -/
def Ctx.block (k : Ctx) (n : Int) : W64 := mod64 ((k.split.pc.toNat / 64 + n) * 64)

def scalarClaim (i : Instr) (s : State) (k : Ctx) : Option ScalarClaim :=
  match i with
  | .sadd d a b => some { dest := d, value := mod64 ((k.s a).toNat + (k.s b).toNat) }
  | .ssub d a b => some { dest := d, value := mod64 ((k.s a).toNat - (k.s b).toNat) }
  | .smul d a b => some { dest := d, value := mod64 ((k.s a).toNat * (k.s b).toNat) }
  | .sand d a b => some { dest := d, value := k.s a &&& k.s b }
  | .sor d a b => some { dest := d, value := k.s a ||| k.s b }
  | .sxor d a b => some { dest := d, value := k.s a ^^^ k.s b }
  | .sshl d a b => some { dest := d, value := mod64 ((k.s a).toNat * 2 ^ ((k.s b).toNat % 64)) }
  | .sshr d a b => some
      { dest := d
        value := mod64 ((if (k.s b).getLsbD 6 then (k.s a).toInt else (k.s a).toNat) / (2 : Int) ^ ((k.s b).toNat % 64)) }
  | .smov d a => some { dest := d, value := k.s a }
  | .smovl d lit => some { dest := d, lits := 1, value := mod64 lit.toInt }
  | .sidr d c => some { may := c.toNat ≤ 17, dest := d, value := k.ident c.toNat }
  | .pcnt d a => some
      { marks := markP a, dest := d
        value := BitVec.ofNat 64 ((List.range k.team.hdr.team).filter fun l => k.split.mask.getLsbD l && k.p a l).length }
  | .mrd d => some { dest := d, value := BitVec.ofNat 64 k.split.mr.toNat }
  | .splitq d c => some { may := c.toNat ≤ 8, dest := d, value := BitVec.ofNat 64 (k.splitValue c.toNat) }
  | .sysq d c => some { may := c.toNat ≤ 8, dest := d, value := BitVec.ofNat 64 (k.shapeValue s.grade c.toNat) }
  | .perf d c => some { may := c.toNat ≤ 9, dest := d, value := BitVec.ofNat 64 (k.counter s.cycle c.toNat) }
  | .csrr d c => some
      { may := csrListed c ∧ (c.toNat < 0x10 ∨ k.team.kind = .service), dest := d, value := k.csrValue c.toNat }
  | .cqry d a => some
      { may := (k.s a).toNat < 160, dest := d
        value := (k.core.chan ((k.s a).toNat % 32)).query ((k.s a).toNat / 32) }
  | .astat d a => some
      { may := a.toNat < k.team.hdr.accs ∧ k.latched = false, dest := d
        value := BitVec.ofNat 64 ((k.acc a).status.toNat + 256 * (k.acc a).mode) }
  | .trd d a => some
      { may := a.toNat < k.team.hdr.tiles ∧ (k.tile a).busy = 0 ∧ k.latched = false, dest := d
        value := BitVec.ofNat 64 (2 ^ 48 * (k.tile a).tag + 2 ^ 16 * (k.tile a).rbytes + 2 ^ 8 * (k.tile a).rows) }
  | _ => none

/-! ## Integer results (R138 to R147) -/

/-- The mode's TYPE seen as a machine integer type: its width and whether it is signed (R59, R138). -/
def Ctx.width (k : Ctx) : Nat := typeWidth k.type
def Ctx.signed (k : Ctx) : Bool := typeSigned k.type

/-- An exact result as the pattern that SAT and TYPE make of it (R139, R141). -/
def Ctx.fit (k : Ctx) (t : Int) : Nat := narrow (modeSat k.split.mr) k.signed k.width t

/-- The destination, the sources, and the pattern of a result element from those of vd, va and vb (R140 to R147). -/
def elementClaim (i : Instr) (k : Ctx) : Option (VReg × VSrc × Option VSrc × ((d a b : Nat) → Nat)) :=
  let v (x : Nat) : Int := valueOf k.signed k.width x
  let w := k.width
  let wrap (t : Int) : Nat := patternOf w t
  match i with
  | .vadd d a b => some (d, a, some b, fun _ x y => k.fit (v x + v y))
  | .vsub d a b => some (d, a, some b, fun _ x y => k.fit (v x - v y))
  | .vmul d a b => some (d, a, some b, fun _ x y => k.fit (v x * v y))
  | .vmad d a b => some (d, a, some b, fun z x y => k.fit (v z + v x * v y))
  | .vmulh d a b => some (d, a, some b, fun _ x y => wrap (v x * v y / (2 ^ w : Nat)))
  | .vdiv d a b => some (d, a, some b, fun _ x y => if y = 0 then 2 ^ w - 1 else k.fit (Int.tdiv (v x) (v y)))
  | .vrem d a b => some (d, a, some b, fun _ x y => if y = 0 then x else wrap (Int.tmod (v x) (v y)))
  | .vmin d a b => some (d, a, some b, fun _ x y => if v x ≤ v y then x else y)
  | .vmax d a b => some (d, a, some b, fun _ x y => if v x ≤ v y then y else x)
  | .vabs d a => some (d, a, none, fun _ x _ => k.fit (v x).natAbs)
  | .vneg d a => some (d, a, none, fun _ x _ => k.fit (-(v x)))
  | .vshl d a b => some (d, a, some b, fun _ x n => k.fit (v x * (2 ^ min n w : Nat)))
  | .vshr d a b => some (d, a, some b, fun _ x n => wrap (v x / (2 ^ min n w : Nat)))
  | .vrot d a b => some (d, a, some b, fun _ x n => (x * 2 ^ (n % w) + x / 2 ^ (w - n % w)) % 2 ^ w)
  | .vpop d a => some (d, a, none, fun _ x _ => ((List.range w).filter fun j => x.testBit j).length)
  | .vclz d a => some (d, a, none, fun _ x _ => if x = 0 then w else w - 1 - Nat.log2 x)
  | _ => none

/-- The names that a register of the mode's TYPE covers (R53, R139). -/
def Ctx.covers (k : Ctx) (r : VReg) : List Nat := namesOf r (spanOf (typeWide k.type))

/-- Under a 64-bit TYPE every register is the first of a pair. -/
def Ctx.paired (k : Ctx) (rs : List VReg) : Prop := typeWide k.type → ∀ r ∈ rs, r.toNat % 2 = 0

/-- What an element operation leaves: each element of an acting lane of vd has its result, and nothing else that is not
marked as read last has changed. -/
def ElementResult (k : Ctx) (d : VReg) (a : VSrc) (b : Option VSrc) (f : (d a b : Nat) → Nat) (u v : Team) : Prop :=
  let wide := typeWide k.type
  let get (t : Team) (r : VReg) (l : Nat) : Nat := if wide then (t.pair r l).toNat else (t.lane r l).toNat
  let elem (t : Team) (r : VReg) (l e : Nat) : Nat := element k.width (get t r l) e
  let vb (l e : Nat) : Nat := match b with
    | some r => elem u r.reg l e
    | none => 0
  Kept k id false (chunksOf (putOperand wide d k.acting fun _ => 0)) u v ∧ SameScalars u v ∧
  (∀ l ∈ k.acting, ∀ e < elementCount k.type, elem v d l e = f (elem u d l e) (elem u a.reg l e) (vb l e)) ∧
  ∀ name lane, lane < 1024 → ¬ (name ∈ k.covers d ∧ lane ∈ k.acting) →
    (name ∈ k.covers d ∨ (a.last → name ∉ k.covers a.reg) ∧ ∀ r, b = some r → r.last → name ∉ k.covers r.reg) →
    v.container name lane = u.container name lane

/-! ## Lane results given as containers -/

/-- An instruction that writes containers of its acting lanes and reads no memory: whether it may execute, the marks
and literals it carries, and the containers. -/
structure LaneClaim where
  may : Prop := True
  marks : List Nat := []
  lits : Nat := 0
  sweep : Bool := true
  puts : List Put

/-- Logic, bit fields, moves, permutes and identifiers (R145, R148 to R153). -/
def moveClaim (i : Instr) (k : Ctx) : Option LaneClaim :=
  let one (d : VReg) (marks : List Nat) (f : Nat → W32) : LaneClaim := { marks := marks, puts := putLanes d k.acting f }
  match i with
  | .vand d a b => some (one d (markV a 1 ++ markV b 1) fun l => k.v a l &&& k.v b l)
  | .vor d a b => some (one d (markV a 1 ++ markV b 1) fun l => k.v a l ||| k.v b l)
  | .vxor d a b => some (one d (markV a 1 ++ markV b 1) fun l => k.v a l ^^^ k.v b l)
  | .vnot d a => some (one d (markV a 1) fun l => ~~~(k.v a l))
  | .vmov d a => some (one d (markV a 1) fun l => k.v a l)
  | .vmovl d lit => some { lits := 1, puts := putLanes d k.acting fun _ => lit }
  | .vsel d a b => some (one d (markV a 1 ++ markP b) fun l => if k.p b l then k.v a l else k.team.lane d l)
  | .vbfe d a b => some
      { one d (markV a 1 ++ markV b 1) fun l => extractField k.signed (k.v a l) (k.v b l) with may := typeInteger k.type }
  | .vbfi d a b => some (one d (markV a 1 ++ markV b 1) fun l => insertField (k.team.lane d l) (k.v a l) (k.v b l))
  | .vbcast d a => some
      { may := k.type ≤ 13 ∧ k.paired [d]
        puts := if typeWide k.type then putPairs d k.acting fun _ => k.s a
          else putLanes d k.acting fun _ => (k.s a).setWidth 32 }
  | .vlea d a b => some
      { may := k.type ≤ 13 ∧ d.toNat % 2 = 0 ∧ a.reg.toNat % 2 = 0, marks := markV a 2 ++ markV b 1
        puts := putPairs d k.acting fun l =>
          mod64 ((k.v2 a l).toNat + (if k.signed then (k.v b l).toInt else (k.v b l).toNat) * (leaScale k.type : Int)) }
  | .vshuf d a b => some (one d (markV a 1 ++ markV b 1) fun l =>
      let src := 32 * (l / 32) + (k.v b l).toNat % 32
      if src < k.team.hdr.team then k.v a src else 0)
  | .vxfer d a b => some (one d (markV a 1 ++ markV b 1) fun l =>
      let src := (k.v b l).toNat % 1024
      if src < k.team.hdr.team then k.v a src else 0)
  | .vidr d c => some
      { one d [] fun l => BitVec.ofNat 32 (match c.toNat with
          | 0 => l
          | 1 => l % 32
          | 2 => l / 32
          | 3 => workId k.team l
          | _ => workId k.team l / 2 ^ 32) with may := c.toNat ≤ 4 }
  | _ => none

/-- Compares and predicate logic (R152, R158, R160, R173): a predicate holds 0 or 1 (R51). -/
def predicateClaim (i : Instr) (k : Ctx) : Option LaneClaim :=
  match i with
  | .vcmp d a b => some
      { may := typeInteger k.type ∧ k.paired [a.reg, b.reg]
        marks := markV a (spanOf (typeWide k.type)) ++ markV b (spanOf (typeWide k.type))
        puts := putPreds d k.acting fun l => (List.range (elementCount k.type)).all fun e =>
          let x := element k.width (k.operand (typeWide k.type) a.reg l) e
          let y := element k.width (k.operand (typeWide k.type) b.reg l) e
          compareInt (modeCmp k.split.mr) (valueOf k.signed k.width x) (valueOf k.signed k.width y) x y }
  | .fcmp d a b => some
      { may := floatClass k.type, marks := markV a 1 ++ markV b 1
        puts := putPreds d k.acting fun l => (List.range (32 / k.width)).all fun e =>
          (fmtOf k.type).compare (modeCmp k.split.mr) (element k.width (k.v a l).toNat e) (element k.width (k.v b l).toNat e) }
  | .scmp d a b => some
      { may := typeInteger k.type, sweep := false
        puts := putPreds d k.lanes fun _ =>
          compareInt (modeCmp k.split.mr) (if k.signed then (k.s a).toInt else (k.s a).toNat)
            (if k.signed then (k.s b).toInt else (k.s b).toNat) (k.s a).toNat (k.s b).toNat }
  | .pand d a b => some { marks := markP a ++ markP b, puts := putPreds d k.acting fun l => k.p a l && k.p b l }
  | .por d a b => some { marks := markP a ++ markP b, puts := putPreds d k.acting fun l => k.p a l || k.p b l }
  | .pxor d a b => some { marks := markP a ++ markP b, puts := putPreds d k.acting fun l => k.p a l != k.p b l }
  | _ => none

/-! ## Floating point (R163 to R174) -/

/-- The destination, the sources, and the result of an element of a format under a rounding mode (R170 to R174). -/
def floatClaim (i : Instr) : Option (VReg × VSrc × Option VSrc × ((m : Fmt) → (rnd d a b : Nat) → Nat)) :=
  let once (f : Fmt → Nat → (d a b : Num) → Num) (m : Fmt) (rnd d a b : Nat) : Nat :=
    m.round rnd false (f m rnd (m.value d) (m.value a) (m.value b))
  match i with
  | .fadd d a b => some (d, a, some b, once fun _ rnd _ x y => Num.add rnd x y)
  | .fsub d a b => some (d, a, some b, once fun _ rnd _ x y => Num.add rnd x y.negate)
  | .fmul d a b => some (d, a, some b, once fun _ _ _ x y => Num.mul x y)
  | .ffma d a b => some (d, a, some b, once fun _ rnd z x y => Num.add rnd (Num.mul x y) z)
  | .fdiv d a b => some (d, a, some b, once fun m _ _ x y => Num.div m.guardBits x y)
  | .frcp d a => some (d, a, none, once fun m _ _ x _ => x.recip m.guardBits)
  | .frsq d a => some (d, a, none, once fun m _ _ x _ => x.rsqrt m.guardBits)
  | .fsqrt d a => some (d, a, none, once fun m _ _ x _ => x.sqrt m.guardBits)
  | .fexp2 d a => some (d, a, none, once fun _ _ _ x _ => x.exp2)
  | .flog2 d a => some (d, a, none, once fun _ _ _ x _ => x.log2)
  | .fmin d a b => some (d, a, some b, fun m _ _ x y => m.pick false x y)
  | .fmax d a b => some (d, a, some b, fun m _ _ x y => m.pick true x y)
  | .fabs d a => some (d, a, none, fun m _ _ x _ => if m.isNan x then m.nan else m.mag x)
  | .fneg d a => some (d, a, none, fun m _ _ x _ => if m.isNan x then m.nan else m.sign (!m.neg x) + m.mag x)
  | .fclass d a => some (d, a, none, fun m _ _ x _ => m.classOf x)
  | _ => none

/-! ## Conversions, block scales and bit planes (R175 to R189) -/

/-- A conversion of the elements of a group of registers. -/
def Ctx.converted (k : Ctx) (d : VReg) (a : VSrc) (marks : List Nat) (ok : Bool)
    (f : (scale : Nat → Nat) → (lane e v : Nat) → Nat) (scale : Nat → Nat) : LaneClaim :=
  let src := modeSrc k.split.mr
  let n := convCount src k.type
  let gS := groupSize n src
  let gD := groupSize n k.type
  { may := ok ∧ d.toNat % gD = 0 ∧ a.reg.toNat % gS = 0, marks := markV a gS ++ marks
    puts := putGroup d gD k.acting fun l => fromElements k.width
      (fun e => f scale l e (element (typeWidth src) (k.group a.reg gS l) e)) n }

def convertClaim (i : Instr) (k : Ctx) : Option LaneClaim :=
  let src := modeSrc k.split.mr
  let rnd := modeRnd k.split.mr
  let sat := modeSat k.split.mr
  let scaleByte (b : VSrc) (l : Nat) : Nat := (k.v b l).toNat
  match i with
  | .cvt d a => some (k.converted d a [] (cvtPair src k.type) (fun _ _ _ v => (valueAs src v).deliver rnd sat k.type) fun _ => 0)
  | .cvtsc d a b => some (k.converted d a (markV b 1) (floatClass src && scaledType k.type)
      (fun sc l e v =>
        let x := element 8 (sc l) e
        if x = 0xFF then (if typeFloat k.type then (fmtOf k.type).nan else 0)
        else ((valueAs src v).scale (127 - (x : Int))).deliver rnd sat k.type) (scaleByte b))
  | .cvtus d a b => some (k.converted d a (markV b 1) (scaledType src && floatClass k.type)
      (fun sc l e v =>
        let x := element 8 (sc l) e
        if x = 0xFF then (fmtOf k.type).nan else (fmtOf k.type).round rnd sat ((valueAs src v).scale ((x : Int) - 127)))
      (scaleByte b))
  | .vamax d a => some
      { may := floatClass k.type, marks := markV a 1
        puts := putLanes d k.acting fun l =>
          let block := (k.acting.filter fun j => j / blockLanes k.type = l / blockLanes k.type).flatMap fun j =>
            (List.range (32 / k.width)).map fun e => element k.width (k.v a j).toNat e
          BitVec.ofNat 32 (fromElements k.width (fun _ => (fmtOf k.type).amax block) (32 / k.width)) }
  | .scexp d a => some
      { may := scaledType k.type ∧ floatClass src, marks := markV a 1
        puts := putLanes d k.acting fun l =>
          BitVec.ofNat 32 (scaleOf k.type (valueAs src (element (typeWidth src) (k.v a l).toNat 0))) }
  | .scpack d a b => some
      { marks := markV a 1 ++ markV b 1
        puts := putLanes d k.acting fun l =>
          let scales := (List.range 32).map fun j => (k.v a (l / 32 * 32 + j)).toNat % 256
          BitVec.ofNat 32 (streamLane (scaleStream ((k.v b (l / 32 * 32)).toNat % 256) scales) (scales.getD 31 0) (l % 32)) }
  | .scunpk d a b => some
      { marks := markV a 1 ++ markV b 1
        puts := putLanes d k.acting fun l =>
          let first := (k.v b (l / 32 * 32)).toNat
          BitVec.ofNat 32 ((unpackFrom (fun j => element 4 (k.v a (l / 32 * 32 + j / 8)).toNat (j % 8)) (field first 8 8)
            (first % 256) (field first 8 8) 32).getD (l % 32) 0) }
  | .bppack d a => some
      { marks := markV a 1
        puts := putLanes d k.acting fun l => BitVec.ofNat 32 (planeWord
          (fun j => element 8 (k.v a (l / 32 * 32 + j / 4)).toNat (j % 4)) (l % 32)) }
  | .bpunpk d a => some
      { may := 2 ≤ modePlanes k.split.mr ∧ modePlanes k.split.mr ≤ 8, marks := markV a 1
        puts := putLanes d k.acting fun l => BitVec.ofNat 32 (fromElements 8 (fun e => patternOf 8
          (unplane (fun j => (k.v a (l / 32 * 32 + j)).toNat) (modePlanes k.split.mr) (4 * (l % 32) + e))) 4) }
  | _ => none

/-! ## Residues (R181, R190, R191) -/

/-- The pair that starts at a register, as a number. -/
def Ctx.num2 (k : Ctx) (name l : Nat) : Nat := (k.team.container name l).toNat + 2 ^ 32 * (k.team.container (name + 1) l).toNat

/-- A residue instruction: its modulus, its twiddle or second operand, where it may stand, and the pairs that it writes
in each acting lane with their values before the reduction. -/
def residueClaim (i : Instr) (k : Ctx) : Option (Nat × VSrc × Prop × ((l : Nat) → List (Nat × Int))) :=
  let even (d : VReg) (a : VSrc) : Prop := d.toNat % 2 = 0 ∧ a.reg.toNat % 2 = 0
  let quad (d : VReg) (a : VSrc) : Prop := d.toNat % 4 = 0 ∧ a.reg.toNat % 2 = 0
  match i with
  | .vmodadd d a b => some ((k.s b).toNat, a, even d a, fun l => [(d.toNat, k.num2 d.toNat l + k.num2 a.reg.toNat l)])
  | .vmodsub d a b => some ((k.s b).toNat, a, even d a, fun l => [(d.toNat, k.num2 d.toNat l - k.num2 a.reg.toNat l)])
  | .vmodmul d a b => some ((k.s b).toNat, a, even d a, fun l => [(d.toNat, k.num2 d.toNat l * k.num2 a.reg.toNat l)])
  | .vbfly d a b => some ((k.s b).toNat, a, quad d a, fun l =>
      let x : Int := k.num2 d.toNat l
      let y : Int := k.num2 (d.toNat + 2) l
      let w : Int := k.num2 a.reg.toNat l
      [(d.toNat, x + w * y), (d.toNat + 2, x - w * y)])
  | .vibfly d a b => some ((k.s b).toNat, a, quad d a, fun l =>
      let x : Int := k.num2 d.toNat l
      let y : Int := k.num2 (d.toNat + 2) l
      let w : Int := k.num2 a.reg.toNat l
      [(d.toNat, x + y), (d.toNat + 2, (x - y) * w)])
  | _ => none

/-- The containers that the pairs of each acting lane take, reduced. -/
def residuePuts (q : Nat) (ls : List Nat) (f : (l : Nat) → List (Nat × Int)) : List Put :=
  ls.flatMap fun l => (f l).flatMap fun (name, t) =>
    let r := (t % (q : Int)).toNat
    [⟨name, l, BitVec.ofNat 32 r⟩, ⟨name + 1, l, BitVec.ofNat 32 (r / 2 ^ 32)⟩]

end Sys2Proof.Machine

namespace Sys2Proof.Machine

/-! ## Memory (R210 to R219) -/

/-- A load: whether it may execute, the marks, the accesses it makes, the alignment cause, and the containers it writes
from the values read. -/
structure LoadClaim where
  may : Prop := True
  marks : List Nat
  written : List Nat
  align : Option Nat := none
  accesses : List LaneAccess
  puts : (Nat → Nat) → List Put

def baseOk (m : Base) : Prop :=
  match m with
  | .s _ => True
  | .v r => r.reg.toNat % 2 = 0

def loadClaim (i : Instr) (k : Ctx) : Option LoadClaim :=
  let low (d : VReg) (f : Nat → Nat) (v : Nat → Nat) : List Put := putLanes d k.acting fun l => BitVec.ofNat 32 (f (v l))
  let both (d : VReg) (v : Nat → Nat) : List Put := putPairs d k.acting fun l => BitVec.ofNat 64 (v l)
  let ext (w v : Nat) : Nat := if k.signed ∧ 2 ^ (w - 1) ≤ v % 2 ^ w then v % 2 ^ w + (2 ^ 32 - 2 ^ w) else v % 2 ^ w
  match i with
  | .ld8 d m x => some
      { may := baseOk m ∧ k.type ≤ 13, marks := markMem m x, written := namesOf d 1
        accesses := accesses k.acting (k.address m x) 1, puts := low d (ext 8) }
  | .ld16 d m x => some
      { may := baseOk m ∧ k.type ≤ 13, marks := markMem m x, written := namesOf d 1
        accesses := accesses k.acting (k.address m x) 2, puts := low d (ext 16) }
  | .ld32 d m x => some
      { may := baseOk m, marks := markMem m x, written := namesOf d 1
        accesses := accesses k.acting (k.address m x) 4, puts := low d id }
  | .ld64 d m x => some
      { may := baseOk m ∧ d.toNat % 2 = 0, marks := markMem m x, written := namesOf d 2
        accesses := accesses k.acting (k.address m x) 8, puts := both d }
  | .ldw d a b => some
      { marks := [], written := namesOf d 1
        accesses := accesses k.acting (fun l => mod64 ((k.s a).toNat + l * (k.s b).toNat)) 4, puts := low d id }
  | .ldbp d m x => some
      { may := baseOk m ∧ 2 ≤ modePlanes k.split.mr ∧ modePlanes k.split.mr ≤ 8, marks := markMem m x, written := namesOf d 1
        accesses := accesses (k.acting.filter fun l => l % 32 / 4 < modePlanes k.split.mr) (k.address m x) 4
        puts := low d id }
  | .lda32 d m c => some
      { may := baseOk m ∧ c.toNat ≤ 5, marks := markBase m, written := namesOf d 1, align := some 0x07
        accesses := accesses k.acting (k.address m .none) 4, puts := low d id }
  | .lda64 d m c => some
      { may := baseOk m ∧ d.toNat % 2 = 0 ∧ c.toNat ≤ 5, marks := markBase m, written := namesOf d 2, align := some 0x07
        accesses := accesses k.acting (k.address m .none) 8, puts := both d }
  | _ => none

/-- What an access that has passed its checks reads, byte by byte: a byte reached through a HOME 00 or HOME 10 mapping from
the copy that a slice keeps of its line, where there is one; every other byte from the memory (R204, R205). -/
def State.valueOf (s : State) (tag : Nat) (q : Reach) : List Byte :=
  q.locs.map fun loc => if loc ∈ q.cached then s.cachedByte tag loc else s.byteAt tag loc

/-- The value that a lane's access read, 0 for a lane that made none. -/
def State.laneValue (s : State) (tag : Nat) (qs : List (LaneAccess × Reach)) (l : Nat) : Nat :=
  match qs.find? fun q => q.1.lane = l with
  | none => 0
  | some q => leNat (s.valueOf tag q.2)

/-- The machine bytes that some lanes' accesses reach. -/
def reached (qs : List (LaneAccess × Reach)) : List Nat := qs.flatMap fun q => q.2.locs

/-- A store: whether it may execute, whether everything the split stored before is performed before it (R219), the marks, the
accesses, the alignment cause, and the bytes of each lane. -/
structure StoreClaim where
  may : Prop := True
  orders : Bool := false
  sweep : Bool := true
  marks : List Nat
  align : Option Nat := none
  accesses : List LaneAccess
  bytes : Nat → List Byte

def storeClaim (i : Instr) (k : Ctx) : Option StoreClaim :=
  match i with
  | .st8 a m x => some
      { may := baseOk m, marks := markV a 1 ++ markMem m x, accesses := accesses k.acting (k.address m x) 1
        bytes := fun l => leBytes 1 (k.v a l).toNat }
  | .st16 a m x => some
      { may := baseOk m, marks := markV a 1 ++ markMem m x, accesses := accesses k.acting (k.address m x) 2
        bytes := fun l => leBytes 2 (k.v a l).toNat }
  | .st32 a m x => some
      { may := baseOk m, marks := markV a 1 ++ markMem m x, accesses := accesses k.acting (k.address m x) 4
        bytes := fun l => leBytes 4 (k.v a l).toNat }
  | .st64 a m x => some
      { may := baseOk m ∧ a.reg.toNat % 2 = 0, marks := markV a 2 ++ markMem m x
        accesses := accesses k.acting (k.address m x) 8, bytes := fun l => leBytes 8 (k.v2 a l).toNat }
  | .stw c a b => some
      { marks := markV c 1, accesses := accesses k.acting (fun l => mod64 ((k.s a).toNat + l * (k.s b).toNat)) 4
        bytes := fun l => leBytes 4 (k.v c l).toNat }
  | .stl32 a m c => some
      { may := baseOk m ∧ c.toNat ≤ 5, orders := c ≠ 0, marks := markV a 1 ++ markBase m, align := some 0x07
        accesses := accesses k.acting (k.address m .none) 4, bytes := fun l => leBytes 4 (k.v a l).toNat }
  | .stl64 a m c => some
      { may := baseOk m ∧ a.reg.toNat % 2 = 0 ∧ c.toNat ≤ 5, orders := c ≠ 0, marks := markV a 2 ++ markBase m
        align := some 0x07
        accesses := accesses k.acting (k.address m .none) 8, bytes := fun l => leBytes 8 (k.v2 a l).toNat }
  | .sts a m x => some
      { sweep := false, marks := [], accesses := [⟨0, k.scalarAddress m x, 8⟩], bytes := fun _ => leBytes 8 (k.s a).toNat }
  | _ => none

/-- The stores of some lanes: what each reaches, with its bytes. -/
def storeCells (qs : List (LaneAccess × Reach)) (bytes : Nat → List Byte) : List (LaneAccess × Reach × List Byte) :=
  qs.map fun q => (q.1, q.2, bytes q.1.lane)

/-! ## Group loads (R224 to R227) -/

/-- The tree of R225 over the first n of the values `val`, written as the rule writes it: while more than one is left,
neighbours are combined, and an odd last one is passed up unchanged. -/
def groupTree (f : Nat → Nat → Nat) : (fuel n : Nat) → (val : Nat → Nat) → Nat
  | 0, _, val => val 0
  | fuel + 1, n, val =>
    if n ≤ 1 then val 0
    else groupTree f fuel ((n + 1) / 2) fun i => if i < n / 2 then f (val (2 * i)) (val (2 * i + 1)) else val (n - 1)

/-- Combine, as the table of R225 has it; `min` and `max` under TYPE 6 by R171. -/
def groupCombine (op t a b : Nat) : Nat :=
  let v (x : Nat) : Int := if t = 0 ∧ 2 ^ 31 ≤ x then (x : Int) - 2 ^ 32 else x
  match op with
  | 0 => (a + b) % 2 ^ 32
  | 1 => fmtF32.round 0 false (Num.add 0 (fmtF32.value a) (fmtF32.value b))
  | 2 => if t = 6 then fmtF32.pick false a b else if v a ≤ v b then a else b
  | 3 => if t = 6 then fmtF32.pick true a b else if v a ≤ v b then b else a
  | 4 => a &&& b
  | 5 => a ||| b
  | _ => a ^^^ b

/-- The identities of R226. -/
def groupIdentity (op t : Nat) : Nat :=
  match op, t with
  | 0, _ => 0x00000000
  | 1, _ => 0x80000000
  | 2, 0 => 0x7FFFFFFF
  | 2, 1 => 0xFFFFFFFF
  | 2, _ => 0x7FC00000
  | 3, 0 => 0x80000000
  | 3, 1 => 0x00000000
  | 3, _ => 0x7FC00000
  | 4, _ => 0xFFFFFFFF
  | _, _ => 0x00000000

/-- The 4 bytes of a member, logical core and frame index, at an offset: in the frame that holds the bank to be read, none
where the core is absent (R194, R224, R460). -/
def Partition.memberBytes (x : Partition) (m : Nat × Nat) (off : Nat) : Option (List Nat) :=
  match x.cores[m.1]? with
  | none => none
  | some c => if c.absent then none
      else some ((List.range 4).map fun i => scratchLoc c.tile c.phys (c.readFrame m.2) (off + i))

/-! ## Atomics (R252 to R255) -/

/-- An atomic: where its result goes, its base, its data register, how many data operands it reads, the TYPEs it accepts,
and the new value (none where it writes nothing) from the old one and the two data operands. -/
def atomicClaim (i : Instr) (k : Ctx) : Option (ADest × Base × VSrc × Nat × Prop × ((m x y : Nat) → Option Nat)) :=
  let w := 8 * atomicWidth k.type
  let v (x : Nat) : Int := valueOf k.signed w x
  let ints : Prop := k.type = 0 ∨ k.type = 1 ∨ k.type = 11 ∨ k.type = 12
  match i with
  | .aadd d m c => some (d, m, c, 1, ints, fun m x _ => some ((m + x) % 2 ^ w))
  | .amin d m c => some (d, m, c, 1, ints, fun m x _ => some ((if v m ≤ v x then m else x) % 2 ^ w))
  | .amax d m c => some (d, m, c, 1, ints, fun m x _ => some ((if v m ≤ v x then x else m) % 2 ^ w))
  | .aand d m c => some (d, m, c, 1, ints, fun m x _ => some (m &&& x))
  | .aor d m c => some (d, m, c, 1, ints, fun m x _ => some (m ||| x))
  | .axor d m c => some (d, m, c, 1, ints, fun m x _ => some (m ^^^ x))
  | .axchg d m c => some (d, m, c, 1, ints, fun _ x _ => some x)
  | .acas d m c => some (d, m, c, 2, ints, fun m x y => if m = x then some y else none)
  | .afadd d m c => some (d, m, c, 1, k.type = 6, fun m x _ => some (addF32 (modeRnd k.split.mr) m x))
  | _ => none

/-! ## Joint instructions (R337 to R339) -/

/-- The exact sum of n products, and the integer one. -/
def numSum (f : Nat → Num) : Nat → Num
  | 0 => .zero false
  | 1 => f 0
  | n + 1 => Num.add 0 (numSum f n) (f n)
def intSum (f : Nat → Int) : Nat → Int
  | 0 => 0
  | n + 1 => intSum f n + f n

/-- n products added one at a time, each sum rounded: the value, and the status of every step (R338). -/
def stepSum (old : W64) (f : Nat → Num) : Nat → W64 × BitVec 5
  | 0 => (old, 0)
  | n + 1 =>
    let r := roundD (Num.add 0 (numD (stepSum old f n).1) (f n))
    (r.1, (stepSum old f n).2 ||| r.2)

/-- An accumulator entry after a joint instruction, from its row of xa and its row of xb, n elements each, and the status
bits that it sets (R337 to R339). -/
def jointClaim (op : MatOp) (fmt mode q : Nat) (old : W64) (x y : Nat → Num) (n : Nat) : W64 × BitVec 5 :=
  if op = .mmam then
    (BitVec.ofNat 64 ((old.toNat + intSum (fun e => (x e).int * (y e).int) n) % q).toNat,
      if (List.range n).any fun e => (q : Int) ≤ (x e).int || (q : Int) ≤ (y e).int then 16 else 0)
  else if mode = 1 then
    let t := old.toInt + intSum (fun e => (x e).int * (y e).int) n
    if t < -2 ^ 63 then (BitVec.ofInt 64 (-2 ^ 63), 1)
    else if 2 ^ 63 ≤ t then (BitVec.ofInt 64 (2 ^ 63 - 1), 1)
    else (BitVec.ofInt 64 t, 0)
  else if fmt = 4 ∨ fmt = 5 then stepSum old (fun e => Num.mul (x e) (y e)) n
  else roundD (Num.add 0 (numD old) (numSum (fun e => Num.mul (x e) (y e)) n))

/-! ## Reads that are performed later (R28, R231; that loads are late at all is the model's choice, log entry 10) -/

/-- What reads of some bytes find now. -/
def State.partValue (s : State) (tag : Nat) (p : LoadPart) : List Byte :=
  p.locs.map fun loc => if loc ∈ p.cached then s.cachedByte tag loc else s.byteAt tag loc

/-- Waiting accesses of a split that are loads, each with a destination and reads that `P` allows; a read that is no longer
open has found what stands there now. -/
def LaterReads (s : State) (k : Ctx) (ls : List Late) (P : LoadInto → List LoadPart → Prop) : Prop :=
  ∀ w ∈ ls, w.writer = k.r ∧ w.cells = [] ∧ ∃ d ps, w.load = some (d, ps) ∧ P d ps ∧
    ∀ p ∈ ps, ∀ bs, p.locs ≠ [] → p.got = some bs → bs = s.partValue k.part.tag p

/-- The reads of a plain load of one lane: its bytes, through the same mappings; put together they become what the load
writes in that lane. -/
def PlainReads (qs : List (LaneAccess × Reach)) (puts : (Nat → Nat) → List Put) (d : LoadInto) (ps : List LoadPart) : Prop :=
  ∃ q ∈ qs, (ps.flatMap fun p => p.locs) = q.2.locs ∧
    (∀ p ∈ ps, ∀ loc ∈ p.locs, (loc ∈ p.cached ↔ loc ∈ q.2.cached)) ∧
    ∀ bss : List (List Byte), bss.flatten.length = q.1.size →
      d.puts bss = (puts fun _ => leNat bss.flatten).filter fun u => u.lane = q.1.lane

/-! ## Stamps and branches (R40, R115, R116, R121, R123, R124, R316) -/

/-- A stamp meets a target: its bit 63 is set, or its number has reached the target's. -/
def meetsTarget (now target : W64) : Bool := now.getLsbD 63 || decide (target.toNat % 2 ^ 63 ≤ now.toNat % 2 ^ 63)

/-- An instruction that sends lanes to addresses: whether it may execute, the marks, the containers it writes before the
lanes go, and the groups in which they go, fall-through first. -/
structure BranchClaim where
  may : Prop := True
  marks : List Nat := []
  puts : List Put := []
  groups : List Group

def branchClaim (i : Instr) (k : Ctx) : Option BranchClaim :=
  let next := k.split.pc + 4
  let link : List Put := putLanes 63 k.acting fun _ => BitVec.ofInt 32 (k.split.pc.toNat + 4 - k.team.hdr.program.toNat)
  let two (goes : Nat → Bool) (tgt : W64) : List Group :=
    ([⟨next, k.lanes.filter fun l => !goes l⟩, ⟨tgt, k.lanes.filter goes⟩] : List Group).filter fun g => g.lanes ≠ []
  let each (off : Nat → W32) : List Group :=
    groupLanes next (fun l => if k.guard l then k.team.hdr.program + (off l).setWidth 64 else next) k.lanes
  let onBlocks (off : Nat → W32) : Prop := ∀ l ∈ k.acting, (off l).toNat % 64 = 0
  match i with
  | .brc p off => some { marks := markP p, groups := two (fun l => k.guard l && k.p p l) (k.block off.toInt) }
  | .brnc p off => some { marks := markP p, groups := two (fun l => k.guard l && !k.p p l) (k.block off.toInt) }
  | .brx a => some { may := onBlocks (k.v a), marks := markV a 1, groups := each (k.v a) }
  | .ret => some { may := onBlocks (k.team.lane 63), groups := each (k.team.lane 63) }
  | .call off => some { may := k.split.pc.toNat % 64 = 60, puts := link, groups := two k.guard (k.block off.toInt) }
  | .callx a => some
      { may := k.split.pc.toNat % 64 = 60 ∧ onBlocks (k.v a), marks := (markV a 1).filter (· ≠ 63), puts := link
        groups := each (k.v a) }
  | _ => none

/-! ## Drains at their target (R358) -/

/-- An entry once a drained one has been added to it. -/
def addedEntry (mode q : Nat) (t x : W64) : W64 :=
  match mode with
  | 0 => (roundD (Num.add 0 (numD t) (numD x))).1
  | 1 => BitVec.ofInt 64 (max (-2 ^ 63) (min (2 ^ 63 - 1) (t.toInt + x.toInt)))
  | _ => BitVec.ofNat 64 ((t.toNat + x.toNat) % q)

/-- The status bits that the addition of one entry sets. -/
def addedStatus (mode q : Nat) (t x : W64) : BitVec 5 :=
  match mode with
  | 0 => (roundD (Num.add 0 (numD t) (numD x))).2
  | 1 => if -2 ^ 63 ≤ t.toInt + x.toInt ∧ t.toInt + x.toInt < 2 ^ 63 then 0 else 1
  | _ => if q ≤ x.toNat then 16 else 0

/-- The record of a drain that is not added (R359, R369). -/
def drainEvent (f : Flight) (code : Nat) : Event :=
  { va := f.va, code := code, cls := 1, sup := f.issuer.kind = .service, absent := false
    team := handleOf f.issuer.kind f.issuer.launch f.issuer.ordinal, split := 0xFFFF, arg := 0, region := 0, waiter := none }

/-! ## Fetching (R34, R35, R41, R44) -/

/-- A split may issue, and the bytes at its pc are a word, with the literals that its opcode has behind it in the same fetch
block; t is the module then, the split's own waiting accesses to these bytes performed and the word's translation kept. -/
def State.FetchesWord (s : State) (r : SplitRef) (k : Ctx) (w : W32) (literals : List W32) (t : State) : Prop :=
  ∃ q ql : Reach,
    s.ctxAt r = some k ∧ k.split.state = .ready ∧ s.frozen r = false ∧ k.mustRotate = false ∧
    s.reachBy k fetchWant k.split.pc 4 = .ok q ∧ s.blocked k.part k.core.tile q.locs = false ∧
    let s1 := s.performMine r q.locs
    let n := if opcodeAssigned (opcodeOf w) then literalCount (opcodeOf w) else 0
    bytesOfWord w = s1.valueOf k.part.tag q ∧ k.split.pc.toNat % 64 / 4 + n ≤ 15 ∧
    (n = 0 → ql = ⟨[], [], []⟩) ∧ (n ≠ 0 → s.reachBy k fetchWant (k.split.pc + 4) (4 * n) = .ok ql) ∧
    t = (s1.keepReach k false q).performMine r ql.locs ∧ literals = wordsOf t k.part.tag ql

/-- They decode to an instruction. -/
def State.Fetches (s : State) (r : SplitRef) (k : Ctx) (i : Instr) (t : State) : Prop :=
  ∃ w literals, s.FetchesWord r k w literals t ∧ decodeWord w literals = .ok i

end Sys2Proof.Machine

open Sys2Proof Sys2Proof.Machine

/-! # Encoding -/

/-- Decoding gives back every well-formed instruction from its encoding, with every operand (R34, R36, R44 to R50). -/
def Obligations.DecodeOfEncode : Prop :=
  ∀ i : Instr, i.wf → i.isEvent = false → ∀ rest, decode (bytesOfWords (encode i) ++ rest) = .ok i

/-- What decodes is well-formed, and its encoding is the bytes it was decoded from: a run of bytes stands for one
instruction and an instruction for one run of bytes (R34, R35, R44). -/
def Obligations.EncodeOfDecode : Prop :=
  ∀ bs i, decode bs = .ok i → i.wf ∧ i.isEvent = false ∧ bytesOfWords (encode i) <+: bs

/-- Words of eight families, written out from the tables of the spec (R34, R36, R38, R45, R47 to R50, R63). -/
def Obligations.SpecWordsDecode : Prop :=
  decodeWord 0x20018203 [] = .ok (.vadd 1 ⟨2, true⟩ ⟨3, false⟩) ∧
  decodeWord 0x010000FE [] = .ok (.br 0xFE) ∧
  decodeWord 0x0D404100 [0x00000002] = .ok (.yieldc 0 1 2) ∧
  decodeWord 0x6204467F [] = .ok (.ld32 4 (.s 6) .none) ∧
  decodeWord 0x82804205 [] = .ok (.aadd .discard (.s 2) ⟨5, false⟩) ∧
  decodeWord 0xB8786869 [] = .ok (.mmam 0 0 1) ∧
  decodeWord 0xD2400010 [] = .ok (.csrr 0 0x10) ∧
  decodeWord 0xE0414243 [] = .ok (.sadd 1 2 3)

/-! # Steps -/

/-- A turn in which a split issues runs exec on the instruction that the bytes at its pc decode to, once the fetch has
kept its translation, the waiting loads into registers of the team that the word touches have been performed, before an issue
on the matrix engine also those into tiles and accumulators of the core (log entry 10, the model's choice), and the issue has
been noted in its team (R34, R35, R44, R66, R89). A turn that gives a quad to one of several pending words of a split changes
its team alone, by the note of that word (R88, R89; that the instruction is executed with its last word is the model's choice,
log entry 76). The other turns do what the spec says of their agents: a byte becomes uncorrectable or is replaced (R213), a
byte of second-tier memory, and of no scratchpad, is changed by a party with physical access, undetected (R431), a slice drops
its copy of a line (R205). -/
def Obligations.StepRunsDecodedInstruction : Prop :=
  (∀ (s : State) (r : SplitRef) (rest : List Turn) (k : Ctx) (i : Instr) (t : State), s.turns = .issue r :: rest →
    ({ s with turns := rest, tick := s.tick + 1, cur := r } : State).Fetches r k i t →
    let t1 := t.performNamed (teamOf r) (touches i)
    let t2 := if unitOf i = .matrix then t1.performMatrix r.part r.core else t1
    step s = exec i (t2.noteIssue r (unitOf i))) ∧
  (∀ (s : State) (r : SplitRef) (quad : Nat) (rest : List Turn) (k : Ctx) (i : Instr) (t : State),
    s.turns = .word r quad :: rest →
    let s' : State := { s with turns := rest, tick := s.tick + 1 }
    s'.Fetches r k i t → unitOf i = .lanes → k.split.onQuad quad → 1 < k.split.pendingWords.length →
    step s = .next (s'.modTeam r.part r.core r.slot fun u => u.noteWord k.split quad s.cycle)) ∧
  ∀ (s : State) (rest : List Turn),
    (∀ a, s.turns = .corrupt a :: rest → ∃ t, step s = .next t ∧ a ∈ t.bad ∧ (∀ b ∈ t.bad, b = a ∨ b ∈ s.bad) ∧
      ∀ w ∈ t.late, w ∈ s.late ∧ w.meets [a] = false) ∧
    (∀ a, s.turns = .settle a :: rest → ∃ t, step s = .next t ∧ t.mem = s.mem ∧ ∀ b, b ∈ t.bad ↔ b ≠ a ∧ b ∈ s.bad) ∧
    (∀ a b, s.turns = .tamper a b :: rest → s.canonical → ∃ t, step s = .next t ∧ t.bad = s.bad ∧ t.tags = s.tags ∧
      t.outputs = s.outputs ∧ t.parts = s.parts ∧
      ∀ loc, tableGet 0 t.mem loc = if loc = a ∧ a < 2 ^ 48 then b else tableGet 0 s.mem loc) ∧
    (∀ line, s.turns = .dropSlice line :: rest → ∃ t, step s = .next t ∧ t.mem = s.mem ∧
      tableFind t.slices line = none ∧ ∀ other ≠ line, tableFind t.slices other = tableFind s.slices other)

/-- A literal never lies in another fetch block: a word whose literals would cross the end of its block raises trap 0x16
(R44). -/
def Obligations.LiteralsStayInTheBlock : Prop :=
  ∀ (s : State) (r : SplitRef) (rest : List Turn) (k : Ctx) (q : Reach) (w : W32),
    s.turns = .issue r :: rest →
    let s' : State := { s with turns := rest, tick := s.tick + 1, cur := r }
    s'.ctxAt r = some k → k.split.state = .ready → s'.frozen r = false → k.mustRotate = false →
    s'.reachBy k fetchWant k.split.pc 4 = .ok q → s'.blocked k.part k.core.tile q.locs = false →
    let s1 := s'.performMine r q.locs
    bytesOfWord w = s1.valueOf k.part.tag q →
    opcodeAssigned (opcodeOf w) → 15 < k.split.pc.toNat % 64 / 4 + literalCount (opcodeOf w) →
    step s = .next (((s1.keepReach k false q).raise r { code := 0x16, va := k.split.pc }).reap (teamOf r))

/-- The machine never stops: a word of a resident split and an event always answer a next state, and so does a step. -/
def Obligations.MachineNeverStops : Prop :=
  (∀ i s, (i.isEvent ∨ s.ctx.isSome) → ∃ t, exec i s = .next t) ∧ ∀ s, ∃ t, step s = .next t

/-- Memory, generation tags and Vault keep their canonical form in every step (R207, R208, R432): no byte, line or slot
is listed twice, out of order, or with the value that an unlisted one has. -/
def Obligations.StepKeepsCanonicalForm : Prop :=
  ∀ s t, s.canonical → step s = .next t → t.canonical

/-- The module after reset: no partition, held until bring-up, canonical memory; a byte that nothing has written reads 0 to
every owner and generation and carries the quarantine owner's tag (R207, R425). The model's choices: that such a byte reads as
0 (log entry 2), that the Vault is empty (log entry 1), and that no access waits and no slice holds a copy (log entry 8). -/
def Obligations.ResetState : Prop :=
  State.reset.canonical ∧ State.reset.parts = [] ∧ State.reset.booted = false ∧ State.reset.late = [] ∧
  State.reset.slices = [] ∧ (∀ k, (State.reset.slot k).state = .empty) ∧
  (∀ line, State.reset.tagOf line = Config.quarantineTag) ∧ ∀ tag loc, State.reset.byteAt tag loc = 0

/-- A phase starts with the reset mode, at slot 0 of its entry block, with every scalar, lane register and predicate zero
and one split of all lanes; a team placed by the dispatcher starts its first phase, with the tiles, accumulators and barriers
of its gang in their reset state (R55, R78, R81, R260, R326). -/
def Obligations.PhaseStart : Prop :=
  (∀ (t : Team) (e cycle : Nat), t.hdr.team ≤ 1024 →
      let u := t.restart e cycle
      u.splits.map (fun x => (x.entry, x.pc, x.mr, x.state, x.regionPc, x.regionMr)) =
        [(e, t.hdr.program + BitVec.ofNat 64 (64 * t.hdr.entry), 0x00080000, .ready,
          t.hdr.program + BitVec.ofNat 64 (64 * t.hdr.entry), 0x00080000)] ∧
      (∀ x ∈ u.splits, ∀ l, x.mask.getLsbD l = decide (l < t.hdr.team)) ∧
      (∀ r, u.scalar r = 0) ∧ (∀ name l, u.container name l = 0) ∧ u.records = [] ∧ u.spilled = []) ∧
  ∀ (c : Core) (h : Launch) (pick : Pick) (gang age cycle : Nat), tableWf Tile.reset c.fileTiles →
    tableWf Acc.reset c.fileAccs → tableWf Barrier.reset c.bars →
    let d := c.place h pick gang age cycle
    (∀ i ∈ pick.tiles, d.tileAt i = Tile.reset) ∧ (∀ i ∈ pick.accs, d.accAt i = Acc.reset) ∧
    (∀ i ∈ pick.bars, d.bar i = Barrier.reset) ∧
    (∀ i, i ∉ pick.tiles → d.tileAt i = c.tileAt i) ∧ d.teams.length = c.teams.length + h.hdr.gang ∧
    ∀ t ∈ d.teams, t ∉ c.teams → t.phase = 0 ∧ t.hdr = h.hdr ∧ t.entryLeft = h.hdr.fpentry ∧ t.chunks = [] ∧
      t.sregs = List.replicate 32 0

/-! # Exceptions -/

/-- A trap stops the split where it stands, with its pc, mode, mask and region as they were and everything it has stored and
loaded performed, changes no register of the team but those that its waiting loads still had to write, and an event goes to
the queue that names the cause and the waiting split; a chunk that the trapping instruction has taken, and that no split has
written, is given back (R39, R369). That what the split has still to access is performed at the trap, before the event, is the
model's choice (log entry 10): R370 makes the write of POSTED a release that covers the accesses that the stopped split has
performed. -/
def Obligations.TrapEntry : Prop :=
  (∀ (s : State) (r : SplitRef) (k : Ctx) (t : Trap), s.ctxAt r = some k → k.split.drawn = [] →
    ∃ f : Team → Team,
      let u := f k.team
      let e : Event :=
        { va := t.va, code := t.code, cls := t.cls, sup := k.team.kind = .service, absent := t.absent
          team := k.team.handle, split := r.entry, arg := t.arg
          region := BitVec.ofNat 32 ((k.split.regionPc - k.team.hdr.program).toNat / 4)
          waiter := some (.split r.core r.slot r.entry) }
      let s1 := ((s.performOwn r).modTeam r.part r.core r.slot f).event r.part e
      s.raise r t = (if k.team.kind = .service then s1.emit (.told r.part) else s1) ∧
      { u with splits := k.team.splits } = k.team ∧
      u.splits = k.team.splits.map fun x =>
        if x.entry = r.entry then { x with state := .stopped, wait := .none, drawn := [], saved := false, sent := [] } else x) ∧
  (∀ (s : State) (r : SplitRef), ∀ w ∈ (s.performOwn r).late, w.writer ≠ r) ∧
  (∀ (s : State) (r : SplitRef) (k : Ctx) (t : Trap) (u : Team), (s.performOwn r).ctxAt r = some k →
    (s.raise r t).team? r.part r.core r.slot = some u →
    u.sregs = k.team.sregs ∧ ∀ key, key ∉ k.split.drawn.map (·.1) → tableFind u.chunks key = tableFind k.team.chunks key) ∧
  ∀ (s : State) (r : SplitRef) (k : Ctx) (t : Trap) (u : Team), (s.performOwn r).ctxAt r = some k →
    (s.raise r t).team? r.part r.core r.slot = some u →
    (∀ key ∈ k.split.drawn.map (·.1), tableFind u.chunks key = none) ∧
    u.entryLeft = k.team.entryLeft + (k.split.drawn.filter fun d => d.2).length

/-- Posting an event in slot i writes bytes 0 to 27 of its record, then its sequence number, then POSTED in the header, whose
bytes 24 to 63 are zero; the slot is posted, with the event's waiter and its number, and vector 1 is fired unless it is
masked: it goes to the host where the host stream is up, in order behind what waits there for a new key (R368 to R370, R429,
R447). The model's choices: a masked vector is not fired and leaves its pending bit (log entry 30), the message is one write
to the host, lost where the port is out of use or the stream is down (log entry 64), and it waits behind what waits (log entry
86). Stated for a queue that lies within the allocation. -/
def Obligations.PostedRecordStandsInMemory : Prop :=
  ∀ (s : State) (p i : Nat) (x : Partition) (e : Event), s.canonical → s.part? p = some x →
    i < 2 ^ x.csr.logn → x.csr.eqbase.toNat + 64 + 32 * 2 ^ x.csr.logn ≤ x.alloc → x.alloc ≤ 2 ^ 48 →
    let t := s.postEvent p i e
    let header (n : Nat) : Byte := t.byteAt x.tag (x.base + x.csr.eqbase.toNat + n)
    let at_ (n : Nat) : Byte := header (64 + 32 * i + n)
    (List.range 28).map at_ = recordBytes e ∧
    (List.range 4).map (fun n => at_ (28 + n)) = leBytes 4 (x.posted + 1) ∧
    (List.range 8).map header = leBytes 8 (x.posted + 1) ∧ (∀ n, 24 ≤ n → n < 64 → header n = 0) ∧
    ((t.part? p).map fun y => (tableFind y.queue i, y.posted)) = some (some
      { state := .posted, va := e.va, code := e.code, cls := e.cls, sup := e.sup, absent := e.absent, merged := false
        waiters := if e.waiter.isSome then 1 else 0, seq := x.posted + 1, attached := e.waiter.toList }, x.posted + 1) ∧
    let open_ : Prop := s.halted = false ∧ x.msixMasked 1 = false ∧ s.hostPortOn x.port ∧ (s.seal (.host p)).up
    let clear : Prop := x.hostWait = [] ∧ (s.seal (.host p)).counter < 2 ^ 62
    t.outputs = (if open_ ∧ clear then s.outputs ++ [.msix p 1] else s.outputs) ∧
    (t.part? p).map (fun y => y.hostWait) = some (if open_ ∧ ¬ clear then x.hostWait ++ [.msix 1] else x.hostWait)

/-- The supervisor's instructions outside the service team, `launch` outside the root team and `csrr` of a supervisor
register raise trap 0x0B, whatever their operands (R64, R66). -/
def Obligations.PrivilegedInstructionsTrap : Prop :=
  ∀ (i : Instr) (s : State) (k : Ctx), s.ctx = some k →
    (match i with
      | .csrw _ _ | .tlbi _ | .tlbia | .fqpop _ | .fqrep _ | .fqkill _ => k.team.kind ≠ .service
      | .csrr _ c => k.team.kind ≠ .service ∧ 0x10 ≤ c.toNat ∧ csrListed c
      | .launch _ => k.team.kind ≠ .root
      | _ => False) →
    TakesTrap i s k { code := 0x0B, va := k.split.pc }

/-- An instruction that writes a scalar raises trap 0x04 in a team that is not converged, and an instruction under a TYPE that
its class does not accept raises trap 0x0E: element operations, compares and `vbfe` under a type that is no integer type,
`vlea` and `vbcast` under a reserved one (R54, R59, R136, R138). -/
def Obligations.TeamAndTypeTraps : Prop :=
  (∀ i s k c, s.ctx = some k → scalarClaim i s k = some c → c.may → k.team.liveSplits ≠ 1 →
    TakesTrap i s k { code := 0x04, va := k.split.pc }) ∧
  (∀ d m x s k, s.ctx = some k → k.team.liveSplits ≠ 1 → TakesTrap (.lds d m x) s k { code := 0x04, va := k.split.pc }) ∧
  (∀ a off s k, s.ctx = some k → k.team.liveSplits ≠ 1 → TakesTrap (.bdnz a off) s k { code := 0x04, va := k.split.pc }) ∧
  (∀ d s k, s.ctx = some k → k.team.kind = .service → k.team.liveSplits ≠ 1 →
    TakesTrap (.fqpop d) s k { code := 0x04, va := k.split.pc }) ∧
  (∀ i s k d a b f, s.ctx = some k → elementClaim i k = some (d, a, b, f) → typeInteger k.type = false →
    TakesTrap i s k { code := 0x0E, va := k.split.pc }) ∧
  (∀ (p : PReg) (d : VReg) (a b : VSrc) (x y : SReg) s k, s.ctx = some k → typeInteger k.type = false →
    let t : Trap := { code := 0x0E, va := k.split.pc }
    TakesTrap (.vcmp p a b) s k t ∧ TakesTrap (.scmp p x y) s k t ∧ TakesTrap (.vbfe d a b) s k t) ∧
  ∀ (d : VReg) (a b : VSrc) (x : SReg) s k, s.ctx = some k → 13 < k.type →
    let t : Trap := { code := 0x0E, va := k.split.pc }
    TakesTrap (.vbcast d x) s k t ∧ (d.toNat % 2 = 0 → a.reg.toNat % 2 = 0 → TakesTrap (.vlea d a b) s k t)

/-- Acquire loads, release stores and atomics raise trap 0x07 at the first acting lane whose address is not a multiple of the
size, where every lane before it passes all its checks: at the lowest one if it is that (R213, R219, R253, R254). -/
def Obligations.MisalignedAcquireTraps : Prop :=
  (∀ i s k c before a rest qs, s.ctx = some k → loadClaim i k = some c → c.may → c.align = some 0x07 →
    c.accesses = before ++ a :: rest → s.reachLanes k { cls := 0, data := true } (some 0x07) before = .ok qs →
    a.ea.toNat % a.size ≠ 0 → TakesTrap i s k { code := 0x07, va := a.ea, cls := 0 }) ∧
  (∀ i s k c before a rest qs, s.ctx = some k → storeClaim i k = some c → c.may → c.align = some 0x07 →
    c.accesses = before ++ a :: rest →
    (if c.orders then s.performOwn k.r else s).reachLanes k storeWant (some 0x07) before = .ok qs →
    a.ea.toNat % a.size ≠ 0 → TakesTrap i s k { code := 0x07, va := a.ea, cls := 1 }) ∧
  (∀ i s k d m c n typed f before a rest qs, s.ctx = some k → atomicClaim i k = some (d, m, c, n, typed, f) → typed →
    baseOk m → atomicLegal k.type d c n →
    accesses k.acting (k.address m .none) (atomicWidth k.type) = before ++ a :: rest →
    s.reachLanes k { cls := 2, write := true, shadow := true, data := true } (some 0x07) before = .ok qs →
    a.ea.toNat % a.size ≠ 0 → TakesTrap i s k { code := 0x07, va := a.ea, cls := 2 }) ∧
  (∀ (s : State) (k : Ctx) w align, s.reachLanes k w align [] = .ok []) ∧
  ∀ (ls : List Nat) (at_ : Nat → W64) n, (accesses ls at_ n).map (fun a => (a.lane, a.ea, a.size)) = ls.map fun l => (l, at_ l, n)

/-- `trap`, `brkpt` and a word whose opcode no row lists take their exceptions: 0x13 with the code as argument, 0x14, and
0x01; such a word decodes to the last of them. A word of a listed opcode that stands for no instruction, by a field or a
literal, raises trap 0x02 when it is fetched, and 0x0B where its opcode is denied to the team (R45, R62, R64 to R66, R392). -/
def Obligations.TrapInstructionsEnter : Prop :=
  (∀ c s k, s.ctx = some k → TakesTrap (.trap c) s k { code := 0x13, va := k.split.pc, arg := c.toNat }) ∧
  (∀ s k, s.ctx = some k → TakesTrap .brkpt s k { code := 0x14, va := k.split.pc }) ∧
  (∀ w s k, s.ctx = some k → TakesTrap (.illegalOpcode w) s k { code := 0x01, va := k.split.pc }) ∧
  (∀ w l, opcodeAssigned (opcodeOf w) = false → decodeWord w l = .ok (.illegalOpcode w)) ∧
  ∀ (s : State) (r : SplitRef) (rest : List Turn) (k : Ctx) (w : W32) (literals : List W32) (t : State) e,
    s.turns = .issue r :: rest →
    ({ s with turns := rest, tick := s.tick + 1, cur := r } : State).FetchesWord r k w literals t →
    decodeWord w literals = .error e →
    step s = .next ((t.raise r { code := if wordAllowed k.team w then 0x02 else 0x0B, va := k.split.pc }).reap (teamOf r))

/-- A split's move to an address that opens no fetch block changes its pc alone, unless its team is dying. Reaching a fetch
block, with all the parking, fusing, spilling and refilling that follows, changes no frame, no header, no age and no gang
number of any team, no scalar but those that waiting loads have still to write, and no control register of any partition
(R35, R100 to R112). -/
def Obligations.MovingOnKeepsScalars : Prop :=
  (∀ (s : State) (r : SplitRef) (k : Ctx) (pc : W64), s.ctxAt r = some k → k.team.dying = false → pc.toNat % 64 ≠ 0 →
      s.moveTo r pc = s.modTeam r.part r.core r.slot fun t =>
        { t with splits := t.splits.map fun x => if x.entry = r.entry then { x with pc := pc } else x }) ∧
  ∀ (s : State) (r : SplitRef) (p l slot : Nat),
    let s' := s.checkArrival r
    ((s'.team? p l slot).map fun t => (t.frames, t.hdr, t.age, t.gang)) =
      ((s.team? p l slot).map fun t => (t.frames, t.hdr, t.age, t.gang)) ∧
    (∀ q : SReg, (∀ w ∈ s.late, ∀ n ps, w.load = some (.scalar n, ps) → BitVec.ofNat 5 n ≠ q) →
      ((s'.team? p l slot).map fun t => t.scalar q) = (s.team? p l slot).map fun t => t.scalar q) ∧
    ((s'.part? p).map fun x => x.csr) = (s.part? p).map fun x => x.csr

/-! # Registers -/

/-- Every instruction that writes a scalar and reads no memory gives it the value of its rule in a converged team, moves
on to the next word, and leaves everything else but marked chunks as it was: scalar arithmetic, moves, identifiers, the
predicate count, the mode, and the queries of splits, shape, counters, CSRs, channels, accumulators and tiles (R54, R132,
R133, R155 to R159, R161, R318, R348, R352, R365, R386, R387). The model's choices: of `cqry`, stated by `Channel.query`, the
state read where a suspended copy and one ending in error stand in one channel, and that the bytes still to write count a line
sent over a binding until its acknowledgement (log entry 79). -/
def Obligations.ScalarResults : Prop :=
  ∀ i s k c, s.ctx = some k → scalarClaim i s k = some c → c.may → k.team.liveSplits = 1 →
    Continues i s k false (k.split.pc + BitVec.ofNat 64 (4 + 4 * c.lits)) (ScalarResult k c.marks c.dest c.value)

/-- Integer arithmetic, minimum and maximum, shifts, rotations and counts give each element of the acting lanes its exact
result, narrowed as SAT and TYPE say, and change nothing else (R139 to R147). -/
def Obligations.ElementResults : Prop :=
  ∀ i s k d a b f, s.ctx = some k → elementClaim i k = some (d, a, b, f) → typeInteger k.type →
    k.paired (d :: a.reg :: (b.map fun r => r.reg).toList) →
    k.takes (putOperand (typeWide k.type) d k.acting fun _ => 0) →
    Continues i s k true (k.split.pc + 4) (ElementResult k d a b f)

/-- Logic, bit fields, moves, permutes and lane identifiers; compares and predicate logic, which write 0 or 1; conversions,
block scales, scale streams and bit planes: the acting lanes (for `scmp` every lane of the split) receive the containers of
their rule, and nothing else that is not marked as read last changes (R51, R145, R148 to R153, R158, R160, R173, R175 to
R179, R182 to R189). The model's choice: `cvt` between identical float types makes an infinity the greatest value of its sign
under SAT = 1 (log entry 91). -/
def Obligations.LaneResults : Prop :=
  ∀ i s k c, s.ctx = some k → moveClaim i k = some c ∨ predicateClaim i k = some c ∨ convertClaim i k = some c →
    c.may → k.takes c.puts →
    Continues i s k c.sweep (k.split.pc + BitVec.ofNat 64 (4 + 4 * c.lits)) (LaneResult k c.marks c.puts)

/-- Floating-point instructions round each element's exact result once, in the format that TYPE names and under the
mode's rounding, with SAT as 0 (R167, R170 to R174); `fexp2` and `flog2` round the 512-bit approximations `Num.exp2` and
`Num.log2` once, which that these give the rounded exact result is the model's reading (log entry 29). -/
def Obligations.FloatResults : Prop :=
  ∀ i s k d a b f, s.ctx = some k → floatClaim i = some (d, a, b, f) → floatClass k.type →
    let elem (r : VReg) (l e : Nat) : Nat := element k.width (k.team.lane r l).toNat e
    let vb (l e : Nat) : Nat := match b with
      | some r => elem r.reg l e
      | none => 0
    let ws := putLanes d k.acting fun l => BitVec.ofNat 32 (fromElements k.width
      (fun e => f (fmtOf k.type) (modeRnd k.split.mr) (elem d l e) (elem a.reg l e) (vb l e)) (32 / k.width))
    k.takes ws →
    Continues i s k true (k.split.pc + 4)
      (LaneResult k (markV a 1 ++ (b.map fun r => markV r 1).getD []) ws)

/-- Residue arithmetic and butterflies under an odd modulus from 3 to 2⁶² − 1; any other modulus raises trap 0x12 (R181,
R190, R191). -/
def Obligations.ResidueResults : Prop :=
  ∀ i s k q a (may : Prop) f, s.ctx = some k → residueClaim i k = some (q, a, may, f) → may →
    (q % 2 = 1 → 3 ≤ q → q < 2 ^ 62 → k.takes (residuePuts q k.acting f) →
      Continues i s k true (k.split.pc + 4) (LaneResult k (markV a 2) (residuePuts q k.acting f))) ∧
    (¬ (q % 2 = 1 ∧ 3 ≤ q ∧ q < 2 ^ 62) → TakesTrap i s k { code := 0x12, va := k.split.pc })

/-- A write of containers that the reserve rule does not let have its chunks waits in waiting-memory for what is missing and
stays at its word: element operations, moves, compares, predicate logic, conversions, floating-point and residue results
alike; the grant of the last one makes it ready again, and so does the same chunk taken by another split (R83, R84). That the
write meanwhile holds the chunks it could take is the model's choice (log entry 16). -/
def Obligations.WritesWaitForChunks : Prop :=
  let waits (s : State) (k : Ctx) (ws : List Put) : State := (s.taken k ws).modSplit k.r fun x =>
    { x with
      state := .waitingMemory, wait := .chunk (k.core.takeChunks k.team (chunksOf ws) []).2.2
      drawn := x.drawn ++ (k.core.takeChunks k.team (chunksOf ws) []).2.1, begun := true }
  (∀ i s k c, s.ctx = some k → moveClaim i k = some c ∨ predicateClaim i k = some c ∨ convertClaim i k = some c →
    c.may → ¬ k.takes c.puts → exec i s = .next (waits s k c.puts)) ∧
  (∀ i s k d a b f, s.ctx = some k → elementClaim i k = some (d, a, b, f) → typeInteger k.type →
    k.paired (d :: a.reg :: (b.map fun r => r.reg).toList) →
    let ws := putOperand (typeWide k.type) d k.acting fun _ => 0
    ¬ k.takes ws → exec i s = .next (waits s k ws)) ∧
  (∀ i s k d a b f, s.ctx = some k → floatClaim i = some (d, a, b, f) → floatClass k.type →
    let ws := putLanes d k.acting fun _ => 0
    ¬ k.takes ws → exec i s = .next (waits s k ws)) ∧
  (∀ i s k q a (may : Prop) f, s.ctx = some k → residueClaim i k = some (q, a, may, f) → may →
    q % 2 = 1 → 3 ≤ q → q < 2 ^ 62 → ¬ k.takes (residuePuts q k.acting f) →
    exec i s = .next (waits s k (residuePuts q k.acting f))) ∧
  (∀ s r k key, s.ctxAt r = some k → s.frozen r = false → k.split.wait = .chunk [key] →
    (tableFind k.team.chunks key).isSome →
    exec (.chunkGrant r) s = .next (s.modSplit r fun x => { x with state := .ready, wait := .none })) ∧
  ∀ s r k key, s.ctxAt r = some k → s.frozen r = false → k.split.wait = .chunk [key] → k.core.mayTake k.team →
    tableFind k.team.chunks key = none →
    exec (.chunkGrant r) s = .next ((s.modTeam r.part r.core r.slot fun t => t.take key).modSplit r fun x =>
      { x with state := .ready, wait := .none, drawn := x.drawn ++ [(key, decide (0 < k.team.entryLeft))] })

/-! # Memory -/

/-- Loads, one access a lane in the lane's own bytes: every check passes, the split's own earlier accesses to those bytes are
performed, the translations are kept, and each acting lane receives the little-endian value that the partition reads there,
extended as TYPE says or as it is; the scalar load reads 8 bytes into a scalar (R9, R211, R215 to R219, R242). Some of the
reads may be left to be performed later, of a lane or of a byte of an unaligned lane, none of an acquire load (R28; that they
are is the model's choice, log entry 10): the waiting access then reads what stands there, and writes what the load writes,
into registers that still hold a chunk. -/
def Obligations.LoadResults : Prop :=
  (∀ i s k c qs, s.ctx = some k → loadClaim i k = some c → c.may →
      s.reachLanes k { cls := 0, data := true } c.align c.accesses = .ok qs →
      (∀ q ∈ qs, s.blocked k.part k.core.tile q.2.locs = false) →
      let s1 := s.performMine k.r (reached qs)
      let ws := c.puts (s1.laneValue k.part.tag qs)
      k.takes ws →
      let t := ((s1.taken k ws).keepLanes k false qs).putAll k.r ws
      ∃ ls, exec i s = .next (({ t with late := t.late ++ ls } : State).complete k.r
          { marks := without c.marks c.written, sweep := true } none) ∧
        (c.align = some 0x07 → ls = []) ∧ LaterReads t k ls (PlainReads qs c.puts)) ∧
  (∀ d m x s k q, s.ctx = some k → k.team.liveSplits = 1 →
    s.reachBy k { cls := 0, data := true } (k.scalarAddress m x) 8 = .ok q → s.blocked k.part k.core.tile q.locs = false →
    let s1 := s.performMine k.r q.locs
    let t := (s1.keepReach k false q).modTeam k.r.part k.r.core k.r.slot fun t =>
      t.setScalar d (BitVec.ofNat 64 (leNat (s1.valueOf k.part.tag q)))
    ∃ ls, exec (.lds d m x) s = .next (({ t with late := t.late ++ ls } : State).complete k.r {} none) ∧
      LaterReads t k ls fun e ps => e = .scalar d.toNat ∧ (ps.flatMap fun p => p.locs) = q.locs) ∧
  ∀ (s : State) (w : Late) (d : LoadInto) (ps : List LoadPart) (x : Partition) (u : Team), w.load = some (d, ps) →
    s.part? w.writer.part = some x → s.team? w.writer.part w.writer.core w.writer.slot = some u →
    let bss := ps.map fun p => p.got.getD (s.partValue x.tag p)
    ∃ v, (s.performLate w).team? w.writer.part w.writer.core w.writer.slot = some v ∧ v.splits = u.splits ∧
      (s.performLate w).mem = s.mem ∧
      (∀ n, d = .scalar n → v.chunks = u.chunks ∧
        ∀ q, v.scalar q = if q = BitVec.ofNat 5 n then BitVec.ofNat 64 (leNat bss.flatten) else u.scalar q) ∧
      ((∀ n, d ≠ .scalar n) → v.sregs = u.sregs ∧ ((∀ e ∈ d.puts bss, e.lane < 1024) → ∀ name lane, lane < 1024 →
        v.container name lane = if (tableFind u.chunks (32 * name + lane / 32)).isSome then
          (writtenTo (d.puts bss) name lane).getD (u.container name lane) else u.container name lane))

/-- Stores: every check passes, the translations are kept, and the bytes of each acting lane are written as a team's write
events, now or later, behind everything the split stored before where the store releases; `st64` where no lane addresses an
aperture (R28, R215 to R217, R219, R245). -/
def Obligations.StoreResults : Prop :=
  ∀ i s k c qs, s.ctx = some k → storeClaim i k = some c → c.may →
    (∀ a m x, i = .st64 a m x → ∀ y ∈ c.accesses, s.kindAt k y.ea ≠ some 3) →
    let s1 := if c.orders then s.performOwn k.r else s
    s1.reachLanes k storeWant c.align c.accesses = .ok qs →
    (∀ q ∈ qs, s.blocked k.part k.core.tile q.2.locs = false) →
    exec i s = .next (((s1.keepLanes k true qs).performStores k.r (storeCells qs c.bytes)).complete k.r
      { marks := c.marks, sweep := c.sweep, nonIdem := s1.touchesPhased k 1 c.accesses } none)

/-- The stores of lanes that do not meet write exactly their bytes: once the split's waiting accesses are performed each stored
byte reads as stored, and every byte outside them, outside those that waiting stores and atomics of the split had still to
write before, and outside the leaf entries used, whose accessed and dirty bits are set, reads as before (R199, R208, R211,
R242; that atomics wait too is the model's choice, log entry 10). -/
def Obligations.StoresWriteExactlyTheirBytes : Prop :=
  ∀ (s : State) (k : Ctx) (qs : List (LaneAccess × Reach)) (bytes : Nat → List Byte), s.canonical →
    s.part? k.r.part = some k.part → overlap (qs.map fun q => q.2.locs) = false →
    (∀ q ∈ qs, q.2.locs.Nodup ∧ (bytes q.1.lane).length = q.2.locs.length) →
    let t := ((s.keepLanes k true qs).performStores k.r (storeCells qs bytes)).performOwn k.r
    (∀ q ∈ qs, q.2.locs.map (t.byteAt k.part.tag) = bytes q.1.lane) ∧
    SameBytes k.part.tag
      (fun loc => (∃ q ∈ qs, loc ∈ q.2.locs) ∨ (∃ w ∈ s.late, w.writer = k.r ∧ loc ∈ w.stores) ∨
        ∃ q ∈ qs, k.part.leafBytes q.2.pages loc) s t

/-- A line is read and written under the tag of one owner and generation only: to any other it reads zero, whatever data it
holds, in memory or as a slice keeps it, with no uncorrectable byte to stop the access; a write under another tag finds zeros
in the rest of the line, which then carries the writer's tag (R208). -/
def Obligations.ForeignLinesReadZero : Prop :=
  (∀ (s : State) tag loc, s.hidden tag (loc / 64) →
    s.byteAt tag loc = 0 ∧ s.cachedByte tag loc = 0 ∧ s.badAt tag loc = false) ∧
  ∀ (s : State) tag loc b other, s.canonical → s.hidden tag (loc / 64) → other / 64 = loc / 64 → other ≠ loc →
    (s.putByte tag loc b).byteAt tag other = 0 ∧ (s.putByte tag loc b).byteAt tag loc = b ∧
    (s.putByte tag loc b).hidden (s.tagOf (loc / 64)) (loc / 64)

/-- A group load reads 4 bytes of every member's frame at the address's offset and gives each acting lane their combination
in the order of the tree; on a KIND 1 page an absent member stands in it with the identity of the operation, which is one,
and sets TSTAT.GABSENT. On a KIND 5 page an absent member, and on either kind uncorrectable data of a member, stop the load
with trap 0x0A, which names the first member of the lowest lane and which of the two it met (R224 to R230). Each member may be
read at its own moment, also after the step (R231; how, is the model's choice, log entry 10). -/
def Obligations.GroupLoadResult : Prop :=
  (∀ d m c s k gs, s.ctx = some k → baseOk m → c.toNat ≤ 6 →
    (c.toNat = 2 ∨ c.toNat = 3 → k.type = 0 ∨ k.type = 1 ∨ k.type = 6) →
    s.groupLanes k (k.address m .none) k.acting = .ok gs →
    (∀ g ∈ gs, ∀ x ∈ g.members, s.blocked k.part k.core.tile ((g.locs k.part x).getD []) = false) →
    let s1 := s.performMine k.r (gs.flatMap fun g => g.members.flatMap fun x => (g.locs k.part x).getD [])
    let read (g : GroupLane) (x : Nat × Nat) : Nat := match k.part.memberBytes x (g.ea.toNat % 16384) with
      | none => groupIdentity c.toNat k.type
      | some locs => leNat (locs.map (s1.byteAt k.part.tag))
    let value (l : Nat) : Nat := match gs.find? fun g => g.lane = l with
      | none => 0
      | some g => groupTree (groupCombine c.toNat k.type) g.members.length g.members.length
          fun j => read g (g.members.getD j (0, 0))
    let ws := putLanes d k.acting fun l => BitVec.ofNat 32 (value l)
    k.takes ws → ∃ t ls,
      exec (.gld d m c) s = .next (({ t.putAll k.r ws with late := t.late ++ ls } : State).complete k.r
        { marks := without (markBase m) [d.toNat], sweep := true } none) ∧
      t = (s1.taken k ws).keepGroups k gs ∧
      (LaterReads (t.putAll k.r ws) k ls fun e ps => ∃ g ∈ gs,
        ps.map (fun p => (p.locs, p.cached)) = g.members.map (fun x =>
          ((k.part.memberBytes x (g.ea.toNat % 16384)).getD [], [])) ∧
        (∀ y ∈ ps.zip g.members, k.part.memberBytes y.2 (g.ea.toNat % 16384) = none →
          y.1.got = some (leBytes 4 (groupIdentity c.toNat k.type))) ∧
        ∀ bss : List (List Byte), bss.length = g.members.length → (∀ b ∈ bss, b.length = 4) →
          e.puts bss = [⟨d.toNat, g.lane, BitVec.ofNat 32 (groupTree (groupCombine c.toNat k.type) g.members.length
            g.members.length fun j => leNat (bss.getD j []))⟩]) ∧
      (∀ u, t.team? k.r.part k.r.core k.r.slot = some u → (u.gabsent ↔ k.team.gabsent ∨
        ∃ g ∈ gs, ∃ x ∈ g.members, k.part.memberBytes x (g.ea.toNat % 16384) = none)) ∧
      gs.map (fun g => (g.lane, g.ea)) = k.acting.map fun l => (l, k.address m .none l)) ∧
  (∀ op t x, op ≤ 6 → (op = 2 ∨ op = 3 → t = 0 ∨ t = 1 ∨ t = 6) → x < 2 ^ 32 →
    (fmtF32.isNan x = false ∨ op ≠ 1 ∧ t ≠ 6) →
    groupCombine op t x (groupIdentity op t) = x ∧ groupCombine op t (groupIdentity op t) x = x) ∧
  ∀ d m c s k l rest q ms, s.ctx = some k → baseOk m → c.toNat ≤ 6 →
    (c.toNat = 2 ∨ c.toNat = 3 → k.type = 0 ∨ k.type = 1 ∨ k.type = 6) → k.acting = l :: rest →
    let ea := k.address m .none l
    ea.toNat % 4 = 0 →
    s.translate k.part k.core.tile { cls := 4, write := false, sup := k.team.sup, kindOk := fun n => n = 1 || n = 5 }
      ea.toNat = .ok q →
    s.groupMembers k.part k.core.tile (entryFrame q.entry) = .ok ms →
    let locs (j : Nat) : Option (List Nat) := k.part.memberBytes (ms.getD j (0, 0)) (ea.toNat % 16384)
    let lost (j : Nat) : Prop := ∃ bs, locs j = some bs ∧ ∃ loc ∈ bs, s.badAt k.part.tag loc
    ∀ j < ms.length,
      (q.kind = 5 → locs j = none → (∀ i < j, locs i ≠ none) →
        TakesTrap (.gld d m c) s k { code := 0x0A, va := ea, cls := 4, arg := j, absent := true }) ∧
      (lost j → (∀ i < j, ¬ lost i) → (q.kind = 5 → ∀ i < ms.length, locs i ≠ none) →
        TakesTrap (.gld d m c) s k { code := 0x0A, va := ea, cls := 4, arg := j, absent := false })

/-- Atomics of acting lanes that do not meet: each lane reads its naturally aligned place and writes the new value there, an
`acas` that fails nothing; vd receives the old values; every other byte reads as before, but for the split's own waiting
stores and atomics and the leaf entries used (R242, R252 to R254). Atomics of lanes that meet are performed one after another,
in some order (R255). That some lanes' atomics are performed in the step that executes them and others later, each then on what
stands there, with the old value that it finds for the same register, is the model's choice (log entry 10): the results in
memory are stated for the split's accesses performed. -/
def Obligations.AtomicResults : Prop :=
  (∀ (s : State) (w : Late) (a : LateAtomic) (x : Partition), w.load = none → w.atomic = some a →
    s.part? w.writer.part = some x →
    let bs := a.part.got.getD (s.partValue x.tag a.part)
    let t := match a.op.apply a.type a.rnd a.a a.b (leNat bs) with
      | none => s
      | some v => s.store w.writer.part .team (a.part.locs.zip (leBytes a.part.locs.length v))
    (a.into = none → s.performLate w = t) ∧ ∀ d, a.into = some d → s.performLate w = t.giveLoad w.writer [bs] d) ∧
  ∀ i s k d m c n (typed : Prop) f qs, s.ctx = some k → atomicClaim i k = some (d, m, c, n, typed, f) → typed →
    baseOk m → atomicLegal k.type d c n →
    s.reachLanes k { cls := 2, write := true, shadow := true, data := true } (some 0x07)
      (accesses k.acting (k.address m .none) (atomicWidth k.type)) = .ok qs →
    (∀ q ∈ qs, s.blocked k.part k.core.tile q.2.locs = false) →
    let ws (f : Nat → Nat) : List Put := atomicPuts k.type d k.acting f
    k.takes (ws fun _ => 0) →
    let s1 := ((s.performMine k.r (reached qs)).taken k (ws fun _ => 0)).keepLanes k true qs
    let shape : Shape :=
      { marks := without (markBase m ++ markV c (n * spanOf (typeWide k.type))) (match d with
          | .discard => []
          | .to x => namesOf x (spanOf (typeWide k.type))), sweep := true, nonIdem := true }
    let old (q : LaneAccess × Reach) : Nat := leNat (s1.valueOf k.part.tag q.2)
    let new (q : LaneAccess × Reach) (m : Nat) : Option Nat := f m (k.atomicData c 0 q.1.lane) (k.atomicData c 1 q.1.lane)
    let value (l : Nat) : Nat := match qs.find? fun q => q.1.lane = l with
      | none => 0
      | some q => old q
    ∃ (what : LaneAccess × Reach → LateAtomic) (waits : Nat → Bool),
      (∀ q ∈ qs, (what q).part = ⟨q.2.locs, q.2.cached, none⟩ ∧
        (∀ m < 256 ^ atomicWidth k.type, (what q).op.apply (what q).type (what q).rnd (what q).a (what q).b m = new q m) ∧
        ∀ bs : List Byte, bs.length = atomicWidth k.type →
          (what q).into.elim [] (LoadInto.puts [bs]) = atomicPuts k.type d [q.1.lane] fun _ => leNat bs) ∧
      let perform (l : List (LaneAccess × Reach)) : State × List (Nat × Nat) :=
        s1.performAtomics k.r k.part.tag waits (l.map fun q => (q.1.lane, what q))
      (∃ order, order.Perm qs ∧ exec i s = .next (((perform order).1.putAll k.r (ws fun l =>
        (((perform order).2.find? fun o => o.1 = l).map fun o => o.2).getD 0)).complete k.r shape none)) ∧
      (overlap (qs.map fun q => q.2.locs) = false → exec i s =
        .next (((perform qs).1.putAll k.r (ws value)).complete k.r shape none)) ∧
      (overlap (qs.map fun q => q.2.locs) = false → s.canonical →
        (∀ q ∈ qs, q.2.locs.Nodup ∧ q.2.locs.length = atomicWidth k.type) →
        let t := (perform qs).1.performOwn k.r
        (∀ q ∈ qs, q.2.locs.map (t.byteAt k.part.tag) = match new q (old q) with
          | none => q.2.locs.map (s1.byteAt k.part.tag)
          | some v => leBytes (atomicWidth k.type) v) ∧
        SameBytes k.part.tag (fun loc => (∃ w ∈ s.late, w.writer = k.r ∧ loc ∈ w.stores) ∨ ∃ q ∈ qs, loc ∈ q.2.locs) s1 t ∧
        SameBytes k.part.tag (fun loc => (∃ w ∈ s.late, w.writer = k.r ∧ loc ∈ w.stores) ∨
          ∃ q ∈ qs, k.part.leafBytes q.2.pages loc) s s1)

/-- Hints change nothing: `nop`, `pref`, `fence` at split scope, and `evict` of addresses that walk but for the copies that
slices keep of the lines it names (in pages of KIND 0 with HOME 00 or 10), which are dropped. A fence at another scope
performs every access of its split that waits, stores exactly as stored, and so does `fencee` with no copy and no drain of the
team outstanding; one of a team with copies waits until its engines have taken every line of theirs, one of a team with drains
until they are performed (R119, R220, R221, R246, R251, R257). The model's choices: `evict` keeps no translation and sets no A
bit (log entry 27), a waiting `fencee` looks at the copies of each of its issues (log entry 37), a fence of every scope from 1
performs everything that waits (log entry 10). -/
def Obligations.HintsAndFences : Prop :=
  let still (k : Ctx) (marks : List Nat) (u v : Team) : Prop := Kept k id false [] u v ∧ SameScalars u v ∧ SameLanes marks u v
  (∀ s k, s.ctx = some k → Continues .nop s k true (k.split.pc + 4) (still k [])) ∧
  (∀ m x s k, s.ctx = some k → baseOk m → Continues (.pref m x) s k true (k.split.pc + 4) (still k (markMem m x))) ∧
  (∀ m x s k, s.ctx = some k → baseOk m → (∀ l ∈ k.acting, s.evictFault k (k.address m x l) = none) →
    ∃ f : Team → Team, still k (markMem m x) k.team (f k.team) ∧
      let lines := k.acting.filterMap fun l => s.evictLine k (k.address m x l)
      let t := { s with slices := s.slices.filter fun c => !lines.contains c.1 }
      exec (.evict m x) s =
        .next (((t.modTeam k.r.part k.r.core k.r.slot f).swept k.r k.split.mask true).moveTo k.r (k.split.pc + 4))) ∧
  (∀ s k, s.ctx = some k → Continues (.fence 0) s k false (k.split.pc + 4) (still k [])) ∧
  (∀ c s k, s.ctx = some k → c.toNat ≤ 5 →
    exec (.fence c) s = .next ((if c = 0 then s else s.performOwn k.r).complete k.r {} none)) ∧
  (∀ c s k, s.ctx = some k → 2 ≤ c.toNat → c.toNat ≤ 5 → k.drains = false →
    (k.core.copiesOf k.team.issuer = [] → exec (.fencee c) s = .next ((s.performOwn k.r).complete k.r {} none)) ∧
    ∀ t taken, (s.performOwn k.r).takeCopies k.r.part k.r.core (k.core.copiesOf k.team.issuer) = (t, taken) →
      exec (.fencee c) s = .next (if taken then t.complete k.r {} none else t.modSplit k.r fun x => { x with begun := true })) ∧
  (∀ c s k, s.ctx = some k → 2 ≤ c.toNat → c.toNat ≤ 5 → k.drains →
    exec (.fencee c) s = .next (((s.performOwn k.r).takeCopies k.r.part k.r.core (k.core.copiesOf k.team.issuer)).1.modSplit k.r
      fun x => { x with begun := true })) ∧
  ∀ (s : State) (r : SplitRef) (x : Partition), s.canonical → s.part? r.part = some x →
    (∀ w ∈ (s.performOwn r).late, w.writer ≠ r ∧ w ∈ s.late) ∧
    SameBytes x.tag (fun loc => ∃ w ∈ s.late, w.writer = r ∧ loc ∈ w.stores) s (s.performOwn r) ∧
    ∀ w, (s.late.filter fun w => w.writer = r) = [w] → w.load = none → w.atomic = none → (w.cells.map (·.1)).Nodup →
      ∀ c ∈ w.cells, (s.performOwn r).byteAt x.tag c.1 = c.2

/-! # Barriers, monitors, stamps -/

/-- `binit` releases a barrier's waiters with 0 and gives it the configuration of sb: valid, with the next generation, in
phase 0, with no arrival and nothing pending; a bad configuration raises trap 0x02. `binv` releases the waiters, invalidates
the barrier, clears its counts and its swap set and takes the next generation; both perform every access to the pairs of the
swap sets that has been taken up before, so that it meets the bank that it was checked for (R235, R460; that such an access is
performed rather than checked again is the model's choice, log entry 10). `bexp` adds to what the barrier expects, moves
the arrivals beyond it to the next phase, and completes the barrier where that is met; it traps on an invalid barrier and on
a count out of range. The waiters are the splits in `bwait`, `btry` and `barx` on the barrier, and each receives the result in
every lane and completes; a split that waits for EARLY to have room has not arrived and is none of them (log entry 25, the
model's choice). A completion with a swap set exchanges front and shadow of its pairs, the new shadow reading zero, before
any waiter goes on (R235, R260, R263, R266, R268, R269, R272, R273). -/
def Obligations.BarrierConfiguration : Prop :=
  let released (s : State) (k : Ctx) (n : Nat) (pairs : List Nat) : State :=
    (s.settlePairs k.r.part k.r.core pairs).releaseAll k.r.part k.r.core false (k.core.waiters (waitsBar n))
  let set (b : Barrier) : List Nat := if b.valid ∧ b.swap then (List.range b.pairs).map (b.pair + ·) else []
  (∀ a b s k n, s.ctx = some k → k.barrier (k.s a) false = .ok (k.r.core, n) →
    let v := (k.s b).toNat
    let expect := v % 2 ^ 16
    let swap := (k.s b).getLsbD 16
    let pair := v / 2 ^ 17 % 2 ^ 7
    let pairs := v / 2 ^ 24 % 2 ^ 7
    let good := 1 ≤ expect ∧ pair + pairs ≤ 96 ∧ (swap → pairs ≠ 0) ∧ (swap = false → pair = 0 ∧ pairs = 0) ∧ v < 2 ^ 31
    let named : List Nat := if swap then (List.range pairs).map (pair + ·) else []
    (good → exec (.binit a b) s = .next (((released s k n (set (k.core.bar n) ++ named)).modCore k.r.part k.r.core fun c => c.setBar n
      { valid := true, expect := expect, arrived := 0, early := 0, phase := false, pending := 0
        gen := ((c.bar n).gen + 1) % 256, swap := swap, pair := pair, pairs := pairs }).complete k.r { nonIdem := true } none)) ∧
    (¬ good → TakesTrap (.binit a b) s k { code := 0x02, va := k.split.pc })) ∧
  (∀ a s k n, s.ctx = some k → k.barrier (k.s a) false = .ok (k.r.core, n) →
    exec (.binv a) s = .next (((released s k n (set (k.core.bar n))).modCore k.r.part k.r.core fun c => c.setBar n
      { valid := false, expect := (c.bar n).expect, arrived := 0, early := 0, phase := (c.bar n).phase, pending := 0
        gen := ((c.bar n).gen + 1) % 256, swap := false, pair := 0, pairs := 0 }).complete k.r { nonIdem := true } none)) ∧
  (∀ a b s k n, s.ctx = some k → k.barrier (k.s a) false = .ok (k.r.core, n) →
    let x := k.core.bar n
    let more : Int := x.expect + ((k.s b).setWidth 32 : W32).toInt
    let excess := x.arrived - more.toNat
    (x.valid = false → TakesTrap (.bexp a b) s k { code := 0x10, va := k.split.pc }) ∧
    (x.valid → more < 1 ∨ 65535 < more ∨ 65535 < x.early + excess →
      TakesTrap (.bexp a b) s k { code := 0x02, va := k.split.pc }) ∧
    (x.valid → 1 ≤ more → more ≤ 65535 → x.early + excess ≤ 65535 →
      exec (.bexp a b) s = .next (((s.modCore k.r.part k.r.core fun c => c.setBar n
        { x with expect := more.toNat, arrived := x.arrived - excess, early := x.early + excess }).checkBar
          k.r.part k.r.core n).complete k.r { nonIdem := true } none))) ∧
  (∀ (s : State) p l ks c, s.core? p l = some c → ∀ w ∈ (s.settlePairs p l ks).late, w ∈ s.late ∧
    (w.writer.part = p → ∀ n ∈ ks, ∀ off < 16384, scratchLoc c.tile c.phys (2 * n) off ∉ w.locs ∧
      scratchLoc c.tile c.phys (2 * n + 1) off ∉ w.locs)) ∧
  (∀ (c : Core) n slot e pd arrival, (slot, e, pd, arrival) ∈ c.waiters (waitsBar n) ↔
    ∃ t ∈ c.teams, t.slot = slot ∧ ∃ x ∈ t.splits, x.entry = e ∧
      ((∃ since, x.wait = .bwait n pd since) ∧ arrival = false ∨ (∃ left, x.wait = .barx n left pd) ∧ arrival = true)) ∧
  (∀ (s : State) p l v slot e pd arrival rest,
    s.releaseAll p l v [] = s ∧
    s.releaseAll p l v ((slot, e, pd, arrival) :: rest) =
      ((s.putPredAll ⟨p, l, slot, e⟩ pd v).complete ⟨p, l, slot, e⟩ { nonIdem := arrival } none).releaseAll p l v rest) ∧
  (∀ (s : State) r k pd v, s.ctxAt r = some k → ∃ u, (s.putPredAll r pd v).team? r.part r.core r.slot = some u ∧
    (∀ lane ∈ k.lanes, u.predicate pd lane = v) ∧
    ∀ name lane, lane < 1024 → ¬ (name = predName pd ∧ lane ∈ k.lanes) → u.container name lane = k.team.container name lane) ∧
  ∀ (s : State) p l n c, s.core? p l = some c →
    let x := c.bar n
    (¬ (x.valid ∧ x.arrived = x.expect ∧ x.pending = 0) → s.checkBar p l n = s) ∧
    (x.valid → x.arrived = x.expect → x.pending = 0 → x.swap = false →
      s.checkBar p l n = ((s.modCore p l fun c => (c.setBar n x.turn).nextPhase n).releaseAll p l true
        (c.waiters (waitsPhase n))).completeBar p l n (x.early + 1)) ∧
    (x.valid → x.arrived = x.expect → x.pending = 0 → x.swap →
      s.checkBar p l n = (((s.swapPairs p l x.pair x.pairs).modCore p l fun c => (c.setBar n x.turn).nextPhase n).releaseAll
        p l true (c.waiters (waitsPhase n))).completeBar p l n (x.early + 1)) ∧
    ∀ pair, ∃ d, (s.swapPair p l pair).core? p l = some d ∧ d.tile = c.tile ∧ d.phys = c.phys ∧
      d.bankFrame (2 * pair) = c.bankFrame (2 * pair + 1) ∧ d.bankFrame (2 * pair + 1) = c.bankFrame (2 * pair) ∧
      (∀ f, f / 2 ≠ pair → d.bankFrame f = c.bankFrame f) ∧
      ∀ tag off, off < 16384 →
        (s.swapPair p l pair).byteAt tag (scratchLoc d.tile d.phys (d.bankFrame (2 * pair + 1)) off) = 0

/-- An arrival, before which everything the split has accessed is performed (R267), at a barrier of the team's own core that has
room is counted at once, in ARRIVED, or in EARLY once the phase has all it expects; `barv` completes with the count, `barx`
waits for the phase to end; a remote `barv` waits for the fabric, and the owning core counts it, has it wait for EARLY, where
65,535 stand there already, to have room, or, at an invalid barrier, stops it with trap 0x10. A completion flips the phase and
carries as many early arrivals over as the barrier expects (R264, R266, R268, R270). The model's choices: `barx` takes the
chunks of
its predicate when it issues, and waits for them where it does not get them (log entry 16), and one counted in EARLY waits for
two completions (log entry 24). -/
def Obligations.ArrivalsAreCounted : Prop :=
  (∀ a s k n x early, s.ctx = some k → handleRemote (k.s a) = false → k.barrier (k.s a) true = .ok (k.r.core, n) →
    (k.core.bar n).arrive = .counted x early →
    exec (.barv a) s = .next ((((s.performOwn k.r).modCore k.r.part k.r.core fun c => c.setBar n x).complete k.r
      { nonIdem := true } none).checkBar k.r.part k.r.core n)) ∧
  (∀ d a s k n x early, s.ctx = some k → k.barrier (k.s a) false = .ok (k.r.core, n) →
    (k.core.bar n).arrive = .counted x early →
    let ws := putPreds d k.lanes fun _ => false
    k.takes ws →
    exec (.barx d a) s = .next ((((s.awaits k ws).performOwn k.r).modCore k.r.part k.r.core fun c => c.setBar n x).modSplit k.r
      (fun y => { y with state := .waitingBarrier, wait := .barx n (if early then 2 else 1) d }) |>.checkBar
        k.r.part k.r.core n)) ∧
  (∀ a s k l n, s.ctx = some k → handleRemote (k.s a) → k.barrier (k.s a) true = .ok (l, n) →
    exec (.barv a) s = .next ((s.performOwn k.r).modSplit k.r fun x =>
      { x with
        state := .waitingBarrier, begun := true
        wait := .remote (handleCore (k.s a)) (handleSlot (k.s a)) (handleIndex (k.s a)) })) ∧
  (∀ d a s k n, s.ctx = some k → k.barrier (k.s a) false = .ok (k.r.core, n) → (k.core.bar n).valid →
    let ws := putPreds d k.lanes fun _ => false
    ¬ k.takes ws →
    exec (.barx d a) s = .next ((s.taken k ws).modSplit k.r fun x =>
      { x with
        state := .waitingMemory, wait := .chunk (k.core.takeChunks k.team (chunksOf ws) []).2.2
        drawn := x.drawn ++ (k.core.takeChunks k.team (chunksOf ws) []).2.1, begun := true })) ∧
  (∀ r s k l slot index b, s.ctxAt r = some k → s.frozen r = false → k.split.wait = .remote l slot index →
    (k.part.core? l).any Core.silent = false → s.awaitsCore k.part r.core l = false →
    k.part.remoteBar k.team.launch l slot index = some b →
    exec (.remoteArrival r) s = .next (s.arriveAt r l b none)) ∧
  (∀ (r : SplitRef) (s : State) (k : Ctx) (l b : Nat) (c : Core), s.ctxAt r = some k → (s.performOwn r).core? r.part l = some c →
    (∀ d, (c.bar b).arrive = .invalid →
      s.arriveAt r l b d = ((s.performOwn r).raise r { code := 0x10, va := k.split.pc }).reap (teamOf r)) ∧
    (∀ d, (c.bar b).arrive = .crowded →
      s.arriveAt r l b d = (s.performOwn r).modSplit r fun x => { x with state := .waitingBarrier, wait := .early l b d }) ∧
    ∀ x early, (c.bar b).arrive = .counted x early →
      let t := (s.performOwn r).modCore r.part l fun c => c.setBar b x
      s.arriveAt r l b none = (t.complete r { nonIdem := true } none).checkBar r.part l b ∧
      ∀ d, s.arriveAt r l b (some d) = (t.modSplit r fun y =>
        { y with state := .waitingBarrier, wait := .barx b (if early then 2 else 1) d }).checkBar r.part l b) ∧
  (∀ r s k l b d, s.ctxAt r = some k → s.frozen r = false → k.split.wait = .early l b d →
    exec (.earlyRoom r) s = .next (s.arriveAt r l b d)) ∧
  (∀ b : Barrier, b.valid → b.early < 65535 → b.arrived < b.expect →
    b.arrive = .counted { b with arrived := b.arrived + 1 } false) ∧
  (∀ b : Barrier, b.valid → b.early < 65535 → b.expect ≤ b.arrived →
    b.arrive = .counted { b with early := b.early + 1 } true) ∧
  (∀ b : Barrier, b.valid = false → b.arrive = .invalid) ∧
  (∀ b : Barrier, b.valid → 65535 ≤ b.early → b.arrive = .crowded) ∧
  ∀ b : Barrier, b.turn.phase = !b.phase ∧ b.turn.arrived + b.turn.early = b.early ∧ b.turn.arrived ≤ b.expect ∧
    (b.turn.early = 0 ∨ b.turn.arrived = b.expect)

/-- A wait whose condition already holds completes at once with its result in every lane of the split: `bwait` and `btry`
with 1 after the phase's end and with 0 at an invalid barrier, `gbwait` and `gbtry` with 1 after the release, `mwait` and
`mtry` once the monitor has been triggered, `swait` and `stry` once the stamp meets its target (R268, R271, R280, R286,
R317). -/
def Obligations.MetWaitsComplete : Prop :=
  let res (k : Ctx) (d : PReg) (v : Bool) : List Put := putPreds d k.lanes fun _ => v
  (∀ d a s k l n, s.ctx = some k → k.barrier (k.s a) false = .ok (l, n) → k.takes (res k d false) →
    (k.core.bar n).valid = false ∨ (k.core.bar n).phase ≠ handlePh (k.s a) →
    Continues (.bwait d a) s k false (k.split.pc + 4) (LaneResult k [] (res k d (k.core.bar n).valid)) ∧
    Continues (.btry d a) s k false (k.split.pc + 4) (LaneResult k [] (res k d (k.core.bar n).valid))) ∧
  (∀ d s k, s.ctx = some k → k.takes (res k d false) → k.split.gridCut = .none ∨ k.split.gridCut = .waiting →
    k.team.grid = some (!k.core.gph) →
    let done (u v : Team) : Prop := v.grid = none ∧ LaneResult k [] (res k d true) u { v with grid := u.grid }
    Continues (.gbwait d) s k false (k.split.pc + 4) done ∧ Continues (.gbtry d) s k false (k.split.pc + 4) done) ∧
  (∀ s k, s.ctx = some k → k.team.monitor.armed → k.team.monitor.trig →
    Continues .mwait s k false (k.split.pc + 4) fun u v =>
      v.monitor = { u.monitor with armed := false } ∧ LaneResult k [] [] u { v with monitor := u.monitor }) ∧
  (∀ d s k, s.ctx = some k → k.takes (res k d false) → k.team.monitor.armed → k.team.monitor.trig →
    Continues (.mtry d) s k false (k.split.pc + 4) fun u v =>
      v.monitor = { u.monitor with armed := false } ∧ LaneResult k [] (res k d true) u { v with monitor := u.monitor }) ∧
  (∀ a b s k q, s.ctx = some k → s.stampReach k (k.s a) = .ok q → s.blocked k.part k.core.tile q.locs = false →
    let s1 := s.performMine k.r q.locs
    let now : W64 := BitVec.ofNat 64 (leNat (s1.valueOf k.part.tag q))
    (now.getLsbD 63 ∨ (k.s b).toNat % 2 ^ 63 ≤ now.toNat % 2 ^ 63 →
      exec (.swait a b) s = .next ((s1.keepReach k false q).complete k.r {} none)) ∧
    (¬ (now.getLsbD 63 ∨ (k.s b).toNat % 2 ^ 63 ≤ now.toNat % 2 ^ 63) →
      exec (.swait a b) s = .next ((s1.keepReach k false q).modSplit k.r fun x =>
        { x with state := .waitingMemory, wait := .stamp (k.s a) (k.s b) none s.cycle false, begun := true }))) ∧
  ∀ d a b s k q, s.ctx = some k → s.stampReach k (k.s a) = .ok q → s.blocked k.part k.core.tile q.locs = false →
    k.takes (res k d false) →
    let s1 := s.performMine k.r q.locs
    let now : W64 := BitVec.ofNat 64 (leNat (s1.valueOf k.part.tag q))
    now.getLsbD 63 ∨ (k.s b).toNat % 2 ^ 63 ≤ now.toNat % 2 ^ 63 →
    exec (.stry d a b) s = .next ((((s1.keepReach k false q).awaits k (res k d false)).putPredAll k.r d true).complete
      k.r {} none)

/-- `gbar` performs what its split has stored and marks the core's arrival and the team's record with the phase. The release
begins once every core's input is 1, and while it is under way reaches each core that it has not reached: the core's arrival
is cleared, its phase flips, its waiters whose team's record holds the released phase or that hold none complete with 1 in
every lane, the records of their teams are cleared, an excuse that stood only for the first release after a quiesce is gone
(R421), and nothing else of the module changes. `mon` arms the team's monitor on the line of an address and clears its trigger
(R275 to R277, R284). -/
def Obligations.GridBarrierAndMonitor : Prop :=
  (∀ s k, s.ctx = some k →
    exec .gbar s = .next ((((s.performOwn k.r).modTeam k.r.part k.r.core k.r.slot fun t =>
      { t with grid := some k.core.gph }).modCore k.r.part k.r.core fun c => { c with garr := true }).complete k.r
        { nonIdem := true } none)) ∧
  (∀ s p l x c due, s.part? p = some x → s.core? p l = some c → x.hold ≠ .suspended → c.warm = none →
      x.releasing = some due ∨ (x.releasing = none ∧ (∀ c ∈ x.cores, c.garr ∨ c.excuse) ∧ due = List.range x.cores.length) →
      l ∈ due →
      let left := due.filter (· ≠ l)
      let go := c.gridWaiters c.gph
      exec (.gridRelease p l) s = .next (((s.modCore p l fun d =>
        { d with
          garr := false, gph := !d.gph, excuse := d.excuse && (!d.excuseOnce || d.lost), excuseOnce := d.excuseOnce && d.lost
          teams := d.teams.map fun t => if ∃ w ∈ go, w.1 = t.slot then { t with grid := none } else t }).releaseAll p l true
            go).modPart p fun y => { y with releasing := if left = [] then none else some left })) ∧
  (∀ (c : Core) (ph : Bool) slot e pd arrival, (slot, e, pd, arrival) ∈ c.gridWaiters ph ↔ arrival = false ∧
    ∃ t ∈ c.teams, t.slot = slot ∧ (t.grid = none ∨ t.grid = some ph) ∧ ∃ x ∈ t.splits, x.entry = e ∧
      ∃ since, x.wait = .grid pd since) ∧
  (∀ (s : State) p l slot e pd rest,
    s.releaseAll p l true [] = s ∧
    s.releaseAll p l true ((slot, e, pd, false) :: rest) =
      ((s.putPredAll ⟨p, l, slot, e⟩ pd true).complete ⟨p, l, slot, e⟩ {} none).releaseAll p l true rest) ∧
  (∀ (s : State) r k pd, s.ctxAt r = some k → ∃ u, (s.putPredAll r pd true).team? r.part r.core r.slot = some u ∧
    (∀ lane ∈ k.lanes, u.predicate pd lane = true) ∧ u.splits.map (fun x => (x.entry, x.pc, x.mr, x.mask)) =
      k.team.splits.map (fun x => (x.entry, x.pc, x.mr, x.mask)) ∧
    ∀ name lane, lane < 1024 → ¬ (name = predName pd ∧ lane ∈ k.lanes) → u.container name lane = k.team.container name lane) ∧
  ∀ a s k q, s.ctx = some k → s.reachBy k { cls := 0, kinds := [0] } (k.s a) 1 = .ok q →
    exec (.mon a) s = .next (((s.keepReach k false q).modTeam k.r.part k.r.core k.r.slot fun t =>
      { t with monitor := { armed := true, trig := false, line := q.ppa / 64 * 64 } }).complete k.r {} none)

/-! # The copy engine, tiles and accumulators -/

/-- `csync` drops the templates that engines keep, once what the split has still to store to the templates it names is
performed, and no other access; `cabort` with no copy of the team in the named queues completes, and with
some ends them in error and waits for them; an aperture store offers one copy a lane and completes once every one has a place
in its queue, and waits where a queue is full (R298, R314, R319, R320); an `st64` whose lanes name an aperture and another
page raises trap 0x09 at the first lane of the other kind (R291). The model's choices: that stores wait at all, and that a
`csync` performs those to its templates (log entry 10), and the trap of a mixed `st64` goes before a fault of a lower lane's
walk, as R291 is read against R213 (log entry 94). -/
def Obligations.CopyControl : Prop :=
  (∀ a s k, s.ctx = some k → (k.s a).toNat < 8192 →
    (k.s a).toNat / 4096 = 1 ∨ (k.s a).toNat % 4096 < k.part.csr.ttsize →
    let slots := if (k.s a).toNat / 4096 = 1 then List.range k.part.csr.ttsize else [(k.s a).toNat % 4096]
    let lines := slots.flatMap fun i => ((k.part.locsOf (k.part.csr.ttbase.toNat + 64 * i) 64).getD []).map fun loc => loc / 64
    exec (.csync a) s = .next (((s.performMyLines k.r lines).modPart k.r.part fun x =>
      { x with tcache := x.tcache.filter fun e => (k.s a).toNat < 4096 && e.2.1 ≠ (k.s a).toNat % 4096 }).complete k.r {} none)) ∧
  (∀ (s : State) r lines w, w ∈ (s.performMyLines r lines).late ↔
    w ∈ s.late ∧ ¬ (w.writer = r ∧ ∃ loc ∈ w.stores, loc / 64 ∈ lines)) ∧
  (∀ a s k, s.ctx = some k → (k.s a).toNat < 64 →
    let mine := (k.core.copiesOf k.team.issuer).filter fun c => 32 ≤ (k.s a).toNat || c.1 = (k.s a).toNat % 32
    exec (.cabort a) s = .next (if mine = [] then s.complete k.r {} none
      else (mine.foldl (fun t c => if c.2.error then t else t.failCopy k.r.part k.r.core c.1 c.2) s).modSplit k.r
        fun x => { x with state := .waitingMemory, wait := .cancel (mine.map fun c => c.2.id), begun := true })) ∧
  (∀ a m x s k os t, s.ctx = some k → baseOk m → a.reg.toNat % 2 = 0 →
    let as := accesses k.acting (k.address m x) 8
    let records := as.flatMap fun y => s.argLocs k (k.v2 a y.lane)
    let s1 := s.performMine k.r records
    (∃ y ∈ as, s.kindAt k y.ea = some 3) → s.blocked k.part k.core.tile records = false → s1.checkOffers k (k.v2 a) as = .ok os →
    (os.foldl (fun u o => u.keepOffer k o.1.lane o.1.ea (k.v2 a o.1.lane) o.2) s1).acceptAll k.r
      (os.map fun o => o.2) = (t, []) →
    exec (.st64 a m x) s = .next (t.complete k.r
      { marks := markV a 2 ++ markMem m x, sweep := true, nonIdem := true } none)) ∧
  (∀ a m x s k os t o more, s.ctx = some k → baseOk m → a.reg.toNat % 2 = 0 →
    let as := accesses k.acting (k.address m x) 8
    let records := as.flatMap fun y => s.argLocs k (k.v2 a y.lane)
    let s1 := s.performMine k.r records
    (∃ y ∈ as, s.kindAt k y.ea = some 3) → s.blocked k.part k.core.tile records = false → s1.checkOffers k (k.v2 a) as = .ok os →
    (os.foldl (fun u o => u.keepOffer k o.1.lane o.1.ea (k.v2 a o.1.lane) o.2) s1).acceptAll k.r
      (os.map fun o => o.2) = (t, o :: more) →
    exec (.st64 a m x) s = .next (t.modSplit k.r fun y =>
      { y with state := .waitingMemory, wait := .aperture (o :: more) (markV a 2 ++ markMem m x), begun := true })) ∧
  ∀ a m x s k y, s.ctx = some k → baseOk m → a.reg.toNat % 2 = 0 →
    let as := accesses k.acting (k.address m x) 8
    let records := as.flatMap fun z => s.argLocs k (k.v2 a z.lane)
    (∃ z ∈ as, s.kindAt k z.ea = some 3) → s.blocked k.part k.core.tile records = false →
    (as.find? fun z => ((s.performMine k.r records).kindAt k z.ea).any fun n => n ≠ 3) = some y →
    TakesTrap (.st64 a m x) s k { code := 0x09, va := y.ea, cls := 1 }

/-- Tile and accumulator instructions that touch no memory, with no joint instruction of the team still to be performed and
the tiles named idle: configuration, zeroing, moves, exchange, the gang register (R302, R332, R343, R347, R349, R351,
R353). -/
def Obligations.TileAndAccumulatorResults : Prop :=
  (∀ d a s k, s.ctx = some k → k.latched = false → d.toNat < k.team.hdr.tiles → ctlOk (k.s a) k.team.hdr.tiles → (k.tile d).busy = 0 →
    exec (.tcfg d a) s = .next ((s.setTile k d { k.tile d with ctl := k.s a }).complete k.r {} none)) ∧
  (∀ d s k, s.ctx = some k → k.latched = false → d.toNat < k.team.hdr.tiles → (k.tile d).busy = 0 →
    exec (.tzero d) s = .next ((s.setTile k d
      { k.tile d with bytes := [], tag := ctlTag (k.tile d).ctl, rows := 64, rbytes := 256 }).complete k.r {} none)) ∧
  (∀ d a s k, s.ctx = some k → k.latched = false → d.toNat < k.team.hdr.tiles → a.toNat < k.team.hdr.tiles →
    (k.tile d).busy = 0 → (k.tile a).busy = 0 →
    exec (.tmov d a) s = .next ((s.setTile k d { k.tile d with
      bytes := (k.tile a).bytes, tag := (k.tile a).tag, rows := (k.tile a).rows, rbytes := (k.tile a).rbytes }).complete
        k.r {} none)) ∧
  (∀ a s k, s.ctx = some k → (k.s a).toNat < 2 ^ k.team.hdr.gang → (k.s a).getLsbD k.team.gangix →
    Continues (.gang a) s k false (k.split.pc + 4) fun u v =>
      v.gangReg = (k.s a).setWidth 6 ∧ LaneResult k [] [] u { v with gangReg := u.gangReg }) ∧
  (∀ d a b s k, s.ctx = some k → k.latched = false → d.toNat < k.team.hdr.accs → (k.s a).toNat < 3 →
    ((k.s a).toNat = 2 → (k.s b).toNat % 2 = 1 ∧ 3 ≤ (k.s b).toNat ∧ (k.s b).toNat < 2 ^ 62) →
    exec (.acfg d a b) s = .next ((s.setAcc k d
      { entries := [], mode := (k.s a).toNat, modulus := if (k.s a).toNat = 2 then k.s b else 0, status := 0 }).complete k.r {} none)) ∧
  (∀ d s k, s.ctx = some k → k.latched = false → d.toNat < k.team.hdr.accs →
    exec (.aclr d) s = .next ((s.setAcc k d { k.acc d with entries := [], status := 0 }).complete k.r {} none)) ∧
  (∀ d a s k, s.ctx = some k → k.latched = false → d.toNat < k.team.hdr.accs → a.toNat < k.team.hdr.accs →
    exec (.amov d a) s = .next ((s.setAcc k d (k.acc a)).complete k.r {} none)) ∧
  ∀ d a s k, s.ctx = some k → k.latched = false → d.toNat < k.team.hdr.accs → a.toNat < k.team.hdr.accs →
    exec (.aswap d a) s = .next (((s.setAcc k d (k.acc a)).setAcc k a (k.acc d)).complete k.r { nonIdem := true } none)

/-- Blocks between memory and the tile and accumulator files, the tile idle and no joint instruction of the team still to be
performed: `tld` fills ROWS rows of RBYTES bytes and gives the tile its control tag, `tst` writes the rows of a tile whose
tag and shape fit, its bytes now or later, and `aload` loads 4,096 entries; in M mode an entry at or above the modulus is
reduced and sets MODR. A tile with another tag, or filled too little, raises trap 0x0C or 0x0D (R245, R327, R328, R350,
R354). That some of the units of `tld` and `aload` are read later, of bytes that the file then takes, an entry holding 0 until
its last byte is read, is the model's choice (log entry 10). -/
def Obligations.BlockTransfers : Prop :=
  (∀ d m x s k q, s.ctx = some k → k.latched = false → d.toNat < k.team.hdr.tiles → (k.tile d).busy = 0 →
    let rows := ctlRows (k.tile d).ctl
    let rb := ctlRbytes (k.tile d).ctl
    s.reachBlock k blockRead (k.scalarAddress m x) (rows * rb) = .ok q → s.blocked k.part k.core.tile q.locs = false →
    let s1 := s.performMine k.r q.locs
    let row (r : Nat) : List Byte := ((s1.valueOf k.part.tag q).drop (r * rb)).take rb
    let t := (s1.keepReach k false q).setTile k d
      { (List.range rows).foldl (fun (u : Tile) r => u.putRow r (row r)) (k.tile d) with
        tag := ctlTag (k.tile d).ctl, rows := rows, rbytes := rb }
    ∃ ls, exec (.tld d m x) s = .next (({ t with late := t.late ++ ls } : State).complete k.r {} none) ∧
      LaterReads t k ls fun e ps => ∃ first n, e = .tile (k.tileNo d) first rb ∧
        (ps.flatMap fun p => p.locs) = (q.locs.drop first).take n ∧
        ∀ p ∈ ps, ∀ loc ∈ p.locs, (loc ∈ p.cached ↔ loc ∈ q.cached)) ∧
  (∀ a m x s k q, s.ctx = some k → k.latched = false → a.toNat < k.team.hdr.tiles → (k.tile a).busy = 0 →
    let rows := ctlRows (k.tile a).ctl
    let rb := ctlRbytes (k.tile a).ctl
    s.reachBlock k storeWant (k.scalarAddress m x) (rows * rb) = .ok q →
    (ctlTag (k.tile a).ctl ≠ (k.tile a).tag → TakesTrap (.tst a m x) s k { code := 0x0C, va := k.split.pc }) ∧
    (ctlTag (k.tile a).ctl = (k.tile a).tag → (k.tile a).rows < rows ∨ (k.tile a).rbytes < rb →
      TakesTrap (.tst a m x) s k { code := 0x0D, va := k.split.pc }) ∧
    (ctlTag (k.tile a).ctl = (k.tile a).tag → rows ≤ (k.tile a).rows → rb ≤ (k.tile a).rbytes →
      s.blocked k.part k.core.tile q.locs = false →
      exec (.tst a m x) s = .next (((s.keepReach k true q).storeBlock k.r q.locs ((List.range (rows * rb)).map fun n =>
        BitVec.ofNat 8 ((k.tile a).byteAt (n / rb) (n % rb)))).complete k.r { nonIdem := q.phased } none))) ∧
  (∀ (s : State) (r : SplitRef) (x : Partition) (locs : List Nat) (bytes : List Byte), s.canonical →
    s.part? r.part = some x → locs.Nodup → bytes.length = locs.length →
    let t := (s.storeBlock r locs bytes).performOwn r
    locs.map (t.byteAt x.tag) = bytes ∧
    SameBytes x.tag (fun loc => loc ∈ locs ∨ ∃ w ∈ s.late, w.writer = r ∧ loc ∈ w.stores) s t) ∧
  (∀ (s : State) (w : Late) n first rb (ps : List LoadPart) (x : Partition) (c : Core), w.load = some (.tile n first rb, ps) →
    s.part? w.writer.part = some x → s.core? w.writer.part w.writer.core = some c → 0 < rb → rb ≤ 256 →
    tableWf Tile.reset c.fileTiles → tableWf 0 (c.tileAt n).bytes →
    let bs := (ps.map fun p => p.got.getD (s.partValue x.tag p)).flatten
    ∃ d, (s.performLate w).core? w.writer.part w.writer.core = some d ∧
      { d.tileAt n with bytes := (c.tileAt n).bytes } = c.tileAt n ∧
      ∀ r b, b < 256 → (d.tileAt n).byteAt r b =
        if b < rb ∧ first ≤ r * rb + b ∧ r * rb + b < first + bs.length then (bs.getD (r * rb + b - first) 0).toNat
        else (c.tileAt n).byteAt r b) ∧
  (∀ (s : State) (w : Late) n i (ps : List LoadPart) (x : Partition) (c : Core), w.load = some (.acc n i, ps) →
    s.part? w.writer.part = some x → s.core? w.writer.part w.writer.core = some c →
    tableWf Acc.reset c.fileAccs → tableWf 0 (c.accAt n).entries →
    let a := c.accAt n
    let v := leNat (ps.map fun p => p.got.getD (s.partValue x.tag p)).flatten
    let above : Prop := a.mode = 2 ∧ a.modulus.toNat ≤ v
    ∃ d, (s.performLate w).core? w.writer.part w.writer.core = some d ∧
      (d.accAt n).mode = a.mode ∧ (d.accAt n).modulus = a.modulus ∧
      (∀ j, tableGet 0 (d.accAt n).entries j ≠ tableGet 0 a.entries j → j = i) ∧
      (above → tableGet 0 (d.accAt n).entries i = BitVec.ofNat 64 (v % a.modulus.toNat) ∧ (d.accAt n).status = a.status ||| 16) ∧
      (¬ above → tableGet 0 (d.accAt n).entries i = BitVec.ofNat 64 v ∧ (d.accAt n).status = a.status)) ∧
  ∀ d m x s k q, s.ctx = some k → k.latched = false → d.toNat < k.team.hdr.accs →
    s.reachBlock k blockRead (k.scalarAddress m x) 32768 = .ok q → s.blocked k.part k.core.tile q.locs = false →
    let s1 := s.performMine k.r q.locs
    let v (n : Nat) : Nat := leNat (((s1.valueOf k.part.tag q).drop (8 * n)).take 8)
    let above (n : Nat) : Prop := (k.acc d).mode = 2 ∧ (k.acc d).modulus.toNat ≤ v n
    ∃ acc ls, exec (.aload d m x) s =
        .next (({ (s1.keepReach k false q).setAcc k d acc with
          late := ((s1.keepReach k false q).setAcc k d acc).late ++ ls } : State).complete k.r {} none) ∧
      acc.mode = (k.acc d).mode ∧ acc.modulus = (k.acc d).modulus ∧
      let later (n : Nat) : Prop := ∃ w ∈ ls, ∃ ps, w.load = some (.acc (k.accNo d) n, ps)
      (∀ i j, i < 64 → j < 64 → (later (64 * i + j) → acc.entry i j = 0) ∧ (¬ later (64 * i + j) →
        (above (64 * i + j) → acc.entry i j = BitVec.ofNat 64 (v (64 * i + j) % (k.acc d).modulus.toNat)) ∧
        (¬ above (64 * i + j) → acc.entry i j = BitVec.ofNat 64 (v (64 * i + j))))) ∧
      ((∃ n < 4096, ¬ later n ∧ above n) → acc.status = (k.acc d).status ||| 16) ∧
      ((∀ n < 4096, ¬ later n → ¬ above n) → ((k.acc d).mode = 2 → 0 < (k.acc d).modulus.toNat) →
        acc.status = (k.acc d).status) ∧
      LaterReads ((s1.keepReach k false q).setAcc k d acc) k ls fun e ps => ∃ n < 4096, e = .acc (k.accNo d) n ∧
        (ps.flatMap fun p => p.locs) = (q.locs.drop (8 * n)).take 8 ∧
        ∀ p ∈ ps, ∀ loc ∈ p.locs, (loc ∈ p.cached ↔ loc ∈ q.cached)

/-- A joint matrix instruction arrives at its gang's latch. It opens a rendezvous or joins the open one, and waits until every
team that the gang register names has joined; an arrival that does not fit the open rendezvous waits behind it. The arrival
that completes it, with idle tiles that pass the checks, adds each entry's products once: exactly and rounded or clamped once,
for 16-bit operands rounded at each product, in M mode modulo q; entries beyond the operands' rows are as they were, and every
held split goes on. A cause of R341 stops every held split instead (R332, R333, R335 to R341). -/
def Obligations.JointInstructionPerforms : Prop :=
  ∀ op d a b s k g, s.ctx = some k → k.core.gang? k.team.gang = some g →
    d.toNat < k.team.hdr.accs → a.toNat < k.team.hdr.tiles → b.toNat < k.team.hdr.tiles →
    let i : Instr := match op with
      | .mma => .mma d a b
      | .mmam => .mmam d a b
      | .mmab => .mmab d a b
    let new : Latch :=
      { op := op, ad := d, xa := a, xb := b, gangReg := k.team.gangReg
        planes := if op = .mmab then modePlanes k.split.mr else 0
        opened := s.cycle, joined := [(k.r.slot, k.r.entry)], complete := false }
    let fits (h : Latch) : Prop := h.complete = false ∧ h.op = op ∧ h.ad = d ∧ h.xa = a ∧ h.xb = b ∧
      h.gangReg = k.team.gangReg ∧ h.planes = new.planes ∧ ∀ e ∈ h.joined, e.1 ≠ k.r.slot
    let held : State := s.modSplit k.r fun x => { x with state := .waitingBarrier, wait := .latch, begun := true }
    (∀ h, g.latch = some h → ¬ fits h → exec i s = .next (s.modSplit k.r fun x =>
      { x with state := .waitingBarrier, wait := .behind, begun := true })) ∧
    ∀ h, (g.latch = none ∧ h = new ∨ ∃ o, g.latch = some o ∧ fits o ∧ h = { o with joined := o.joined ++ new.joined }) →
      let full := ∀ n < 6, k.team.gangReg.getLsbD n →
        ∃ e ∈ h.joined, ∃ t ∈ k.core.teams, t.slot = e.1 ∧ t.gang = k.team.gang ∧ t.gangix = n
      (¬ full → exec i s = .next (held.modCore k.r.part k.r.core fun c =>
        c.modGang k.team.gang fun x => { x with latch := some h })) ∧
      let xa := k.core.tileAt (g.tile a.toNat)
      let xb := k.core.tileAt (g.tile b.toNat)
      let sa := k.core.tileAt (g.tile (ctlSct xa.ctl))
      let sb := k.core.tileAt (g.tile (ctlSct xb.ctl))
      let acc := k.core.accAt (g.acc d.toNat)
      let j : Joint := { a := xa, b := xb, sa := sa, sb := sb, acc := acc }
      full → tableWf 0 acc.entries → xa.busy = 0 → xb.busy = 0 → (ctlScen xa.ctl → sa.busy = 0) → (ctlScen xb.ctl → sb.busy = 0) →
      (∀ code, j.cause op h.planes = some code → exec i s = .next ((held.modCore k.r.part k.r.core fun c =>
        c.emptyLatch k.team.gang).raiseHeld k.r.part k.r.core code h.joined)) ∧
      ∀ n, j.cause op h.planes = none → kOf xa.ctl = some n → ∃ acc' : Acc,
        exec i s = .next ((held.modCore k.r.part k.r.core fun c =>
          (c.setAcc (g.acc d.toNat) acc').emptyLatch k.team.gang).completeHeld k.r.part k.r.core h.joined) ∧
        acc'.mode = acc.mode ∧ acc'.modulus = acc.modulus ∧
        let elem (t sc : Tile) (r e : Nat) : Machine.Num := scaledElement t sc h.planes n r e
        let result (r c : Nat) : W64 × BitVec 5 :=
          jointClaim op (ctlFmt xa.ctl) acc.mode acc.modulus.toNat (acc.entry r c) (elem xa sa r) (elem xb sb c) n
        let used (r c : Nat) : Prop := r < 64 ∧ c < 64 ∧ r < ctlRows xa.ctl ∧ c < ctlRows xb.ctl
        (∀ r c, r < 64 → c < 64 → (used r c → acc'.entry r c = (result r c).1) ∧ (¬ used r c → acc'.entry r c = acc.entry r c)) ∧
        ∀ bit < 5, acc'.status.getLsbD bit = true ↔
          acc.status.getLsbD bit = true ∨ ∃ r c, used r c ∧ (result r c).2.getLsbD bit = true

/-- Drains, with no joint instruction of the team still to be performed: `adrain` takes the entries and starts with the lines
of its destination; `adrainp` into another accumulator of the launch, of the same mode and modulus, takes the entries and the
status, clears the source, whose mode and modulus stay, and sends them to the target's core, slot and accumulator; over a
binding they leave by a peer port, unchecked until they arrive. An accumulator of another configuration raises trap 0x0D, one
that is no target trap 0x09; `adrain` under a TYPE that R355 does not give the accumulator's mode raises trap 0x0E (R355 to R358).
The model's choices: the lines of a drain keep the addresses that the check at issue found (log entry 36), and traffic over a
binding leaves by the first peer port that may send, and waits at its word while none may (log entry 86). -/
def Obligations.DrainsStart : Prop :=
  (∀ a m x s k q, s.ctx = some k → k.latched = false → a.toNat < k.team.hdr.accs →
    k.type = 11 ∨ k.type = 12 ∨ (k.type = 0 ∨ k.type = 6) ∧ (k.acc a).mode ≤ 1 →
    s.reachBlock k storeWant (k.scalarAddress m x) (4096 * drainWidth k.type) = .ok q →
    exec (.adrain a m x) s = .next (((s.keepReach k true q).modCore k.r.part k.r.core fun c =>
      { c with drains := c.drains ++ [{
          issuer := k.team.issuer, ea := (k.scalarAddress m x).toNat, type := k.type, rnd := modeRnd k.split.mr
          sat := modeSat k.split.mr, mode := (k.acc a).mode, entries := (k.acc a).entries
          left := drainLines k.r.core storeWant (k.scalarAddress m x).toNat (4096 * drainWidth k.type) q.pages }] }).complete
            k.r { nonIdem := q.phased } none)) ∧
  (∀ a m x s k, s.ctx = some k → a.toNat < k.team.hdr.accs → k.type ≠ 11 → k.type ≠ 12 →
    (k.type = 0 ∨ k.type = 6 → 1 < (k.acc a).mode) → TakesTrap (.adrain a m x) s k { code := 0x0E, va := k.split.pc }) ∧
  (∀ a m s k q, s.ctx = some k → k.latched = false → a.toNat < k.team.hdr.accs →
    s.translate k.part k.core.tile { cls := 1, write := true, sup := k.team.sup, kindOk := fun j => j = 4 }
      (k.s m).toNat = .ok q →
    portOk k.part q →
    let peer := q.ppa / 2 ^ 52 % 2 ^ 4
    let core := q.ppa / 2 ^ 22 % 2 ^ 13
    let slot := q.ppa / 2 ^ 6 % 2 ^ 4
    let name := q.ppa / 2 ^ 3 % 2 ^ 3
    let data : DrainData :=
      { entries := (k.acc a).entries, mode := (k.acc a).mode, modulus := (k.acc a).modulus, status := (k.acc a).status }
    let gone : State := ((s.keep k.r.part k.core.tile (k.s m).toNat true q).setAcc k a
      { entries := [], mode := (k.acc a).mode, modulus := (k.acc a).modulus, status := 0 }).modPart k.r.part fun x =>
        { x with flights := x.flights ++ [{
            issuer := k.team.issuer, srcCore := k.r.core, binding := peer, core := core, slot := slot, acc := name
            va := k.s m, data := data }] }
    let target := k.part.drainTarget (fun t => t.launch = k.team.launch) core slot name
    (peer = 0 → target = none → TakesTrap (.adrainp a m) s k { code := 0x09, va := k.s m, cls := 1 }) ∧
    (∀ n c, peer = 0 → target = some n → k.part.core? core = some c →
      let same := core = k.r.core ∧ n = k.accNo a
      let fits := (c.accAt n).mode = (k.acc a).mode ∧ (c.accAt n).modulus = (k.acc a).modulus
      (¬ same → fits → exec (.adrainp a m) s = .next (gone.complete k.r { nonIdem := true } none)) ∧
      (same ∨ ¬ fits → TakesTrap (.adrainp a m) s k { code := 0x0D, va := k.split.pc })) ∧
    (peer ≠ 0 → s.peerPort = none → exec (.adrainp a m) s = .next (s.modSplit k.r fun x => { x with begun := true })) ∧
    (∀ port, peer ≠ 0 → s.peerPort = some port → exec (.adrainp a m) s =
      .next ((gone.sendPeer port (.peerDrain k.r.part peer core slot name data)).complete k.r { nonIdem := true } none))) ∧
  ∀ (x : Partition) ok l slot name n, x.drainTarget ok l slot name = some n ↔
    ∃ c, x.core? l = some c ∧ c.absent = false ∧ ∃ t, c.team? slot = some t ∧ ok t ∧
      ∃ g, c.gang? t.gang = some g ∧ g.accs[name]? = some n

/-! # System -/

/-- The supervisor's own instructions and `launch`: a CSR takes the value that it accepts, `tlbi` and `tlbia` remove cached
entries, and the descriptors reached through them, once no engine operation uses them and every store of the partition is
performed, `fqpop` takes the posted record with the lowest sequence number or returns 0, `launch` assigns the next identifier
and queues a valid header, or waits for the window of 4,095 launches. A header that is refused completes at once with the
error flag: it places no team, and only its stamp, where it has one that is aligned, is still to be written (R365, R374, R384,
R388, R389, R418). -/
def Obligations.SystemResults : Prop :=
  (∀ a c s k, s.ctx = some k → k.team.kind = .service → csrWritable c → k.part.csrAccepts c.toNat (k.s a) →
    exec (.csrw a c) s = .next ((s.modPart k.r.part fun x =>
      { x with csr := x.csr.put c.toNat (k.s a) }).complete k.r {} none)) ∧
  (∀ a s k, s.ctx = some k → k.team.kind = .service → (k.s a).toNat < 2 ^ 58 →
    (k.part.usesPage (k.part.samePage (k.s a).toNat) → exec (.tlbi a) s = .next (s.modSplit k.r fun x => { x with begun := true })) ∧
    (k.part.usesPage (k.part.samePage (k.s a).toNat) = false → ∃ f : Partition → Partition,
      exec (.tlbi a) s = .next (((s.performPart k.r.part).modPart k.r.part f).complete k.r {} none) ∧
      ∀ x, (f x).rtu = x.rtu.filter (fun e => e.va ≠ (k.s a).toNat / 2 ^ levelShift e.level) ∧
        (∀ g ∈ (f x).rtuGroups, g ∈ x.rtuGroups ∧ (k.s a).toNat / 16384 ∉ g.pages ∧
          ∀ e ∈ x.rtu, e.va = (k.s a).toNat / 2 ^ levelShift e.level →
            entryFrame e.entry ≠ g.ppa ∧ ∀ n ∈ g.pages, e.va ≠ 16384 * n / 2 ^ levelShift e.level) ∧
        { f x with rtu := x.rtu, rtuGroups := x.rtuGroups } = x)) ∧
  (∀ s k, s.ctx = some k → k.team.kind = .service →
    (k.part.usesPage (fun _ => true) → exec .tlbia s = .next (s.modSplit k.r fun x => { x with begun := true })) ∧
    (k.part.usesPage (fun _ => true) = false →
      exec .tlbia s = .next (((s.performPart k.r.part).modPart k.r.part fun x =>
        let open_ : Partition := if x.hold = .gated then
            { x with hold := .running, cores := x.cores.map fun c => { c with teams := c.teams.map Team.restore } }
          else x
        { open_ with rtu := [], rtuGroups := [], rtuRoots := [] }).complete k.r {} none))) ∧
  (∀ (t : Team), t.restore = { t with splits := t.splits.map fun x => if x.saved then
      { x with saved := false, state := if x.state = .stopped then .ready else x.state } else x }) ∧
  (∀ d s k, s.ctx = some k → k.team.kind = .service → k.team.liveSplits = 1 → (∀ e ∈ k.part.queue, e.2.state ≠ .posted) →
    Continues (.fqpop d) s k false (k.split.pc + 4) fun u v =>
      Kept k id true [] u v ∧ v.scalar d = 0 ∧ (∀ r, r ≠ d → v.scalar r = u.scalar r) ∧ SameLanes [] u v) ∧
  (∀ d s k i q, s.ctx = some k → k.team.kind = .service → k.team.liveSplits = 1 → oldestPosted k.part.queue = some (i, q) →
    exec (.fqpop d) s = .next (((s.modPart k.r.part fun x =>
      { x with queue := tablePut x.queue i { q with state := .inService } }).modTeam k.r.part k.r.core k.r.slot fun t =>
        t.setScalar d (BitVec.ofNat 64 (2 ^ 63 + i * 2 ^ 32 + q.seq % 2 ^ 32))).complete k.r { nonIdem := true } none)) ∧
  (∀ (l : List (Nat × QSlot)) i q, oldestPosted l = some (i, q) →
      (i, q) ∈ l ∧ q.state = .posted ∧ ∀ e ∈ l, e.2.state = .posted → q.seq ≤ e.2.seq) ∧
  (∀ a s k q, s.ctx = some k → k.team.kind = .root → (k.s a).toNat % 64 = 0 → (k.s a).toNat < 2 ^ 58 →
    s.reachBlock k blockRead (k.s a) 128 = .ok q → s.blocked k.part k.core.tile q.locs = false →
    let s1 := s.performOwn k.r
    let bytes := s1.valueOf k.part.tag q
    (k.part.windowOpen → exec (.launch a) s = .next (((s1.keepReach k false q).modPart k.r.part fun x =>
      x.addLaunch bytes).complete k.r { nonIdem := true } none)) ∧
    (k.part.windowOpen = false → exec (.launch a) s = .next ((s1.keepReach k false q).modSplit k.r fun x =>
      { x with state := .waitingMemory, wait := .launch bytes, begun := true }))) ∧
  ∀ (x : Partition) (bytes : List Byte),
    let n := x.lastLaunch + 1
    let h := bytesHeader bytes
    (x.windowOpen ↔ n ≤ 4095 ∨ ∀ e ∈ x.launches, e.n = n - 4095 → e.done) ∧ (x.addLaunch bytes).lastLaunch = n ∧
    (headerOk bytes h → h.after0.toNat < n → h.after1.toNat < n → (x.addLaunch bytes).launches = x.launches ++ [
      { n := n, hdr := h, refused := false, placed := 0, ended := 0, error := false, stampWaits := false, done := false }]) ∧
    (¬ (headerOk bytes h ∧ h.after0.toNat < n ∧ h.after1.toNat < n) →
      (x.addLaunch bytes).launches = x.launches ++ (if h.stamp ≠ 0 ∧ h.stamp.toNat % 8 = 0 then [
        { n := n, hdr := h, refused := true, placed := 0, ended := 0, error := true, stampWaits := false, done := false }]
        else []) ∧
      ∀ e ∈ (x.addLaunch bytes).launches, e.refused → x.placeable e = false ∧ x.workEnded e)

/-- The service team's reply to an in-service record resumes what waits on it and frees its slot: a split stopped by `trap` or
`brkpt` continues behind that word, any other goes back to its region entry with the region's mode, and its team's replay
flag and counter say so; in a team that a quiesce holds it stays stopped until its team is restored; a refusal ends what waits
on it. Everything that the replying split has stored is performed before (R94, R113, R364, R373, R375 to R377). The model's
choices: scalars and chunks stand unchanged at the region entry (log entry 46), as R376 is followed where R113 speaks of live-in
chunks that have been restored; after a quiesce every team but the service team is held until its `tlbia` (log entry 80). -/
def Obligations.RecordsAreAnswered : Prop :=
  (∀ a s k i q, s.ctx = some k → k.team.kind = .service → k.part.served (k.s a) = some (i, q) →
    exec (.fqrep a) s = .next (((q.attached.foldl (fun t w => t.resume k.r.part q.code w) (s.performOwn k.r)).freeSlot
      k.r.part i).complete k.r { nonIdem := true } none)) ∧
  (∀ a s k i q, s.ctx = some k → k.team.kind = .service → k.part.served (k.s a) = some (i, q) →
    let mine := ∃ w ∈ q.attached, ∃ n, w = .split k.r.core k.r.slot n ∨ w = .run k.r.core k.r.slot n
    let t := ((s.performOwn k.r).finishAll k.r.part i q.attached).freeSlot k.r.part i
    (¬ mine → exec (.fqkill a) s = .next (t.complete k.r { nonIdem := true } none)) ∧
    (mine → exec (.fqkill a) s = .next t)) ∧
  (∀ (s : State) (r : SplitRef) (k : Ctx) (code : Nat), s.ctxAt r = some k →
      let s' := s.resumeSplit r code
      let held : Prop := k.part.hold = .suspended ∨ k.part.hold = .gated ∧ k.team.kind ≠ .service
      let goes : SplitState × Wait := (if held then .stopped else .ready, .none)
      (held → (s'.split? r).map (fun x => x.saved) = some true) ∧
      (code = 0x13 ∨ code = 0x14 →
        (s'.split? r).map (fun x => (x.pc, x.mr, x.mask, x.state, x.wait)) =
          some (k.split.pc + 4, k.split.mr, k.split.mask, goes)) ∧
      (code ≠ 0x13 ∧ code ≠ 0x14 →
        (s'.split? r).map (fun x => (x.pc, x.mr, x.mask, x.state, x.wait)) =
          some (k.split.regionPc, k.split.regionMr, k.split.mask, goes) ∧
        (s'.team? r.part r.core r.slot).map (fun t => (t.replayed, t.replays, t.sregs, t.chunks)) =
          some (true, k.team.replays + 1, k.team.sregs, k.team.chunks))) ∧
  ∀ a s k, s.ctx = some k → k.team.kind = .service → k.part.served (k.s a) = none →
    TakesTrap (.fqrep a) s k { code := 0x02, va := k.split.pc } ∧ TakesTrap (.fqkill a) s k { code := 0x02, va := k.split.pc }

/-! # Control -/

/-- Branches that do not divide their split: all lanes go, or all fall through (R40, R120 to R122, R126). -/
def Obligations.UniformBranches : Prop :=
  let still (k : Ctx) (marks : List Nat) (u v : Team) : Prop := Kept k id false [] u v ∧ SameScalars u v ∧ SameLanes marks u v
  (∀ off s k, s.ctx = some k → Continues (.br off) s k true (k.block off.toInt) (still k [])) ∧
  (∀ p off s k, s.ctx = some k → k.lanes ≠ [] →
    ((∀ l ∈ k.lanes, k.guard l ∧ k.p p l) → Continues (.brc p off) s k true (k.block off.toInt) (still k (markP p))) ∧
    ((∀ l ∈ k.lanes, ¬ (k.guard l ∧ k.p p l)) → Continues (.brc p off) s k true (k.split.pc + 4) (still k (markP p))) ∧
    ((∀ l ∈ k.lanes, k.guard l ∧ ¬ k.p p l) → Continues (.brnc p off) s k true (k.block off.toInt) (still k (markP p))) ∧
    ((∀ l ∈ k.lanes, ¬ (k.guard l ∧ ¬ k.p p l)) → Continues (.brnc p off) s k true (k.split.pc + 4) (still k (markP p)))) ∧
  (∀ p off s k, s.ctx = some k →
    (k.acting ≠ [] → (∀ l ∈ k.acting, k.p p l) → Continues (.bru p off) s k true (k.block off.toInt) (still k (markP p))) ∧
    ((∀ l ∈ k.acting, ¬ k.p p l) → Continues (.bru p off) s k true (k.split.pc + 4) (still k (markP p))) ∧
    ((∃ l ∈ k.acting, k.p p l) → (∃ l ∈ k.acting, ¬ k.p p l) →
      TakesTrap (.bru p off) s k { code := 0x05, va := k.split.pc })) ∧
  ∀ a off s k, s.ctx = some k → k.team.liveSplits = 1 →
    Continues (.bdnz a off) s k false (if k.s a = 1 then k.split.pc + 4 else k.block off.toInt)
      (ScalarResult k [] a (k.s a - 1))

/-- Indirect transfers and calls of one target: every lane acts and its offset names the same block, or none acts and all go
on at the next word; a call leaves the offset of the word behind it in v63 of the lanes that go; a target that opens no block
raises trap 0x03 (R115, R116, R123, R124). -/
def Obligations.TransfersAndCalls : Prop :=
  let still (k : Ctx) (marks : List Nat) (u v : Team) : Prop := Kept k id false [] u v ∧ SameScalars u v ∧ SameLanes marks u v
  let link (k : Ctx) (ls : List Nat) : List Put :=
    putLanes 63 ls fun _ => BitVec.ofInt 32 (k.split.pc.toNat + 4 - k.team.hdr.program.toNat)
  (∀ a s k (o : W32), s.ctx = some k → k.lanes ≠ [] → (∀ l ∈ k.lanes, k.guard l ∧ k.v a l = o) → o.toNat % 64 = 0 →
    Continues (.brx a) s k true (k.team.hdr.program + o.setWidth 64) (still k (markV a 1))) ∧
  (∀ s k (o : W32), s.ctx = some k → k.lanes ≠ [] → (∀ l ∈ k.lanes, k.guard l ∧ k.team.lane 63 l = o) → o.toNat % 64 = 0 →
    Continues .ret s k true (k.team.hdr.program + o.setWidth 64) (still k [])) ∧
  (∀ off s k, s.ctx = some k → k.split.pc.toNat % 64 = 60 → k.lanes ≠ [] → (∀ l ∈ k.lanes, k.guard l) →
    k.takes (link k k.lanes) →
    Continues (.call off) s k true (k.block off.toInt) (LaneResult k [] (link k k.lanes))) ∧
  (∀ a s k (o : W32), s.ctx = some k → k.split.pc.toNat % 64 = 60 → k.lanes ≠ [] →
    (∀ l ∈ k.lanes, k.guard l ∧ k.v a l = o) → o.toNat % 64 = 0 → k.takes (link k k.lanes) →
    Continues (.callx a) s k true (k.team.hdr.program + o.setWidth 64) (LaneResult k (markV a 1) (link k k.lanes))) ∧
  (∀ a off s k, s.ctx = some k → k.acting = [] →
    Continues (.brx a) s k true (k.split.pc + 4) (still k (markV a 1)) ∧
    Continues .ret s k true (k.split.pc + 4) (still k []) ∧
    (k.split.pc.toNat % 64 = 60 → Continues (.call off) s k true (k.split.pc + 4) (still k []) ∧
      Continues (.callx a) s k true (k.split.pc + 4) (still k (markV a 1)))) ∧
  (∀ a s k l, s.ctx = some k → l ∈ k.acting → (k.v a l).toNat % 64 ≠ 0 →
    TakesTrap (.brx a) s k { code := 0x03, va := k.split.pc } ∧
    (k.split.pc.toNat % 64 = 60 → TakesTrap (.callx a) s k { code := 0x03, va := k.split.pc })) ∧
  ∀ a off s k, s.ctx = some k → k.split.pc.toNat % 4 = 0 → k.split.pc.toNat % 64 ≠ 60 →
    TakesTrap (.call off) s k { code := 0x02, va := k.split.pc } ∧ TakesTrap (.callx a) s k { code := 0x02, va := k.split.pc }

/-- A branch, return or call whose lanes go on at more than one address divides the split into one group of lanes for each
(for `brc`, `brnc` and `call` the lanes that fall through and those that go), once the marked names are free and the links
written: the fall-through group first, the others by their lowest lane. The first group keeps the split's entry, every other
becomes a ready split of its own in a free entry, with its mode and region; all of them have as their parent a new rejoin
record, under the least unused ordinal, with the split's block, parent and mode, that expects its lanes. Where neither a
register nor the spill area can take what has to be placed, trap 0x06 (R95, R98, R99, R116, R121, R123, R124). What the split
has stored and loaded is performed first (log entry 10, the model's choice). -/
def Obligations.DivergingBranchDividesTheSplit : Prop :=
  (∀ i s k c g gs, s.ctx = some k → branchClaim i k = some c → c.may → k.takes c.puts → c.groups = g :: gs → gs ≠ [] →
    let s1 := (if c.puts = [] then s else (s.taken k c.puts).putAll k.r c.puts).retire k.r { marks := c.marks, sweep := true }
    ∃ k1, s1.ctxAt k.r = some k1 ∧ k1.split.mask = k.split.mask ∧ k1.split.pc = k.split.pc ∧
      exec i s = .next (match s1.diverge k1 g gs with
        | some t => t.reap (teamOf k.r)
        | none => (s.raise k.r { code := 0x06, va := k.split.pc }).reap (teamOf k.r))) ∧
  (∀ (next : W64) (dest : Nat → W64) (lanes : List Nat), lanes.Pairwise (· < ·) →
    let gs := groupLanes next dest lanes
    (gs.map fun g => g.pc).Nodup ∧ (∀ l ∈ lanes, ∃ g ∈ gs, g.pc = dest l) ∧
    (∀ g ∈ gs, g.lanes ≠ [] ∧ g.lanes = lanes.filter fun l => dest l = g.pc) ∧
    ∀ before g h after, gs = before ++ g :: h :: after → h.pc ≠ next ∧ (g.pc = next ∨ g.lanes.headD 0 < h.lanes.headD 0)) ∧
  (∀ (s : State) (k : Ctx) (g : Group) (gs : List Group), s.ctxAt k.r = some k → (k.core.teams.map fun t => t.slot).Nodup →
    total (k.core.teams.map fun t => max 2 t.splits.length) ≤ 64 →
    0 < k.core.registersFor k.team → gs.length ≤ k.core.entriesFor k.team → ∀ w, (s.performOwn k.r).teamAt (teamOf k.r) = some w →
    ∃ (t : State) (u : Team) (ordinal : Nat), s.diverge k g gs = some (t.doWork (teamOf k.r)
        ((g :: gs).filterMap fun h => if h.pc.toNat % 64 = 0 then h.lanes.head?.map Work.arrive else none)) ∧
      t.teamAt (teamOf k.r) = some u ∧
      (k.team.ordinals.length < 65535 → ordinal ∉ k.team.ordinals ∧ ∀ m < ordinal, m ∈ k.team.ordinals) ∧
      u.records = k.team.records ++ [{
        ordinal := ordinal, parent := k.split.parent, block := k.split.pending, mr := k.split.mr
        expected := ((List.range 1024).filter fun l => k.split.mask.getLsbD l).length, arrived := 0 }] ∧
      u.divergences = k.team.divergences + 1 ∧ u.sregs = w.sregs ∧ u.chunks = w.chunks ∧ u.spilled = k.team.spilled ∧
      let born (h : Group) (y : Split) : Split :=
        { y with mask := maskOf h.lanes, pc := h.pc, parent := some ordinal, pending := none }
      ∃ new : List Split, u.splits = (k.team.splits.map fun x => if x.entry = k.r.entry then born g x else x) ++ new ∧
        (new.map fun x => { x with entry := k.r.entry }) = (gs.map fun h =>
          { born h k.split with entry := k.r.entry, state := .ready, wait := .none, issued := 0, drawn := [] }) ∧
        (new.map fun x => x.entry).Nodup ∧
        ∀ x ∈ new, x.entry < 64 ∧ ∀ v ∈ k.core.teams, ∀ y ∈ v.splits, y.entry ≠ x.entry) ∧
  ∀ (s : State) (k : Ctx) (g : Group) (gs : List Group), k.team.hdr.spill = 0 →
    k.core.registersFor k.team = 0 ∨ k.core.entriesFor k.team < gs.length → s.diverge k g gs = none

/-- What a split itself carries: `rcv` names the block at which it reconverges, `region` opens a region at its own word
with the mode and the live-in mask of its literals, and the three mode writes set the mode register, a guard alone by
`modeg`; a value that the mode register does not accept, a guard code above 16 and a reserved literal bit of `region` raise
trap 0x02 (R45, R55 to R57, R125, R131, R132). -/
def Obligations.SplitRegisters : Prop :=
  let only (k : Ctx) (g : Split → Split) (u v : Team) : Prop := Kept k g false [] u v ∧ SameScalars u v ∧ SameLanes [] u v
  (∀ off s k, s.ctx = some k → Continues (.rcv off) s k true (k.split.pc + 4)
    (only k fun x => { x with pending := some ((k.block off.toInt).toNat / 64) })) ∧
  (∀ w0 w1 w2 w3 s k, s.ctx = some k → w3.toNat < 2 ^ 8 → Continues (.region w0 w1 w2 w3) s k true (k.split.pc + 20)
    fun u v => ∃ c : Split → GridCut, only k (fun x =>
      { x with
        regionPc := x.pc, regionMr := x.mr
        liveIn := BitVec.ofNat 128 (w0.toNat + 2 ^ 32 * w1.toNat + 2 ^ 64 * w2.toNat + 2 ^ 96 * w3.toNat)
        gridCut := c x }) u v) ∧
  (∀ a s k, s.ctx = some k → modeLegal ((k.s a).setWidth 32) →
    Continues (.mode a) s k true (k.split.pc + 4) (only k fun x => { x with mr := (k.s a).setWidth 32 })) ∧
  (∀ lit s k, s.ctx = some k → modeLegal lit →
    Continues (.modei lit) s k true (k.split.pc + 8) (only k fun x => { x with mr := lit })) ∧
  (∀ c s k, s.ctx = some k → c.toNat ≤ 16 → modeLegal k.split.mr →
    Continues (.modeg c) s k true (k.split.pc + 4) (only k fun x =>
      { x with mr := BitVec.ofNat 32 (k.split.mr.toNat / 32 * 32 + c.toNat) })) ∧
  (∀ a s k, s.ctx = some k → modeLegal ((k.s a).setWidth 32) = false → TakesTrap (.mode a) s k { code := 0x02, va := k.split.pc }) ∧
  (∀ lit s k, s.ctx = some k → modeLegal lit = false → TakesTrap (.modei lit) s k { code := 0x02, va := k.split.pc }) ∧
  (∀ c s k, s.ctx = some k → 16 < c.toNat → TakesTrap (.modeg c) s k { code := 0x02, va := k.split.pc }) ∧
  ∀ w0 w1 w2 w3 s k, s.ctx = some k → 2 ^ 8 ≤ w3.toNat → TakesTrap (.region w0 w1 w2 w3) s k { code := 0x02, va := k.split.pc }

/-- `yield` waits for the ready splits, resident and spilled, of its own team and of teams of no lower priority; `yieldc` of a
met stamp goes to its continuation, otherwise it waits; `exit` takes the split's lanes out of its team. With its last lanes a
launched team is gone and counted as ended, or, asked for a successor with phases left, it starts the next phase at its entry
block, with zeroed registers and no chunk (R81, R127 to R130). That the splits waited for are those that were ready at the
yield, whatever becomes of them, is the model's choice (log entry 90). -/
def Obligations.YieldAndExit : Prop :=
  (∀ s k, s.ctx = some k →
    let t : Team → Team := fun u => { u with sweeps := u.sweeps + 1, rank := none }
    exec .yield s = .next (((s.modTeam k.r.part k.r.core k.r.slot t).swept k.r k.split.mask true).modSplit k.r fun x =>
      { x with state := .yielded, wait := .yield s.cycle (s.yieldsTo k), begun := true })) ∧
  (∀ (s : State) (k : Ctx) slot l, (slot, l) ∈ s.yieldsTo k ↔
    ∃ t ∈ k.core.teams, t.slot = slot ∧ (slot = k.r.slot ∨ k.team.priority ≤ t.priority) ∧
      ∃ q ∈ s.placed ⟨k.r.part, k.r.core, slot⟩, q.2.state = .ready ∧ ¬ (slot = k.r.slot ∧ q.1 = .entry k.r.entry) ∧
        lowestLane q.2.mask = some l) ∧
  (∀ a b (lit : W32) s k q, s.ctx = some k → lit.toNat < 2 ^ 24 → s.stampReach k (k.s a) = .ok q →
    s.blocked k.part k.core.tile q.locs = false →
    let s1 := s.performMine k.r q.locs
    let now : W64 := BitVec.ofNat 64 (leNat (s1.valueOf k.part.tag q))
    let dest := k.block (lit.extractLsb' 0 24).toInt
    (meetsTarget now (k.s b) → exec (.yieldc a b lit) s = .next ((s1.keepReach k false q).complete k.r { lits := 1 } (some dest))) ∧
    (meetsTarget now (k.s b) = false → exec (.yieldc a b lit) s = .next ((s1.keepReach k false q).modSplit k.r fun x =>
      { x with
        state := .waitingMemory, begun := true
        wait := .yieldc (k.s a) (k.s b) dest false }))) ∧
  (∀ c s k, s.ctx = some k → c.toNat ≤ 1 →
    let s1 := ((s.retire k.r { sweep := true, nonIdem := true }).modTeam k.r.part k.r.core k.r.slot fun u =>
      { u with successor := u.successor || c = 1 }).leave (teamOf k.r) (.entry k.r.entry) k.split
    exec (.exit c) s = .next (match s1.teamAt (teamOf k.r) with
      | some u => if u.liveSplits = 0 then s1.endTeam (teamOf k.r) else s1.reap (teamOf k.r)
      | none => s1)) ∧
  ∀ c s k, s.ctx = some k → c.toNat ≤ 1 → k.team.kind = .launched → k.team.liveSplits = 1 → k.split.parent = none →
    (k.core.teams.map fun t => t.slot).Nodup → total (k.core.teams.map fun t => max 2 t.splits.length) ≤ 64 →
    ∃ t, exec (.exit c) s = .next t ∧
      let goesOn := (c = 1 ∨ k.team.successor) ∧ k.team.phase + 1 < k.team.hdr.phases
      (¬ goesOn → t.teamAt (teamOf k.r) = none ∧
        (t.part? k.r.part).map (fun x => x.launches.map fun h => (h.n, h.ended)) =
          some (k.part.launches.map fun h => (h.n, if h.n = k.team.launch then h.ended + 1 else h.ended))) ∧
      (goesOn → ∃ u, t.teamAt (teamOf k.r) = some u ∧ u.phase = k.team.phase + 1 ∧ u.hdr = k.team.hdr ∧
        u.sregs = List.replicate 32 0 ∧ u.chunks = [] ∧ u.successor = false ∧
        ∃ x, u.splits = [x] ∧ x.mask = maskOf (List.range k.team.hdr.team) ∧ x.mr = 0x00080000 ∧ x.state = .ready ∧
          x.pc = k.team.hdr.program + BitVec.ofNat 64 (64 * k.team.hdr.entry))

/-! # Events of splits and teams -/

/-- What wakes a waiting split: for a stamp, a new read of its address after a write to its line and never before, which the
split's own waiting stores precede and which traps as the first did; where it does not meet the target, the split waits for the
next write (R129, R130, R286, R298, R317). -/
def Obligations.WakeEvents : Prop :=
  (∀ s r k since others, s.ctxAt r = some k → s.frozen r = false → k.split.wait = .yield since others →
    others = [] ∨ since + 32 ≤ s.cycle → exec (.yieldWake r) s = .next (s.complete r {} none)) ∧
  (∀ s r k va target dest q, s.ctxAt r = some k → s.frozen r = false →
    k.split.wait = .yieldc va target dest true →
    s.stampReach k va = .ok q → s.blocked k.part k.core.tile q.locs = false →
    let s1 := s.performMine k.r q.locs
    let met := meetsTarget (BitVec.ofNat 64 (leNat (s1.valueOf k.part.tag q))) target
    let s2 := s1.keepReach k false q
    exec (.yieldcWake r) s = .next (if met then s2.complete r { lits := 1 } (some dest)
      else s2.modSplit r fun x => { x with wait := .yieldc va target dest false })) ∧
  (∀ s r k va target pd since q, s.ctxAt r = some k → s.frozen r = false →
    k.split.wait = .stamp va target pd since true →
    s.stampReach k va = .ok q → s.blocked k.part k.core.tile q.locs = false →
    let s1 := s.performMine k.r q.locs
    let met := meetsTarget (BitVec.ofNat 64 (leNat (s1.valueOf k.part.tag q))) target
    let s2 := s1.keepReach k false q
    exec (.stampWaitWake r) s = .next (if met then (match pd with
      | none => s2
      | some d => s2.putPredAll r d true).complete r {} none
      else s2.modSplit r fun x => { x with wait := .stamp va target pd since false })) ∧
  (∀ s r k va target e, s.ctxAt r = some k → s.frozen r = false → s.stampReach k va = .error e →
    (∀ dest, k.split.wait = .yieldc va target dest true →
      exec (.yieldcWake r) s = .next ((s.raise r e).reap (teamOf r))) ∧
    ∀ pd since, k.split.wait = .stamp va target pd since true →
      exec (.stampWaitWake r) s = .next ((s.raise r e).reap (teamOf r))) ∧
  (∀ s r k va target, s.ctxAt r = some k →
    (∀ dest, k.split.wait = .yieldc va target dest false → exec (.yieldcWake r) s = .next s) ∧
    ∀ pd since, k.split.wait = .stamp va target pd since false → exec (.stampWaitWake r) s = .next s) ∧
  (∀ s r k pd since, s.ctxAt r = some k → s.frozen r = false → k.split.wait = .monitor pd since →
    k.team.monitor.armed = false ∨ k.team.monitor.trig → exec (.monitorWake r) s = .next (s.finishMonitor r pd)) ∧
  ∀ s r k left marks t more, s.ctxAt r = some k → s.frozen r = false → k.split.wait = .aperture left marks →
    s.acceptAll r left = (t, more) →
    exec (.queueSlotFree r) s = .next (if more = [] then t.complete r { marks := marks, sweep := true, nonIdem := true } none
      else t.modSplit r fun x => { x with wait := .aperture more marks })

/-- A wait with a time limit ends with 0 after 1,024 cycles, and not before, `stry` with what the stamp read last says: with 0
where its line has not been written since, after one more read where it has (R271, R280, R286, R317); a rendezvous after 65,536
cycles stops its splits with trap 0x0F (R334). That `stry` ends with 0, without the last read, where an engine holds the stamp's
line or the way to it may not send is the model's choice (log entry 86). -/
def Obligations.TimeLimits : Prop :=
  (∀ s r k bar d since, s.ctxAt r = some k → s.frozen r = false → k.split.wait = .bwait bar d (some since) →
    exec (.btryTimeout r) s = .next (if since + 1024 ≤ s.cycle then (s.putPredAll r d false).complete r {} none else s)) ∧
  (∀ s r k d since, s.ctxAt r = some k → s.frozen r = false → k.split.wait = .grid d (some since) →
    exec (.gbtryTimeout r) s = .next (if since + 1024 ≤ s.cycle then (s.putPredAll r d false).complete r {} none else s)) ∧
  (∀ s r k va target d since, s.ctxAt r = some k → s.frozen r = false →
    k.split.wait = .stamp va target (some d) since false →
    exec (.stryTimeout r) s = .next (if since + 1024 ≤ s.cycle then (s.putPredAll r d false).complete r {} none else s)) ∧
  (∀ s r k va target d since q, s.ctxAt r = some k → s.frozen r = false →
    k.split.wait = .stamp va target (some d) since true → s.stampReach k va = .ok q →
    let s1 := s.performMine k.r q.locs
    let met := meetsTarget (BitVec.ofNat 64 (leNat (s1.valueOf k.part.tag q))) target
    exec (.stryTimeout r) s = .next (if since + 1024 ≤ s.cycle then
      (if s.blocked k.part k.core.tile q.locs then s.putPredAll r d false else (s1.keepReach k false q).putPredAll r d met).complete r {} none
      else s)) ∧
  (∀ s r k d since, s.ctxAt r = some k → s.frozen r = false → k.split.wait = .monitor (some d) since →
    exec (.mtryTimeout r) s = .next (if since + 1024 ≤ s.cycle then s.finishMonitor r (some d) else s)) ∧
  ∀ s p l g c x h, s.core? p l = some c → c.gang? g = some x → x.latch = some h → h.complete = false → c.silent = false →
    (∀ y, s.part? p = some y → y.hold ≠ .suspended) → h.opened + 65536 ≤ s.cycle →
    exec (.rendezvousTimeout p l g) s = .next ((s.modCore p l fun c =>
      { c.emptyLatch g with teams := (c.emptyLatch g).teams.map fun t =>
          if (h.joined.any fun q => q.1 = t.slot) then { t with timeouts := t.timeouts + 1 } else t }).raiseHeld p l 0x0F h.joined)

/-- What the core and the partition do by themselves: meet-fusion, rotation after 512 instructions, the starvation rank
after 256 cycles without an issue, deferred release of frames and gang resources, dispatch; the completion of a launch,
which writes the stamp it names, with bit 63 set after an error; the posting of the oldest held event, with the number of
those still held in the header wherever it maps. A fusion keeps the lower entry, with the lanes of both, once what both have
stored is performed; an exchange reads the earliest-spilled ready split into the entry and writes the one that stood there into
the records just freed (R76 to R78, R90, R103, R104, R111, R127, R370, R391, R447). A placement performs what has been taken up
of the pairs that it puts back to their first banks, or whose barriers it resets (R235, R460). The model's choices: the
completion stamp rings no doorbell (log entry 40), vector 2 fires in the step that writes it (log entry 49), what both splits
have still to access is performed before a fusion or an exchange (log entry 10), and a spilled split keeps the bit of R379 and
its place in a grid barrier that was cut (log entries 21 and 48); a split read into an entry while its team is held stays
stopped (R94, log entry 80). -/
def Obligations.SchedulingEvents : Prop :=
  (∀ s a b k x y, s.frozen a = false → s.ctxAt a = some k → k.split = x → s.split? b = some y → teamOf a = teamOf b →
    meets x y → exec (.meetFusion a b) s = .next (s.meet (teamOf a) x y)) ∧
  (∀ (s : State) t (x y : Split), s.meet t x y =
    let lo := min x.entry y.entry
    let hi := max x.entry y.entry
    let s1 := (s.performOwn (entryOf t lo)).modSplit (entryOf t lo) fun z => { z with mask := x.mask ||| y.mask }
    ((s1.performOwn (entryOf t hi)).atTeam t fun v =>
      { v with splits := v.splits.filter (fun z => z.entry ≠ hi), meetFusions := v.meetFusions + 1 }).refillCore t.part t.core) ∧
  (∀ (s : State) t e u sp run, s.teamAt t = some u → u.split? e = some sp →
    earliest (u.spilled.filter fun x => x.isSplit && x.ready) = some run →
    s.exchange t e = (((s.performOwn (entryOf t e)).atTeam t fun v =>
      { v with splits := v.splits.filter fun x => x.entry ≠ e }).loadSplit t run e).writeSplitRun t run.first sp) ∧
  (∀ (s : State) t u run e, s.teamAt t = some u → splitRecordOk (s.spillBytes t u run.first 192) →
    let read : Split := { bytesSplit (s.spillBytes t u run.first 192) run with entry := e }
    s.loadSplit t run e = s.atTeam t fun v =>
      { v with
        splits := v.splits ++ [if s.heldBack t.part t.core t.slot ∧ read.state = .ready then
          { read with state := .stopped, saved := true } else read]
        spilled := v.spilled.filter fun y => y.first ≠ run.first }) ∧
  (∀ (s : State) t u first sp, s.teamAt t = some u →
    s.writeSplitRun t first sp = (s.putSpill t u first 0 (splitBytes sp u.nextSeq)).atTeam t fun v =>
      ({ v with
        nextSeq := v.nextSeq + 1
        spilled := v.spilled ++ [{ first := first, isSplit := true, ready := sp.state = .ready, seq := u.nextSeq, ordinal := 0
                                   nonIdem := sp.nonIdem, gridCut := sp.gridCut }] } : Team).noteSpill) ∧
  (∀ s r k, s.ctxAt r = some k → s.frozen r = false → k.split.state = .ready → k.split.begun = false → 512 ≤ k.split.issued →
    (∃ x ∈ k.team.spilled, x.isSplit ∧ x.ready) → exec (.spillRotation r) s = .next (s.exchange (teamOf r) r.entry)) ∧
  (∀ s t, exec (.starvationRank t) s = .next (s.atTeam t fun v => v.starve s.cycle)) ∧
  (∀ (u : Team) (cycle : Nat),
    (u.passCycle cycle).readySince = (if ∃ x ∈ u.splits, x.state = .ready then some (u.readySince.getD cycle) else none) ∧
    ((u.passCycle cycle).rank = if u.rank = none ∧ (∃ x ∈ u.splits, x.state = .ready) ∧
      u.readySince.getD cycle + 256 ≤ cycle ∧ u.lastIssue + 256 ≤ cycle then some cycle else u.rank) ∧
    ∀ since, u.readySince = some since → u.starve cycle =
      if u.rank = none ∧ since + 256 ≤ cycle ∧ u.lastIssue + 256 ≤ cycle then { u with rank := some cycle } else u) ∧
  (∀ s p l n c q, s.core? p l = some c → c.releases[n]? = some q → c.owes q.launch q.teams = false →
    exec (.deferredRelease p l n) s = .next (s.modCore p l fun c => { c with releases := c.releases.eraseIdx n })) ∧
  (∀ s p pick x h l c, s.part? p = some x → x.hold = .running → firstLaunch (x.launches.filter x.placeable) = some h →
      x.findCore h.hdr = some l → x.core? l = some c → c.pickOk h.hdr pick →
      let settled := ((pick.frames.flatten.filter fun f => c.swapped.contains (f / 2 * 2)).map fun f => f / 2).eraseDups ++
        pick.bars.flatMap c.barPairs
      exec (.dispatch p pick) s = .next ((s.settlePairs p l settled).modPart p fun y =>
        { (y.modCore l fun c => c.place h pick y.gangCount y.admitted s.cycle).modLaunch h.n
            (fun e => { e with placed := e.placed + h.hdr.gang }) with
          pointer := (l + 1) % y.live, admitted := y.admitted + 1, gangCount := y.gangCount + 1 })) ∧
  (∀ s p n x c h, s.part? p = some x → x.core? 0 = some c → x.hold ≠ .suspended →
    (x.launches.find? fun e => e.n = n) = some h → h.done = false → h.stampWaits = false → x.workEnded h →
    let finish (t : State) : State := (t.modPart p fun y => y.modLaunch n fun e => { e with done := true }).assignLaunches p
    let value : W64 := BitVec.ofNat 64 (h.n % 2 ^ 63 + (if h.error then 2 ^ 63 else 0))
    (h.hdr.stamp = 0 → exec (.launchCompletion p n) s = .next (finish s)) ∧
    ∀ q, h.hdr.stamp ≠ 0 → s.reach x c.tile false (remoteTo 0) { cls := 1, write := true, kinds := [0] } h.hdr.stamp 8 = .ok q →
      s.blocked x c.tile q.locs = false →
      exec (.launchCompletion p n) s = .next (finish
        (((s.keepPages p 0 c.tile true q.pages).store p .other (q.locs.zip (leBytes 8 value.toNat))).fireMsix p 2))) ∧
  (∀ s p x e rest i, s.part? p = some x → s.halted = false → x.heldEvents = e :: rest → x.openSlot = some i →
    x.mergeSlot e = none → exec (.heldEventPost p) s = .next
      ((((s.modPart p fun y => { y with heldEvents := rest }).showHeld p).postEvent p i e).showHeld p)) ∧
  ∀ (s : State) p x, s.part? p = some x → s.showHeld p =
    if (x.locsOf x.csr.eqbase.toNat 64).isSome ∧ x.heldShown ≠ x.heldEvents.length then
      (s.modPart p fun y => { y with heldShown := y.heldEvents.length }).putHeader p 16 x.heldEvents.length
    else s

/-! # Events of the engines -/

/-- A copy's line is performed by its engine, one taken ahead is written as it was taken; once the payload is done the oldest
copy of its channel, or one with no stamp left to write, takes its next stamp: SEQ, with bit 63 set where the copy ended in
error. A tile row goes into its tile, the lines of a scatter to the members there are, and those of a bound partition out over
the port. A line that a binding brings is written where it lies in the peer window, behind the stores of the partition to it,
and acknowledged, otherwise refused, once a peer port may send; an answer to a line sent counts the line, or ends the copy in
error (R256, R289, R302 to R308, R311, R313, R316, R404). The model's choices: the source is read in the step that writes or
takes the line (log entry 81), a line that a binding brings rings no doorbell (log entry 40), the port that traffic of a binding
leaves over, and the wait of lines and stamps for a link that may not send (log entry 86), either stamp waits for the head of
the queue (log entry 32), a line that the window refuses has its first byte, with bit 63 set, as its fault address (log entry
34), and a copy that fails once its source-release stamp is written leaves that stamp as it is (log entry 96). -/
def Obligations.CopyEngineEvents : Prop :=
  (∀ s r line x c y, s.part? r.part = some x → s.core? r.part r.core = some c → (c.chan r.chan).queue[r.pos]? = some y →
    x.hold ≠ .suspended → c.absent = false → c.silent = false → (c.chan r.chan).suspended = false →
    (∀ h, (y.held.find? fun h => h.line = line) = some h → x.silent (h.cells.map (·.1)) = false →
      s.awaitsLink x c.tile (h.cells.map (·.1)) = false → exec (.copyLine r line) s =
        .next ((s.store r.part .engine h.cells).lineDone r.part r.core r.chan y line h.bytes)) ∧
    ((∀ h ∈ y.held, h.line ≠ line) →
      y.error ∨ y.tmpl.dst ≠ 1 ∨ (∀ ch ∈ c.chans, ∀ z ∈ ch.2.queue, z.id < y.id → z.tmpl.dst = 1 → z.tile ≠ y.tile) →
      (line ∈ y.left → x.silent (s.lineLocs x c y line) = false → s.awaitsLink x c.tile (s.lineLocs x c y line) = false →
        exec (.copyLine r line) s = .next (s.performLine x c r.part r.core r.chan y line)) ∧
      (y.left = [] → r.pos = 0 ∨ y.unacked = [] ∧ (y.relDone ∨ y.tmpl.relStamp = 0) ∧ y.tmpl.visStamp = 0 →
        exec (.copyLine r line) s = .next (s.stampStep r.part r.core r.chan y)))) ∧
  (∀ (s : State) x c p l n (y : Copy) line put qs pages, y.tmpl.dst ≠ 1 → y.tmpl.dst ≠ 3 → s.linePut x c y line = .ok (some (put, qs, pages)) →
    x.heldByOthers y.id (put.map (·.1)) = false → s.performLine x c p l n y line =
      (((s.keepAll p l c.tile qs).keepPages p l c.tile true pages).store p .engine put).lineDone p l n y line
        (lineCells y.tmpl y.arg (match y.scatter with
          | none => 0
          | some (_, o, _) => o) line).length) ∧
  (∀ (s : State) x c p l n (y : Copy) line, y.tmpl.dst = 1 →
    let cells := lineCells y.tmpl y.arg 0 line
    let data := s.lineData x c.tile y.issuer.sup y.tmpl y.arg (cellRuns s.tick cells)
    (∀ e, data = .error e → s.performLine x c p l n y line = s.copyFault p l n y e) ∧
    ∀ bytes qs, data = .ok (bytes, qs) →
      s.performLine x c p l n y line = ((s.keepAll p l c.tile qs).modCore p l fun c =>
        c.setTile y.tile { c.tileAt y.tile with
          bytes := bytes.foldl (fun m e => tableSet 0 m (256 * line + e.1) e.2) (c.tileAt y.tile).bytes }).lineDone
            p l n y line cells.length) ∧
  (∀ (s : State) x c p l n (y : Copy) line kind o ms, y.tmpl.dst = 2 → y.scatter = some (kind, o, ms) →
    let m := ms.getD line (0, 0)
    let cells := lineCells y.tmpl y.arg o line
    (x.memberLoc true m 0 = none → s.performLine x c p l n y line =
      (if kind = 5 then s.copyFault p l n y { code := 0x0A, va := y.arg.dst.toNat, cls := 6, arg := line }
       else s.lineDone p l n y line cells.length)) ∧
    ∀ bytes qs, (x.memberLoc true m 0).isSome →
      s.lineData x c.tile y.issuer.sup y.tmpl y.arg (cellRuns s.tick cells) = .ok (bytes, qs) →
      let put := bytes.filterMap fun e => (x.memberLoc true m e.1).map fun a => (a, e.2)
      x.heldByOthers y.id (put.map (·.1)) = false →
      s.performLine x c p l n y line = ((s.keepAll p l c.tile qs).store p .engine put).lineDone p l n y line cells.length) ∧
  (∀ (s : State) x c p l n (y : Copy) line, y.tmpl.dst = 3 →
    let cells := lineCells y.tmpl y.arg 0 line
    let refused (va : Nat) : State := s.copyFault p l n y { code := 0x09, va := va ||| 2 ^ 63, cls := 6 }
    (x.bound y.arg.binding = false → s.performLine x c p l n y line = refused ((cells.map fun e => e.dest).headD 0)) ∧
    (x.bound y.arg.binding → s.peerPort = none → s.performLine x c p l n y line = s) ∧
    ∀ port bytes qs, x.bound y.arg.binding → s.peerPort = some port →
      s.lineData x c.tile y.issuer.sup y.tmpl y.arg (cellRuns s.tick cells) = .ok (bytes, qs) →
      (∀ e, (cells.find? fun e => 2 ^ 58 ≤ e.dest) = some e → s.performLine x c p l n y line = refused e.dest) ∧
      ((∀ e ∈ cells, e.dest < 2 ^ 58) → s.performLine x c p l n y line =
        ((segments (bytes.foldl (fun m e => tablePut m e.1 e.2) [])).foldl
            (fun u g => u.sendPeer port (.peerLine p y.arg.binding g.1 g.2)) (s.keepAll p l c.tile qs)).modCopy p l n y.id
          fun z => { z with left := z.left.filter (· ≠ line), unacked := z.unacked ++ [line] })) ∧
  (∀ (s : State) x c p l (y : Copy) (va : W64) q, s.part? p = some x → s.core? p l = some c →
    s.engineReach x c.tile y.issuer.sup { cls := 6, write := true, kinds := [0] } va.toNat 8 = .ok q →
    (y.error → x.onLost q.locs → s.writeStamp p l y va = .ok (some s)) ∧
    (y.error = false ∨ x.onLost q.locs = false →
      (x.heldByOthers y.id q.locs ∨ s.awaitsLink x c.tile q.locs → s.writeStamp p l y va = .ok none) ∧
      (x.heldByOthers y.id q.locs = false → s.awaitsLink x c.tile q.locs = false → s.writeStamp p l y va =
        .ok (some ((s.keepPages p l c.tile true q.pages).store p .engine (q.locs.zip (leBytes 8 y.stamp.toNat))))))) ∧
  (∀ s p b off bytes x port, s.part? p = some x → x.bound b → x.hold ≠ .suspended → s.peerPort = some port →
    (∀ locs, off + bytes.length ≤ x.windowSize → x.locsOf (x.csr.pwbase.toNat + off) bytes.length = some locs →
      x.blocked locs = false → exec (.peerLineReceive p b off bytes) s =
        .next (((s.performLines p (locs.map fun a => a / 64)).store p .other (locs.zip bytes)).sendPeer port (.peerAck p b true))) ∧
    (x.windowSize < off + bytes.length → exec (.peerLineReceive p b off bytes) s = .next (s.sendPeer port (.peerAck p b false)))) ∧
  (∀ y : Copy, y.arg.seq.getLsbD 63 = false →
      (y.stamp.getLsbD 63 = y.error) ∧ y.stamp.toNat % 2 ^ 63 = y.arg.seq.toNat ∧
      ∀ target, y.error → stampMeets y.stamp target) ∧
  ∀ s r line c y, s.core? r.part r.core = some c → (c.chan r.chan).queue[r.pos]? = some y → line ∈ y.unacked → s.halted = false →
    exec (.peerLineAck r line true) s = .next ((s.modCopy r.part r.core r.chan y.id fun z =>
      { z with unacked := z.unacked.filter (· ≠ line) }).lineDone r.part r.core r.chan y line
        (lineCells y.tmpl y.arg 0 line).length) ∧
    exec (.peerLineAck r line false) s = .next (s.copyFault r.part r.core r.chan y (windowFault y line))

/-- Drains: a destination line is written with its entries; entries that reach their target are added as one step, each to its
own, with the status; a drain that finds another configuration posts a record with code 0x0D, one that finds no target a record
with code 0x09, as its team and its address. One that a binding brings is answered instead, where PWCTL admits the binding by a
launched team's accumulator alone; the answer to one sent has the same three outcomes (R330, R355, R357 to R359, R369). The
model's choices: lines are written at the PPAs of the issue check (log entry 36); an answer leaves over the first port that may
send, and a line or an addition waits while a link on its way may not (log entry 86). -/
def Obligations.DrainEvents : Prop :=
  (∀ s p l n line ppa x c d, s.part? p = some x → s.core? p l = some c → c.drains[n]? = some d →
    (d.left.find? fun e => e.1 = line) = some (line, ppa) → x.hold ≠ .suspended → c.silent = false →
    let put := (d.lineBytes line).filterMap fun e => (x.locOf (ppa + e.1)).map fun a => (a, e.2)
    x.heldByOthers x.copyCount (put.map (·.1)) = false → s.awaitsLink x c.tile (put.map (·.1)) = false →
    let left : List (Nat × Nat) := d.left.filter fun e => e.1 ≠ line
    exec (.drainLine p l n line) s = .next ((s.store p .engine put).modCore p l fun c =>
      { c with drains := if left = [] then c.drains.eraseIdx n else listSet c.drains n { d with left := left } })) ∧
  (∀ s p n x f c a, s.part? p = some x → x.hold ≠ .suspended → x.flights[n]? = some f → f.binding = 0 →
    x.overtakes n f = false → s.awaitsCore x f.srcCore f.core = false →
    x.core? f.core = some c → c.silent = false → x.flightTarget f = some a →
    (c.accAt a).mode = f.data.mode → (c.accAt a).modulus = f.data.modulus →
    exec (.peerDrainAddition p (.inside n)) s = .next ((s.modCore p f.core fun c =>
      c.setAcc a ((c.accAt a).addDrain f.data)).modPart p fun y => { y with flights := y.flights.eraseIdx n })) ∧
  (∀ s p n x f, s.part? p = some x → x.hold ≠ .suspended → x.flights[n]? = some f → f.binding = 0 →
    x.overtakes n f = false → s.awaitsCore x f.srcCore f.core = false → (x.core? f.core).any Core.silent = false →
    let gone : State := s.modPart p fun y => { y with flights := y.flights.eraseIdx n }
    (x.flightTarget f = none →
      exec (.peerDrainAddition p (.inside n)) s = .next (gone.event p (drainEvent f 0x09))) ∧
    ∀ a c, x.flightTarget f = some a → x.core? f.core = some c →
      (c.accAt a).mode ≠ f.data.mode ∨ (c.accAt a).modulus ≠ f.data.modulus →
      exec (.peerDrainAddition p (.inside n)) s = .next (gone.event p (drainEvent f 0x0D))) ∧
  (∀ (a : Acc) (d : DrainData), tableWf 0 a.entries →
    let b := a.addDrain d
    b.mode = a.mode ∧ b.modulus = a.modulus ∧
    (∀ i j, i < 64 → j < 64 →
      b.entry i j = addedEntry a.mode a.modulus.toNat (a.entry i j) (tableGet 0 d.entries (64 * i + j))) ∧
    ∀ bit < 5, b.status.getLsbD bit ↔ a.status.getLsbD bit ∨ d.status.getLsbD bit ∨ ∃ i < 4096,
      (addedStatus a.mode a.modulus.toNat (tableGet 0 a.entries i) (tableGet 0 d.entries i)).getLsbD bit) ∧
  (∀ s p b l slot acc data x port, s.part? p = some x → x.hold ≠ .suspended → x.bound b →
    (x.core? l).any Core.silent = false → s.peerPort = some port →
    let run := exec (.peerDrainAddition p (.bound b l slot acc data)) s
    let target := x.drainTarget (fun t => t.kind = .launched) l slot acc
    (x.csr.pwctl.getLsbD b = false → run = .next (s.sendPeer port (.drainAck p b .notAdmitted))) ∧
    (x.csr.pwctl.getLsbD b → target = none → run = .next (s.sendPeer port (.drainAck p b .notAdmitted))) ∧
    ∀ n c, x.csr.pwctl.getLsbD b → target = some n → x.core? l = some c →
      let fits := (c.accAt n).mode = data.mode ∧ (c.accAt n).modulus = data.modulus
      (fits → run = .next ((s.modCore p l fun c => c.setAcc n ((c.accAt n).addDrain data)).sendPeer port (.drainAck p b .added))) ∧
      (¬ fits → run = .next (s.sendPeer port (.drainAck p b .wrongConfiguration)))) ∧
  ∀ s p n x f, s.part? p = some x → s.halted = false → x.flights[n]? = some f → f.binding ≠ 0 →
    let gone : State := s.modPart p fun y => { y with flights := y.flights.eraseIdx n }
    exec (.drainAcknowledgement p n .added) s = .next gone ∧
    exec (.drainAcknowledgement p n .wrongConfiguration) s = .next (gone.event p (drainEvent f 0x0D)) ∧
    exec (.drainAcknowledgement p n .notAdmitted) s = .next (gone.event p (drainEvent f 0x09))

/-! # Partitions -/

/-- A reshape is one quiesce around its change, answered, after which the partitions whose detours led through a tile that has
died get other routes; a command that is not possible is refused, and one that arrives during a quiesce waits for its end, but
for the migration of a tile that failed during it, which is folded into it. The column count changes only with LIVE, and the
depth with the tiles. An erasing reshape is refused where no key can be born, and waits where its generation cannot be given
yet. The host's suspension is the first four steps of a quiesce and holds the partition; its resumption is the last three
(R209, R402, R414 to R417, R419 to R423, R437, R439, R461). The model's choices: a quiesce takes one step (log entry 50), the
depth that a change without a plan gives is that of the shallowest tree the model finds, at most 9 (log entries 69 and 84), a
failed tile elsewhere that loses its replacement leaves at once (log entry 53), the new key goes into a replacement slot (log
entry 58), and alarm level 1 refuses before the Mint does (log entry 59). -/
def Obligations.ReshapesAreQuiesces : Prop :=
  let around (s : State) (p : Nat) (f : State → State) : State := (f (s.quiesceBegin p)).endQuiesce p
  (∀ s p g x, s.part? p = some x → s.halted = false → x.hold ≠ .suspended →
    let change (t : State) : State :=
      let t1 : State := (t.modPart p fun y => { y with cores := y.cores ++ t.newCores g.tiles }).numberReturned p
      (g.tiles.foldl (fun (u : State) i => u.setTileState i .assigned) t1).modPart p fun y =>
        (({ y with tiles := y.tiles ++ g.tiles, depth := g.depth } : Partition).setCols g.cols).newMap (y.tiles ++ g.tiles)
    exec (.grow p g) s = .next (if s.growOk g x then (around s p change).strand.status .ok else s.status .refused)) ∧
  (∀ s p g x, s.part? p = some x → s.halted = false → x.hold ≠ .suspended → exec (.shrink p g) s = .next
    (if s.shrinkOk g x then (around s p fun t => t.shrink p g).strand.status .ok else s.status .refused)) ∧
  (∀ s p cols x, s.part? p = some x → s.halted = false → x.hold ≠ .suspended → exec (.compaction p cols) s = .next
    (if colsOk cols ((x.cores.filter fun c => !c.absent).length + (s.returned x).length) then
      (around s p fun t => t.compact p cols).strand.status .ok
     else s.status .refused)) ∧
  (∀ (s : State) p cols x y, s.part? p = some x → (s.compact p cols).part? p = some y →
    (y.live = x.live → y.cols = x.cols) ∧ ((∃ c ∈ x.cores, c.absent = false) → y.depth = (s.compact p cols).newDepth y.tiles)) ∧
  (∀ s p old new x, s.part? p = some x → s.halted = false →
    let may := old ∈ x.tiles ∧ s.mayMigrate x old ∧ s.mayReplace x old new
    let done (t : State) : State := t.noteLive.status .ok
    (x.hold ≠ .suspended → may → exec (.migration p old new) s =
      .next (done (around s p fun t => t.migrate p old new).strand)) ∧
    (x.hold = .suspended → old ∈ x.failedNow → may → exec (.migration p old new) s =
      .next (done ((s.drainEngines p).migrate p old new).strand)) ∧
    (x.hold ≠ .suspended ∨ old ∈ x.failedNow → ¬ may → exec (.migration p old new) s = .next (s.status .refused))) ∧
  (∀ (s : State) p old new x y, s.part? p = some x → (s.migrate p old new).part? p = some y →
    y.tiles = (x.tiles.map fun t => if t = old then new else t) ∧ y.depth = (s.migrate p old new).newDepth y.tiles) ∧
  (∀ s p x r t, s.part? p = some x → s.halted = false → x.hold ≠ .suspended → s.alarm1 = false → s.mintHealthy →
    s.spareSlot = some r →
    (s.mayBump x → s.generate r .memory p = .ok t → exec (.erasingReshape p) s =
      .next ((((t.teamsOf p).foldl State.killLaunched t).quiesce p fun u => u.erase p r x).status .ok)) ∧
    (s.mayBump x = false → exec (.erasingReshape p) s = .next (s.waitBump (.erasingReshape p)))) ∧
  (∀ s p x, s.part? p = some x → s.halted = false → x.hold ≠ .suspended →
    (s.alarm1 → exec (.erasingReshape p) s = .next (s.status .keyRefused)) ∧
    (s.alarm1 = false → s.mintHealthy = false → exec (.erasingReshape p) s = .next (s.status .keyEntropy)) ∧
    (s.alarm1 = false → s.mintHealthy → s.spareSlot = none → exec (.erasingReshape p) s = .next (s.status .keyState))) ∧
  (∀ s : State, (∀ x ∈ s.parts, ∀ t ∈ x.tiles, s.tileFailed t = false) → s.strand = s) ∧
  (∀ (s : State) p, s.endQuiesce p = (s.quiesceEnd p).throughDead.foldl
    (fun u q => ((u.quiesceBegin q).modPart q fun y => { y with depth := (u.quiesceBegin q).newDepth y.tiles }).quiesceEnd q)
    (s.quiesceEnd p)) ∧
  (∀ (s : State) q, q ∈ s.throughDead ↔ ∃ i ∈ s.tiles.zipIdx, i.1.state = .dead ∧ ∃ e ∈ i.1.router, e.1 = q ∧
    ∃ x, s.part? q = some x ∧ x.hold ≠ .suspended ∧ (i.2 ∉ x.tiles ∨ ∃ r ∈ e.2, r.chan = 3 ∧ r.port ≠ 4)) ∧
  (∀ s p x i, s.part? p = some x → s.halted = false → x.hold = .suspended →
    (∃ g, i = .grow p g) ∨ (∃ g, i = .shrink p g) ∨ (∃ cols, i = .compaction p cols) ∨
      (∃ old new, i = .migration p old new ∧ old ∉ x.failedNow) ∨ i = .erasingReshape p →
    exec i s = .next (s.modPart p fun y => { y with queued := y.queued ++ [i] })) ∧
  (∀ s p x, s.part? p = some x → s.halted = false → x.hold ≠ .suspended →
    exec (.suspend p) s = .next (((s.quiesceBegin p).modPart p fun y => { y with byHost := true }).status .ok)) ∧
  ∀ s p x, s.part? p = some x → s.halted = false → x.hold = .suspended → x.byHost → x.byHeat = false →
    exec (.resume p) s = .next (((s.modPart p fun y => { y with byHost := false }).endQuiesce p).status .ok)

/-- A partition is created whole, with its three keys, or not at all: alarm level 1 refuses it first, then its tiles, then its
keys, then all that follows. Its destruction ends its copies in error, gives its owner the next generation, drops its keys,
seals and routing tables, frees its tiles, those that have failed apart, and asks for a scrub; it is gone, and the others keep
their tiles and their cores' places, where no core of theirs is being substituted. It waits while the next generation cannot be
given (R209, R396 to R399, R402, R435, R437, R439, R441). The model's choices: the order of the refusals (log entry 59), what
`createOk` refuses of a creation's fields (log entry 67), a failed tile elsewhere whose last replacement is taken leaves at once
(log entry 53), and the scrub's lines are wiped when it is asked for (log entry 56). -/
def Obligations.CreationAndDestruction : Prop :=
  (∀ s c, s.inputs.create = some c → s.halted = false → s.booted →
    let keys := s.partitionKeys c.pindex [.memory, .detour, .hostStream]
    (s.alarm1 → exec .partitionCreation s = .next (s.status .keyRefused)) ∧
    (s.alarm1 = false → s.tilesOk c = false → exec .partitionCreation s = .next (s.status .refused)) ∧
    (s.alarm1 = false → s.tilesOk c → s.mintHealthy = false → exec .partitionCreation s = .next (s.status .keyEntropy)) ∧
    (∀ e, s.alarm1 = false → s.tilesOk c → keys = .error e → exec .partitionCreation s = .next (s.status e)) ∧
    ∀ t, s.alarm1 = false → s.tilesOk c → keys = .ok t → exec .partitionCreation s = .next
      (if t.createOk c then (((t.install c).holdIfHot c.pindex).strand).status .ok else s.status .refused)) ∧
  (∀ s p x t, s.part? p = some x → s.halted = false → s.mayBump x → exec (.destruction p) s = .next t →
      t.part? p = none ∧ ∀ q, q ≠ p →
        (t.part? q).map (fun y => (y.owner, y.base, y.alloc, y.tiles)) =
          (s.part? q).map (fun y => (y.owner, y.base, y.alloc, y.tiles)) ∧
        ∀ y, s.part? q = some y → (∀ c ∈ y.cores, c.warm = none) →
          (t.part? q).map (fun z => z.cores.map fun c => (c.tile, c.phys)) = some (y.cores.map fun c => (c.tile, c.phys))) ∧
  (∀ s p x t, s.part? p = some x → s.halted = false → s.mayBump x → exec (.destruction p) s = .next t →
      t.genOf x.owner = (x.gen + 1) % 4096 ∧
      (∀ k, (t.slot k).owner = p → (t.slot k).use ∈ [.memory, .detour, .hostStream] → (t.slot k).inUse = false) ∧
      (∀ i ∈ t.tiles, ∀ e ∈ i.router, e.1 ≠ p) ∧ (∀ q ∈ t.seals, q.stream ≠ .detour p ∧ q.stream ≠ .host p) ∧
      ∃ j ∈ t.scrubs, j.reason = 0 ∧ j.owner = x.owner ∧ j.pindex = some p) ∧
  ∀ s p x, s.part? p = some x → s.halted = false →
    let s1 := (s.modPart p fun y => { y with ending := true }).quiesceBegin p
    let s2 := (((s1.bump p).dropKeys p).dropRoutes p).flushSlices x
    let failed := x.emptied ++ x.tiles.filter s2.tileFailed
    let s3 := x.tiles.foldl (fun (u : State) t => u.releaseTile p t) s2
    (s.mayBump x → exec (.destruction p) s = .next
      (((({ failed.foldl (fun (u : State) t => u.setTileState t .dead) s3 with
          parts := s3.parts.filter fun y => y.pindex ≠ p
          seals := s3.seals.filter fun q => q.stream ≠ Stream.detour p && q.stream ≠ Stream.host p &&
            q.stream ≠ Stream.memory p }).askScrub 0 x.owner
            (some p) []).leaveDead).status .ok)) ∧
    (s.mayBump x = false → ∃ t, exec (.destruction p) s = .next t ∧ .destruction p ∈ t.bumps ∧ { t with bumps := s.bumps } = s)

/-! # Cores, tiles and links -/

/-- Cores and tiles: a core that serves nobody is retired, and a spare takes its place; a readable one of a running partition
with a spare, once what the partition has stored is performed, moves to it with every byte that it holds, and ends its transfer
there; one that cannot be read loses its state, a spare taking its number in one quiesce; without a spare the number is absent.
A retired core returns as a spare. A failed tile is degraded, its cores running on, where its state can be read, otherwise dead,
its cores lost where another tile can come; a free one is replaced by a spare tile, or the operator is told the count. A router
drops a packet that no table of its admits, or any if it is faulty, and its tile counts as degraded, with the sender of the
request waiting. A slice bank's retirement, for good and once, brings a new map; a request made under the map a tile still
holds, for a line of a bank retired since, is sent again under the newest, and waits where that one is superseded in turn, until
the tile has the newest (R3, R14, R206, R401, R402, R407 to R413). The model's choices: cores of a degraded tile run on until the
migration (log entry 53), a spare on which a frame in use is withheld is passed over (log entry 87), which cores and spare tiles
the live count takes in and when it is told (log entry 95), that a REMAP answer is counted where the line's bank is gone under
the map that the tile holds, or under the one by which its request was sent again (log entry 66), and which map a tile holds,
and with which banks (log entry 85). -/
def Obligations.CoreAndTileEvents : Prop :=
  (∀ s t c readable, s.serves t c = none →
    let s1 := s.setPhys t c .retired
    let was := (s.tiles[t]?).bind fun i => i.cores[c]?
    let spare := (s1.tiles[t]?).bind fun i => (i.coresIn .spare).head?
    (s.halted ∨ was ≠ some .live → exec (.coreRetirement t c readable) s = .next s1.noteLive) ∧
    (s.halted = false → was = some .live → s1.warmTarget t c = none →
      (∀ n, spare = some n → exec (.coreRetirement t c readable) s = .next (s1.setPhys t n .live)) ∧
      (spare = none → exec (.coreRetirement t c readable) s = .next s1.noteLive.strand)) ∧
    ∀ p l k, s.halted = false → was = some .live → s1.warmTarget t c = some (p, l) → s1.core? p l = some k →
      (∀ n, s1.spareOn t k = some n → exec (.coreRetirement t c readable) s =
        .next ((s1.setPhys t n .live).modCore p l fun k => { k with warm := some n })) ∧
      (s1.spareOn t k = none → exec (.coreRetirement t c readable) s =
        .next ((((s1.modCore p l fun k => { k with warm := none }).loseCore p l false).noteLive).keepZero p))) ∧
  (∀ s : State,
    let waits := (s.tiles.zipIdx.filter fun e => (e.1.state = .degraded || e.1.state = .dead) &&
      s.parts.any fun x => x.tiles.contains e.2).length
    let cores (st : TileState) : List Nat := (s.tiles.filter fun i => i.state = st).map fun i => min 64 (i.coresIn .live).length
    let count := ((s.tiles.filter fun i => i.state = .assigned || i.state = .free).map fun i => min 64 (i.coresIn .live).length).sum +
      ((cores .spare).take waits).sum
    s.noteLive = if count < s.liveKnown then ({ s with liveKnown := count } : State).emit (.liveCores count)
      else { s with liveKnown := count }) ∧
  (∀ s t c p l k x, s.serves t c = some (p, l) → s.core? p l = some k → k.lost = false → k.warm = none →
    s.halted = false → s.part? p = some x →
    let s1 := s.setPhys t c .retired
    (∀ n, s.spareOn t k = some n → x.hold ≠ .suspended → exec (.coreRetirement t c true) s =
      .next (((s1.setPhys t n .live).performPart p).modCore p l fun k => { k with warm := some n })) ∧
    (∀ n, s.spareOn t (freshCore t c) = some n → exec (.coreRetirement t c false) s =
      .next (((s1.setPhys t n .live).loseCore p l true).quiesce p fun u =>
        (u.vacate t n).modCore p l fun k => { k with tile := t, phys := n, lost := false })) ∧
    ∀ readable, s.spareOn t (if readable then k else freshCore t c) = none →
      let u := (s1.loseCore p l false).noteLive
      exec (.coreRetirement t c readable) s =
        .next (if (u.core? p 0).any fun z => z.absent then u.quiesce p fun v => v.compact p none else u)) ∧
  (∀ (s : State) p l tile phys c, s.core? p l = some c → c.lost = false → s.moveCore p l tile phys =
    (s.moveFrames c.tile c.phys tile phys).modCore p l fun c => { c with tile := tile, phys := phys, warm := none }) ∧
  (∀ (s : State) t c t' c', s.canonical → c < 66 → c' < 66 → (t', c') ≠ (t, c) → ∀ any n, n < 192 * 16384 →
    (s.moveFrames t c t' c').byteAt any (scratchLoc t' c' 0 n) = s.byteAt any (scratchLoc t c 0 n)) ∧
  (∀ s p l k n, s.halted = false → s.core? p l = some k → k.warm = some n →
    exec (.warmSubstitutionDone p l) s = .next (s.moveCore p l k.tile n).noteWithheld) ∧
  (∀ s t c i, s.tiles[t]? = some i → i.cores[c]? = some .retired → s.serves t c = none →
    exec (.coreReturn t c) s = .next (s.modTile t fun i => { i with cores := i.cores.set c .spare })) ∧
  (∀ s t c, s.serves t c ≠ none → exec (.coreReturn t c) s = .next s) ∧
  (∀ (s : State) (t : Nat) (readable : Bool),
    let s1 := s.modTile t fun i =>
      { i with state := if readable then .degraded else .dead, cores := i.cores.map fun _ => .retired }
    (s.tileIs t .dead ∨ s.tiles.length ≤ t ∨ s.tileIs t .degraded ∧ readable → exec (.tileDegraded t readable) s = .next s) ∧
    (s.tileIs t .dead = false → t < s.tiles.length → s.tileIs t .degraded = false ∨ readable = false →
      (s.halted → exec (.tileDegraded t readable) s = .next s1.noteLive) ∧
      (s.halted = false → s1.holds t = none → exec (.tileDegraded t readable) s = .next
        ((if s.tileIs t .free then (match s1.spareTile with
          | some n => s1.setTileState n .free
          | none => s1) else s1).noteLive.strand.leaveDead)) ∧
      ∀ p x, s.halted = false → s1.holds t = some p →
        let s2 := s1.modPart p fun x => if x.hold = .suspended then { x with failedNow := t :: x.failedNow } else x
        let s3 := s2.noteLive
        s3.part? p = some x → exec (.tileDegraded t readable) s = .next
          ((if readable ∨ s3.replacements x t = [] then s3 else s3.loseTile p t true).strand.leaveDead))) ∧
  (∀ s t p x, t < s.tiles.length → s.tileFailed t = false → s.halted = false → s.holds t = some p → s.part? p = some x →
      x.hold ≠ .suspended → (∀ y ∈ s.parts, ∀ u ∈ y.tiles, u ≠ t → s.tileFailed u = false) →
      (∀ y ∈ s.parts, t ∈ y.tiles → y = x) → (s.parts.map fun y => y.pindex).Nodup →
      (∀ i ∈ s.tiles, i.state = .dead → i.router = []) →
      let s1 := s.modTile t fun i => { i with state := .degraded, cores := i.cores.map fun _ => .retired }
      (∃ n < s.tiles.length, s1.mayReplace x t n) → exec (.tileDegraded t true) s = .next s1.noteLive) ∧
  (∀ s, let t := s.inputs.dropTile
    let counted : State := { s with drops := s.drops + 1 }
    (s.routed t s.inputs.dropTag → s.inputs.dropFaulty = false → exec .routerDrop s = .next s) ∧
    (s.routed t s.inputs.dropTag = false ∨ s.inputs.dropFaulty →
      (s.inputs.dropSender = none → exec .routerDrop s = .next (counted.failTile t true)) ∧
      ∀ r, s.inputs.dropSender = some r →
        let u := (counted.modPart r.part fun x => { x with dropped := x.dropped ++ [r] }).failTile t true
        exec .routerDrop s = .next (
          if (u.part? r.part).any fun x => x.tiles.contains t || !x.dropped.contains r then u else u.quiesce r.part id))) ∧
  (∀ s t c a, exec (.sramRowRepair t c a) s = .next s) ∧
  (∀ s t slice bank, slice < 8 → bank < 4 →
    let known := ∃ i, s.tiles[t]? = some i ∧ (slice, bank) ∈ i.banksGone
    let gone (u : State) : State := u.modTile t fun i => { i with banksGone := i.banksGone ++ [(slice, bank)] }
    (known → exec (.sliceBankRetirement t slice bank) s = .next s) ∧
    (¬ known → s.holds t = none → exec (.sliceBankRetirement t slice bank) s = .next (gone s)) ∧
    ∀ p x, ¬ known → s.holds t = some p → s.part? p = some x → exec (.sliceBankRetirement t slice bank) s = .next (gone
      (({ s with slices := s.slices.filter fun c => s.bankOf x c.1 ≠ some (t, slice, bank) }).modPart p fun y =>
        { y with
          mapGen := y.mapGen + 1, mapTiles := []
          mapHeld := y.tiles.foldl (fun l u => tablePut l u (y.heldGen u)) []
          banksGone := y.banksGone ++ [(t, slice, bank)] }))) ∧
  (∀ (s : State) (x : Partition) gen line,
    let since := x.banksGone.drop (x.banksGone.length - (x.mapGen - gen))
    s.superseded x gen line ↔
      ∃ b ∈ since, x.homeBank ((s.banksRetired x).filter fun b => !since.contains b) gen line = some b) ∧
  (∀ s p l line x c, s.part? p = some x → s.core? p l = some c → c.tile ∉ x.mapTiles →
    (c.remap = .resent → s.superseded x c.remapGen line →
      exec (.remap p l line) s = .next (s.modCore p l fun c => { c with remaps := c.remaps + 1, remap := .waiting })) ∧
    (c.remap = .idle ∨ c.remap = .resent ∧ s.superseded x c.remapGen line = false →
      s.superseded x (x.heldGen c.tile) line →
      exec (.remap p l line) s = .next (s.modCore p l fun c =>
        { c with remaps := c.remaps + 1, remap := .resent, remapGen := x.mapGen }))) ∧
  ∀ s p t x, s.part? p = some x → t ∈ x.tiles → t ∉ x.mapTiles →
    exec (.sliceMapUpdate p t) s = .next (s.modPart p fun y => { y with
      mapTiles := y.mapTiles ++ [t], mapHeld := tableDrop y.mapHeld t
      banksGone := if tableDrop y.mapHeld t = [] then [] else y.banksGone
      cores := y.cores.map fun c => if c.tile = t then { c with remap := .idle } else c })

/-- Links: the repair of a module that has a spare lane and its end, a degradation of both ends of a module, after which four
shut modules fail the link, so that the partitions whose tables use it take other routes and one that holds both its tiles has
a migration scheduled, or, at an edge that faces an I/O tile, that tile's direction too; a peer binding made after both ends are
attested and while some peer port may send, and a binding that ends (R402, R404 to R406). The model's choices: which migration is
scheduled, and where in the order of turns (log entry 84), that a port that may not send for want of a key admits no binding,
and the stream of an I/O tile's direction (log entry 86). -/
def Obligations.LinkEvents : Prop :=
  let here (t e m : Nat) (u : Ucie) : Bool := u.tile = t && u.edge = e && u.mod = m
  (∀ s t e m, t < s.tiles.length → e < 4 → m < 8 → (s.ucieAt t e m).cond = .full → ∃ v, exec (.laneRepair t e m) s = .next v ∧
    (∃ u ∈ v.ucie, here t e m u ∧ u.repairing ∧ u.cond = .full) ∧ { v with ucie := s.ucie } = s ∧
    ∀ u, here t e m u = false → (u ∈ v.ucie ↔ u ∈ s.ucie)) ∧
  (∀ s t e m, (s.ucieAt t e m).repairing →
    ∃ v, exec (.laneRepairDone t e m) s = .next v ∧ { v with ucie := s.ucie } = s ∧
      (∀ u ∈ v.ucie, here t e m u → u.repairing = false ∧ u.cond = (s.ucieAt t e m).cond) ∧
      ∀ u, here t e m u = false → (u ∈ v.ucie ↔ u ∈ s.ucie)) ∧
  (∀ s t e m cond, t < s.tiles.length → e < 4 → m < 8 →
    let shut (u : State) : Nat := (u.ucie.filter fun u => u.tile = t && u.edge = e && u.cond = .shut).length
    let s1 := s.degradeEnd t e m cond
    let s2 := match facing t e with
      | none => s1
      | some (u, f) => s1.degradeEnd u f m cond
    exec (.moduleDegrade t e m cond) s = .next (if 4 ≤ shut s2 ∧ shut s < 4 then s2.failLink t e else s2)) ∧
  (∀ (s : State) t e,
    let s1 := s.putSeal { s.seal (.ucie t e) with up := false }
    s.failLink t e = match facing t e with
      | none => s1.putSeal { s1.seal (.io t e) with up := false }
      | some (u, f) =>
        let s2 := s1.putSeal { s1.seal (.ucie u f) with up := false }
        let users := (s2.usersOf t e ++ s2.usersOf u f).eraseDups
        let s3 := users.foldl (fun v p => (v.quiesce p fun w => w.setDepth p).planMove p t u) s2
        (((s3.parts.filter fun x => x.tiles.contains t && x.tiles.contains u).map fun x => x.pindex).filter
          fun p => !users.contains p).foldl (fun v p => v.planMove p t u) s3) ∧
  (∀ (s : State) p t u, s.planMove p t u = { s with turns := s.turns ++ (s.wayOut p t u).toList.map Turn.event }) ∧
  (∀ (s : State) t e m cond, ((s.degradeEnd t e m cond).ucieAt t e m).repairing = false ∧
    ((s.degradeEnd t e m cond).ucieAt t e m).cond =
      (if (s.ucieAt t e m).cond = .full then cond
       else if cond = .shut then .shut else (s.ucieAt t e m).cond) ∧
    ∀ u, here t e m u = false → (u ∈ (s.degradeEnd t e m cond).ucie ↔ u ∈ s.ucie)) ∧
  (∀ s p b far x, s.part? p = some x → s.halted = false →
    exec (.peerBinding p b far) s = .next
      (if 1 ≤ b ∧ b ≤ 15 ∧ far.attested ∧ (∀ y ∈ x.bindings, y.b ≠ b) ∧ s.peerPort.isSome then
        (s.modPart p fun y => { y with bindings := y.bindings ++ [{ b := b, far := far }] }).status .ok
      else s.status .refused)) ∧
  ∀ s p b x, s.part? p = some x → (∃ y ∈ x.bindings, y.b = b) →
    exec (.bindingEnd p b) s = .next (if s.halted then s else s.endBinding p b)

/-! # Keys, streams, alarms -/

/-- The Vault's commands: each moves one slot as its rule says, leaves every other slot as it was, and answers; a bound key is
loaded into its stream's sealing units, and a slot that becomes empty takes its copies there with it; a rotation whose
replacement slot is empty draws the key first; on a slot in another state, or one that does not take the key, a command answers
KEY-STATE and changes nothing; every birth and every bind of a key is refused with KEY-REFUSED under alarm level 1, and a key to
be drawn with KEY-ENTROPY without a healthy Mint (R429, R432 to R434, R437, R439). ZEROISE_RESET empties every slot and zeroes
the sealing units' copies. The model's choices (log entry 59): the order of these refusals, alarm, slot, Mint; that a rotation
counts as a bind under the alarm; that a key for slots from 8 on is imported under an operator key; what may replace a key; that
a stream whose keys are zeroised goes down. Also the model's: units that wait to be sent again count under the new key (log
entry 86), and bytes of second-tier lines of running partitions read as free values once their memory keys are zeroised (log
entry 97). -/
def Obligations.VaultCommands : Prop :=
  let only (s t : State) (k : Nat) : Prop := ∀ j, j ≠ k → t.slot j = s.slot j
  let ok (s t : State) : Prop := t.outputs = s.outputs ++ [.status .ok]
  let unloaded (s t : State) (k : Nat) : Prop := ∀ q ∈ t.seals,
    some q.stream = (s.slot k).stream? → q.key = 0 ∨ q.key ≠ (s.slot k).key
  let rotated (s t : State) (k r : Nat) : Prop :=
    t.slot k = { s.slot k with state := .retiring, since := s.cycle } ∧ (∀ j, j ≠ k → j ≠ r → t.slot j = s.slot j) ∧
    (∀ x, (s.slot k).stream? = some x → (t.seal x).key = (t.slot r).key) ∧
    (∃ more, t.outputs = s.outputs ++ more ++ [.status .ok]) ∧ ((s.slot k).use = .detour → ok s t)
  (∀ s k use p, s.canonical → s.alarm1 = false → s.mintHealthy → (s.slot k).state = .empty → slotFits k use p →
    ∃ t key, exec (.generate k use p) s = .next t ∧
      t.slot k = { state := .provisioned, key := key, use := use, owner := p, since := 0 } ∧ only s t k ∧ ok s t) ∧
  (∀ s k use p key, s.canonical → s.alarm1 = false → (s.slot k).state = .empty → slotFits k use p →
    (8 ≤ k → s.operatorKey) →
    ∃ t, exec (.importKey k use p key) s = .next t ∧
      t.slot k = { state := .provisioned, key := key, use := use, owner := p, since := 0 } ∧ only s t k ∧ ok s t) ∧
  (∀ s k, s.canonical → s.alarm1 = false → (s.slot k).state = .provisioned →
    ∃ t, exec (.bindKey k) s = .next t ∧ t.slot k = { s.slot k with state := .active } ∧ only s t k ∧ ok s t ∧
      ∀ x, t.seal x = if (s.slot k).stream? = some x then (s.seal x).rekeyed (s.slot k).key else s.seal x) ∧
  (∀ (q : Seal) key, let r := q.rekeyed key
    (r.stream, r.key, r.resend, r.up, r.fails) = (q.stream, key, [], q.up, q.fails) ∧
    ((∀ p, q.stream ≠ .detour p) → r.counter = q.resend.length) ∧
    ∀ p, q.stream = .detour p → q.resend = [] → r.counter = 0 ∧ r.sources = []) ∧
  (∀ (v : VaultSlot), v.stream? = match v.use with
    | .memory => some (.memory v.owner)
    | .detour => some (.detour v.owner)
    | .hostStream => some (.host v.owner)
    | _ => none) ∧
  (∀ s k, s.canonical → (s.slot k).state = .provisioned →
    ∃ t, exec (.discard k) s = .next t ∧ t.slot k = VaultSlot.reset ∧ only s t k ∧ unloaded s t k ∧ ok s t) ∧
  (∀ s k r, s.canonical → s.alarm1 = false → (s.slot k).state = .active → (s.slot k).use = .detour ∨ (s.slot k).use = .hostStream →
    200 ≤ r → r ≤ 255 →
    ((s.slot r).state = .provisioned → (s.slot r).use = (s.slot k).use → (s.slot r).owner = (s.slot k).owner →
      ∃ t, exec (.rotate k r) s = .next t ∧ t.slot r = { s.slot r with state := .active } ∧ rotated s t k r) ∧
    ((s.slot r).state = .empty → (s.slot k).owner < 64 → s.mintHealthy →
      ∃ t key, exec (.rotate k r) s = .next t ∧ rotated s t k r ∧ t.slot r =
        { state := .active, key := key, use := (s.slot k).use, owner := (s.slot k).owner, since := 0 }) ∧
    ((s.slot r).state = .empty → (s.slot k).owner < 64 → s.mintHealthy = false →
      exec (.rotate k r) s = .next (s.status .keyEntropy)) ∧
    ((s.slot r).state ≠ .empty → (s.slot r).state ≠ .provisioned ∨ (s.slot r).use ≠ (s.slot k).use ∨
      (s.slot r).owner ≠ (s.slot k).owner → exec (.rotate k r) s = .next (s.status .keyState))) ∧
  (∀ s k, s.canonical → (s.slot k).state = .active ∨ (s.slot k).state = .retiring →
    (s.slot k).use ∈ [.memory, .detour, .hostStream] → s.part? (s.slot k).owner = none →
    ∃ t, exec (.destroy k) s = .next t ∧ t.slot k = VaultSlot.reset ∧ only s t k ∧ unloaded s t k ∧ ok s t) ∧
  (∀ s k, s.canonical → (s.slot k).state = .retiring →
    ∃ t, exec (.retiringEnd k) s = .next t ∧ t.slot k = VaultSlot.reset ∧ only s t k ∧ unloaded s t k) ∧
  (∀ s k, s.canonical → (s.slot k).inUse →
    ∃ t, exec (.revoke k) s = .next t ∧ t.slot k = { s.slot k with state := .revoked } ∧ only s t k ∧ ok s t) ∧
  (∀ s, s.canonical → ∃ t, exec .zeroiseReset s = .next t ∧ t.vault = [] ∧
    (t.seals = s.seals.map fun q => match q.stream with
      | .detour _ => { q with key := 0, up := false }
      | .host _ => { q with key := 0, up := false }
      | .memory _ => { q with key := 0, up := false }
      | _ => q) ∧
    { t with vault := s.vault, seals := s.seals, mem := s.mem, slices := s.slices } = s ∧
    ∀ loc, let sealed_ : Prop := loc / 64 < 2 ^ 42 ∧ (∃ x ∈ s.parts, x.tag = s.tagOf (loc / 64)) ∧ loc / 64 ∈ s.tags.map (·.1)
      (sealed_ → tableGet 0 t.mem loc = Config.garbled s.tick loc) ∧ (¬ sealed_ → tableGet 0 t.mem loc = tableGet 0 s.mem loc)) ∧
  (VaultSlot.reset.state = .empty ∧ VaultSlot.reset.key = 0) ∧
  (∀ s k use p, s.alarm1 = false → (s.slot k).state = .empty → slotFits k use p → s.mintHealthy = false →
    exec (.generate k use p) s = .next (s.status .keyEntropy)) ∧
  (∀ s k use p, s.alarm1 = false →
    ((s.slot k).state ≠ .empty ∨ slotFits k use p = false → exec (.generate k use p) s = .next (s.status .keyState)) ∧
    ∀ key, (s.slot k).state ≠ .empty ∨ slotFits k use p = false ∨ 8 ≤ k ∧ s.operatorKey = false →
      exec (.importKey k use p key) s = .next (s.status .keyState)) ∧
  (∀ s k, ((s.slot k).state ≠ .provisioned →
      (s.alarm1 = false → exec (.bindKey k) s = .next (s.status .keyState)) ∧
      exec (.discard k) s = .next (s.status .keyState)) ∧
    ((s.slot k).state ≠ .active ∧ (s.slot k).state ≠ .retiring ∨ (s.slot k).use ∉ [.memory, .detour, .hostStream] ∨
      (∃ x, s.part? (s.slot k).owner = some x) → exec (.destroy k) s = .next (s.status .keyState)) ∧
    ((s.slot k).inUse = false → exec (.revoke k) s = .next (s.status .keyState)) ∧
    ((s.slot k).state ≠ .retiring → exec (.retiringEnd k) s = .next s) ∧
    ∀ r, s.alarm1 = false → (s.slot k).state ≠ .active ∨ (s.slot k).use ∉ [.detour, .hostStream] ∨ r < 200 ∨ 255 < r →
      exec (.rotate k r) s = .next (s.status .keyState)) ∧
  ∀ s k use p, s.alarm1 → exec (.generate k use p) s = .next (s.status .keyRefused) ∧
    exec (.bindKey k) s = .next (s.status .keyRefused) ∧ (∀ r, exec (.rotate k r) s = .next (s.status .keyRefused)) ∧
    ∀ key, exec (.importKey k use p key) s = .next (s.status .keyRefused)

/-- Streams, the Mint and the alarms: a stream at 2⁶² sends nothing until it takes a new key and begins its counter again, a link
one that is drawn, a detour or a host stream one from a replacement slot, whereupon what waited for the host goes; the ninth tag
failure within a second fails it and raises alarm level 1; a failed continuous test makes the Mint unhealthy and a start-up
test, at most one a second, may heal it; alarm level 1, from each of its sources, revokes the detour or host-stream key that the
source names, and is cleared by command; alarm level 2 empties the Vault, drops every stream and holds every partition for good
and the module (R428 to R430, R436 to R440). A tag failure has the unit sent again: it counts now or, at the limit, under the next
key; of a detour it counts at its source tile. The model's choices: a rekey below the limit does nothing (log entry 59), alarm
level 2 drops the waiting stores, scrubs, bumps and queued commands too (log entry 60), which tile of a partition the failed
unit of a detour came from, and that a unit cannot be sent again before the next key where the counter stands at the limit (log
entry 86). -/
def Obligations.StreamsMintAndAlarms : Prop :=
  (∀ (s : State) x, 2 ^ 62 ≤ (s.seal x).counter → s.sends x = false) ∧
  (∀ (s : State) p tile, 2 ^ 62 ≤ tableGet 0 (s.seal (.detour p)).sources tile → s.detourSends p tile = false) ∧
  (∀ s x, (s.seal x).counter < 2 ^ 62 → exec (.rekey x) s = .next s) ∧
  (∀ s x, (∃ t e, x = .ucie t e ∨ x = .io t e) ∨ (∃ n, x = .peer n) → 2 ^ 62 ≤ (s.seal x).counter →
    (s.mintHealthy → ∃ key, exec (.rekey x) s = .next (s.putSeal ((s.seal x).rekeyed key))) ∧
    (s.mintHealthy = false → exec (.rekey x) s = .next (s.status .keyEntropy))) ∧
  (∀ s p use x, use = .detour ∧ x = .detour p ∨ use = .hostStream ∧ x = .host p → 2 ^ 62 ≤ (s.seal x).counter →
    (∀ k r t, s.activeSlot p use = some k → s.spareSlot = some r → s.rotate k r = .ok t →
      exec (.rekey x) s = .next (if use = .hostStream then t.flushHost p else t) ∧
      (s.canonical → ((s.seal x).resend = [] → (t.seal x).counter = 0) ∧ (t.seal x).key = (t.slot r).key)) ∧
    (∀ k r e, s.activeSlot p use = some k → s.spareSlot = some r → s.rotate k r = .error e →
      exec (.rekey x) s = .next (s.status e)) ∧
    (s.activeSlot p use = none ∨ s.spareSlot = none → exec (.rekey x) s = .next (s.status .keyState))) ∧
  (∀ s x, (∀ p, x ≠ .memory p) → let fails := (s.seal x).fails.filter fun f => s.cycle < f + 1250000000
    let s1 := s.putSeal { s.sendAgain (s.seal x) with fails := fails ++ [s.cycle] }
    exec (.tagFailure x) s = .next (if 8 ≤ fails.length then (s1.failStream x).raiseAlarm1 (.tagFailures x) else s1)) ∧
  (∀ (s : State) (q : Seal), (∀ p, q.stream ≠ .detour p) → s.sendAgain q =
    if q.counter < 2 ^ 62 then { q with counter := q.counter + 1 } else { q with resend := q.resend ++ [0] }) ∧
  (∀ (s : State) (q : Seal) p, q.stream = .detour p → ∃ m, (∀ x, s.part? p = some x → x.tiles ≠ [] → m ∈ x.tiles) ∧
    let n := tableGet 0 q.sources m + 1
    s.sendAgain q = if n ≤ 2 ^ 62 then { q with sources := tableSet 0 q.sources m n, counter := max q.counter n }
      else { q with resend := q.resend ++ [m] }) ∧
  (∀ (s : State) x, let down := s.putSeal { s.seal x with up := false, fails := [] }
    (∀ t e, x = .ucie t e ∨ x = .io t e → s.failStream x = down.failLink t e) ∧
    (∀ p, x = .host p → s.failStream x = down.modPart p fun y => { y with tdisp := .error, hostWait := [] }) ∧
    ((∃ p, x = .detour p) ∨ (∃ n, x = .peer n) → s.failStream x = down)) ∧
  (∀ s, exec .continuousTestFailure s = .next { s with mintHealthy := false }) ∧
  (∀ s, let due := ∀ c, s.mintTested = some c → c + 1250000000 ≤ s.cycle
    (s.mintHealthy ∨ ¬ due → exec .mintRetest s = .next s) ∧
    (s.mintHealthy = false → due → s.inputs.mintSource →
      exec .mintRetest s = .next { s with mintTested := some s.cycle, mintHealthy := true, mintFails := 0 }) ∧
    (s.mintHealthy = false → due → s.inputs.mintSource = false → ∃ t, exec .mintRetest s = .next t ∧ t.mintHealthy = false ∧
      t.mintTested = some s.cycle ∧ t.mintFails = s.mintFails + 1 ∧ (2 ≤ s.mintFails → t.alarm1) ∧
      (s.mintFails < 2 → t.alarm1 = s.alarm1))) ∧
  (∀ s, (∃ x, s.inputs.alarm = .tagFailures x) ∨ s.inputs.alarm = .mintStartup ∨ s.inputs.alarm = .supplyShort ∨
      s.inputs.alarm = .firmware → exec .alarmLevel1 s = .next (s.raiseAlarm1 s.inputs.alarm)) ∧
  (∀ (s : State) src, let t := s.raiseAlarm1 src
    t.alarm1 ∧ t.outputs = s.outputs ++ [.alarm 1 src] ∧
    ((∀ p, src ≠ .tagFailures (.detour p) ∧ src ≠ .tagFailures (.host p)) →
      t = ({ s with alarm1 := true }).emit (.alarm 1 src)) ∧
    ∀ p use, src = .tagFailures (.detour p) ∧ use = .detour ∨ src = .tagFailures (.host p) ∧ use = .hostStream →
      { t with vault := s.vault, alarm1 := s.alarm1, outputs := s.outputs } = s ∧
      (s.canonical → ∀ k, t.slot k =
        if (s.slot k).owner = p ∧ (s.slot k).use = use ∧ (s.slot k).inUse then { s.slot k with state := .revoked } else s.slot k)) ∧
  (∀ s, exec .alarmClear s = .next { s with alarm1 := false }) ∧
  (∀ s, let two := s.inputs.alarm = .tamper ∨ s.inputs.alarm = .supplyLong ∨ s.inputs.alarm = .operatorCommand
    (two → exec .alarmLevel1 s = .next s) ∧ (¬ two → exec .alarmLevel2 s = .next s)) ∧
  ∀ s, s.inputs.alarm = .tamper ∨ s.inputs.alarm = .supplyLong ∨ s.inputs.alarm = .operatorCommand →
    ∃ t, exec .alarmLevel2 s = .next t ∧ t.halted ∧ t.alarm2 ∧ t.vault = [] ∧ (∀ x, (t.seal x).up = false) ∧ t.scrubs = [] ∧
      t.late = [] ∧ t.bumps = [] ∧ (∀ x ∈ t.parts, x.hold = .suspended ∧ x.tdisp = .error ∧ x.sessions = [] ∧ x.queued = [] ∧
        x.hostWait = []) ∧ t.outputs = s.outputs ++ [.alarm 2 s.inputs.alarm]

/-- A scrub covers every line of its owner's earlier generations: from the moment it is asked for the lines read zero and
carry the quarantine owner, every other owner's lines are as they were, and none of them is given out before the receipt. Once
carried out it counts what it has written and lists what it could not write, of those lines that still carry the quarantine
owner; its receipt goes out signed with the next number, its owner's generations may be given again, operations that waited for
that are tried again, and what could not be written never returns to service (R209, R441 to R443). The model's choices: the lines
are wiped when the scrub is asked for (log entry 56), a scrub lists what it could not write of lines that carry the quarantine
owner and of frames given up (log entry 63), and WHERE of a frame is 2^62 with its number, counted over the module (log entry
92). -/
def Obligations.ScrubsClearOldLines : Prop :=
  (∀ (s : State) reason owner pindex vacated, s.canonical →
    let t := s.askScrub reason owner pindex vacated
    (∃ j, t.scrubs = s.scrubs ++ [j] ∧ j.reason = reason ∧ j.owner = owner ∧ j.newGen = s.genOf owner ∧ j.started = false ∧
      ∀ line, line ∈ j.covers → t.tagOf line = Config.quarantineTag) ∧
    ∀ line, let tag := s.tagOf line
      (tag ≠ Config.quarantineTag → (reason = 3 ∨ tag / 4096 = owner) → tag % 4096 ≠ s.genOf (tag / 4096) →
        t.tagOf line = Config.quarantineTag ∧ (∃ j ∈ t.scrubs, line ∈ j.covers) ∧
        ∀ any loc, loc / 64 = line → t.byteAt any loc = 0) ∧
      (reason ≠ 3 → tag / 4096 ≠ owner →
        t.tagOf line = tag ∧ ∀ any loc, loc / 64 = line → t.byteAt any loc = s.byteAt any loc)) ∧
  (∀ (s : State) base n, s.rangeFree base n → ∀ j ∈ s.scrubs, ∀ line ∈ j.covers, 64 * line < base ∨ base + n ≤ 64 * line) ∧
  (∀ s j rest, pullFirst (fun (j : ScrubJob) => !j.started) s.scrubs = some (j, rest) →
    ∃ lines frames bad, exec .scrub s = .next { s with scrubs := rest ++ [
        { j with started := true, lines := lines, frames := frames, bad := bad }] } ∧
      lines + frames + bad.length = (s.scrubLines j).length + (s.scrubFrames j).length ∧
      ∀ b ∈ bad, (b.2 = 1 ∨ b.2 = 2) ∧ ((∃ line ∈ s.scrubLines j, b.1 = BitVec.ofNat 64 (64 * line)) ∨
        ∃ f ∈ s.scrubFrames j, b.1 = BitVec.ofNat 64 (2 ^ 62 + f))) ∧
  (∀ (s : State) (j : ScrubJob),
    (∀ line, line ∈ s.scrubLines j ↔ line ∈ j.covers ∧ 64 * line < 2 ^ 48 ∧ s.tagOf line = Config.quarantineTag) ∧
    ∀ f, f ∈ s.scrubFrames j ↔ ((∃ line ∈ j.covers, 2 ^ 48 ≤ 64 * line ∧ (64 * line - 2 ^ 48) / 16384 = f) ∨ f ∈ j.vacated) ∧
      ∀ line ∈ j.covers, 2 ^ 48 ≤ 64 * line → (64 * line - 2 ^ 48) / 16384 = f → s.tagOf line = Config.quarantineTag) ∧
  ∀ s j rest, pullFirst (fun (j : ScrubJob) => j.started) s.scrubs = some (j, rest) →
    ∃ t, exec .scrubReceipt s = .next t ∧ t.scrubs = rest ∧ t.receipts = s.receipts + 1 ∧
      (∀ w, w ∈ t.quarantine ↔ w ∈ s.quarantine ∨ w ∈ j.bad.map (·.1)) ∧ t.mem = s.mem ∧ t.tags = s.tags ∧
      (∀ g, g ∈ t.worn ↔ g ∈ s.worn ∧ g ∉ j.tags) ∧ t.bumps = [] ∧ t.turns = s.turns ++ s.bumps.map Turn.event ∧
      ∃ sig : List Byte, sig.length = 64 ∧ t.outputs = s.outputs ++ [.receipt (receiptBody j (s.receipts + 1) ++ sig)]

/-! # The host -/

/-- SPDM and TDISP, while the module is not held: an SPDM request of a function that exists is answered by one message or
refused; the responder takes only SM2, SM3 and AES-256-GCM, signs with the attestation key and gives its chain where slot 0 has
certified it; sessions open, finish and get their keys in that order, and the keys set the function's IDE stream up anew, so
that what waited for a key goes; the interface is locked, started and stopped over a finished session, without a message where
that succeeds (R432, R444 to R446). The model's choices: what the responder answers without an attestation key or a chain, and
that the keys of the IDE stream stand beside the slot's (log entry 65); that START needs a session with its keys and a stream
that is up, that LOCK and STOP need a finished session, and what STOP clears (log entry 64). -/
def Obligations.HostMessages : Prop :=
  (∀ s p x, s.part? p = some x → s.halted = false →
    (∀ i ∈ [Instr.getVersion p, .getCapabilities p], ∃ data, exec i s = .next (s.emit (.spdm p data))) ∧
    (∀ i ∈ [Instr.getDigests p, .getCertificate p], ∃ data,
      exec i s = .next (s.emit (if s.certified then .spdm p data else .spdmRefused p))) ∧
    (∀ a, exec (.negotiateAlgorithms p a) s = .next
      (if a.sm2 ∧ a.sm3 ∧ a.aes256gcm then s.emit (.spdm p (Config.spdmBody 2 p s.tick)) else s.emit (.spdmRefused p))) ∧
    (∀ nonce, ∃ body : List Byte, exec (.challenge p nonce) s = .next (s.emit (if (s.slot 1).inUse then .spdm p
      (body ++ leBytes 64 (Config.sm2 (s.slot 1).key s.tick (body ++ leBytes 32 nonce.toNat)).toNat) else .spdmRefused p))) ∧
    (∀ index nonce, ∃ sig : List Byte, sig.length = 64 ∧
      let body := x.report.take (x.report.length - 64)
      exec (.getMeasurements p index nonce) s = .next (s.emit
        (if index = 1 then .spdm p (leBytes 32 s.digest.toNat)
         else if index = 16 ∧ (s.slot 1).inUse then
           .spdm p (body.take 64 ++ leBytes 32 nonce.toNat ++ body.drop 96 ++ sig)
         else .spdmRefused p))) ∧
    ((s.slot 1).inUse = false → exec (.keyExchange p) s = .next (s.emit (.spdmRefused p))) ∧
    ((s.slot 1).inUse → ∃ n data, (∀ e ∈ x.sessions, e.1 ≠ n) ∧ exec (.keyExchange p) s = .next
      ((s.modPart p fun y => { y with sessions := y.sessions ++ [(n, .opened)] }).emit (.spdm p data)))) ∧
  (∀ s p x n st, s.part? p = some x → s.halted = false → (x.sessions.find? fun e => e.1 = n) = some (n, st) →
    (st = .opened → ∃ data, exec (.finish p n) s = .next ((s.modPart p fun y =>
      { y with sessions := y.sessions.map fun e => if e.1 = n then (n, .finished) else e }).emit (.spdm p data))) ∧
    (st ≠ .opened → exec (.finish p n) s = .next (s.emit (.spdmRefused p))) ∧
    (st = .opened → (∀ e ∈ x.sessions, e.1 = n → e.2 = .opened) →
      exec (.ideKeyManagement p n) s = .next (s.emit (.spdmRefused p))) ∧
    (st ≠ .opened → ∃ key data, exec (.ideKeyManagement p n) s = .next ((((s.putSeal
      { stream := .host p, counter := 0, fails := [], up := true, key := key }).flushHost p).modPart p fun y =>
      { y with sessions := y.sessions.map fun e => if e.1 = n then (n, .keyed) else e }).emit (.spdm p data)))) ∧
  (∀ s p x n, s.part? p = some x → s.halted = false → (∃ e ∈ x.sessions, e.1 = n ∧ e.2 ≠ .opened) →
    (exec (.lockInterface p n) s = .next (if x.tdisp = .configUnlocked then
      s.modPart p fun y => { y with tdisp := .configLocked } else s.emit (.spdmRefused p))) ∧
    (exec (.startInterface p n) s = .next (if x.tdisp = .configLocked ∧ (∃ e ∈ x.sessions, e.2 = .keyed) ∧ (s.seal (.host p)).up then
      s.modPart p fun y => { y with tdisp := .run } else s.emit (.spdmRefused p))) ∧
    exec (.stopInterface p n) s = .next (s.modPart p fun y =>
      { y with tdisp := .configUnlocked, msix := [], msixTable := [], msixPending := 0, hostWait := [] })) ∧
  ∀ s p x n, s.part? p = some x → s.halted = false → (∀ e ∈ x.sessions, e.1 = n → e.2 = .opened) →
    ∀ i ∈ [Instr.lockInterface p n, .startInterface p n, .stopInterface p n], exec i s = .next (s.emit (.spdmRefused p))

/-- The BARs: outside RUN, or beside the function's IDE stream, a read is refused and a write is dropped; in RUN an access goes
over the function's host stream at once, waits in order while the stream waits for a new key, and is lost where the port is out
of use or the stream is down. BAR 2 is the partition's memory under its own tag, zeros beyond it, where a write is dropped; BAR 0
has the mailbox line, the MSI-X table and the pending bits. A read answers poisoned zeros where a byte is uncorrectable; a
write is the store of an agent that rings no doorbell, and vectors that it unmasks fire (R205, R429, R446, R447, R462, R463).
The model's choices: the table's layout, its masks, and that a vector whose pending bit is set fires when its mask is cleared
(log entry 30); an access beside the IDE stream is refused, one over a stream that is down dropped, and the other bytes of
BAR 0 are free values (log entry 64); each completion counts one unit (log entry 86); a slice may keep what a written line held
before, but for a line that a monitor of the partition watches (log entry 72). -/
def Obligations.HostBars : Prop :=
  let unit (s : State) (p : Nat) (path : HostPath) : Prop :=
    ∃ x, s.part? p = some x ∧ s.halted = false ∧ x.tdisp = .run ∧ s.inputs.barIde ∧ s.hostPath x = path
  (∀ s p bar off n x, s.part? p = some x → s.halted = false → x.tdisp ≠ .run ∨ s.inputs.barIde = false → bar = 0 ∨ bar = 2 →
    exec (.hostBarRead p bar off n) s = .next (s.emit (.unsupported p)) ∧
    ∀ bytes, exec (.hostBarWrite p bar off bytes) s = .next s) ∧
  (∀ (s : State) (x : Partition), let q := s.seal (.host x.pindex)
    let open_ := s.hostPortOn x.port ∧ q.up
    (¬ open_ → s.hostPath x = .closed) ∧ (open_ → s.hostPath x =
      if x.hostWait = [] ∧ q.counter < 2 ^ 62 then .clear else .waits)) ∧
  (∀ s p bar off n, bar = 0 ∨ bar = 2 →
    (unit s p .closed → exec (.hostBarRead p bar off n) s = .next s ∧
      ∀ bytes, exec (.hostBarWrite p bar off bytes) s = .next s) ∧
    (unit s p .waits → exec (.hostBarRead p bar off n) s = .next (s.modPart p fun y =>
        { y with hostWait := y.hostWait ++ [.read bar off n] }) ∧
      ∀ bytes, exec (.hostBarWrite p bar off bytes) s = .next (s.modPart p fun y =>
        { y with hostWait := y.hostWait ++ [.write bar off bytes] }))) ∧
  (∀ (s : State) (x : Partition) off,
    (s.barByte x 2 off = if off < x.alloc then .mem (x.base + off) else .value 0) ∧
    (off < 64 → ∀ loc, x.locOf (x.csr.mboxppa.toNat + off) = some loc → s.barByte x 0 off = .mem loc) ∧
    (off < 0x40 → s.barByte x 0 (0x1000 + off) = .value (tableGet 0 x.msixTable off)) ∧
    (off < 8 → s.barByte x 0 (0x2000 + off) = .value (BitVec.ofNat 8 (x.msixPending / 256 ^ off)))) ∧
  (∀ s p bar off n x, unit s p .clear → s.part? p = some x → bar = 0 ∨ bar = 2 →
    let q := s.seal (.host p)
    let bytes := (List.range n).map fun i => s.barByte x bar (off + i)
    exec (.hostBarRead p bar off n) s = .next ((s.putSeal { q with counter := q.counter + 1 }).emit (
      if bytes.any (fun b => match b with
        | .mem loc => s.badAt x.tag loc
        | .value _ => false) then .completion p (List.replicate n 0) true
      else .completion p (bytes.map fun b => match b with
        | .mem loc => s.byteAt x.tag loc
        | .value v => v) false))) ∧
  (∀ s p off (bytes : List Byte) x, unit s p .clear → s.part? p = some x → x.msixPending = 0 →
    let cells := (bytes.zipIdx.filter fun e => off + e.2 < x.alloc).map fun e => (x.base + (off + e.2), e.1)
    ∃ slices, exec (.hostBarWrite p 2 off bytes) s = .next { s.store p .other cells with slices := slices } ∧
      ∀ c ∈ slices, c ∈ s.slices ∨ (∃ e ∈ cells, e.1 / 64 = c.1) ∧
        c.2 = (List.range 64).map fun i => s.byteAt x.tag (64 * c.1 + i)) ∧
  (∀ s p off (bytes : List Byte) x, unit s p .clear → s.part? p = some x →
    let cells := bytes.zipIdx.filterMap fun e =>
      if off + e.2 < 64 then (x.locOf (x.csr.mboxppa.toNat + (off + e.2))).map fun loc => (loc, e.1) else none
    let table := bytes.zipIdx.filter fun e => 0x1000 ≤ off + e.2 ∧ off + e.2 < 0x1040
    ∃ slices, exec (.hostBarWrite p 0 off bytes) s = .next ((List.range 4).foldl (fun u v => u.firePending p v)
        ({ s.store p .other cells with slices := slices }.modPart p fun y =>
          { y with msixTable := table.foldl (fun m (e : Byte × Nat) => tableSet 0 m (off + e.2 - 0x1000) e.1) y.msixTable })) ∧
      ∀ c ∈ slices, c ∈ s.slices ∨ (∃ e ∈ cells, e.1 / 64 = c.1) ∧
        c.2 = (List.range 64).map fun i => s.byteAt x.tag (64 * c.1 + i)) ∧
  ∀ (s : State) p v x, s.part? p = some x →
    (x.msixPending.testBit v → x.msixMasked v = false → s.firePending p v =
      (s.modPart p fun y => { y with msixPending := y.msixPending - 2 ^ v }).fireMsix p v) ∧
    (x.msixPending.testBit v = false ∨ x.msixMasked v → s.firePending p v = s)

/-! # Bring-up, power, heat -/

/-- Bring-up with a passing Mint and measured firmware leaves the module in service with no partition, at most 72 tiles
(grade A) or 68 free, at most 64 cores of each tile numbered, no more memory than 16,384 GB less what is quarantined for good,
and a tile that has failed before out of service; a failed stage holds the module, without a partition and without a tile that
one had. At 24,000 W and above the module lowers its duty, and above 95 °C a tile its own; at 105 °C or without coolant flow every
partition is suspended and the host told, until every tile is below 90 °C (R1, R14, R16, R23, R395, R425 to R427, R442). The
model's choices: steps of one sixteenth between 1 and 16, up as well as down (log entry 62), and what of memory and of the tiles'
states a bring-up keeps (log entry 61). -/
def Obligations.BringUpPowerAndHeat : Prop :=
  (∀ s, s.inputs.bringUp.mintOk → s.inputs.bringUp.firmwareOk → ∃ t, exec .powerOn s = .next t ∧ t.booted ∧
    t.halted = false ∧ t.parts = [] ∧ t.digest = s.inputs.bringUp.digest ∧ t.tiles.length = 74 ∧
    (t.tiles.filter fun i => i.state = .free).length ≤ (if s.grade = 0 then 72 else 68) ∧
    (∀ i ∈ t.tiles, i.state ≠ .assigned ∧ (i.coresIn .live).length ≤ 64) ∧ (s.alarm2 = false → t.mem = s.mem) ∧
    t.capacity ≤ 16384 * 10 ^ 9 - 64 * (s.quarantine.filter fun w => w.toNat / 2 ^ 62 = 0).length ∧ t.io.length = 8 ∧
    ∀ n < 74, s.tileFailed n → t.tileFailed n) ∧
  (∀ s, s.inputs.bringUp.mintOk = false ∨ s.inputs.bringUp.firmwareOk = false → ∃ t, exec .powerOn s = .next t ∧
    t.booted = false ∧ t.halted ∧ t.parts = [] ∧ ∀ i ∈ t.tiles, i.state ≠ .assigned) ∧
  (∀ s, exec .powerSample s = .next (if 24000 ≤ s.inputs.watts then { s with duty := max 1 (s.duty - 1) }
    else if s.inputs.watts < 23000 then { s with duty := min 16 (s.duty + 1) } else s)) ∧
  (∀ s, s.halted = false → s.hot = false → (∀ t < s.tiles.length, s.inputs.temps.getD t 0 < 105) →
    exec .thermalReport s = .next { s with tiles := s.tiles.zipIdx.map fun e =>
      { e.1 with duty := if 95 < s.inputs.temps.getD e.2 0 then max 1 (e.1.duty - 1) else min 16 (e.1.duty + 1) } }) ∧
  (∀ i s, s.halted = false → (s.parts.map fun x => x.pindex).Nodup →
    (i = .coolantFlowLoss ∧ s.tiles ≠ [] ∨ i = .thermalReport ∧ ∃ t < s.tiles.length, 105 ≤ s.inputs.temps.getD t 0) →
    ∃ t, exec i s = .next t ∧ t.hot ∧ .physical 105 ∈ t.outputs ∧
    (∀ x ∈ t.parts, x.hold = .suspended ∧ x.byHeat) ∧ t.parts.map (fun x => x.pindex) = s.parts.map fun x => x.pindex) ∧
  ∀ s, s.halted = false → s.hot → (∀ t < s.tiles.length, s.inputs.temps.getD t 0 < 90) →
    ∃ t, exec .thermalReport s = .next t ∧ t.hot = false ∧ ∀ x ∈ t.parts, x.byHeat = false
end

