-- ==== Sys2Proof/Laws/Access.lean ====
section
/-! SUPPORT. Finding a part of the state after an update of it: an update at a place shows there, and nowhere else. -/

namespace Sys2Proof.Machine

/-- Updating the elements of a key maps what a search for the key finds. -/
theorem find?_map_key {α : Type} (l : List α) (key : α → Nat) (f : α → α) (k : Nat) (h : ∀ x, key (f x) = key x) :
    (l.map fun x => if key x = k then f x else x).find? (fun x => key x = k) = (l.find? fun x => key x = k).map f := by
  induction l with
  | nil => rfl
  | cons x l ih =>
    by_cases hx : key x = k
    · simp [hx, h]
    · simpa [List.find?_cons, hx] using ih

theorem find?_map_other {α : Type} (l : List α) (key : α → Nat) (f : α → α) (k j : Nat) (h : ∀ x, key (f x) = key x)
    (hj : j ≠ k) :
    (l.map fun x => if key x = k then f x else x).find? (fun x => key x = j) = l.find? fun x => key x = j := by
  induction l with
  | nil => rfl
  | cons x l ih =>
    by_cases hx : key x = k
    · have : key x ≠ j := fun e => hj (e.symm.trans hx)
      simpa [List.find?_cons, hx, h, Ne.symm hj] using ih
    · by_cases hj' : key x = j
      · simp [hj', hj]
      · simpa [List.find?_cons, hx, hj'] using ih

/-! ## Partitions -/

theorem State.part?_modPart (s : State) (p : Nat) (f : Partition → Partition) (h : ∀ x, (f x).pindex = x.pindex) :
    (s.modPart p f).part? p = (s.part? p).map f :=
  find?_map_key s.parts (fun x => x.pindex) f p h

theorem State.part?_modPart_other (s : State) {p q : Nat} (f : Partition → Partition) (h : ∀ x, (f x).pindex = x.pindex)
    (hq : q ≠ p) : (s.modPart p f).part? q = s.part? q :=
  find?_map_other s.parts (fun x => x.pindex) f p q h hq

/-- Two updates of one partition are one. -/
theorem State.modPart_modPart (s : State) (p : Nat) (f g : Partition → Partition) (h : ∀ x, (f x).pindex = x.pindex) :
    (s.modPart p f).modPart p g = s.modPart p fun x => g (f x) := by
  simp only [State.modPart, List.map_map]
  congr 1
  refine List.map_congr_left fun x _ => ?_
  by_cases hx : x.pindex = p <;> simp [hx, h]

/-! ## Cores -/

theorem Partition.core?_modCore (x : Partition) (l : Nat) (f : Core → Core) : (x.modCore l f).core? l = (x.core? l).map f := by
  simp [Partition.modCore, Partition.core?]

theorem Partition.core?_modCore_other (x : Partition) {l j : Nat} (f : Core → Core) (h : j ≠ l) :
    (x.modCore l f).core? j = x.core? j := by
  simp [Partition.modCore, Partition.core?, h.symm]

theorem Partition.modCore_modCore (x : Partition) (l : Nat) (f g : Core → Core) :
    (x.modCore l f).modCore l g = x.modCore l fun c => g (f c) := by
  simp only [Partition.modCore]
  congr 1
  refine List.ext_getElem? fun i => ?_
  simp only [List.getElem?_modify]
  by_cases h : l = i <;> cases x.cores[i]? <;> simp [h]

theorem State.core?_modCore (s : State) (p l : Nat) (f : Core → Core) : (s.modCore p l f).core? p l = (s.core? p l).map f := by
  simp only [State.core?, State.modCore]
  rw [State.part?_modPart s p (fun x => x.modCore l f) fun _ => rfl]
  cases s.part? p with
  | none => rfl
  | some x => exact x.core?_modCore l f

theorem State.modCore_modCore (s : State) (p l : Nat) (f g : Core → Core) :
    (s.modCore p l f).modCore p l g = s.modCore p l fun c => g (f c) := by
  simp only [State.modCore]
  rw [State.modPart_modPart s p (fun x => x.modCore l f) _ fun _ => rfl]
  simp only [Partition.modCore_modCore]

/-! ## Teams -/

theorem Core.team?_modTeam (c : Core) (k : Nat) (f : Team → Team) (h : ∀ t, (f t).slot = t.slot) :
    (c.modTeam k f).team? k = (c.team? k).map f :=
  find?_map_key c.teams (fun t => t.slot) f k h

theorem Core.team?_modTeam_other (c : Core) {k j : Nat} (f : Team → Team) (h : ∀ t, (f t).slot = t.slot) (hj : j ≠ k) :
    (c.modTeam k f).team? j = c.team? j :=
  find?_map_other c.teams (fun t => t.slot) f k j h hj

theorem Core.modTeam_modTeam (c : Core) (k : Nat) (f g : Team → Team) (h : ∀ t, (f t).slot = t.slot) :
    (c.modTeam k f).modTeam k g = c.modTeam k fun t => g (f t) := by
  simp only [Core.modTeam, List.map_map]
  congr 1
  refine List.map_congr_left fun t _ => ?_
  by_cases ht : t.slot = k <;> simp [ht, h]

theorem State.team?_modTeam (s : State) (p l k : Nat) (f : Team → Team) (h : ∀ t, (f t).slot = t.slot) :
    (s.modTeam p l k f).team? p l k = (s.team? p l k).map f := by
  simp only [State.team?, State.modTeam]
  rw [State.core?_modCore]
  cases s.core? p l with
  | none => rfl
  | some c => exact c.team?_modTeam k f h

theorem State.modTeam_modTeam (s : State) (p l k : Nat) (f g : Team → Team) (h : ∀ t, (f t).slot = t.slot) :
    (s.modTeam p l k f).modTeam p l k g = s.modTeam p l k fun t => g (f t) := by
  simp only [State.modTeam]
  rw [State.modCore_modCore]
  simp only [Core.modTeam_modTeam _ _ _ _ h]

/-! ## Splits -/

theorem Team.split?_modSplit (t : Team) (e : Nat) (f : Split → Split) (h : ∀ x, (f x).entry = x.entry) :
    (t.modSplit e f).split? e = (t.split? e).map f :=
  find?_map_key t.splits (fun x => x.entry) f e h

theorem Team.split?_modSplit_other (t : Team) {e j : Nat} (f : Split → Split) (h : ∀ x, (f x).entry = x.entry) (hj : j ≠ e) :
    (t.modSplit e f).split? j = t.split? j :=
  find?_map_other t.splits (fun x => x.entry) f e j h hj

theorem State.split?_modSplit (s : State) (r : SplitRef) (f : Split → Split) (h : ∀ x, (f x).entry = x.entry) :
    (s.modSplit r f).split? r = (s.split? r).map f := by
  simp only [State.split?, State.modSplit]
  rw [State.team?_modTeam s _ _ _ (fun t => t.modSplit r.entry f) fun _ => rfl]
  cases s.team? r.part r.core r.slot with
  | none => rfl
  | some t => exact t.split?_modSplit r.entry f h

/-! ## The context of a split -/

/-- What a context says: each of its parts is found in the state. -/
theorem State.ctxAt_iff (s : State) (r : SplitRef) (k : Ctx) :
    s.ctxAt r = some k ↔
      k.r = r ∧ s.part? r.part = some k.part ∧ k.part.core? r.core = some k.core ∧ k.core.team? r.slot = some k.team ∧
        k.team.split? r.entry = some k.split := by
  unfold State.ctxAt
  constructor
  · intro h
    split at h
    · cases h
    · rename_i x hx
      split at h
      · cases h
      · rename_i c hc
        split at h
        · cases h
        · rename_i t ht
          split at h
          · cases h
          · rename_i sp hsp
            cases h
            exact ⟨rfl, hx, hc, ht, hsp⟩
  · obtain ⟨r', x, c, t, sp⟩ := k
    rintro ⟨rfl, hx, hc, ht, hsp⟩
    simp_all

theorem State.split?_of_ctxAt {s : State} {r : SplitRef} {k : Ctx} (h : s.ctxAt r = some k) : s.split? r = some k.split := by
  obtain ⟨-, hx, hc, ht, hs⟩ := (s.ctxAt_iff r k).1 h
  simp [State.split?, State.team?, State.core?, hx, hc, ht, hs]

theorem State.team?_of_ctxAt {s : State} {r : SplitRef} {k : Ctx} (h : s.ctxAt r = some k) :
    s.team? r.part r.core r.slot = some k.team := by
  obtain ⟨-, hx, hc, ht, -⟩ := (s.ctxAt_iff r k).1 h
  simp [State.team?, State.core?, hx, hc, ht]

/-- The context after an update of its team that leaves the slot, and its split, to be found. -/
theorem State.ctxAt_modTeam {s : State} {r : SplitRef} {k : Ctx} (f : Team → Team) (h : s.ctxAt r = some k)
    (hs : ∀ t, (f t).slot = t.slot) (sp : Split) (hsp : (f k.team).split? r.entry = some sp) :
    (s.modTeam r.part r.core r.slot f).ctxAt r = some
      { r := r, part := k.part.modCore r.core fun c => c.modTeam r.slot f, core := k.core.modTeam r.slot f
        team := f k.team, split := sp } := by
  obtain ⟨-, hx, hc, ht, -⟩ := (s.ctxAt_iff r k).1 h
  rw [State.ctxAt_iff]
  refine ⟨rfl, ?_, ?_, ?_, hsp⟩
  · simp only [State.modTeam, State.modCore]
    rw [State.part?_modPart s r.part (fun x => x.modCore r.core fun c => c.modTeam r.slot f) fun _ => rfl, hx]; rfl
  · rw [Partition.core?_modCore, hc]; rfl
  · rw [Core.team?_modTeam _ _ _ hs, ht]; rfl

end Sys2Proof.Machine
end

