-- ==== Sys2Proof/Laws/State.lean ====
section
/-! SUPPORT. What each update of a part of the state leaves as it was: one lemma a field an update, true by definition, so
that no later proof unfolds a record update. -/

namespace Sys2Proof.Machine

/-! ### `State.modPart` -/

@[simp] theorem State.modPart_grade (s : State) (p : Nat) (f : Partition → Partition) : (s.modPart p f).grade = s.grade := rfl
@[simp] theorem State.modPart_booted (s : State) (p : Nat) (f : Partition → Partition) : (s.modPart p f).booted = s.booted := rfl
@[simp] theorem State.modPart_halted (s : State) (p : Nat) (f : Partition → Partition) : (s.modPart p f).halted = s.halted := rfl
@[simp] theorem State.modPart_tiles (s : State) (p : Nat) (f : Partition → Partition) : (s.modPart p f).tiles = s.tiles := rfl
@[simp] theorem State.modPart_io (s : State) (p : Nat) (f : Partition → Partition) : (s.modPart p f).io = s.io := rfl
@[simp] theorem State.modPart_mem (s : State) (p : Nat) (f : Partition → Partition) : (s.modPart p f).mem = s.mem := rfl
@[simp] theorem State.modPart_tags (s : State) (p : Nat) (f : Partition → Partition) : (s.modPart p f).tags = s.tags := rfl
@[simp] theorem State.modPart_bad (s : State) (p : Nat) (f : Partition → Partition) : (s.modPart p f).bad = s.bad := rfl
@[simp] theorem State.modPart_slices (s : State) (p : Nat) (f : Partition → Partition) : (s.modPart p f).slices = s.slices := rfl
@[simp] theorem State.modPart_late (s : State) (p : Nat) (f : Partition → Partition) : (s.modPart p f).late = s.late := rfl
@[simp] theorem State.modPart_capacity (s : State) (p : Nat) (f : Partition → Partition) : (s.modPart p f).capacity = s.capacity := rfl
@[simp] theorem State.modPart_quarantine (s : State) (p : Nat) (f : Partition → Partition) : (s.modPart p f).quarantine = s.quarantine := rfl
@[simp] theorem State.modPart_vault (s : State) (p : Nat) (f : Partition → Partition) : (s.modPart p f).vault = s.vault := rfl
@[simp] theorem State.modPart_mintHealthy (s : State) (p : Nat) (f : Partition → Partition) : (s.modPart p f).mintHealthy = s.mintHealthy := rfl
@[simp] theorem State.modPart_mintFails (s : State) (p : Nat) (f : Partition → Partition) : (s.modPart p f).mintFails = s.mintFails := rfl
@[simp] theorem State.modPart_mintTested (s : State) (p : Nat) (f : Partition → Partition) : (s.modPart p f).mintTested = s.mintTested := rfl
@[simp] theorem State.modPart_certified (s : State) (p : Nat) (f : Partition → Partition) : (s.modPart p f).certified = s.certified := rfl
@[simp] theorem State.modPart_alarm1 (s : State) (p : Nat) (f : Partition → Partition) : (s.modPart p f).alarm1 = s.alarm1 := rfl
@[simp] theorem State.modPart_digest (s : State) (p : Nat) (f : Partition → Partition) : (s.modPart p f).digest = s.digest := rfl
@[simp] theorem State.modPart_seals (s : State) (p : Nat) (f : Partition → Partition) : (s.modPart p f).seals = s.seals := rfl
@[simp] theorem State.modPart_ucie (s : State) (p : Nat) (f : Partition → Partition) : (s.modPart p f).ucie = s.ucie := rfl
@[simp] theorem State.modPart_drops (s : State) (p : Nat) (f : Partition → Partition) : (s.modPart p f).drops = s.drops := rfl
@[simp] theorem State.modPart_gens (s : State) (p : Nat) (f : Partition → Partition) : (s.modPart p f).gens = s.gens := rfl
@[simp] theorem State.modPart_worn (s : State) (p : Nat) (f : Partition → Partition) : (s.modPart p f).worn = s.worn := rfl
@[simp] theorem State.modPart_alarm2 (s : State) (p : Nat) (f : Partition → Partition) : (s.modPart p f).alarm2 = s.alarm2 := rfl
@[simp] theorem State.modPart_reprovision (s : State) (p : Nat) (f : Partition → Partition) : (s.modPart p f).reprovision = s.reprovision := rfl
@[simp] theorem State.modPart_scrubs (s : State) (p : Nat) (f : Partition → Partition) : (s.modPart p f).scrubs = s.scrubs := rfl
@[simp] theorem State.modPart_bumps (s : State) (p : Nat) (f : Partition → Partition) : (s.modPart p f).bumps = s.bumps := rfl
@[simp] theorem State.modPart_liveKnown (s : State) (p : Nat) (f : Partition → Partition) : (s.modPart p f).liveKnown = s.liveKnown := rfl
@[simp] theorem State.modPart_receipts (s : State) (p : Nat) (f : Partition → Partition) : (s.modPart p f).receipts = s.receipts := rfl
@[simp] theorem State.modPart_hot (s : State) (p : Nat) (f : Partition → Partition) : (s.modPart p f).hot = s.hot := rfl
@[simp] theorem State.modPart_duty (s : State) (p : Nat) (f : Partition → Partition) : (s.modPart p f).duty = s.duty := rfl
@[simp] theorem State.modPart_cycle (s : State) (p : Nat) (f : Partition → Partition) : (s.modPart p f).cycle = s.cycle := rfl
@[simp] theorem State.modPart_inputs (s : State) (p : Nat) (f : Partition → Partition) : (s.modPart p f).inputs = s.inputs := rfl
@[simp] theorem State.modPart_outputs (s : State) (p : Nat) (f : Partition → Partition) : (s.modPart p f).outputs = s.outputs := rfl
@[simp] theorem State.modPart_cur (s : State) (p : Nat) (f : Partition → Partition) : (s.modPart p f).cur = s.cur := rfl
@[simp] theorem State.modPart_turns (s : State) (p : Nat) (f : Partition → Partition) : (s.modPart p f).turns = s.turns := rfl
@[simp] theorem State.modPart_tick (s : State) (p : Nat) (f : Partition → Partition) : (s.modPart p f).tick = s.tick := rfl
@[simp] theorem State.modPart_waited (s : State) (p : Nat) (f : Partition → Partition) : (s.modPart p f).waited = s.waited := rfl

/-! ### `State.modCore` -/

@[simp] theorem State.modCore_grade (s : State) (p l : Nat) (f : Core → Core) : (s.modCore p l f).grade = s.grade := rfl
@[simp] theorem State.modCore_booted (s : State) (p l : Nat) (f : Core → Core) : (s.modCore p l f).booted = s.booted := rfl
@[simp] theorem State.modCore_halted (s : State) (p l : Nat) (f : Core → Core) : (s.modCore p l f).halted = s.halted := rfl
@[simp] theorem State.modCore_tiles (s : State) (p l : Nat) (f : Core → Core) : (s.modCore p l f).tiles = s.tiles := rfl
@[simp] theorem State.modCore_io (s : State) (p l : Nat) (f : Core → Core) : (s.modCore p l f).io = s.io := rfl
@[simp] theorem State.modCore_mem (s : State) (p l : Nat) (f : Core → Core) : (s.modCore p l f).mem = s.mem := rfl
@[simp] theorem State.modCore_tags (s : State) (p l : Nat) (f : Core → Core) : (s.modCore p l f).tags = s.tags := rfl
@[simp] theorem State.modCore_bad (s : State) (p l : Nat) (f : Core → Core) : (s.modCore p l f).bad = s.bad := rfl
@[simp] theorem State.modCore_slices (s : State) (p l : Nat) (f : Core → Core) : (s.modCore p l f).slices = s.slices := rfl
@[simp] theorem State.modCore_late (s : State) (p l : Nat) (f : Core → Core) : (s.modCore p l f).late = s.late := rfl
@[simp] theorem State.modCore_capacity (s : State) (p l : Nat) (f : Core → Core) : (s.modCore p l f).capacity = s.capacity := rfl
@[simp] theorem State.modCore_quarantine (s : State) (p l : Nat) (f : Core → Core) : (s.modCore p l f).quarantine = s.quarantine := rfl
@[simp] theorem State.modCore_vault (s : State) (p l : Nat) (f : Core → Core) : (s.modCore p l f).vault = s.vault := rfl
@[simp] theorem State.modCore_mintHealthy (s : State) (p l : Nat) (f : Core → Core) : (s.modCore p l f).mintHealthy = s.mintHealthy := rfl
@[simp] theorem State.modCore_mintFails (s : State) (p l : Nat) (f : Core → Core) : (s.modCore p l f).mintFails = s.mintFails := rfl
@[simp] theorem State.modCore_mintTested (s : State) (p l : Nat) (f : Core → Core) : (s.modCore p l f).mintTested = s.mintTested := rfl
@[simp] theorem State.modCore_certified (s : State) (p l : Nat) (f : Core → Core) : (s.modCore p l f).certified = s.certified := rfl
@[simp] theorem State.modCore_alarm1 (s : State) (p l : Nat) (f : Core → Core) : (s.modCore p l f).alarm1 = s.alarm1 := rfl
@[simp] theorem State.modCore_digest (s : State) (p l : Nat) (f : Core → Core) : (s.modCore p l f).digest = s.digest := rfl
@[simp] theorem State.modCore_seals (s : State) (p l : Nat) (f : Core → Core) : (s.modCore p l f).seals = s.seals := rfl
@[simp] theorem State.modCore_ucie (s : State) (p l : Nat) (f : Core → Core) : (s.modCore p l f).ucie = s.ucie := rfl
@[simp] theorem State.modCore_drops (s : State) (p l : Nat) (f : Core → Core) : (s.modCore p l f).drops = s.drops := rfl
@[simp] theorem State.modCore_gens (s : State) (p l : Nat) (f : Core → Core) : (s.modCore p l f).gens = s.gens := rfl
@[simp] theorem State.modCore_worn (s : State) (p l : Nat) (f : Core → Core) : (s.modCore p l f).worn = s.worn := rfl
@[simp] theorem State.modCore_alarm2 (s : State) (p l : Nat) (f : Core → Core) : (s.modCore p l f).alarm2 = s.alarm2 := rfl
@[simp] theorem State.modCore_reprovision (s : State) (p l : Nat) (f : Core → Core) : (s.modCore p l f).reprovision = s.reprovision := rfl
@[simp] theorem State.modCore_scrubs (s : State) (p l : Nat) (f : Core → Core) : (s.modCore p l f).scrubs = s.scrubs := rfl
@[simp] theorem State.modCore_bumps (s : State) (p l : Nat) (f : Core → Core) : (s.modCore p l f).bumps = s.bumps := rfl
@[simp] theorem State.modCore_liveKnown (s : State) (p l : Nat) (f : Core → Core) : (s.modCore p l f).liveKnown = s.liveKnown := rfl
@[simp] theorem State.modCore_receipts (s : State) (p l : Nat) (f : Core → Core) : (s.modCore p l f).receipts = s.receipts := rfl
@[simp] theorem State.modCore_hot (s : State) (p l : Nat) (f : Core → Core) : (s.modCore p l f).hot = s.hot := rfl
@[simp] theorem State.modCore_duty (s : State) (p l : Nat) (f : Core → Core) : (s.modCore p l f).duty = s.duty := rfl
@[simp] theorem State.modCore_cycle (s : State) (p l : Nat) (f : Core → Core) : (s.modCore p l f).cycle = s.cycle := rfl
@[simp] theorem State.modCore_inputs (s : State) (p l : Nat) (f : Core → Core) : (s.modCore p l f).inputs = s.inputs := rfl
@[simp] theorem State.modCore_outputs (s : State) (p l : Nat) (f : Core → Core) : (s.modCore p l f).outputs = s.outputs := rfl
@[simp] theorem State.modCore_cur (s : State) (p l : Nat) (f : Core → Core) : (s.modCore p l f).cur = s.cur := rfl
@[simp] theorem State.modCore_turns (s : State) (p l : Nat) (f : Core → Core) : (s.modCore p l f).turns = s.turns := rfl
@[simp] theorem State.modCore_tick (s : State) (p l : Nat) (f : Core → Core) : (s.modCore p l f).tick = s.tick := rfl
@[simp] theorem State.modCore_waited (s : State) (p l : Nat) (f : Core → Core) : (s.modCore p l f).waited = s.waited := rfl

/-! ### `State.modTeam` -/

@[simp] theorem State.modTeam_grade (s : State) (p l k : Nat) (f : Team → Team) : (s.modTeam p l k f).grade = s.grade := rfl
@[simp] theorem State.modTeam_booted (s : State) (p l k : Nat) (f : Team → Team) : (s.modTeam p l k f).booted = s.booted := rfl
@[simp] theorem State.modTeam_halted (s : State) (p l k : Nat) (f : Team → Team) : (s.modTeam p l k f).halted = s.halted := rfl
@[simp] theorem State.modTeam_tiles (s : State) (p l k : Nat) (f : Team → Team) : (s.modTeam p l k f).tiles = s.tiles := rfl
@[simp] theorem State.modTeam_io (s : State) (p l k : Nat) (f : Team → Team) : (s.modTeam p l k f).io = s.io := rfl
@[simp] theorem State.modTeam_mem (s : State) (p l k : Nat) (f : Team → Team) : (s.modTeam p l k f).mem = s.mem := rfl
@[simp] theorem State.modTeam_tags (s : State) (p l k : Nat) (f : Team → Team) : (s.modTeam p l k f).tags = s.tags := rfl
@[simp] theorem State.modTeam_bad (s : State) (p l k : Nat) (f : Team → Team) : (s.modTeam p l k f).bad = s.bad := rfl
@[simp] theorem State.modTeam_slices (s : State) (p l k : Nat) (f : Team → Team) : (s.modTeam p l k f).slices = s.slices := rfl
@[simp] theorem State.modTeam_late (s : State) (p l k : Nat) (f : Team → Team) : (s.modTeam p l k f).late = s.late := rfl
@[simp] theorem State.modTeam_capacity (s : State) (p l k : Nat) (f : Team → Team) : (s.modTeam p l k f).capacity = s.capacity := rfl
@[simp] theorem State.modTeam_quarantine (s : State) (p l k : Nat) (f : Team → Team) : (s.modTeam p l k f).quarantine = s.quarantine := rfl
@[simp] theorem State.modTeam_vault (s : State) (p l k : Nat) (f : Team → Team) : (s.modTeam p l k f).vault = s.vault := rfl
@[simp] theorem State.modTeam_mintHealthy (s : State) (p l k : Nat) (f : Team → Team) : (s.modTeam p l k f).mintHealthy = s.mintHealthy := rfl
@[simp] theorem State.modTeam_mintFails (s : State) (p l k : Nat) (f : Team → Team) : (s.modTeam p l k f).mintFails = s.mintFails := rfl
@[simp] theorem State.modTeam_mintTested (s : State) (p l k : Nat) (f : Team → Team) : (s.modTeam p l k f).mintTested = s.mintTested := rfl
@[simp] theorem State.modTeam_certified (s : State) (p l k : Nat) (f : Team → Team) : (s.modTeam p l k f).certified = s.certified := rfl
@[simp] theorem State.modTeam_alarm1 (s : State) (p l k : Nat) (f : Team → Team) : (s.modTeam p l k f).alarm1 = s.alarm1 := rfl
@[simp] theorem State.modTeam_digest (s : State) (p l k : Nat) (f : Team → Team) : (s.modTeam p l k f).digest = s.digest := rfl
@[simp] theorem State.modTeam_seals (s : State) (p l k : Nat) (f : Team → Team) : (s.modTeam p l k f).seals = s.seals := rfl
@[simp] theorem State.modTeam_ucie (s : State) (p l k : Nat) (f : Team → Team) : (s.modTeam p l k f).ucie = s.ucie := rfl
@[simp] theorem State.modTeam_drops (s : State) (p l k : Nat) (f : Team → Team) : (s.modTeam p l k f).drops = s.drops := rfl
@[simp] theorem State.modTeam_gens (s : State) (p l k : Nat) (f : Team → Team) : (s.modTeam p l k f).gens = s.gens := rfl
@[simp] theorem State.modTeam_worn (s : State) (p l k : Nat) (f : Team → Team) : (s.modTeam p l k f).worn = s.worn := rfl
@[simp] theorem State.modTeam_alarm2 (s : State) (p l k : Nat) (f : Team → Team) : (s.modTeam p l k f).alarm2 = s.alarm2 := rfl
@[simp] theorem State.modTeam_reprovision (s : State) (p l k : Nat) (f : Team → Team) : (s.modTeam p l k f).reprovision = s.reprovision := rfl
@[simp] theorem State.modTeam_scrubs (s : State) (p l k : Nat) (f : Team → Team) : (s.modTeam p l k f).scrubs = s.scrubs := rfl
@[simp] theorem State.modTeam_bumps (s : State) (p l k : Nat) (f : Team → Team) : (s.modTeam p l k f).bumps = s.bumps := rfl
@[simp] theorem State.modTeam_liveKnown (s : State) (p l k : Nat) (f : Team → Team) : (s.modTeam p l k f).liveKnown = s.liveKnown := rfl
@[simp] theorem State.modTeam_receipts (s : State) (p l k : Nat) (f : Team → Team) : (s.modTeam p l k f).receipts = s.receipts := rfl
@[simp] theorem State.modTeam_hot (s : State) (p l k : Nat) (f : Team → Team) : (s.modTeam p l k f).hot = s.hot := rfl
@[simp] theorem State.modTeam_duty (s : State) (p l k : Nat) (f : Team → Team) : (s.modTeam p l k f).duty = s.duty := rfl
@[simp] theorem State.modTeam_cycle (s : State) (p l k : Nat) (f : Team → Team) : (s.modTeam p l k f).cycle = s.cycle := rfl
@[simp] theorem State.modTeam_inputs (s : State) (p l k : Nat) (f : Team → Team) : (s.modTeam p l k f).inputs = s.inputs := rfl
@[simp] theorem State.modTeam_outputs (s : State) (p l k : Nat) (f : Team → Team) : (s.modTeam p l k f).outputs = s.outputs := rfl
@[simp] theorem State.modTeam_cur (s : State) (p l k : Nat) (f : Team → Team) : (s.modTeam p l k f).cur = s.cur := rfl
@[simp] theorem State.modTeam_turns (s : State) (p l k : Nat) (f : Team → Team) : (s.modTeam p l k f).turns = s.turns := rfl
@[simp] theorem State.modTeam_tick (s : State) (p l k : Nat) (f : Team → Team) : (s.modTeam p l k f).tick = s.tick := rfl
@[simp] theorem State.modTeam_waited (s : State) (p l k : Nat) (f : Team → Team) : (s.modTeam p l k f).waited = s.waited := rfl

/-! ### `State.modSplit` -/

@[simp] theorem State.modSplit_grade (s : State) (r : SplitRef) (f : Split → Split) : (s.modSplit r f).grade = s.grade := rfl
@[simp] theorem State.modSplit_booted (s : State) (r : SplitRef) (f : Split → Split) : (s.modSplit r f).booted = s.booted := rfl
@[simp] theorem State.modSplit_halted (s : State) (r : SplitRef) (f : Split → Split) : (s.modSplit r f).halted = s.halted := rfl
@[simp] theorem State.modSplit_tiles (s : State) (r : SplitRef) (f : Split → Split) : (s.modSplit r f).tiles = s.tiles := rfl
@[simp] theorem State.modSplit_io (s : State) (r : SplitRef) (f : Split → Split) : (s.modSplit r f).io = s.io := rfl
@[simp] theorem State.modSplit_mem (s : State) (r : SplitRef) (f : Split → Split) : (s.modSplit r f).mem = s.mem := rfl
@[simp] theorem State.modSplit_tags (s : State) (r : SplitRef) (f : Split → Split) : (s.modSplit r f).tags = s.tags := rfl
@[simp] theorem State.modSplit_bad (s : State) (r : SplitRef) (f : Split → Split) : (s.modSplit r f).bad = s.bad := rfl
@[simp] theorem State.modSplit_slices (s : State) (r : SplitRef) (f : Split → Split) : (s.modSplit r f).slices = s.slices := rfl
@[simp] theorem State.modSplit_late (s : State) (r : SplitRef) (f : Split → Split) : (s.modSplit r f).late = s.late := rfl
@[simp] theorem State.modSplit_capacity (s : State) (r : SplitRef) (f : Split → Split) : (s.modSplit r f).capacity = s.capacity := rfl
@[simp] theorem State.modSplit_quarantine (s : State) (r : SplitRef) (f : Split → Split) : (s.modSplit r f).quarantine = s.quarantine := rfl
@[simp] theorem State.modSplit_vault (s : State) (r : SplitRef) (f : Split → Split) : (s.modSplit r f).vault = s.vault := rfl
@[simp] theorem State.modSplit_mintHealthy (s : State) (r : SplitRef) (f : Split → Split) : (s.modSplit r f).mintHealthy = s.mintHealthy := rfl
@[simp] theorem State.modSplit_mintFails (s : State) (r : SplitRef) (f : Split → Split) : (s.modSplit r f).mintFails = s.mintFails := rfl
@[simp] theorem State.modSplit_mintTested (s : State) (r : SplitRef) (f : Split → Split) : (s.modSplit r f).mintTested = s.mintTested := rfl
@[simp] theorem State.modSplit_certified (s : State) (r : SplitRef) (f : Split → Split) : (s.modSplit r f).certified = s.certified := rfl
@[simp] theorem State.modSplit_alarm1 (s : State) (r : SplitRef) (f : Split → Split) : (s.modSplit r f).alarm1 = s.alarm1 := rfl
@[simp] theorem State.modSplit_digest (s : State) (r : SplitRef) (f : Split → Split) : (s.modSplit r f).digest = s.digest := rfl
@[simp] theorem State.modSplit_seals (s : State) (r : SplitRef) (f : Split → Split) : (s.modSplit r f).seals = s.seals := rfl
@[simp] theorem State.modSplit_ucie (s : State) (r : SplitRef) (f : Split → Split) : (s.modSplit r f).ucie = s.ucie := rfl
@[simp] theorem State.modSplit_drops (s : State) (r : SplitRef) (f : Split → Split) : (s.modSplit r f).drops = s.drops := rfl
@[simp] theorem State.modSplit_gens (s : State) (r : SplitRef) (f : Split → Split) : (s.modSplit r f).gens = s.gens := rfl
@[simp] theorem State.modSplit_worn (s : State) (r : SplitRef) (f : Split → Split) : (s.modSplit r f).worn = s.worn := rfl
@[simp] theorem State.modSplit_alarm2 (s : State) (r : SplitRef) (f : Split → Split) : (s.modSplit r f).alarm2 = s.alarm2 := rfl
@[simp] theorem State.modSplit_reprovision (s : State) (r : SplitRef) (f : Split → Split) : (s.modSplit r f).reprovision = s.reprovision := rfl
@[simp] theorem State.modSplit_scrubs (s : State) (r : SplitRef) (f : Split → Split) : (s.modSplit r f).scrubs = s.scrubs := rfl
@[simp] theorem State.modSplit_bumps (s : State) (r : SplitRef) (f : Split → Split) : (s.modSplit r f).bumps = s.bumps := rfl
@[simp] theorem State.modSplit_liveKnown (s : State) (r : SplitRef) (f : Split → Split) : (s.modSplit r f).liveKnown = s.liveKnown := rfl
@[simp] theorem State.modSplit_receipts (s : State) (r : SplitRef) (f : Split → Split) : (s.modSplit r f).receipts = s.receipts := rfl
@[simp] theorem State.modSplit_hot (s : State) (r : SplitRef) (f : Split → Split) : (s.modSplit r f).hot = s.hot := rfl
@[simp] theorem State.modSplit_duty (s : State) (r : SplitRef) (f : Split → Split) : (s.modSplit r f).duty = s.duty := rfl
@[simp] theorem State.modSplit_cycle (s : State) (r : SplitRef) (f : Split → Split) : (s.modSplit r f).cycle = s.cycle := rfl
@[simp] theorem State.modSplit_inputs (s : State) (r : SplitRef) (f : Split → Split) : (s.modSplit r f).inputs = s.inputs := rfl
@[simp] theorem State.modSplit_outputs (s : State) (r : SplitRef) (f : Split → Split) : (s.modSplit r f).outputs = s.outputs := rfl
@[simp] theorem State.modSplit_cur (s : State) (r : SplitRef) (f : Split → Split) : (s.modSplit r f).cur = s.cur := rfl
@[simp] theorem State.modSplit_turns (s : State) (r : SplitRef) (f : Split → Split) : (s.modSplit r f).turns = s.turns := rfl
@[simp] theorem State.modSplit_tick (s : State) (r : SplitRef) (f : Split → Split) : (s.modSplit r f).tick = s.tick := rfl
@[simp] theorem State.modSplit_waited (s : State) (r : SplitRef) (f : Split → Split) : (s.modSplit r f).waited = s.waited := rfl

/-! ### `State.emit` -/

@[simp] theorem State.emit_grade (s : State) (o : Output) : (s.emit o).grade = s.grade := rfl
@[simp] theorem State.emit_booted (s : State) (o : Output) : (s.emit o).booted = s.booted := rfl
@[simp] theorem State.emit_halted (s : State) (o : Output) : (s.emit o).halted = s.halted := rfl
@[simp] theorem State.emit_tiles (s : State) (o : Output) : (s.emit o).tiles = s.tiles := rfl
@[simp] theorem State.emit_io (s : State) (o : Output) : (s.emit o).io = s.io := rfl
@[simp] theorem State.emit_parts (s : State) (o : Output) : (s.emit o).parts = s.parts := rfl
@[simp] theorem State.emit_mem (s : State) (o : Output) : (s.emit o).mem = s.mem := rfl
@[simp] theorem State.emit_tags (s : State) (o : Output) : (s.emit o).tags = s.tags := rfl
@[simp] theorem State.emit_bad (s : State) (o : Output) : (s.emit o).bad = s.bad := rfl
@[simp] theorem State.emit_slices (s : State) (o : Output) : (s.emit o).slices = s.slices := rfl
@[simp] theorem State.emit_late (s : State) (o : Output) : (s.emit o).late = s.late := rfl
@[simp] theorem State.emit_capacity (s : State) (o : Output) : (s.emit o).capacity = s.capacity := rfl
@[simp] theorem State.emit_quarantine (s : State) (o : Output) : (s.emit o).quarantine = s.quarantine := rfl
@[simp] theorem State.emit_vault (s : State) (o : Output) : (s.emit o).vault = s.vault := rfl
@[simp] theorem State.emit_mintHealthy (s : State) (o : Output) : (s.emit o).mintHealthy = s.mintHealthy := rfl
@[simp] theorem State.emit_mintFails (s : State) (o : Output) : (s.emit o).mintFails = s.mintFails := rfl
@[simp] theorem State.emit_mintTested (s : State) (o : Output) : (s.emit o).mintTested = s.mintTested := rfl
@[simp] theorem State.emit_certified (s : State) (o : Output) : (s.emit o).certified = s.certified := rfl
@[simp] theorem State.emit_alarm1 (s : State) (o : Output) : (s.emit o).alarm1 = s.alarm1 := rfl
@[simp] theorem State.emit_digest (s : State) (o : Output) : (s.emit o).digest = s.digest := rfl
@[simp] theorem State.emit_seals (s : State) (o : Output) : (s.emit o).seals = s.seals := rfl
@[simp] theorem State.emit_ucie (s : State) (o : Output) : (s.emit o).ucie = s.ucie := rfl
@[simp] theorem State.emit_drops (s : State) (o : Output) : (s.emit o).drops = s.drops := rfl
@[simp] theorem State.emit_gens (s : State) (o : Output) : (s.emit o).gens = s.gens := rfl
@[simp] theorem State.emit_worn (s : State) (o : Output) : (s.emit o).worn = s.worn := rfl
@[simp] theorem State.emit_alarm2 (s : State) (o : Output) : (s.emit o).alarm2 = s.alarm2 := rfl
@[simp] theorem State.emit_reprovision (s : State) (o : Output) : (s.emit o).reprovision = s.reprovision := rfl
@[simp] theorem State.emit_scrubs (s : State) (o : Output) : (s.emit o).scrubs = s.scrubs := rfl
@[simp] theorem State.emit_bumps (s : State) (o : Output) : (s.emit o).bumps = s.bumps := rfl
@[simp] theorem State.emit_liveKnown (s : State) (o : Output) : (s.emit o).liveKnown = s.liveKnown := rfl
@[simp] theorem State.emit_receipts (s : State) (o : Output) : (s.emit o).receipts = s.receipts := rfl
@[simp] theorem State.emit_hot (s : State) (o : Output) : (s.emit o).hot = s.hot := rfl
@[simp] theorem State.emit_duty (s : State) (o : Output) : (s.emit o).duty = s.duty := rfl
@[simp] theorem State.emit_cycle (s : State) (o : Output) : (s.emit o).cycle = s.cycle := rfl
@[simp] theorem State.emit_inputs (s : State) (o : Output) : (s.emit o).inputs = s.inputs := rfl
@[simp] theorem State.emit_cur (s : State) (o : Output) : (s.emit o).cur = s.cur := rfl
@[simp] theorem State.emit_turns (s : State) (o : Output) : (s.emit o).turns = s.turns := rfl
@[simp] theorem State.emit_tick (s : State) (o : Output) : (s.emit o).tick = s.tick := rfl
@[simp] theorem State.emit_waited (s : State) (o : Output) : (s.emit o).waited = s.waited := rfl

/-! ### `State.fireMsix` -/

@[simp] theorem State.fireMsix_grade (s : State) (p v : Nat) : (s.fireMsix p v).grade = s.grade := rfl
@[simp] theorem State.fireMsix_booted (s : State) (p v : Nat) : (s.fireMsix p v).booted = s.booted := rfl
@[simp] theorem State.fireMsix_halted (s : State) (p v : Nat) : (s.fireMsix p v).halted = s.halted := rfl
@[simp] theorem State.fireMsix_tiles (s : State) (p v : Nat) : (s.fireMsix p v).tiles = s.tiles := rfl
@[simp] theorem State.fireMsix_io (s : State) (p v : Nat) : (s.fireMsix p v).io = s.io := rfl
@[simp] theorem State.fireMsix_mem (s : State) (p v : Nat) : (s.fireMsix p v).mem = s.mem := rfl
@[simp] theorem State.fireMsix_tags (s : State) (p v : Nat) : (s.fireMsix p v).tags = s.tags := rfl
@[simp] theorem State.fireMsix_bad (s : State) (p v : Nat) : (s.fireMsix p v).bad = s.bad := rfl
@[simp] theorem State.fireMsix_slices (s : State) (p v : Nat) : (s.fireMsix p v).slices = s.slices := rfl
@[simp] theorem State.fireMsix_late (s : State) (p v : Nat) : (s.fireMsix p v).late = s.late := rfl
@[simp] theorem State.fireMsix_capacity (s : State) (p v : Nat) : (s.fireMsix p v).capacity = s.capacity := rfl
@[simp] theorem State.fireMsix_quarantine (s : State) (p v : Nat) : (s.fireMsix p v).quarantine = s.quarantine := rfl
@[simp] theorem State.fireMsix_vault (s : State) (p v : Nat) : (s.fireMsix p v).vault = s.vault := rfl
@[simp] theorem State.fireMsix_mintHealthy (s : State) (p v : Nat) : (s.fireMsix p v).mintHealthy = s.mintHealthy := rfl
@[simp] theorem State.fireMsix_mintFails (s : State) (p v : Nat) : (s.fireMsix p v).mintFails = s.mintFails := rfl
@[simp] theorem State.fireMsix_mintTested (s : State) (p v : Nat) : (s.fireMsix p v).mintTested = s.mintTested := rfl
@[simp] theorem State.fireMsix_certified (s : State) (p v : Nat) : (s.fireMsix p v).certified = s.certified := rfl
@[simp] theorem State.fireMsix_alarm1 (s : State) (p v : Nat) : (s.fireMsix p v).alarm1 = s.alarm1 := rfl
@[simp] theorem State.fireMsix_digest (s : State) (p v : Nat) : (s.fireMsix p v).digest = s.digest := rfl
@[simp] theorem State.fireMsix_ucie (s : State) (p v : Nat) : (s.fireMsix p v).ucie = s.ucie := rfl
@[simp] theorem State.fireMsix_drops (s : State) (p v : Nat) : (s.fireMsix p v).drops = s.drops := rfl
@[simp] theorem State.fireMsix_gens (s : State) (p v : Nat) : (s.fireMsix p v).gens = s.gens := rfl
@[simp] theorem State.fireMsix_worn (s : State) (p v : Nat) : (s.fireMsix p v).worn = s.worn := rfl
@[simp] theorem State.fireMsix_alarm2 (s : State) (p v : Nat) : (s.fireMsix p v).alarm2 = s.alarm2 := rfl
@[simp] theorem State.fireMsix_reprovision (s : State) (p v : Nat) : (s.fireMsix p v).reprovision = s.reprovision := rfl
@[simp] theorem State.fireMsix_scrubs (s : State) (p v : Nat) : (s.fireMsix p v).scrubs = s.scrubs := rfl
@[simp] theorem State.fireMsix_bumps (s : State) (p v : Nat) : (s.fireMsix p v).bumps = s.bumps := rfl
@[simp] theorem State.fireMsix_liveKnown (s : State) (p v : Nat) : (s.fireMsix p v).liveKnown = s.liveKnown := rfl
@[simp] theorem State.fireMsix_receipts (s : State) (p v : Nat) : (s.fireMsix p v).receipts = s.receipts := rfl
@[simp] theorem State.fireMsix_hot (s : State) (p v : Nat) : (s.fireMsix p v).hot = s.hot := rfl
@[simp] theorem State.fireMsix_duty (s : State) (p v : Nat) : (s.fireMsix p v).duty = s.duty := rfl
@[simp] theorem State.fireMsix_cycle (s : State) (p v : Nat) : (s.fireMsix p v).cycle = s.cycle := rfl
@[simp] theorem State.fireMsix_inputs (s : State) (p v : Nat) : (s.fireMsix p v).inputs = s.inputs := rfl
@[simp] theorem State.fireMsix_cur (s : State) (p v : Nat) : (s.fireMsix p v).cur = s.cur := rfl
@[simp] theorem State.fireMsix_turns (s : State) (p v : Nat) : (s.fireMsix p v).turns = s.turns := rfl
@[simp] theorem State.fireMsix_tick (s : State) (p v : Nat) : (s.fireMsix p v).tick = s.tick := rfl
@[simp] theorem State.fireMsix_waited (s : State) (p v : Nat) : (s.fireMsix p v).waited = s.waited := rfl

/-! ### `State.putAll` -/

@[simp] theorem State.putAll_grade (s : State) (r : SplitRef) (ws : List Put) : (s.putAll r ws).grade = s.grade := rfl
@[simp] theorem State.putAll_booted (s : State) (r : SplitRef) (ws : List Put) : (s.putAll r ws).booted = s.booted := rfl
@[simp] theorem State.putAll_halted (s : State) (r : SplitRef) (ws : List Put) : (s.putAll r ws).halted = s.halted := rfl
@[simp] theorem State.putAll_tiles (s : State) (r : SplitRef) (ws : List Put) : (s.putAll r ws).tiles = s.tiles := rfl
@[simp] theorem State.putAll_io (s : State) (r : SplitRef) (ws : List Put) : (s.putAll r ws).io = s.io := rfl
@[simp] theorem State.putAll_mem (s : State) (r : SplitRef) (ws : List Put) : (s.putAll r ws).mem = s.mem := rfl
@[simp] theorem State.putAll_tags (s : State) (r : SplitRef) (ws : List Put) : (s.putAll r ws).tags = s.tags := rfl
@[simp] theorem State.putAll_bad (s : State) (r : SplitRef) (ws : List Put) : (s.putAll r ws).bad = s.bad := rfl
@[simp] theorem State.putAll_slices (s : State) (r : SplitRef) (ws : List Put) : (s.putAll r ws).slices = s.slices := rfl
@[simp] theorem State.putAll_late (s : State) (r : SplitRef) (ws : List Put) : (s.putAll r ws).late = s.late := rfl
@[simp] theorem State.putAll_capacity (s : State) (r : SplitRef) (ws : List Put) : (s.putAll r ws).capacity = s.capacity := rfl
@[simp] theorem State.putAll_quarantine (s : State) (r : SplitRef) (ws : List Put) : (s.putAll r ws).quarantine = s.quarantine := rfl
@[simp] theorem State.putAll_vault (s : State) (r : SplitRef) (ws : List Put) : (s.putAll r ws).vault = s.vault := rfl
@[simp] theorem State.putAll_mintHealthy (s : State) (r : SplitRef) (ws : List Put) : (s.putAll r ws).mintHealthy = s.mintHealthy := rfl
@[simp] theorem State.putAll_mintFails (s : State) (r : SplitRef) (ws : List Put) : (s.putAll r ws).mintFails = s.mintFails := rfl
@[simp] theorem State.putAll_mintTested (s : State) (r : SplitRef) (ws : List Put) : (s.putAll r ws).mintTested = s.mintTested := rfl
@[simp] theorem State.putAll_certified (s : State) (r : SplitRef) (ws : List Put) : (s.putAll r ws).certified = s.certified := rfl
@[simp] theorem State.putAll_alarm1 (s : State) (r : SplitRef) (ws : List Put) : (s.putAll r ws).alarm1 = s.alarm1 := rfl
@[simp] theorem State.putAll_digest (s : State) (r : SplitRef) (ws : List Put) : (s.putAll r ws).digest = s.digest := rfl
@[simp] theorem State.putAll_seals (s : State) (r : SplitRef) (ws : List Put) : (s.putAll r ws).seals = s.seals := rfl
@[simp] theorem State.putAll_ucie (s : State) (r : SplitRef) (ws : List Put) : (s.putAll r ws).ucie = s.ucie := rfl
@[simp] theorem State.putAll_drops (s : State) (r : SplitRef) (ws : List Put) : (s.putAll r ws).drops = s.drops := rfl
@[simp] theorem State.putAll_gens (s : State) (r : SplitRef) (ws : List Put) : (s.putAll r ws).gens = s.gens := rfl
@[simp] theorem State.putAll_worn (s : State) (r : SplitRef) (ws : List Put) : (s.putAll r ws).worn = s.worn := rfl
@[simp] theorem State.putAll_alarm2 (s : State) (r : SplitRef) (ws : List Put) : (s.putAll r ws).alarm2 = s.alarm2 := rfl
@[simp] theorem State.putAll_reprovision (s : State) (r : SplitRef) (ws : List Put) : (s.putAll r ws).reprovision = s.reprovision := rfl
@[simp] theorem State.putAll_scrubs (s : State) (r : SplitRef) (ws : List Put) : (s.putAll r ws).scrubs = s.scrubs := rfl
@[simp] theorem State.putAll_bumps (s : State) (r : SplitRef) (ws : List Put) : (s.putAll r ws).bumps = s.bumps := rfl
@[simp] theorem State.putAll_liveKnown (s : State) (r : SplitRef) (ws : List Put) : (s.putAll r ws).liveKnown = s.liveKnown := rfl
@[simp] theorem State.putAll_receipts (s : State) (r : SplitRef) (ws : List Put) : (s.putAll r ws).receipts = s.receipts := rfl
@[simp] theorem State.putAll_hot (s : State) (r : SplitRef) (ws : List Put) : (s.putAll r ws).hot = s.hot := rfl
@[simp] theorem State.putAll_duty (s : State) (r : SplitRef) (ws : List Put) : (s.putAll r ws).duty = s.duty := rfl
@[simp] theorem State.putAll_cycle (s : State) (r : SplitRef) (ws : List Put) : (s.putAll r ws).cycle = s.cycle := rfl
@[simp] theorem State.putAll_inputs (s : State) (r : SplitRef) (ws : List Put) : (s.putAll r ws).inputs = s.inputs := rfl
@[simp] theorem State.putAll_outputs (s : State) (r : SplitRef) (ws : List Put) : (s.putAll r ws).outputs = s.outputs := rfl
@[simp] theorem State.putAll_cur (s : State) (r : SplitRef) (ws : List Put) : (s.putAll r ws).cur = s.cur := rfl
@[simp] theorem State.putAll_turns (s : State) (r : SplitRef) (ws : List Put) : (s.putAll r ws).turns = s.turns := rfl
@[simp] theorem State.putAll_tick (s : State) (r : SplitRef) (ws : List Put) : (s.putAll r ws).tick = s.tick := rfl
@[simp] theorem State.putAll_waited (s : State) (r : SplitRef) (ws : List Put) : (s.putAll r ws).waited = s.waited := rfl

/-! ### `Partition.modCore` -/

@[simp] theorem Partition.modCore_pindex (x : Partition) (l : Nat) (f : Core → Core) : (x.modCore l f).pindex = x.pindex := rfl
@[simp] theorem Partition.modCore_owner (x : Partition) (l : Nat) (f : Core → Core) : (x.modCore l f).owner = x.owner := rfl
@[simp] theorem Partition.modCore_gen (x : Partition) (l : Nat) (f : Core → Core) : (x.modCore l f).gen = x.gen := rfl
@[simp] theorem Partition.modCore_base (x : Partition) (l : Nat) (f : Core → Core) : (x.modCore l f).base = x.base := rfl
@[simp] theorem Partition.modCore_alloc (x : Partition) (l : Nat) (f : Core → Core) : (x.modCore l f).alloc = x.alloc := rfl
@[simp] theorem Partition.modCore_cols (x : Partition) (l : Nat) (f : Core → Core) : (x.modCore l f).cols = x.cols := rfl
@[simp] theorem Partition.modCore_tiles (x : Partition) (l : Nat) (f : Core → Core) : (x.modCore l f).tiles = x.tiles := rfl
@[simp] theorem Partition.modCore_reshapes (x : Partition) (l : Nat) (f : Core → Core) : (x.modCore l f).reshapes = x.reshapes := rfl
@[simp] theorem Partition.modCore_depth (x : Partition) (l : Nat) (f : Core → Core) : (x.modCore l f).depth = x.depth := rfl
@[simp] theorem Partition.modCore_csr (x : Partition) (l : Nat) (f : Core → Core) : (x.modCore l f).csr = x.csr := rfl
@[simp] theorem Partition.modCore_service (x : Partition) (l : Nat) (f : Core → Core) : (x.modCore l f).service = x.service := rfl
@[simp] theorem Partition.modCore_root (x : Partition) (l : Nat) (f : Core → Core) : (x.modCore l f).root = x.root := rfl
@[simp] theorem Partition.modCore_restarts (x : Partition) (l : Nat) (f : Core → Core) : (x.modCore l f).restarts = x.restarts := rfl
@[simp] theorem Partition.modCore_started (x : Partition) (l : Nat) (f : Core → Core) : (x.modCore l f).started = x.started := rfl
@[simp] theorem Partition.modCore_rtu (x : Partition) (l : Nat) (f : Core → Core) : (x.modCore l f).rtu = x.rtu := rfl
@[simp] theorem Partition.modCore_rtuRoots (x : Partition) (l : Nat) (f : Core → Core) : (x.modCore l f).rtuRoots = x.rtuRoots := rfl
@[simp] theorem Partition.modCore_rtuGroups (x : Partition) (l : Nat) (f : Core → Core) : (x.modCore l f).rtuGroups = x.rtuGroups := rfl
@[simp] theorem Partition.modCore_tcache (x : Partition) (l : Nat) (f : Core → Core) : (x.modCore l f).tcache = x.tcache := rfl
@[simp] theorem Partition.modCore_queue (x : Partition) (l : Nat) (f : Core → Core) : (x.modCore l f).queue = x.queue := rfl
@[simp] theorem Partition.modCore_heldEvents (x : Partition) (l : Nat) (f : Core → Core) : (x.modCore l f).heldEvents = x.heldEvents := rfl
@[simp] theorem Partition.modCore_heldShown (x : Partition) (l : Nat) (f : Core → Core) : (x.modCore l f).heldShown = x.heldShown := rfl
@[simp] theorem Partition.modCore_posted (x : Partition) (l : Nat) (f : Core → Core) : (x.modCore l f).posted = x.posted := rfl
@[simp] theorem Partition.modCore_merged (x : Partition) (l : Nat) (f : Core → Core) : (x.modCore l f).merged = x.merged := rfl
@[simp] theorem Partition.modCore_launches (x : Partition) (l : Nat) (f : Core → Core) : (x.modCore l f).launches = x.launches := rfl
@[simp] theorem Partition.modCore_lastLaunch (x : Partition) (l : Nat) (f : Core → Core) : (x.modCore l f).lastLaunch = x.lastLaunch := rfl
@[simp] theorem Partition.modCore_pointer (x : Partition) (l : Nat) (f : Core → Core) : (x.modCore l f).pointer = x.pointer := rfl
@[simp] theorem Partition.modCore_admitted (x : Partition) (l : Nat) (f : Core → Core) : (x.modCore l f).admitted = x.admitted := rfl
@[simp] theorem Partition.modCore_gangCount (x : Partition) (l : Nat) (f : Core → Core) : (x.modCore l f).gangCount = x.gangCount := rfl
@[simp] theorem Partition.modCore_copyCount (x : Partition) (l : Nat) (f : Core → Core) : (x.modCore l f).copyCount = x.copyCount := rfl
@[simp] theorem Partition.modCore_flights (x : Partition) (l : Nat) (f : Core → Core) : (x.modCore l f).flights = x.flights := rfl
@[simp] theorem Partition.modCore_releasing (x : Partition) (l : Nat) (f : Core → Core) : (x.modCore l f).releasing = x.releasing := rfl
@[simp] theorem Partition.modCore_hold (x : Partition) (l : Nat) (f : Core → Core) : (x.modCore l f).hold = x.hold := rfl
@[simp] theorem Partition.modCore_mapGen (x : Partition) (l : Nat) (f : Core → Core) : (x.modCore l f).mapGen = x.mapGen := rfl
@[simp] theorem Partition.modCore_mapTiles (x : Partition) (l : Nat) (f : Core → Core) : (x.modCore l f).mapTiles = x.mapTiles := rfl
@[simp] theorem Partition.modCore_banksGone (x : Partition) (l : Nat) (f : Core → Core) : (x.modCore l f).banksGone = x.banksGone := rfl
@[simp] theorem Partition.modCore_bindings (x : Partition) (l : Nat) (f : Core → Core) : (x.modCore l f).bindings = x.bindings := rfl
@[simp] theorem Partition.modCore_tdisp (x : Partition) (l : Nat) (f : Core → Core) : (x.modCore l f).tdisp = x.tdisp := rfl
@[simp] theorem Partition.modCore_sessions (x : Partition) (l : Nat) (f : Core → Core) : (x.modCore l f).sessions = x.sessions := rfl
@[simp] theorem Partition.modCore_msix (x : Partition) (l : Nat) (f : Core → Core) : (x.modCore l f).msix = x.msix := rfl
@[simp] theorem Partition.modCore_msixTable (x : Partition) (l : Nat) (f : Core → Core) : (x.modCore l f).msixTable = x.msixTable := rfl
@[simp] theorem Partition.modCore_msixPending (x : Partition) (l : Nat) (f : Core → Core) : (x.modCore l f).msixPending = x.msixPending := rfl
@[simp] theorem Partition.modCore_report (x : Partition) (l : Nat) (f : Core → Core) : (x.modCore l f).report = x.report := rfl
@[simp] theorem Partition.modCore_detour (x : Partition) (l : Nat) (f : Core → Core) : (x.modCore l f).detour = x.detour := rfl
@[simp] theorem Partition.modCore_port (x : Partition) (l : Nat) (f : Core → Core) : (x.modCore l f).port = x.port := rfl
@[simp] theorem Partition.modCore_ending (x : Partition) (l : Nat) (f : Core → Core) : (x.modCore l f).ending = x.ending := rfl
@[simp] theorem Partition.modCore_failedNow (x : Partition) (l : Nat) (f : Core → Core) : (x.modCore l f).failedNow = x.failedNow := rfl
@[simp] theorem Partition.modCore_dropped (x : Partition) (l : Nat) (f : Core → Core) : (x.modCore l f).dropped = x.dropped := rfl
@[simp] theorem Partition.modCore_moves (x : Partition) (l : Nat) (f : Core → Core) : (x.modCore l f).moves = x.moves := rfl
@[simp] theorem Partition.modCore_liveWas (x : Partition) (l : Nat) (f : Core → Core) : (x.modCore l f).liveWas = x.liveWas := rfl
@[simp] theorem Partition.modCore_erased (x : Partition) (l : Nat) (f : Core → Core) : (x.modCore l f).erased = x.erased := rfl
@[simp] theorem Partition.modCore_gateWas (x : Partition) (l : Nat) (f : Core → Core) : (x.modCore l f).gateWas = x.gateWas := rfl
@[simp] theorem Partition.modCore_byHost (x : Partition) (l : Nat) (f : Core → Core) : (x.modCore l f).byHost = x.byHost := rfl
@[simp] theorem Partition.modCore_byHeat (x : Partition) (l : Nat) (f : Core → Core) : (x.modCore l f).byHeat = x.byHeat := rfl
@[simp] theorem Partition.modCore_queued (x : Partition) (l : Nat) (f : Core → Core) : (x.modCore l f).queued = x.queued := rfl
@[simp] theorem Partition.modCore_mapHeld (x : Partition) (l : Nat) (f : Core → Core) : (x.modCore l f).mapHeld = x.mapHeld := rfl
@[simp] theorem Partition.modCore_emptied (x : Partition) (l : Nat) (f : Core → Core) : (x.modCore l f).emptied = x.emptied := rfl
@[simp] theorem Partition.modCore_hostWait (x : Partition) (l : Nat) (f : Core → Core) : (x.modCore l f).hostWait = x.hostWait := rfl

/-! ### `Core.modTeam` -/

@[simp] theorem Core.modTeam_tile (c : Core) (k : Nat) (f : Team → Team) : (c.modTeam k f).tile = c.tile := rfl
@[simp] theorem Core.modTeam_phys (c : Core) (k : Nat) (f : Team → Team) : (c.modTeam k f).phys = c.phys := rfl
@[simp] theorem Core.modTeam_absent (c : Core) (k : Nat) (f : Team → Team) : (c.modTeam k f).absent = c.absent := rfl
@[simp] theorem Core.modTeam_warm (c : Core) (k : Nat) (f : Team → Team) : (c.modTeam k f).warm = c.warm := rfl
@[simp] theorem Core.modTeam_gangs (c : Core) (k : Nat) (f : Team → Team) : (c.modTeam k f).gangs = c.gangs := rfl
@[simp] theorem Core.modTeam_releases (c : Core) (k : Nat) (f : Team → Team) : (c.modTeam k f).releases = c.releases := rfl
@[simp] theorem Core.modTeam_swapped (c : Core) (k : Nat) (f : Team → Team) : (c.modTeam k f).swapped = c.swapped := rfl
@[simp] theorem Core.modTeam_fileTiles (c : Core) (k : Nat) (f : Team → Team) : (c.modTeam k f).fileTiles = c.fileTiles := rfl
@[simp] theorem Core.modTeam_fileAccs (c : Core) (k : Nat) (f : Team → Team) : (c.modTeam k f).fileAccs = c.fileAccs := rfl
@[simp] theorem Core.modTeam_bars (c : Core) (k : Nat) (f : Team → Team) : (c.modTeam k f).bars = c.bars := rfl
@[simp] theorem Core.modTeam_chans (c : Core) (k : Nat) (f : Team → Team) : (c.modTeam k f).chans = c.chans := rfl
@[simp] theorem Core.modTeam_drains (c : Core) (k : Nat) (f : Team → Team) : (c.modTeam k f).drains = c.drains := rfl
@[simp] theorem Core.modTeam_garr (c : Core) (k : Nat) (f : Team → Team) : (c.modTeam k f).garr = c.garr := rfl
@[simp] theorem Core.modTeam_gph (c : Core) (k : Nat) (f : Team → Team) : (c.modTeam k f).gph = c.gph := rfl
@[simp] theorem Core.modTeam_excuse (c : Core) (k : Nat) (f : Team → Team) : (c.modTeam k f).excuse = c.excuse := rfl
@[simp] theorem Core.modTeam_excuseOnce (c : Core) (k : Nat) (f : Team → Team) : (c.modTeam k f).excuseOnce = c.excuseOnce := rfl
@[simp] theorem Core.modTeam_stale (c : Core) (k : Nat) (f : Team → Team) : (c.modTeam k f).stale = c.stale := rfl
@[simp] theorem Core.modTeam_unpinned (c : Core) (k : Nat) (f : Team → Team) : (c.modTeam k f).unpinned = c.unpinned := rfl
@[simp] theorem Core.modTeam_remaps (c : Core) (k : Nat) (f : Team → Team) : (c.modTeam k f).remaps = c.remaps := rfl
@[simp] theorem Core.modTeam_remap (c : Core) (k : Nat) (f : Team → Team) : (c.modTeam k f).remap = c.remap := rfl
@[simp] theorem Core.modTeam_remapGen (c : Core) (k : Nat) (f : Team → Team) : (c.modTeam k f).remapGen = c.remapGen := rfl
@[simp] theorem Core.modTeam_withheld (c : Core) (k : Nat) (f : Team → Team) : (c.modTeam k f).withheld = c.withheld := rfl
@[simp] theorem Core.modTeam_lost (c : Core) (k : Nat) (f : Team → Team) : (c.modTeam k f).lost = c.lost := rfl

/-! ### `Core.modGang` -/

@[simp] theorem Core.modGang_tile (c : Core) (g : Nat) (f : Gang → Gang) : (c.modGang g f).tile = c.tile := rfl
@[simp] theorem Core.modGang_phys (c : Core) (g : Nat) (f : Gang → Gang) : (c.modGang g f).phys = c.phys := rfl
@[simp] theorem Core.modGang_absent (c : Core) (g : Nat) (f : Gang → Gang) : (c.modGang g f).absent = c.absent := rfl
@[simp] theorem Core.modGang_warm (c : Core) (g : Nat) (f : Gang → Gang) : (c.modGang g f).warm = c.warm := rfl
@[simp] theorem Core.modGang_teams (c : Core) (g : Nat) (f : Gang → Gang) : (c.modGang g f).teams = c.teams := rfl
@[simp] theorem Core.modGang_releases (c : Core) (g : Nat) (f : Gang → Gang) : (c.modGang g f).releases = c.releases := rfl
@[simp] theorem Core.modGang_swapped (c : Core) (g : Nat) (f : Gang → Gang) : (c.modGang g f).swapped = c.swapped := rfl
@[simp] theorem Core.modGang_fileTiles (c : Core) (g : Nat) (f : Gang → Gang) : (c.modGang g f).fileTiles = c.fileTiles := rfl
@[simp] theorem Core.modGang_fileAccs (c : Core) (g : Nat) (f : Gang → Gang) : (c.modGang g f).fileAccs = c.fileAccs := rfl
@[simp] theorem Core.modGang_bars (c : Core) (g : Nat) (f : Gang → Gang) : (c.modGang g f).bars = c.bars := rfl
@[simp] theorem Core.modGang_chans (c : Core) (g : Nat) (f : Gang → Gang) : (c.modGang g f).chans = c.chans := rfl
@[simp] theorem Core.modGang_drains (c : Core) (g : Nat) (f : Gang → Gang) : (c.modGang g f).drains = c.drains := rfl
@[simp] theorem Core.modGang_garr (c : Core) (g : Nat) (f : Gang → Gang) : (c.modGang g f).garr = c.garr := rfl
@[simp] theorem Core.modGang_gph (c : Core) (g : Nat) (f : Gang → Gang) : (c.modGang g f).gph = c.gph := rfl
@[simp] theorem Core.modGang_excuse (c : Core) (g : Nat) (f : Gang → Gang) : (c.modGang g f).excuse = c.excuse := rfl
@[simp] theorem Core.modGang_excuseOnce (c : Core) (g : Nat) (f : Gang → Gang) : (c.modGang g f).excuseOnce = c.excuseOnce := rfl
@[simp] theorem Core.modGang_stale (c : Core) (g : Nat) (f : Gang → Gang) : (c.modGang g f).stale = c.stale := rfl
@[simp] theorem Core.modGang_unpinned (c : Core) (g : Nat) (f : Gang → Gang) : (c.modGang g f).unpinned = c.unpinned := rfl
@[simp] theorem Core.modGang_remaps (c : Core) (g : Nat) (f : Gang → Gang) : (c.modGang g f).remaps = c.remaps := rfl
@[simp] theorem Core.modGang_remap (c : Core) (g : Nat) (f : Gang → Gang) : (c.modGang g f).remap = c.remap := rfl
@[simp] theorem Core.modGang_remapGen (c : Core) (g : Nat) (f : Gang → Gang) : (c.modGang g f).remapGen = c.remapGen := rfl
@[simp] theorem Core.modGang_withheld (c : Core) (g : Nat) (f : Gang → Gang) : (c.modGang g f).withheld = c.withheld := rfl
@[simp] theorem Core.modGang_lost (c : Core) (g : Nat) (f : Gang → Gang) : (c.modGang g f).lost = c.lost := rfl

/-! ### `Core.setBar` -/

@[simp] theorem Core.setBar_tile (c : Core) (b : Nat) (x : Barrier) : (c.setBar b x).tile = c.tile := rfl
@[simp] theorem Core.setBar_phys (c : Core) (b : Nat) (x : Barrier) : (c.setBar b x).phys = c.phys := rfl
@[simp] theorem Core.setBar_absent (c : Core) (b : Nat) (x : Barrier) : (c.setBar b x).absent = c.absent := rfl
@[simp] theorem Core.setBar_warm (c : Core) (b : Nat) (x : Barrier) : (c.setBar b x).warm = c.warm := rfl
@[simp] theorem Core.setBar_teams (c : Core) (b : Nat) (x : Barrier) : (c.setBar b x).teams = c.teams := rfl
@[simp] theorem Core.setBar_gangs (c : Core) (b : Nat) (x : Barrier) : (c.setBar b x).gangs = c.gangs := rfl
@[simp] theorem Core.setBar_releases (c : Core) (b : Nat) (x : Barrier) : (c.setBar b x).releases = c.releases := rfl
@[simp] theorem Core.setBar_swapped (c : Core) (b : Nat) (x : Barrier) : (c.setBar b x).swapped = c.swapped := rfl
@[simp] theorem Core.setBar_fileTiles (c : Core) (b : Nat) (x : Barrier) : (c.setBar b x).fileTiles = c.fileTiles := rfl
@[simp] theorem Core.setBar_fileAccs (c : Core) (b : Nat) (x : Barrier) : (c.setBar b x).fileAccs = c.fileAccs := rfl
@[simp] theorem Core.setBar_chans (c : Core) (b : Nat) (x : Barrier) : (c.setBar b x).chans = c.chans := rfl
@[simp] theorem Core.setBar_drains (c : Core) (b : Nat) (x : Barrier) : (c.setBar b x).drains = c.drains := rfl
@[simp] theorem Core.setBar_garr (c : Core) (b : Nat) (x : Barrier) : (c.setBar b x).garr = c.garr := rfl
@[simp] theorem Core.setBar_gph (c : Core) (b : Nat) (x : Barrier) : (c.setBar b x).gph = c.gph := rfl
@[simp] theorem Core.setBar_excuse (c : Core) (b : Nat) (x : Barrier) : (c.setBar b x).excuse = c.excuse := rfl
@[simp] theorem Core.setBar_excuseOnce (c : Core) (b : Nat) (x : Barrier) : (c.setBar b x).excuseOnce = c.excuseOnce := rfl
@[simp] theorem Core.setBar_stale (c : Core) (b : Nat) (x : Barrier) : (c.setBar b x).stale = c.stale := rfl
@[simp] theorem Core.setBar_unpinned (c : Core) (b : Nat) (x : Barrier) : (c.setBar b x).unpinned = c.unpinned := rfl
@[simp] theorem Core.setBar_remaps (c : Core) (b : Nat) (x : Barrier) : (c.setBar b x).remaps = c.remaps := rfl
@[simp] theorem Core.setBar_remap (c : Core) (b : Nat) (x : Barrier) : (c.setBar b x).remap = c.remap := rfl
@[simp] theorem Core.setBar_remapGen (c : Core) (b : Nat) (x : Barrier) : (c.setBar b x).remapGen = c.remapGen := rfl
@[simp] theorem Core.setBar_withheld (c : Core) (b : Nat) (x : Barrier) : (c.setBar b x).withheld = c.withheld := rfl
@[simp] theorem Core.setBar_lost (c : Core) (b : Nat) (x : Barrier) : (c.setBar b x).lost = c.lost := rfl

/-! ### `Core.setTile` -/

@[simp] theorem Core.setTile_tile (c : Core) (i : Nat) (x : Tile) : (c.setTile i x).tile = c.tile := rfl
@[simp] theorem Core.setTile_phys (c : Core) (i : Nat) (x : Tile) : (c.setTile i x).phys = c.phys := rfl
@[simp] theorem Core.setTile_absent (c : Core) (i : Nat) (x : Tile) : (c.setTile i x).absent = c.absent := rfl
@[simp] theorem Core.setTile_warm (c : Core) (i : Nat) (x : Tile) : (c.setTile i x).warm = c.warm := rfl
@[simp] theorem Core.setTile_teams (c : Core) (i : Nat) (x : Tile) : (c.setTile i x).teams = c.teams := rfl
@[simp] theorem Core.setTile_gangs (c : Core) (i : Nat) (x : Tile) : (c.setTile i x).gangs = c.gangs := rfl
@[simp] theorem Core.setTile_releases (c : Core) (i : Nat) (x : Tile) : (c.setTile i x).releases = c.releases := rfl
@[simp] theorem Core.setTile_swapped (c : Core) (i : Nat) (x : Tile) : (c.setTile i x).swapped = c.swapped := rfl
@[simp] theorem Core.setTile_fileAccs (c : Core) (i : Nat) (x : Tile) : (c.setTile i x).fileAccs = c.fileAccs := rfl
@[simp] theorem Core.setTile_bars (c : Core) (i : Nat) (x : Tile) : (c.setTile i x).bars = c.bars := rfl
@[simp] theorem Core.setTile_chans (c : Core) (i : Nat) (x : Tile) : (c.setTile i x).chans = c.chans := rfl
@[simp] theorem Core.setTile_drains (c : Core) (i : Nat) (x : Tile) : (c.setTile i x).drains = c.drains := rfl
@[simp] theorem Core.setTile_garr (c : Core) (i : Nat) (x : Tile) : (c.setTile i x).garr = c.garr := rfl
@[simp] theorem Core.setTile_gph (c : Core) (i : Nat) (x : Tile) : (c.setTile i x).gph = c.gph := rfl
@[simp] theorem Core.setTile_excuse (c : Core) (i : Nat) (x : Tile) : (c.setTile i x).excuse = c.excuse := rfl
@[simp] theorem Core.setTile_excuseOnce (c : Core) (i : Nat) (x : Tile) : (c.setTile i x).excuseOnce = c.excuseOnce := rfl
@[simp] theorem Core.setTile_stale (c : Core) (i : Nat) (x : Tile) : (c.setTile i x).stale = c.stale := rfl
@[simp] theorem Core.setTile_unpinned (c : Core) (i : Nat) (x : Tile) : (c.setTile i x).unpinned = c.unpinned := rfl
@[simp] theorem Core.setTile_remaps (c : Core) (i : Nat) (x : Tile) : (c.setTile i x).remaps = c.remaps := rfl
@[simp] theorem Core.setTile_remap (c : Core) (i : Nat) (x : Tile) : (c.setTile i x).remap = c.remap := rfl
@[simp] theorem Core.setTile_remapGen (c : Core) (i : Nat) (x : Tile) : (c.setTile i x).remapGen = c.remapGen := rfl
@[simp] theorem Core.setTile_withheld (c : Core) (i : Nat) (x : Tile) : (c.setTile i x).withheld = c.withheld := rfl
@[simp] theorem Core.setTile_lost (c : Core) (i : Nat) (x : Tile) : (c.setTile i x).lost = c.lost := rfl

/-! ### `Core.setAcc` -/

@[simp] theorem Core.setAcc_tile (c : Core) (i : Nat) (x : Acc) : (c.setAcc i x).tile = c.tile := rfl
@[simp] theorem Core.setAcc_phys (c : Core) (i : Nat) (x : Acc) : (c.setAcc i x).phys = c.phys := rfl
@[simp] theorem Core.setAcc_absent (c : Core) (i : Nat) (x : Acc) : (c.setAcc i x).absent = c.absent := rfl
@[simp] theorem Core.setAcc_warm (c : Core) (i : Nat) (x : Acc) : (c.setAcc i x).warm = c.warm := rfl
@[simp] theorem Core.setAcc_teams (c : Core) (i : Nat) (x : Acc) : (c.setAcc i x).teams = c.teams := rfl
@[simp] theorem Core.setAcc_gangs (c : Core) (i : Nat) (x : Acc) : (c.setAcc i x).gangs = c.gangs := rfl
@[simp] theorem Core.setAcc_releases (c : Core) (i : Nat) (x : Acc) : (c.setAcc i x).releases = c.releases := rfl
@[simp] theorem Core.setAcc_swapped (c : Core) (i : Nat) (x : Acc) : (c.setAcc i x).swapped = c.swapped := rfl
@[simp] theorem Core.setAcc_fileTiles (c : Core) (i : Nat) (x : Acc) : (c.setAcc i x).fileTiles = c.fileTiles := rfl
@[simp] theorem Core.setAcc_bars (c : Core) (i : Nat) (x : Acc) : (c.setAcc i x).bars = c.bars := rfl
@[simp] theorem Core.setAcc_chans (c : Core) (i : Nat) (x : Acc) : (c.setAcc i x).chans = c.chans := rfl
@[simp] theorem Core.setAcc_drains (c : Core) (i : Nat) (x : Acc) : (c.setAcc i x).drains = c.drains := rfl
@[simp] theorem Core.setAcc_garr (c : Core) (i : Nat) (x : Acc) : (c.setAcc i x).garr = c.garr := rfl
@[simp] theorem Core.setAcc_gph (c : Core) (i : Nat) (x : Acc) : (c.setAcc i x).gph = c.gph := rfl
@[simp] theorem Core.setAcc_excuse (c : Core) (i : Nat) (x : Acc) : (c.setAcc i x).excuse = c.excuse := rfl
@[simp] theorem Core.setAcc_excuseOnce (c : Core) (i : Nat) (x : Acc) : (c.setAcc i x).excuseOnce = c.excuseOnce := rfl
@[simp] theorem Core.setAcc_stale (c : Core) (i : Nat) (x : Acc) : (c.setAcc i x).stale = c.stale := rfl
@[simp] theorem Core.setAcc_unpinned (c : Core) (i : Nat) (x : Acc) : (c.setAcc i x).unpinned = c.unpinned := rfl
@[simp] theorem Core.setAcc_remaps (c : Core) (i : Nat) (x : Acc) : (c.setAcc i x).remaps = c.remaps := rfl
@[simp] theorem Core.setAcc_remap (c : Core) (i : Nat) (x : Acc) : (c.setAcc i x).remap = c.remap := rfl
@[simp] theorem Core.setAcc_remapGen (c : Core) (i : Nat) (x : Acc) : (c.setAcc i x).remapGen = c.remapGen := rfl
@[simp] theorem Core.setAcc_withheld (c : Core) (i : Nat) (x : Acc) : (c.setAcc i x).withheld = c.withheld := rfl
@[simp] theorem Core.setAcc_lost (c : Core) (i : Nat) (x : Acc) : (c.setAcc i x).lost = c.lost := rfl

/-! ### `Core.setChan` -/

@[simp] theorem Core.setChan_tile (c : Core) (i : Nat) (x : Channel) : (c.setChan i x).tile = c.tile := rfl
@[simp] theorem Core.setChan_phys (c : Core) (i : Nat) (x : Channel) : (c.setChan i x).phys = c.phys := rfl
@[simp] theorem Core.setChan_absent (c : Core) (i : Nat) (x : Channel) : (c.setChan i x).absent = c.absent := rfl
@[simp] theorem Core.setChan_warm (c : Core) (i : Nat) (x : Channel) : (c.setChan i x).warm = c.warm := rfl
@[simp] theorem Core.setChan_teams (c : Core) (i : Nat) (x : Channel) : (c.setChan i x).teams = c.teams := rfl
@[simp] theorem Core.setChan_gangs (c : Core) (i : Nat) (x : Channel) : (c.setChan i x).gangs = c.gangs := rfl
@[simp] theorem Core.setChan_releases (c : Core) (i : Nat) (x : Channel) : (c.setChan i x).releases = c.releases := rfl
@[simp] theorem Core.setChan_swapped (c : Core) (i : Nat) (x : Channel) : (c.setChan i x).swapped = c.swapped := rfl
@[simp] theorem Core.setChan_fileTiles (c : Core) (i : Nat) (x : Channel) : (c.setChan i x).fileTiles = c.fileTiles := rfl
@[simp] theorem Core.setChan_fileAccs (c : Core) (i : Nat) (x : Channel) : (c.setChan i x).fileAccs = c.fileAccs := rfl
@[simp] theorem Core.setChan_bars (c : Core) (i : Nat) (x : Channel) : (c.setChan i x).bars = c.bars := rfl
@[simp] theorem Core.setChan_drains (c : Core) (i : Nat) (x : Channel) : (c.setChan i x).drains = c.drains := rfl
@[simp] theorem Core.setChan_garr (c : Core) (i : Nat) (x : Channel) : (c.setChan i x).garr = c.garr := rfl
@[simp] theorem Core.setChan_gph (c : Core) (i : Nat) (x : Channel) : (c.setChan i x).gph = c.gph := rfl
@[simp] theorem Core.setChan_excuse (c : Core) (i : Nat) (x : Channel) : (c.setChan i x).excuse = c.excuse := rfl
@[simp] theorem Core.setChan_excuseOnce (c : Core) (i : Nat) (x : Channel) : (c.setChan i x).excuseOnce = c.excuseOnce := rfl
@[simp] theorem Core.setChan_stale (c : Core) (i : Nat) (x : Channel) : (c.setChan i x).stale = c.stale := rfl
@[simp] theorem Core.setChan_unpinned (c : Core) (i : Nat) (x : Channel) : (c.setChan i x).unpinned = c.unpinned := rfl
@[simp] theorem Core.setChan_remaps (c : Core) (i : Nat) (x : Channel) : (c.setChan i x).remaps = c.remaps := rfl
@[simp] theorem Core.setChan_remap (c : Core) (i : Nat) (x : Channel) : (c.setChan i x).remap = c.remap := rfl
@[simp] theorem Core.setChan_remapGen (c : Core) (i : Nat) (x : Channel) : (c.setChan i x).remapGen = c.remapGen := rfl
@[simp] theorem Core.setChan_withheld (c : Core) (i : Nat) (x : Channel) : (c.setChan i x).withheld = c.withheld := rfl
@[simp] theorem Core.setChan_lost (c : Core) (i : Nat) (x : Channel) : (c.setChan i x).lost = c.lost := rfl

/-! ### `Team.modSplit` -/

@[simp] theorem Team.modSplit_slot (t : Team) (e : Nat) (f : Split → Split) : (t.modSplit e f).slot = t.slot := rfl
@[simp] theorem Team.modSplit_kind (t : Team) (e : Nat) (f : Split → Split) : (t.modSplit e f).kind = t.kind := rfl
@[simp] theorem Team.modSplit_launch (t : Team) (e : Nat) (f : Split → Split) : (t.modSplit e f).launch = t.launch := rfl
@[simp] theorem Team.modSplit_ordinal (t : Team) (e : Nat) (f : Split → Split) : (t.modSplit e f).ordinal = t.ordinal := rfl
@[simp] theorem Team.modSplit_phase (t : Team) (e : Nat) (f : Split → Split) : (t.modSplit e f).phase = t.phase := rfl
@[simp] theorem Team.modSplit_hdr (t : Team) (e : Nat) (f : Split → Split) : (t.modSplit e f).hdr = t.hdr := rfl
@[simp] theorem Team.modSplit_age (t : Team) (e : Nat) (f : Split → Split) : (t.modSplit e f).age = t.age := rfl
@[simp] theorem Team.modSplit_records (t : Team) (e : Nat) (f : Split → Split) : (t.modSplit e f).records = t.records := rfl
@[simp] theorem Team.modSplit_spilled (t : Team) (e : Nat) (f : Split → Split) : (t.modSplit e f).spilled = t.spilled := rfl
@[simp] theorem Team.modSplit_nextSeq (t : Team) (e : Nat) (f : Split → Split) : (t.modSplit e f).nextSeq = t.nextSeq := rfl
@[simp] theorem Team.modSplit_chunks (t : Team) (e : Nat) (f : Split → Split) : (t.modSplit e f).chunks = t.chunks := rfl
@[simp] theorem Team.modSplit_entryLeft (t : Team) (e : Nat) (f : Split → Split) : (t.modSplit e f).entryLeft = t.entryLeft := rfl
@[simp] theorem Team.modSplit_sregs (t : Team) (e : Nat) (f : Split → Split) : (t.modSplit e f).sregs = t.sregs := rfl
@[simp] theorem Team.modSplit_frames (t : Team) (e : Nat) (f : Split → Split) : (t.modSplit e f).frames = t.frames := rfl
@[simp] theorem Team.modSplit_gang (t : Team) (e : Nat) (f : Split → Split) : (t.modSplit e f).gang = t.gang := rfl
@[simp] theorem Team.modSplit_gangix (t : Team) (e : Nat) (f : Split → Split) : (t.modSplit e f).gangix = t.gangix := rfl
@[simp] theorem Team.modSplit_gangReg (t : Team) (e : Nat) (f : Split → Split) : (t.modSplit e f).gangReg = t.gangReg := rfl
@[simp] theorem Team.modSplit_monitor (t : Team) (e : Nat) (f : Split → Split) : (t.modSplit e f).monitor = t.monitor := rfl
@[simp] theorem Team.modSplit_grid (t : Team) (e : Nat) (f : Split → Split) : (t.modSplit e f).grid = t.grid := rfl
@[simp] theorem Team.modSplit_gabsent (t : Team) (e : Nat) (f : Split → Split) : (t.modSplit e f).gabsent = t.gabsent := rfl
@[simp] theorem Team.modSplit_preempted (t : Team) (e : Nat) (f : Split → Split) : (t.modSplit e f).preempted = t.preempted := rfl
@[simp] theorem Team.modSplit_replayed (t : Team) (e : Nat) (f : Split → Split) : (t.modSplit e f).replayed = t.replayed := rfl
@[simp] theorem Team.modSplit_successor (t : Team) (e : Nat) (f : Split → Split) : (t.modSplit e f).successor = t.successor := rfl
@[simp] theorem Team.modSplit_dying (t : Team) (e : Nat) (f : Split → Split) : (t.modSplit e f).dying = t.dying := rfl
@[simp] theorem Team.modSplit_maxSpill (t : Team) (e : Nat) (f : Split → Split) : (t.modSplit e f).maxSpill = t.maxSpill := rfl
@[simp] theorem Team.modSplit_divergences (t : Team) (e : Nat) (f : Split → Split) : (t.modSplit e f).divergences = t.divergences := rfl
@[simp] theorem Team.modSplit_meetFusions (t : Team) (e : Nat) (f : Split → Split) : (t.modSplit e f).meetFusions = t.meetFusions := rfl
@[simp] theorem Team.modSplit_rejoinFusions (t : Team) (e : Nat) (f : Split → Split) : (t.modSplit e f).rejoinFusions = t.rejoinFusions := rfl
@[simp] theorem Team.modSplit_sweeps (t : Team) (e : Nat) (f : Split → Split) : (t.modSplit e f).sweeps = t.sweeps := rfl
@[simp] theorem Team.modSplit_replays (t : Team) (e : Nat) (f : Split → Split) : (t.modSplit e f).replays = t.replays := rfl
@[simp] theorem Team.modSplit_preemptions (t : Team) (e : Nat) (f : Split → Split) : (t.modSplit e f).preemptions = t.preemptions := rfl
@[simp] theorem Team.modSplit_timeouts (t : Team) (e : Nat) (f : Split → Split) : (t.modSplit e f).timeouts = t.timeouts := rfl
@[simp] theorem Team.modSplit_lastIssue (t : Team) (e : Nat) (f : Split → Split) : (t.modSplit e f).lastIssue = t.lastIssue := rfl
@[simp] theorem Team.modSplit_rank (t : Team) (e : Nat) (f : Split → Split) : (t.modSplit e f).rank = t.rank := rfl
@[simp] theorem Team.modSplit_given (t : Team) (e : Nat) (f : Split → Split) : (t.modSplit e f).given = t.given := rfl
@[simp] theorem Team.modSplit_passed (t : Team) (e : Nat) (f : Split → Split) : (t.modSplit e f).passed = t.passed := rfl
@[simp] theorem Team.modSplit_readySince (t : Team) (e : Nat) (f : Split → Split) : (t.modSplit e f).readySince = t.readySince := rfl

/-! ### `Team.setScalar` -/

@[simp] theorem Team.setScalar_slot (t : Team) (r : SReg) (v : W64) : (t.setScalar r v).slot = t.slot := rfl
@[simp] theorem Team.setScalar_kind (t : Team) (r : SReg) (v : W64) : (t.setScalar r v).kind = t.kind := rfl
@[simp] theorem Team.setScalar_launch (t : Team) (r : SReg) (v : W64) : (t.setScalar r v).launch = t.launch := rfl
@[simp] theorem Team.setScalar_ordinal (t : Team) (r : SReg) (v : W64) : (t.setScalar r v).ordinal = t.ordinal := rfl
@[simp] theorem Team.setScalar_phase (t : Team) (r : SReg) (v : W64) : (t.setScalar r v).phase = t.phase := rfl
@[simp] theorem Team.setScalar_hdr (t : Team) (r : SReg) (v : W64) : (t.setScalar r v).hdr = t.hdr := rfl
@[simp] theorem Team.setScalar_age (t : Team) (r : SReg) (v : W64) : (t.setScalar r v).age = t.age := rfl
@[simp] theorem Team.setScalar_splits (t : Team) (r : SReg) (v : W64) : (t.setScalar r v).splits = t.splits := rfl
@[simp] theorem Team.setScalar_records (t : Team) (r : SReg) (v : W64) : (t.setScalar r v).records = t.records := rfl
@[simp] theorem Team.setScalar_spilled (t : Team) (r : SReg) (v : W64) : (t.setScalar r v).spilled = t.spilled := rfl
@[simp] theorem Team.setScalar_nextSeq (t : Team) (r : SReg) (v : W64) : (t.setScalar r v).nextSeq = t.nextSeq := rfl
@[simp] theorem Team.setScalar_chunks (t : Team) (r : SReg) (v : W64) : (t.setScalar r v).chunks = t.chunks := rfl
@[simp] theorem Team.setScalar_entryLeft (t : Team) (r : SReg) (v : W64) : (t.setScalar r v).entryLeft = t.entryLeft := rfl
@[simp] theorem Team.setScalar_frames (t : Team) (r : SReg) (v : W64) : (t.setScalar r v).frames = t.frames := rfl
@[simp] theorem Team.setScalar_gang (t : Team) (r : SReg) (v : W64) : (t.setScalar r v).gang = t.gang := rfl
@[simp] theorem Team.setScalar_gangix (t : Team) (r : SReg) (v : W64) : (t.setScalar r v).gangix = t.gangix := rfl
@[simp] theorem Team.setScalar_gangReg (t : Team) (r : SReg) (v : W64) : (t.setScalar r v).gangReg = t.gangReg := rfl
@[simp] theorem Team.setScalar_monitor (t : Team) (r : SReg) (v : W64) : (t.setScalar r v).monitor = t.monitor := rfl
@[simp] theorem Team.setScalar_grid (t : Team) (r : SReg) (v : W64) : (t.setScalar r v).grid = t.grid := rfl
@[simp] theorem Team.setScalar_gabsent (t : Team) (r : SReg) (v : W64) : (t.setScalar r v).gabsent = t.gabsent := rfl
@[simp] theorem Team.setScalar_preempted (t : Team) (r : SReg) (v : W64) : (t.setScalar r v).preempted = t.preempted := rfl
@[simp] theorem Team.setScalar_replayed (t : Team) (r : SReg) (v : W64) : (t.setScalar r v).replayed = t.replayed := rfl
@[simp] theorem Team.setScalar_successor (t : Team) (r : SReg) (v : W64) : (t.setScalar r v).successor = t.successor := rfl
@[simp] theorem Team.setScalar_dying (t : Team) (r : SReg) (v : W64) : (t.setScalar r v).dying = t.dying := rfl
@[simp] theorem Team.setScalar_maxSpill (t : Team) (r : SReg) (v : W64) : (t.setScalar r v).maxSpill = t.maxSpill := rfl
@[simp] theorem Team.setScalar_divergences (t : Team) (r : SReg) (v : W64) : (t.setScalar r v).divergences = t.divergences := rfl
@[simp] theorem Team.setScalar_meetFusions (t : Team) (r : SReg) (v : W64) : (t.setScalar r v).meetFusions = t.meetFusions := rfl
@[simp] theorem Team.setScalar_rejoinFusions (t : Team) (r : SReg) (v : W64) : (t.setScalar r v).rejoinFusions = t.rejoinFusions := rfl
@[simp] theorem Team.setScalar_sweeps (t : Team) (r : SReg) (v : W64) : (t.setScalar r v).sweeps = t.sweeps := rfl
@[simp] theorem Team.setScalar_replays (t : Team) (r : SReg) (v : W64) : (t.setScalar r v).replays = t.replays := rfl
@[simp] theorem Team.setScalar_preemptions (t : Team) (r : SReg) (v : W64) : (t.setScalar r v).preemptions = t.preemptions := rfl
@[simp] theorem Team.setScalar_timeouts (t : Team) (r : SReg) (v : W64) : (t.setScalar r v).timeouts = t.timeouts := rfl
@[simp] theorem Team.setScalar_lastIssue (t : Team) (r : SReg) (v : W64) : (t.setScalar r v).lastIssue = t.lastIssue := rfl
@[simp] theorem Team.setScalar_rank (t : Team) (r : SReg) (v : W64) : (t.setScalar r v).rank = t.rank := rfl
@[simp] theorem Team.setScalar_given (t : Team) (r : SReg) (v : W64) : (t.setScalar r v).given = t.given := rfl
@[simp] theorem Team.setScalar_passed (t : Team) (r : SReg) (v : W64) : (t.setScalar r v).passed = t.passed := rfl
@[simp] theorem Team.setScalar_readySince (t : Team) (r : SReg) (v : W64) : (t.setScalar r v).readySince = t.readySince := rfl

/-! ### `Team.put` -/

@[simp] theorem Team.put_slot (t : Team) (w : Put) : (t.put w).slot = t.slot := rfl
@[simp] theorem Team.put_kind (t : Team) (w : Put) : (t.put w).kind = t.kind := rfl
@[simp] theorem Team.put_launch (t : Team) (w : Put) : (t.put w).launch = t.launch := rfl
@[simp] theorem Team.put_ordinal (t : Team) (w : Put) : (t.put w).ordinal = t.ordinal := rfl
@[simp] theorem Team.put_phase (t : Team) (w : Put) : (t.put w).phase = t.phase := rfl
@[simp] theorem Team.put_hdr (t : Team) (w : Put) : (t.put w).hdr = t.hdr := rfl
@[simp] theorem Team.put_age (t : Team) (w : Put) : (t.put w).age = t.age := rfl
@[simp] theorem Team.put_splits (t : Team) (w : Put) : (t.put w).splits = t.splits := rfl
@[simp] theorem Team.put_records (t : Team) (w : Put) : (t.put w).records = t.records := rfl
@[simp] theorem Team.put_spilled (t : Team) (w : Put) : (t.put w).spilled = t.spilled := rfl
@[simp] theorem Team.put_nextSeq (t : Team) (w : Put) : (t.put w).nextSeq = t.nextSeq := rfl
@[simp] theorem Team.put_entryLeft (t : Team) (w : Put) : (t.put w).entryLeft = t.entryLeft := rfl
@[simp] theorem Team.put_sregs (t : Team) (w : Put) : (t.put w).sregs = t.sregs := rfl
@[simp] theorem Team.put_frames (t : Team) (w : Put) : (t.put w).frames = t.frames := rfl
@[simp] theorem Team.put_gang (t : Team) (w : Put) : (t.put w).gang = t.gang := rfl
@[simp] theorem Team.put_gangix (t : Team) (w : Put) : (t.put w).gangix = t.gangix := rfl
@[simp] theorem Team.put_gangReg (t : Team) (w : Put) : (t.put w).gangReg = t.gangReg := rfl
@[simp] theorem Team.put_monitor (t : Team) (w : Put) : (t.put w).monitor = t.monitor := rfl
@[simp] theorem Team.put_grid (t : Team) (w : Put) : (t.put w).grid = t.grid := rfl
@[simp] theorem Team.put_gabsent (t : Team) (w : Put) : (t.put w).gabsent = t.gabsent := rfl
@[simp] theorem Team.put_preempted (t : Team) (w : Put) : (t.put w).preempted = t.preempted := rfl
@[simp] theorem Team.put_replayed (t : Team) (w : Put) : (t.put w).replayed = t.replayed := rfl
@[simp] theorem Team.put_successor (t : Team) (w : Put) : (t.put w).successor = t.successor := rfl
@[simp] theorem Team.put_dying (t : Team) (w : Put) : (t.put w).dying = t.dying := rfl
@[simp] theorem Team.put_maxSpill (t : Team) (w : Put) : (t.put w).maxSpill = t.maxSpill := rfl
@[simp] theorem Team.put_divergences (t : Team) (w : Put) : (t.put w).divergences = t.divergences := rfl
@[simp] theorem Team.put_meetFusions (t : Team) (w : Put) : (t.put w).meetFusions = t.meetFusions := rfl
@[simp] theorem Team.put_rejoinFusions (t : Team) (w : Put) : (t.put w).rejoinFusions = t.rejoinFusions := rfl
@[simp] theorem Team.put_sweeps (t : Team) (w : Put) : (t.put w).sweeps = t.sweeps := rfl
@[simp] theorem Team.put_replays (t : Team) (w : Put) : (t.put w).replays = t.replays := rfl
@[simp] theorem Team.put_preemptions (t : Team) (w : Put) : (t.put w).preemptions = t.preemptions := rfl
@[simp] theorem Team.put_timeouts (t : Team) (w : Put) : (t.put w).timeouts = t.timeouts := rfl
@[simp] theorem Team.put_lastIssue (t : Team) (w : Put) : (t.put w).lastIssue = t.lastIssue := rfl
@[simp] theorem Team.put_rank (t : Team) (w : Put) : (t.put w).rank = t.rank := rfl
@[simp] theorem Team.put_given (t : Team) (w : Put) : (t.put w).given = t.given := rfl
@[simp] theorem Team.put_passed (t : Team) (w : Put) : (t.put w).passed = t.passed := rfl
@[simp] theorem Team.put_readySince (t : Team) (w : Put) : (t.put w).readySince = t.readySince := rfl

/-! ### `Team.take` -/

@[simp] theorem Team.take_slot (t : Team) (key : Nat) : (t.take key).slot = t.slot := rfl
@[simp] theorem Team.take_kind (t : Team) (key : Nat) : (t.take key).kind = t.kind := rfl
@[simp] theorem Team.take_launch (t : Team) (key : Nat) : (t.take key).launch = t.launch := rfl
@[simp] theorem Team.take_ordinal (t : Team) (key : Nat) : (t.take key).ordinal = t.ordinal := rfl
@[simp] theorem Team.take_phase (t : Team) (key : Nat) : (t.take key).phase = t.phase := rfl
@[simp] theorem Team.take_hdr (t : Team) (key : Nat) : (t.take key).hdr = t.hdr := rfl
@[simp] theorem Team.take_age (t : Team) (key : Nat) : (t.take key).age = t.age := rfl
@[simp] theorem Team.take_splits (t : Team) (key : Nat) : (t.take key).splits = t.splits := rfl
@[simp] theorem Team.take_records (t : Team) (key : Nat) : (t.take key).records = t.records := rfl
@[simp] theorem Team.take_spilled (t : Team) (key : Nat) : (t.take key).spilled = t.spilled := rfl
@[simp] theorem Team.take_nextSeq (t : Team) (key : Nat) : (t.take key).nextSeq = t.nextSeq := rfl
@[simp] theorem Team.take_sregs (t : Team) (key : Nat) : (t.take key).sregs = t.sregs := rfl
@[simp] theorem Team.take_frames (t : Team) (key : Nat) : (t.take key).frames = t.frames := rfl
@[simp] theorem Team.take_gang (t : Team) (key : Nat) : (t.take key).gang = t.gang := rfl
@[simp] theorem Team.take_gangix (t : Team) (key : Nat) : (t.take key).gangix = t.gangix := rfl
@[simp] theorem Team.take_gangReg (t : Team) (key : Nat) : (t.take key).gangReg = t.gangReg := rfl
@[simp] theorem Team.take_monitor (t : Team) (key : Nat) : (t.take key).monitor = t.monitor := rfl
@[simp] theorem Team.take_grid (t : Team) (key : Nat) : (t.take key).grid = t.grid := rfl
@[simp] theorem Team.take_gabsent (t : Team) (key : Nat) : (t.take key).gabsent = t.gabsent := rfl
@[simp] theorem Team.take_preempted (t : Team) (key : Nat) : (t.take key).preempted = t.preempted := rfl
@[simp] theorem Team.take_replayed (t : Team) (key : Nat) : (t.take key).replayed = t.replayed := rfl
@[simp] theorem Team.take_successor (t : Team) (key : Nat) : (t.take key).successor = t.successor := rfl
@[simp] theorem Team.take_dying (t : Team) (key : Nat) : (t.take key).dying = t.dying := rfl
@[simp] theorem Team.take_maxSpill (t : Team) (key : Nat) : (t.take key).maxSpill = t.maxSpill := rfl
@[simp] theorem Team.take_divergences (t : Team) (key : Nat) : (t.take key).divergences = t.divergences := rfl
@[simp] theorem Team.take_meetFusions (t : Team) (key : Nat) : (t.take key).meetFusions = t.meetFusions := rfl
@[simp] theorem Team.take_rejoinFusions (t : Team) (key : Nat) : (t.take key).rejoinFusions = t.rejoinFusions := rfl
@[simp] theorem Team.take_sweeps (t : Team) (key : Nat) : (t.take key).sweeps = t.sweeps := rfl
@[simp] theorem Team.take_replays (t : Team) (key : Nat) : (t.take key).replays = t.replays := rfl
@[simp] theorem Team.take_preemptions (t : Team) (key : Nat) : (t.take key).preemptions = t.preemptions := rfl
@[simp] theorem Team.take_timeouts (t : Team) (key : Nat) : (t.take key).timeouts = t.timeouts := rfl
@[simp] theorem Team.take_lastIssue (t : Team) (key : Nat) : (t.take key).lastIssue = t.lastIssue := rfl
@[simp] theorem Team.take_rank (t : Team) (key : Nat) : (t.take key).rank = t.rank := rfl
@[simp] theorem Team.take_given (t : Team) (key : Nat) : (t.take key).given = t.given := rfl
@[simp] theorem Team.take_passed (t : Team) (key : Nat) : (t.take key).passed = t.passed := rfl
@[simp] theorem Team.take_readySince (t : Team) (key : Nat) : (t.take key).readySince = t.readySince := rfl

/-! ### `Team.free` -/

@[simp] theorem Team.free_slot (t : Team) (names words : List Nat) : (t.free names words).slot = t.slot := rfl
@[simp] theorem Team.free_kind (t : Team) (names words : List Nat) : (t.free names words).kind = t.kind := rfl
@[simp] theorem Team.free_launch (t : Team) (names words : List Nat) : (t.free names words).launch = t.launch := rfl
@[simp] theorem Team.free_ordinal (t : Team) (names words : List Nat) : (t.free names words).ordinal = t.ordinal := rfl
@[simp] theorem Team.free_phase (t : Team) (names words : List Nat) : (t.free names words).phase = t.phase := rfl
@[simp] theorem Team.free_hdr (t : Team) (names words : List Nat) : (t.free names words).hdr = t.hdr := rfl
@[simp] theorem Team.free_age (t : Team) (names words : List Nat) : (t.free names words).age = t.age := rfl
@[simp] theorem Team.free_splits (t : Team) (names words : List Nat) : (t.free names words).splits = t.splits := rfl
@[simp] theorem Team.free_records (t : Team) (names words : List Nat) : (t.free names words).records = t.records := rfl
@[simp] theorem Team.free_spilled (t : Team) (names words : List Nat) : (t.free names words).spilled = t.spilled := rfl
@[simp] theorem Team.free_nextSeq (t : Team) (names words : List Nat) : (t.free names words).nextSeq = t.nextSeq := rfl
@[simp] theorem Team.free_entryLeft (t : Team) (names words : List Nat) : (t.free names words).entryLeft = t.entryLeft := rfl
@[simp] theorem Team.free_sregs (t : Team) (names words : List Nat) : (t.free names words).sregs = t.sregs := rfl
@[simp] theorem Team.free_frames (t : Team) (names words : List Nat) : (t.free names words).frames = t.frames := rfl
@[simp] theorem Team.free_gang (t : Team) (names words : List Nat) : (t.free names words).gang = t.gang := rfl
@[simp] theorem Team.free_gangix (t : Team) (names words : List Nat) : (t.free names words).gangix = t.gangix := rfl
@[simp] theorem Team.free_gangReg (t : Team) (names words : List Nat) : (t.free names words).gangReg = t.gangReg := rfl
@[simp] theorem Team.free_monitor (t : Team) (names words : List Nat) : (t.free names words).monitor = t.monitor := rfl
@[simp] theorem Team.free_grid (t : Team) (names words : List Nat) : (t.free names words).grid = t.grid := rfl
@[simp] theorem Team.free_gabsent (t : Team) (names words : List Nat) : (t.free names words).gabsent = t.gabsent := rfl
@[simp] theorem Team.free_preempted (t : Team) (names words : List Nat) : (t.free names words).preempted = t.preempted := rfl
@[simp] theorem Team.free_replayed (t : Team) (names words : List Nat) : (t.free names words).replayed = t.replayed := rfl
@[simp] theorem Team.free_successor (t : Team) (names words : List Nat) : (t.free names words).successor = t.successor := rfl
@[simp] theorem Team.free_dying (t : Team) (names words : List Nat) : (t.free names words).dying = t.dying := rfl
@[simp] theorem Team.free_maxSpill (t : Team) (names words : List Nat) : (t.free names words).maxSpill = t.maxSpill := rfl
@[simp] theorem Team.free_divergences (t : Team) (names words : List Nat) : (t.free names words).divergences = t.divergences := rfl
@[simp] theorem Team.free_meetFusions (t : Team) (names words : List Nat) : (t.free names words).meetFusions = t.meetFusions := rfl
@[simp] theorem Team.free_rejoinFusions (t : Team) (names words : List Nat) : (t.free names words).rejoinFusions = t.rejoinFusions := rfl
@[simp] theorem Team.free_sweeps (t : Team) (names words : List Nat) : (t.free names words).sweeps = t.sweeps := rfl
@[simp] theorem Team.free_replays (t : Team) (names words : List Nat) : (t.free names words).replays = t.replays := rfl
@[simp] theorem Team.free_preemptions (t : Team) (names words : List Nat) : (t.free names words).preemptions = t.preemptions := rfl
@[simp] theorem Team.free_timeouts (t : Team) (names words : List Nat) : (t.free names words).timeouts = t.timeouts := rfl
@[simp] theorem Team.free_lastIssue (t : Team) (names words : List Nat) : (t.free names words).lastIssue = t.lastIssue := rfl
@[simp] theorem Team.free_rank (t : Team) (names words : List Nat) : (t.free names words).rank = t.rank := rfl
@[simp] theorem Team.free_given (t : Team) (names words : List Nat) : (t.free names words).given = t.given := rfl
@[simp] theorem Team.free_passed (t : Team) (names words : List Nat) : (t.free names words).passed = t.passed := rfl
@[simp] theorem Team.free_readySince (t : Team) (names words : List Nat) : (t.free names words).readySince = t.readySince := rfl

/-! ### `Team.claim` -/

@[simp] theorem Team.claim_slot (t : Team) (keys : List Nat) : (t.claim keys).slot = t.slot := rfl
@[simp] theorem Team.claim_kind (t : Team) (keys : List Nat) : (t.claim keys).kind = t.kind := rfl
@[simp] theorem Team.claim_launch (t : Team) (keys : List Nat) : (t.claim keys).launch = t.launch := rfl
@[simp] theorem Team.claim_ordinal (t : Team) (keys : List Nat) : (t.claim keys).ordinal = t.ordinal := rfl
@[simp] theorem Team.claim_phase (t : Team) (keys : List Nat) : (t.claim keys).phase = t.phase := rfl
@[simp] theorem Team.claim_hdr (t : Team) (keys : List Nat) : (t.claim keys).hdr = t.hdr := rfl
@[simp] theorem Team.claim_age (t : Team) (keys : List Nat) : (t.claim keys).age = t.age := rfl
@[simp] theorem Team.claim_records (t : Team) (keys : List Nat) : (t.claim keys).records = t.records := rfl
@[simp] theorem Team.claim_spilled (t : Team) (keys : List Nat) : (t.claim keys).spilled = t.spilled := rfl
@[simp] theorem Team.claim_nextSeq (t : Team) (keys : List Nat) : (t.claim keys).nextSeq = t.nextSeq := rfl
@[simp] theorem Team.claim_chunks (t : Team) (keys : List Nat) : (t.claim keys).chunks = t.chunks := rfl
@[simp] theorem Team.claim_entryLeft (t : Team) (keys : List Nat) : (t.claim keys).entryLeft = t.entryLeft := rfl
@[simp] theorem Team.claim_sregs (t : Team) (keys : List Nat) : (t.claim keys).sregs = t.sregs := rfl
@[simp] theorem Team.claim_frames (t : Team) (keys : List Nat) : (t.claim keys).frames = t.frames := rfl
@[simp] theorem Team.claim_gang (t : Team) (keys : List Nat) : (t.claim keys).gang = t.gang := rfl
@[simp] theorem Team.claim_gangix (t : Team) (keys : List Nat) : (t.claim keys).gangix = t.gangix := rfl
@[simp] theorem Team.claim_gangReg (t : Team) (keys : List Nat) : (t.claim keys).gangReg = t.gangReg := rfl
@[simp] theorem Team.claim_monitor (t : Team) (keys : List Nat) : (t.claim keys).monitor = t.monitor := rfl
@[simp] theorem Team.claim_grid (t : Team) (keys : List Nat) : (t.claim keys).grid = t.grid := rfl
@[simp] theorem Team.claim_gabsent (t : Team) (keys : List Nat) : (t.claim keys).gabsent = t.gabsent := rfl
@[simp] theorem Team.claim_preempted (t : Team) (keys : List Nat) : (t.claim keys).preempted = t.preempted := rfl
@[simp] theorem Team.claim_replayed (t : Team) (keys : List Nat) : (t.claim keys).replayed = t.replayed := rfl
@[simp] theorem Team.claim_successor (t : Team) (keys : List Nat) : (t.claim keys).successor = t.successor := rfl
@[simp] theorem Team.claim_dying (t : Team) (keys : List Nat) : (t.claim keys).dying = t.dying := rfl
@[simp] theorem Team.claim_maxSpill (t : Team) (keys : List Nat) : (t.claim keys).maxSpill = t.maxSpill := rfl
@[simp] theorem Team.claim_divergences (t : Team) (keys : List Nat) : (t.claim keys).divergences = t.divergences := rfl
@[simp] theorem Team.claim_meetFusions (t : Team) (keys : List Nat) : (t.claim keys).meetFusions = t.meetFusions := rfl
@[simp] theorem Team.claim_rejoinFusions (t : Team) (keys : List Nat) : (t.claim keys).rejoinFusions = t.rejoinFusions := rfl
@[simp] theorem Team.claim_sweeps (t : Team) (keys : List Nat) : (t.claim keys).sweeps = t.sweeps := rfl
@[simp] theorem Team.claim_replays (t : Team) (keys : List Nat) : (t.claim keys).replays = t.replays := rfl
@[simp] theorem Team.claim_preemptions (t : Team) (keys : List Nat) : (t.claim keys).preemptions = t.preemptions := rfl
@[simp] theorem Team.claim_timeouts (t : Team) (keys : List Nat) : (t.claim keys).timeouts = t.timeouts := rfl
@[simp] theorem Team.claim_lastIssue (t : Team) (keys : List Nat) : (t.claim keys).lastIssue = t.lastIssue := rfl
@[simp] theorem Team.claim_rank (t : Team) (keys : List Nat) : (t.claim keys).rank = t.rank := rfl
@[simp] theorem Team.claim_given (t : Team) (keys : List Nat) : (t.claim keys).given = t.given := rfl
@[simp] theorem Team.claim_passed (t : Team) (keys : List Nat) : (t.claim keys).passed = t.passed := rfl
@[simp] theorem Team.claim_readySince (t : Team) (keys : List Nat) : (t.claim keys).readySince = t.readySince := rfl

/-! ### `Team.noteIssue` -/

@[simp] theorem Team.noteIssue_slot (t : Team) (x : Split) (u : IssueUnit) (cycle : Nat) : (t.noteIssue x u cycle).slot = t.slot := rfl
@[simp] theorem Team.noteIssue_kind (t : Team) (x : Split) (u : IssueUnit) (cycle : Nat) : (t.noteIssue x u cycle).kind = t.kind := rfl
@[simp] theorem Team.noteIssue_launch (t : Team) (x : Split) (u : IssueUnit) (cycle : Nat) : (t.noteIssue x u cycle).launch = t.launch := rfl
@[simp] theorem Team.noteIssue_ordinal (t : Team) (x : Split) (u : IssueUnit) (cycle : Nat) : (t.noteIssue x u cycle).ordinal = t.ordinal := rfl
@[simp] theorem Team.noteIssue_phase (t : Team) (x : Split) (u : IssueUnit) (cycle : Nat) : (t.noteIssue x u cycle).phase = t.phase := rfl
@[simp] theorem Team.noteIssue_hdr (t : Team) (x : Split) (u : IssueUnit) (cycle : Nat) : (t.noteIssue x u cycle).hdr = t.hdr := rfl
@[simp] theorem Team.noteIssue_age (t : Team) (x : Split) (u : IssueUnit) (cycle : Nat) : (t.noteIssue x u cycle).age = t.age := rfl
@[simp] theorem Team.noteIssue_splits (t : Team) (x : Split) (u : IssueUnit) (cycle : Nat) : (t.noteIssue x u cycle).splits = t.splits := rfl
@[simp] theorem Team.noteIssue_records (t : Team) (x : Split) (u : IssueUnit) (cycle : Nat) : (t.noteIssue x u cycle).records = t.records := rfl
@[simp] theorem Team.noteIssue_spilled (t : Team) (x : Split) (u : IssueUnit) (cycle : Nat) : (t.noteIssue x u cycle).spilled = t.spilled := rfl
@[simp] theorem Team.noteIssue_nextSeq (t : Team) (x : Split) (u : IssueUnit) (cycle : Nat) : (t.noteIssue x u cycle).nextSeq = t.nextSeq := rfl
@[simp] theorem Team.noteIssue_chunks (t : Team) (x : Split) (u : IssueUnit) (cycle : Nat) : (t.noteIssue x u cycle).chunks = t.chunks := rfl
@[simp] theorem Team.noteIssue_entryLeft (t : Team) (x : Split) (u : IssueUnit) (cycle : Nat) : (t.noteIssue x u cycle).entryLeft = t.entryLeft := rfl
@[simp] theorem Team.noteIssue_sregs (t : Team) (x : Split) (u : IssueUnit) (cycle : Nat) : (t.noteIssue x u cycle).sregs = t.sregs := rfl
@[simp] theorem Team.noteIssue_frames (t : Team) (x : Split) (u : IssueUnit) (cycle : Nat) : (t.noteIssue x u cycle).frames = t.frames := rfl
@[simp] theorem Team.noteIssue_gang (t : Team) (x : Split) (u : IssueUnit) (cycle : Nat) : (t.noteIssue x u cycle).gang = t.gang := rfl
@[simp] theorem Team.noteIssue_gangix (t : Team) (x : Split) (u : IssueUnit) (cycle : Nat) : (t.noteIssue x u cycle).gangix = t.gangix := rfl
@[simp] theorem Team.noteIssue_gangReg (t : Team) (x : Split) (u : IssueUnit) (cycle : Nat) : (t.noteIssue x u cycle).gangReg = t.gangReg := rfl
@[simp] theorem Team.noteIssue_monitor (t : Team) (x : Split) (u : IssueUnit) (cycle : Nat) : (t.noteIssue x u cycle).monitor = t.monitor := rfl
@[simp] theorem Team.noteIssue_grid (t : Team) (x : Split) (u : IssueUnit) (cycle : Nat) : (t.noteIssue x u cycle).grid = t.grid := rfl
@[simp] theorem Team.noteIssue_gabsent (t : Team) (x : Split) (u : IssueUnit) (cycle : Nat) : (t.noteIssue x u cycle).gabsent = t.gabsent := rfl
@[simp] theorem Team.noteIssue_preempted (t : Team) (x : Split) (u : IssueUnit) (cycle : Nat) : (t.noteIssue x u cycle).preempted = t.preempted := rfl
@[simp] theorem Team.noteIssue_replayed (t : Team) (x : Split) (u : IssueUnit) (cycle : Nat) : (t.noteIssue x u cycle).replayed = t.replayed := rfl
@[simp] theorem Team.noteIssue_successor (t : Team) (x : Split) (u : IssueUnit) (cycle : Nat) : (t.noteIssue x u cycle).successor = t.successor := rfl
@[simp] theorem Team.noteIssue_dying (t : Team) (x : Split) (u : IssueUnit) (cycle : Nat) : (t.noteIssue x u cycle).dying = t.dying := rfl
@[simp] theorem Team.noteIssue_maxSpill (t : Team) (x : Split) (u : IssueUnit) (cycle : Nat) : (t.noteIssue x u cycle).maxSpill = t.maxSpill := rfl
@[simp] theorem Team.noteIssue_divergences (t : Team) (x : Split) (u : IssueUnit) (cycle : Nat) : (t.noteIssue x u cycle).divergences = t.divergences := rfl
@[simp] theorem Team.noteIssue_meetFusions (t : Team) (x : Split) (u : IssueUnit) (cycle : Nat) : (t.noteIssue x u cycle).meetFusions = t.meetFusions := rfl
@[simp] theorem Team.noteIssue_rejoinFusions (t : Team) (x : Split) (u : IssueUnit) (cycle : Nat) : (t.noteIssue x u cycle).rejoinFusions = t.rejoinFusions := rfl
@[simp] theorem Team.noteIssue_sweeps (t : Team) (x : Split) (u : IssueUnit) (cycle : Nat) : (t.noteIssue x u cycle).sweeps = t.sweeps := rfl
@[simp] theorem Team.noteIssue_replays (t : Team) (x : Split) (u : IssueUnit) (cycle : Nat) : (t.noteIssue x u cycle).replays = t.replays := rfl
@[simp] theorem Team.noteIssue_preemptions (t : Team) (x : Split) (u : IssueUnit) (cycle : Nat) : (t.noteIssue x u cycle).preemptions = t.preemptions := rfl
@[simp] theorem Team.noteIssue_timeouts (t : Team) (x : Split) (u : IssueUnit) (cycle : Nat) : (t.noteIssue x u cycle).timeouts = t.timeouts := rfl
@[simp] theorem Team.noteIssue_readySince (t : Team) (x : Split) (u : IssueUnit) (cycle : Nat) : (t.noteIssue x u cycle).readySince = t.readySince := rfl

/-! ### `Split.heldIf` and `Split.restore` -/

@[simp] theorem Split.heldIf_false (x : Split) : x.heldIf false = x := rfl
@[simp] theorem Split.heldIf_entry (h : Bool) (x : Split) : (x.heldIf h).entry = x.entry := by
  unfold Split.heldIf; split <;> rfl
@[simp] theorem Split.heldIf_pc (h : Bool) (x : Split) : (x.heldIf h).pc = x.pc := by
  unfold Split.heldIf; split <;> rfl
@[simp] theorem Split.heldIf_mr (h : Bool) (x : Split) : (x.heldIf h).mr = x.mr := by
  unfold Split.heldIf; split <;> rfl
@[simp] theorem Split.heldIf_mask (h : Bool) (x : Split) : (x.heldIf h).mask = x.mask := by
  unfold Split.heldIf; split <;> rfl
@[simp] theorem Split.heldIf_pending (h : Bool) (x : Split) : (x.heldIf h).pending = x.pending := by
  unfold Split.heldIf; split <;> rfl
@[simp] theorem Split.heldIf_parent (h : Bool) (x : Split) : (x.heldIf h).parent = x.parent := by
  unfold Split.heldIf; split <;> rfl
@[simp] theorem Split.heldIf_regionPc (h : Bool) (x : Split) : (x.heldIf h).regionPc = x.regionPc := by
  unfold Split.heldIf; split <;> rfl
@[simp] theorem Split.heldIf_regionMr (h : Bool) (x : Split) : (x.heldIf h).regionMr = x.regionMr := by
  unfold Split.heldIf; split <;> rfl
@[simp] theorem Split.heldIf_liveIn (h : Bool) (x : Split) : (x.heldIf h).liveIn = x.liveIn := by
  unfold Split.heldIf; split <;> rfl
@[simp] theorem Split.heldIf_wait (h : Bool) (x : Split) : (x.heldIf h).wait = x.wait := by
  unfold Split.heldIf; split <;> rfl
@[simp] theorem Split.heldIf_issued (h : Bool) (x : Split) : (x.heldIf h).issued = x.issued := by
  unfold Split.heldIf; split <;> rfl
@[simp] theorem Split.heldIf_nonIdem (h : Bool) (x : Split) : (x.heldIf h).nonIdem = x.nonIdem := by
  unfold Split.heldIf; split <;> rfl
@[simp] theorem Split.heldIf_drawn (h : Bool) (x : Split) : (x.heldIf h).drawn = x.drawn := by
  unfold Split.heldIf; split <;> rfl
@[simp] theorem Split.heldIf_gridCut (h : Bool) (x : Split) : (x.heldIf h).gridCut = x.gridCut := by
  unfold Split.heldIf; split <;> rfl
@[simp] theorem Split.heldIf_begun (h : Bool) (x : Split) : (x.heldIf h).begun = x.begun := by
  unfold Split.heldIf; split <;> rfl
@[simp] theorem Split.heldIf_sent (h : Bool) (x : Split) : (x.heldIf h).sent = x.sent := by
  unfold Split.heldIf; split <;> rfl
@[simp] theorem Split.restore_entry (x : Split) : x.restore.entry = x.entry := by
  unfold Split.restore; split <;> rfl
@[simp] theorem Split.restore_pc (x : Split) : x.restore.pc = x.pc := by
  unfold Split.restore; split <;> rfl
@[simp] theorem Split.restore_mr (x : Split) : x.restore.mr = x.mr := by
  unfold Split.restore; split <;> rfl
@[simp] theorem Split.restore_mask (x : Split) : x.restore.mask = x.mask := by
  unfold Split.restore; split <;> rfl
@[simp] theorem Split.restore_pending (x : Split) : x.restore.pending = x.pending := by
  unfold Split.restore; split <;> rfl
@[simp] theorem Split.restore_parent (x : Split) : x.restore.parent = x.parent := by
  unfold Split.restore; split <;> rfl
@[simp] theorem Split.restore_regionPc (x : Split) : x.restore.regionPc = x.regionPc := by
  unfold Split.restore; split <;> rfl
@[simp] theorem Split.restore_regionMr (x : Split) : x.restore.regionMr = x.regionMr := by
  unfold Split.restore; split <;> rfl
@[simp] theorem Split.restore_liveIn (x : Split) : x.restore.liveIn = x.liveIn := by
  unfold Split.restore; split <;> rfl
@[simp] theorem Split.restore_wait (x : Split) : x.restore.wait = x.wait := by
  unfold Split.restore; split <;> rfl
@[simp] theorem Split.restore_issued (x : Split) : x.restore.issued = x.issued := by
  unfold Split.restore; split <;> rfl
@[simp] theorem Split.restore_nonIdem (x : Split) : x.restore.nonIdem = x.nonIdem := by
  unfold Split.restore; split <;> rfl
@[simp] theorem Split.restore_drawn (x : Split) : x.restore.drawn = x.drawn := by
  unfold Split.restore; split <;> rfl
@[simp] theorem Split.restore_gridCut (x : Split) : x.restore.gridCut = x.gridCut := by
  unfold Split.restore; split <;> rfl
@[simp] theorem Split.restore_begun (x : Split) : x.restore.begun = x.begun := by
  unfold Split.restore; split <;> rfl
@[simp] theorem Split.restore_sent (x : Split) : x.restore.sent = x.sent := by
  unfold Split.restore; split <;> rfl
@[simp] theorem Split.restore_saved (x : Split) : x.restore.saved = false := by
  unfold Split.restore; split <;> simp_all

/-- A ready split that a pre-emption holds stands as it was once it is restored (R376). -/
theorem Split.restore_heldIf (x : Split) (h : x.saved = false) : (x.heldIf true).restore = x := by
  cases x; simp_all [Split.heldIf, Split.restore]; split <;> simp_all

/-! ### `Team.restore` -/

@[simp] theorem Team.restore_slot (t : Team) : t.restore.slot = t.slot := rfl
@[simp] theorem Team.restore_kind (t : Team) : t.restore.kind = t.kind := rfl
@[simp] theorem Team.restore_launch (t : Team) : t.restore.launch = t.launch := rfl
@[simp] theorem Team.restore_ordinal (t : Team) : t.restore.ordinal = t.ordinal := rfl
@[simp] theorem Team.restore_phase (t : Team) : t.restore.phase = t.phase := rfl
@[simp] theorem Team.restore_hdr (t : Team) : t.restore.hdr = t.hdr := rfl
@[simp] theorem Team.restore_age (t : Team) : t.restore.age = t.age := rfl
@[simp] theorem Team.restore_records (t : Team) : t.restore.records = t.records := rfl
@[simp] theorem Team.restore_spilled (t : Team) : t.restore.spilled = t.spilled := rfl
@[simp] theorem Team.restore_nextSeq (t : Team) : t.restore.nextSeq = t.nextSeq := rfl
@[simp] theorem Team.restore_chunks (t : Team) : t.restore.chunks = t.chunks := rfl
@[simp] theorem Team.restore_entryLeft (t : Team) : t.restore.entryLeft = t.entryLeft := rfl
@[simp] theorem Team.restore_sregs (t : Team) : t.restore.sregs = t.sregs := rfl
@[simp] theorem Team.restore_frames (t : Team) : t.restore.frames = t.frames := rfl
@[simp] theorem Team.restore_gang (t : Team) : t.restore.gang = t.gang := rfl
@[simp] theorem Team.restore_gangix (t : Team) : t.restore.gangix = t.gangix := rfl
@[simp] theorem Team.restore_gangReg (t : Team) : t.restore.gangReg = t.gangReg := rfl
@[simp] theorem Team.restore_monitor (t : Team) : t.restore.monitor = t.monitor := rfl
@[simp] theorem Team.restore_grid (t : Team) : t.restore.grid = t.grid := rfl
@[simp] theorem Team.restore_gabsent (t : Team) : t.restore.gabsent = t.gabsent := rfl
@[simp] theorem Team.restore_preempted (t : Team) : t.restore.preempted = t.preempted := rfl
@[simp] theorem Team.restore_replayed (t : Team) : t.restore.replayed = t.replayed := rfl
@[simp] theorem Team.restore_successor (t : Team) : t.restore.successor = t.successor := rfl
@[simp] theorem Team.restore_dying (t : Team) : t.restore.dying = t.dying := rfl
@[simp] theorem Team.restore_maxSpill (t : Team) : t.restore.maxSpill = t.maxSpill := rfl
@[simp] theorem Team.restore_divergences (t : Team) : t.restore.divergences = t.divergences := rfl
@[simp] theorem Team.restore_meetFusions (t : Team) : t.restore.meetFusions = t.meetFusions := rfl
@[simp] theorem Team.restore_rejoinFusions (t : Team) : t.restore.rejoinFusions = t.rejoinFusions := rfl
@[simp] theorem Team.restore_sweeps (t : Team) : t.restore.sweeps = t.sweeps := rfl
@[simp] theorem Team.restore_replays (t : Team) : t.restore.replays = t.replays := rfl
@[simp] theorem Team.restore_preemptions (t : Team) : t.restore.preemptions = t.preemptions := rfl
@[simp] theorem Team.restore_timeouts (t : Team) : t.restore.timeouts = t.timeouts := rfl
@[simp] theorem Team.restore_lastIssue (t : Team) : t.restore.lastIssue = t.lastIssue := rfl
@[simp] theorem Team.restore_rank (t : Team) : t.restore.rank = t.rank := rfl
@[simp] theorem Team.restore_given (t : Team) : t.restore.given = t.given := rfl
@[simp] theorem Team.restore_passed (t : Team) : t.restore.passed = t.passed := rfl
@[simp] theorem Team.restore_readySince (t : Team) : t.restore.readySince = t.readySince := rfl

/-! ### `Team.noteGiven` -/

@[simp] theorem Team.noteGiven_slot (t : Team) (x : Split) (us : List Nat) (cycle : Nat) : (t.noteGiven x us cycle).slot = t.slot := rfl
@[simp] theorem Team.noteGiven_kind (t : Team) (x : Split) (us : List Nat) (cycle : Nat) : (t.noteGiven x us cycle).kind = t.kind := rfl
@[simp] theorem Team.noteGiven_launch (t : Team) (x : Split) (us : List Nat) (cycle : Nat) : (t.noteGiven x us cycle).launch = t.launch := rfl
@[simp] theorem Team.noteGiven_ordinal (t : Team) (x : Split) (us : List Nat) (cycle : Nat) : (t.noteGiven x us cycle).ordinal = t.ordinal := rfl
@[simp] theorem Team.noteGiven_phase (t : Team) (x : Split) (us : List Nat) (cycle : Nat) : (t.noteGiven x us cycle).phase = t.phase := rfl
@[simp] theorem Team.noteGiven_hdr (t : Team) (x : Split) (us : List Nat) (cycle : Nat) : (t.noteGiven x us cycle).hdr = t.hdr := rfl
@[simp] theorem Team.noteGiven_age (t : Team) (x : Split) (us : List Nat) (cycle : Nat) : (t.noteGiven x us cycle).age = t.age := rfl
@[simp] theorem Team.noteGiven_splits (t : Team) (x : Split) (us : List Nat) (cycle : Nat) : (t.noteGiven x us cycle).splits = t.splits := rfl
@[simp] theorem Team.noteGiven_records (t : Team) (x : Split) (us : List Nat) (cycle : Nat) : (t.noteGiven x us cycle).records = t.records := rfl
@[simp] theorem Team.noteGiven_spilled (t : Team) (x : Split) (us : List Nat) (cycle : Nat) : (t.noteGiven x us cycle).spilled = t.spilled := rfl
@[simp] theorem Team.noteGiven_nextSeq (t : Team) (x : Split) (us : List Nat) (cycle : Nat) : (t.noteGiven x us cycle).nextSeq = t.nextSeq := rfl
@[simp] theorem Team.noteGiven_chunks (t : Team) (x : Split) (us : List Nat) (cycle : Nat) : (t.noteGiven x us cycle).chunks = t.chunks := rfl
@[simp] theorem Team.noteGiven_entryLeft (t : Team) (x : Split) (us : List Nat) (cycle : Nat) : (t.noteGiven x us cycle).entryLeft = t.entryLeft := rfl
@[simp] theorem Team.noteGiven_sregs (t : Team) (x : Split) (us : List Nat) (cycle : Nat) : (t.noteGiven x us cycle).sregs = t.sregs := rfl
@[simp] theorem Team.noteGiven_frames (t : Team) (x : Split) (us : List Nat) (cycle : Nat) : (t.noteGiven x us cycle).frames = t.frames := rfl
@[simp] theorem Team.noteGiven_gang (t : Team) (x : Split) (us : List Nat) (cycle : Nat) : (t.noteGiven x us cycle).gang = t.gang := rfl
@[simp] theorem Team.noteGiven_gangix (t : Team) (x : Split) (us : List Nat) (cycle : Nat) : (t.noteGiven x us cycle).gangix = t.gangix := rfl
@[simp] theorem Team.noteGiven_gangReg (t : Team) (x : Split) (us : List Nat) (cycle : Nat) : (t.noteGiven x us cycle).gangReg = t.gangReg := rfl
@[simp] theorem Team.noteGiven_monitor (t : Team) (x : Split) (us : List Nat) (cycle : Nat) : (t.noteGiven x us cycle).monitor = t.monitor := rfl
@[simp] theorem Team.noteGiven_grid (t : Team) (x : Split) (us : List Nat) (cycle : Nat) : (t.noteGiven x us cycle).grid = t.grid := rfl
@[simp] theorem Team.noteGiven_gabsent (t : Team) (x : Split) (us : List Nat) (cycle : Nat) : (t.noteGiven x us cycle).gabsent = t.gabsent := rfl
@[simp] theorem Team.noteGiven_preempted (t : Team) (x : Split) (us : List Nat) (cycle : Nat) : (t.noteGiven x us cycle).preempted = t.preempted := rfl
@[simp] theorem Team.noteGiven_replayed (t : Team) (x : Split) (us : List Nat) (cycle : Nat) : (t.noteGiven x us cycle).replayed = t.replayed := rfl
@[simp] theorem Team.noteGiven_successor (t : Team) (x : Split) (us : List Nat) (cycle : Nat) : (t.noteGiven x us cycle).successor = t.successor := rfl
@[simp] theorem Team.noteGiven_dying (t : Team) (x : Split) (us : List Nat) (cycle : Nat) : (t.noteGiven x us cycle).dying = t.dying := rfl
@[simp] theorem Team.noteGiven_maxSpill (t : Team) (x : Split) (us : List Nat) (cycle : Nat) : (t.noteGiven x us cycle).maxSpill = t.maxSpill := rfl
@[simp] theorem Team.noteGiven_divergences (t : Team) (x : Split) (us : List Nat) (cycle : Nat) : (t.noteGiven x us cycle).divergences = t.divergences := rfl
@[simp] theorem Team.noteGiven_meetFusions (t : Team) (x : Split) (us : List Nat) (cycle : Nat) : (t.noteGiven x us cycle).meetFusions = t.meetFusions := rfl
@[simp] theorem Team.noteGiven_rejoinFusions (t : Team) (x : Split) (us : List Nat) (cycle : Nat) : (t.noteGiven x us cycle).rejoinFusions = t.rejoinFusions := rfl
@[simp] theorem Team.noteGiven_sweeps (t : Team) (x : Split) (us : List Nat) (cycle : Nat) : (t.noteGiven x us cycle).sweeps = t.sweeps := rfl
@[simp] theorem Team.noteGiven_replays (t : Team) (x : Split) (us : List Nat) (cycle : Nat) : (t.noteGiven x us cycle).replays = t.replays := rfl
@[simp] theorem Team.noteGiven_preemptions (t : Team) (x : Split) (us : List Nat) (cycle : Nat) : (t.noteGiven x us cycle).preemptions = t.preemptions := rfl
@[simp] theorem Team.noteGiven_timeouts (t : Team) (x : Split) (us : List Nat) (cycle : Nat) : (t.noteGiven x us cycle).timeouts = t.timeouts := rfl
@[simp] theorem Team.noteGiven_rank (t : Team) (x : Split) (us : List Nat) (cycle : Nat) : (t.noteGiven x us cycle).rank = t.rank := rfl
@[simp] theorem Team.noteGiven_readySince (t : Team) (x : Split) (us : List Nat) (cycle : Nat) : (t.noteGiven x us cycle).readySince = t.readySince := rfl

/-! ### `Team.noteWord` -/

@[simp] theorem Team.noteWord_slot (t : Team) (x : Split) (q cycle : Nat) : (t.noteWord x q cycle).slot = t.slot := rfl
@[simp] theorem Team.noteWord_kind (t : Team) (x : Split) (q cycle : Nat) : (t.noteWord x q cycle).kind = t.kind := rfl
@[simp] theorem Team.noteWord_launch (t : Team) (x : Split) (q cycle : Nat) : (t.noteWord x q cycle).launch = t.launch := rfl
@[simp] theorem Team.noteWord_ordinal (t : Team) (x : Split) (q cycle : Nat) : (t.noteWord x q cycle).ordinal = t.ordinal := rfl
@[simp] theorem Team.noteWord_phase (t : Team) (x : Split) (q cycle : Nat) : (t.noteWord x q cycle).phase = t.phase := rfl
@[simp] theorem Team.noteWord_hdr (t : Team) (x : Split) (q cycle : Nat) : (t.noteWord x q cycle).hdr = t.hdr := rfl
@[simp] theorem Team.noteWord_age (t : Team) (x : Split) (q cycle : Nat) : (t.noteWord x q cycle).age = t.age := rfl
@[simp] theorem Team.noteWord_records (t : Team) (x : Split) (q cycle : Nat) : (t.noteWord x q cycle).records = t.records := rfl
@[simp] theorem Team.noteWord_spilled (t : Team) (x : Split) (q cycle : Nat) : (t.noteWord x q cycle).spilled = t.spilled := rfl
@[simp] theorem Team.noteWord_nextSeq (t : Team) (x : Split) (q cycle : Nat) : (t.noteWord x q cycle).nextSeq = t.nextSeq := rfl
@[simp] theorem Team.noteWord_chunks (t : Team) (x : Split) (q cycle : Nat) : (t.noteWord x q cycle).chunks = t.chunks := rfl
@[simp] theorem Team.noteWord_entryLeft (t : Team) (x : Split) (q cycle : Nat) : (t.noteWord x q cycle).entryLeft = t.entryLeft := rfl
@[simp] theorem Team.noteWord_sregs (t : Team) (x : Split) (q cycle : Nat) : (t.noteWord x q cycle).sregs = t.sregs := rfl
@[simp] theorem Team.noteWord_frames (t : Team) (x : Split) (q cycle : Nat) : (t.noteWord x q cycle).frames = t.frames := rfl
@[simp] theorem Team.noteWord_gang (t : Team) (x : Split) (q cycle : Nat) : (t.noteWord x q cycle).gang = t.gang := rfl
@[simp] theorem Team.noteWord_gangix (t : Team) (x : Split) (q cycle : Nat) : (t.noteWord x q cycle).gangix = t.gangix := rfl
@[simp] theorem Team.noteWord_gangReg (t : Team) (x : Split) (q cycle : Nat) : (t.noteWord x q cycle).gangReg = t.gangReg := rfl
@[simp] theorem Team.noteWord_monitor (t : Team) (x : Split) (q cycle : Nat) : (t.noteWord x q cycle).monitor = t.monitor := rfl
@[simp] theorem Team.noteWord_grid (t : Team) (x : Split) (q cycle : Nat) : (t.noteWord x q cycle).grid = t.grid := rfl
@[simp] theorem Team.noteWord_gabsent (t : Team) (x : Split) (q cycle : Nat) : (t.noteWord x q cycle).gabsent = t.gabsent := rfl
@[simp] theorem Team.noteWord_preempted (t : Team) (x : Split) (q cycle : Nat) : (t.noteWord x q cycle).preempted = t.preempted := rfl
@[simp] theorem Team.noteWord_replayed (t : Team) (x : Split) (q cycle : Nat) : (t.noteWord x q cycle).replayed = t.replayed := rfl
@[simp] theorem Team.noteWord_successor (t : Team) (x : Split) (q cycle : Nat) : (t.noteWord x q cycle).successor = t.successor := rfl
@[simp] theorem Team.noteWord_dying (t : Team) (x : Split) (q cycle : Nat) : (t.noteWord x q cycle).dying = t.dying := rfl
@[simp] theorem Team.noteWord_maxSpill (t : Team) (x : Split) (q cycle : Nat) : (t.noteWord x q cycle).maxSpill = t.maxSpill := rfl
@[simp] theorem Team.noteWord_divergences (t : Team) (x : Split) (q cycle : Nat) : (t.noteWord x q cycle).divergences = t.divergences := rfl
@[simp] theorem Team.noteWord_meetFusions (t : Team) (x : Split) (q cycle : Nat) : (t.noteWord x q cycle).meetFusions = t.meetFusions := rfl
@[simp] theorem Team.noteWord_rejoinFusions (t : Team) (x : Split) (q cycle : Nat) : (t.noteWord x q cycle).rejoinFusions = t.rejoinFusions := rfl
@[simp] theorem Team.noteWord_sweeps (t : Team) (x : Split) (q cycle : Nat) : (t.noteWord x q cycle).sweeps = t.sweeps := rfl
@[simp] theorem Team.noteWord_replays (t : Team) (x : Split) (q cycle : Nat) : (t.noteWord x q cycle).replays = t.replays := rfl
@[simp] theorem Team.noteWord_preemptions (t : Team) (x : Split) (q cycle : Nat) : (t.noteWord x q cycle).preemptions = t.preemptions := rfl
@[simp] theorem Team.noteWord_timeouts (t : Team) (x : Split) (q cycle : Nat) : (t.noteWord x q cycle).timeouts = t.timeouts := rfl
@[simp] theorem Team.noteWord_rank (t : Team) (x : Split) (q cycle : Nat) : (t.noteWord x q cycle).rank = t.rank := rfl
@[simp] theorem Team.noteWord_readySince (t : Team) (x : Split) (q cycle : Nat) : (t.noteWord x q cycle).readySince = t.readySince := rfl

end Sys2Proof.Machine
end

