-- ==== Sys2Proof/Laws/Tables.lean ====
section
/-! SUPPORT. The laws of sparse tables: what a table reads after an update, and that updates keep the canonical form. -/

namespace Sys2Proof.Machine

variable {α : Type}

/-! ## Reading after an update -/

theorem tableGet_put_same (d : α) (t : List (Nat × α)) (a : Nat) (x : α) : tableGet d (tablePut t a x) a = x := by
  induction t with
  | nil => simp [tablePut, tableGet]
  | cons e t ih =>
    simp only [tablePut]
    split
    · simp [tableGet]
    · split
      · simp [tableGet]
      · simp [tableGet, *]

theorem tableGet_put_other (d : α) (t : List (Nat × α)) {a b : Nat} (x : α) (h : b ≠ a) :
    tableGet d (tablePut t a x) b = tableGet d t b := by
  induction t with
  | nil => simp [tablePut, tableGet, h.symm]
  | cons e t ih =>
    obtain ⟨k, v⟩ := e
    simp only [tablePut]
    split
    · subst k; simp [tableGet, h.symm]
    · split
      · simp [tableGet, h.symm]
      · simp [tableGet, ih]

theorem tableGet_drop_other (d : α) (t : List (Nat × α)) {a b : Nat} (h : b ≠ a) :
    tableGet d (tableDrop t a) b = tableGet d t b := by
  induction t with
  | nil => rfl
  | cons e t ih =>
    obtain ⟨k, v⟩ := e
    simp only [tableDrop]
    split
    · subst k; simp [tableGet, h.symm]
    · split
      · rfl
      · simp [tableGet, ih]

theorem tableFind_put_same (t : List (Nat × α)) (a : Nat) (x : α) : tableFind (tablePut t a x) a = some x := by
  induction t with
  | nil => simp [tablePut, tableFind]
  | cons e t ih =>
    simp only [tablePut]
    split
    · simp [tableFind]
    · split
      · simp [tableFind]
      · simp [tableFind, *]

theorem tableFind_put_other (t : List (Nat × α)) {a b : Nat} (x : α) (h : b ≠ a) :
    tableFind (tablePut t a x) b = tableFind t b := by
  induction t with
  | nil => simp [tablePut, tableFind, h.symm]
  | cons e t ih =>
    obtain ⟨k, v⟩ := e
    simp only [tablePut]
    split
    · subst k; simp [tableFind, h.symm]
    · split
      · simp [tableFind, h.symm]
      · simp [tableFind, ih]

/-- A filter on keys keeps or hides every entry of a key. -/
theorem tableFind_filter (t : List (Nat × α)) (p : Nat → Bool) (a : Nat) :
    tableFind (t.filter fun c => p c.1) a = if p a then tableFind t a else none := by
  induction t with
  | nil => simp [tableFind]
  | cons e t ih =>
    obtain ⟨k, v⟩ := e
    by_cases hk : p k <;> by_cases ha : k = a <;> simp_all [tableFind]

theorem tableGet_filter (d : α) (t : List (Nat × α)) (p : Nat → Bool) (a : Nat) :
    tableGet d (t.filter fun c => p c.1) a = if p a then tableGet d t a else d := by
  induction t with
  | nil => simp [tableGet]
  | cons e t ih =>
    obtain ⟨k, v⟩ := e
    by_cases hk : p k <;> by_cases ha : k = a <;> simp_all [tableGet]

/-! ## The canonical form -/

variable [DecidableEq α]

theorem tableFrom_mono (d : α) {lo lo' : Nat} (t : List (Nat × α)) (h : lo' ≤ lo) (w : tableFrom d lo t) :
    tableFrom d lo' t := by
  cases t with
  | nil => rfl
  | cons e t => simp [tableFrom] at w ⊢; exact ⟨⟨by omega, w.1.2⟩, w.2⟩

/-- A key below every listed one reads as the default. -/
theorem tableGet_below (d : α) {lo a : Nat} (t : List (Nat × α)) (w : tableFrom d lo t) (h : a < lo) : tableGet d t a = d := by
  induction t generalizing lo with
  | nil => rfl
  | cons e t ih =>
    obtain ⟨k, v⟩ := e
    simp [tableFrom] at w
    simp only [tableGet]
    rw [if_neg (by omega)]
    exact ih w.2 (by omega)

theorem tableFrom_put (d : α) {lo a : Nat} {x : α} (t : List (Nat × α)) (hx : x ≠ d) (ha : lo ≤ a) (w : tableFrom d lo t) :
    tableFrom d lo (tablePut t a x) := by
  induction t generalizing lo with
  | nil => simp [tablePut, tableFrom, hx, ha]
  | cons e t ih =>
    obtain ⟨k, v⟩ := e
    simp only [tableFrom, Bool.and_eq_true, decide_eq_true_eq] at w
    simp only [tablePut]
    split
    · subst k; simp [tableFrom, hx, ha, w.2]
    · split
      · simp [tableFrom, hx, ha, w.2, w.1.2]; omega
      · simp only [tableFrom, w.1, ih (lo := k + 1) (by omega) w.2, decide_true]
        simpa using w.1.2

theorem tableFrom_drop (d : α) {lo : Nat} (a : Nat) (t : List (Nat × α)) (w : tableFrom d lo t) :
    tableFrom d lo (tableDrop t a) := by
  induction t generalizing lo with
  | nil => rfl
  | cons e t ih =>
    obtain ⟨k, v⟩ := e
    have w' := w
    simp only [tableFrom, Bool.and_eq_true, decide_eq_true_eq] at w
    simp only [tableDrop]
    split
    · exact tableFrom_mono d t (by omega) w.2
    · split
      · exact w'
      · simp only [tableFrom, ih w.2, w.1, decide_true]
        simpa using w.1.2

theorem tableFrom_filter (d : α) {lo : Nat} (t : List (Nat × α)) (p : Nat × α → Bool) (w : tableFrom d lo t) :
    tableFrom d lo (t.filter p) := by
  induction t generalizing lo with
  | nil => rfl
  | cons e t ih =>
    obtain ⟨k, v⟩ := e
    simp only [tableFrom, Bool.and_eq_true, decide_eq_true_eq] at w
    rw [List.filter_cons]
    split
    · simp only [tableFrom, ih w.2, w.1, decide_true]
      simpa using w.1.2
    · exact tableFrom_mono d _ (by omega) (ih w.2)

/-- Writing keeps the canonical form, whatever is written. -/
theorem tableWf_set (d : α) (t : List (Nat × α)) (a : Nat) (x : α) (w : tableWf d t) : tableWf d (tableSet d t a x) := by
  unfold tableSet
  split
  · exact tableFrom_drop d a t w
  · exact tableFrom_put d t ‹_› (Nat.zero_le _) w

theorem tableWf_filter (d : α) (t : List (Nat × α)) (p : Nat × α → Bool) (w : tableWf d t) : tableWf d (t.filter p) :=
  tableFrom_filter d t p w

theorem tableGet_drop_same (d : α) {lo : Nat} (a : Nat) (t : List (Nat × α)) (w : tableFrom d lo t) :
    tableGet d (tableDrop t a) a = d := by
  induction t generalizing lo with
  | nil => rfl
  | cons e t ih =>
    obtain ⟨k, v⟩ := e
    have w' := w
    simp only [tableFrom, Bool.and_eq_true, decide_eq_true_eq] at w
    simp only [tableDrop]
    split
    · subst k; exact tableGet_below d t w.2 (by omega)
    · split
      · rename_i h1 h2
        simp only [tableGet, h1, if_false]
        exact tableGet_below d t w.2 (by omega)
      · simp only [tableGet, *, if_false]; exact ih w.2

theorem tableGet_set_same (d : α) (t : List (Nat × α)) (a : Nat) (x : α) (w : tableWf d t) : tableGet d (tableSet d t a x) a = x := by
  unfold tableSet
  split
  · subst x; exact tableGet_drop_same d a t w
  · exact tableGet_put_same d t a x

theorem tableGet_set_other (d : α) (t : List (Nat × α)) {a b : Nat} (x : α) (h : b ≠ a) :
    tableGet d (tableSet d t a x) b = tableGet d t b := by
  unfold tableSet
  split
  · exact tableGet_drop_other d t h
  · exact tableGet_put_other d t x h

/-- Tables in canonical form that read alike are the same data. -/
theorem tableWf_ext (d : α) {lo : Nat} (t u : List (Nat × α)) (wt : tableFrom d lo t) (wu : tableFrom d lo u)
    (h : ∀ a, tableGet d t a = tableGet d u a) : t = u := by
  induction t generalizing lo u with
  | nil =>
    cases u with
    | nil => rfl
    | cons e u =>
      obtain ⟨k, v⟩ := e
      simp [tableFrom] at wu
      have := h k
      simp [tableGet] at this
      exact absurd this.symm wu.1.2
  | cons e t ih =>
    obtain ⟨k, v⟩ := e
    simp [tableFrom] at wt
    cases u with
    | nil =>
      have := h k
      simp [tableGet] at this
      exact absurd this wt.1.2
    | cons f u =>
      obtain ⟨k', v'⟩ := f
      simp [tableFrom] at wu
      have hk : k = k' := by
        rcases Nat.lt_trichotomy k k' with hlt | heq | hgt
        · have := h k
          simp only [tableGet, if_true] at this
          rw [if_neg (by omega), tableGet_below d u wu.2 (by omega)] at this
          exact absurd this wt.1.2
        · exact heq
        · have := h k'
          simp only [tableGet, if_true] at this
          rw [if_neg (by omega), tableGet_below d t wt.2 (by omega)] at this
          exact absurd this.symm wu.1.2
      subst hk
      have hv : v = v' := by simpa [tableGet] using h k
      subst hv
      congr 1
      refine ih u wt.2 wu.2 fun a => ?_
      by_cases ha : k = a
      · subst ha; rw [tableGet_below d t wt.2 (by omega), tableGet_below d u wu.2 (by omega)]
      · simpa [tableGet, ha] using h a

/-! ## Bytes -/

theorem length_leBytes (n v : Nat) : (leBytes n v).length = n := by
  induction n generalizing v with
  | zero => rfl
  | succ n ih => simp [leBytes, ih]

/-- Reading back the bytes of a number gives the number modulo their width (R9). -/
theorem leNat_leBytes (n v : Nat) : leNat (leBytes n v) = v % 256 ^ n := by
  induction n generalizing v with
  | zero => simp [leBytes, leNat, Nat.mod_one]
  | succ n ih =>
    have h : v % 256 ^ (n + 1) = v % 256 + 256 * (v / 256 % 256 ^ n) := by
      rw [Nat.pow_succ, Nat.mul_comm (256 ^ n) 256, Nat.mod_mul]
    rw [h, leBytes, leNat, ih, BitVec.toNat_ofNat]

end Sys2Proof.Machine
end

