-- ==== Sys2Proof/Laws/Registers.lean ====
section
/-! SUPPORT. Registers: what scalars and containers read after a write, after a chunk is taken and after marks free some. -/

namespace Sys2Proof.Machine

/-! ## Scalars -/

theorem Team.scalar_setScalar_same (t : Team) (r : SReg) (v : W64) : (t.setScalar r v).scalar r = v := by
  have := r.isLt
  simp [Team.scalar, Team.setScalar, List.getD, this]

theorem Team.scalar_setScalar_other (t : Team) {r q : SReg} (v : W64) (h : q ≠ r) : (t.setScalar r v).scalar q = t.scalar q := by
  have := q.isLt
  have hn : q.toNat ≠ r.toNat := fun e => h (BitVec.eq_of_toNat_eq e)
  simp [Team.scalar, Team.setScalar, List.getD, this, hn]

/-! ## Containers -/

/-- Two containers that share a chunk and a place in it are one. -/
theorem container_key {name lane name' lane' : Nat} (hl : lane < 1024) (hl' : lane' < 1024)
    (hk : 32 * name + lane / 32 = 32 * name' + lane' / 32) (hm : lane % 32 = lane' % 32) : name = name' ∧ lane = lane' := by
  omega

theorem getD_chunkSet (old : List W32) (i j : Nat) (v : W32) (hj : j < 32) :
    (chunkSet old i v).getD j 0 = if j = i then v else old.getD j 0 := by
  simp [chunkSet, List.getD, hj]

theorem getD_freshChunk (j : Nat) : freshChunk.getD j 0 = 0 := by
  simp only [freshChunk, List.getD, List.getElem?_replicate]
  split <;> rfl

theorem Team.container_put_same (t : Team) (w : Put) : (t.put w).container w.name w.lane = w.value := by
  simp only [Team.container, Team.put, tableFind_put_same]
  rw [getD_chunkSet _ _ _ _ (Nat.mod_lt _ (by decide)), if_pos rfl]

theorem Team.container_put_other (t : Team) (w : Put) {name lane : Nat} (hl : lane < 1024) (hw : w.lane < 1024)
    (h : ¬ (name = w.name ∧ lane = w.lane)) : (t.put w).container name lane = t.container name lane := by
  simp only [Team.container, Team.put]
  by_cases hk : 32 * name + lane / 32 = 32 * w.name + w.lane / 32
  · have hm : lane % 32 ≠ w.lane % 32 := fun hm => h (container_key hl hw hk hm)
    rw [hk, tableFind_put_same]
    simp only
    rw [getD_chunkSet _ _ _ _ (Nat.mod_lt _ (by decide)), if_neg hm]
    cases tableFind t.chunks (32 * w.name + w.lane / 32) with
    | none => simpa using getD_freshChunk (lane % 32)
    | some c => rfl
  · rw [tableFind_put_other _ _ hk]

theorem Team.container_puts_other (t : Team) (ws : List Put) {name lane : Nat} (hl : lane < 1024)
    (hw : ∀ w ∈ ws, w.lane < 1024) (h : ∀ w ∈ ws, ¬ (name = w.name ∧ lane = w.lane)) :
    (t.puts ws).container name lane = t.container name lane := by
  induction ws generalizing t with
  | nil => rfl
  | cons w ws ih =>
    have := ih (t.put w) (fun v hv => hw v (List.mem_cons_of_mem _ hv)) fun v hv => h v (List.mem_cons_of_mem _ hv)
    exact this.trans (t.container_put_other w hl (hw w List.mem_cons_self) (h w List.mem_cons_self))

/-- A container written once among several holds what was written. -/
theorem Team.container_puts_mem (t : Team) (ws : List Put) (hw : ∀ w ∈ ws, w.lane < 1024)
    (hd : ws.Pairwise fun a b => ¬ (a.name = b.name ∧ a.lane = b.lane)) :
    ∀ w ∈ ws, (t.puts ws).container w.name w.lane = w.value := by
  induction ws generalizing t with
  | nil => simp
  | cons v ws ih =>
    rw [List.pairwise_cons] at hd
    intro w hm
    rcases List.mem_cons.1 hm with rfl | hm
    · refine (Team.container_puts_other (t.put w) ws (hw w List.mem_cons_self)
        (fun u hu => hw u (List.mem_cons_of_mem _ hu)) fun u hu => hd.1 u hu).trans ?_
      exact t.container_put_same w
    · exact ih (t.put v) (fun u hu => hw u (List.mem_cons_of_mem _ hu)) hd.2 w hm

/-- A chunk just taken reads zero, as one not held does (R83). -/
theorem Team.container_take (t : Team) (key name lane : Nat) (h : tableFind t.chunks key = none) :
    (t.take key).container name lane = t.container name lane := by
  simp only [Team.container, Team.take]
  by_cases hk : 32 * name + lane / 32 = key
  · rw [hk, tableFind_put_same, h]
    exact getD_freshChunk _
  · rw [tableFind_put_other _ _ hk]

/-- Marks free the chunks of their names only. -/
theorem Team.container_free_other (t : Team) (names words : List Nat) {name lane : Nat} (hl : lane < 1024)
    (h : name ∉ names) : (t.free names words).container name lane = t.container name lane := by
  simp only [Team.container, Team.free]
  have hd : (32 * name + lane / 32) / 32 = name := by omega
  have := tableFind_filter t.chunks (fun c => !(names.contains (c / 32) && words.contains (c % 32))) (32 * name + lane / 32)
  simp only [hd, List.contains_eq_mem, h, decide_false, Bool.false_and, Bool.not_false, if_true] at this
  simp only [List.contains_eq_mem]
  rw [this]

/-! ## Taking the chunks of a write -/

/-- What taking chunks can do: it changes nothing of the team but its chunks and its reserve, every container reads as
before, and where nothing is missing every chunk asked for is there. -/
theorem Core.takeChunks_spec (c : Core) (t : Team) (need : List Nat) (got : List (Nat × Bool)) :
    let r := c.takeChunks t need got
    (∃ cs n, r.1 = { t with chunks := cs, entryLeft := n }) ∧
    (∀ name lane, r.1.container name lane = t.container name lane) ∧
    (∀ key, (tableFind t.chunks key).isSome → (tableFind r.1.chunks key).isSome) ∧
    (r.2.2 = [] → ∀ key ∈ need, (tableFind r.1.chunks key).isSome) := by
  induction need generalizing t got with
  | nil => exact ⟨⟨_, _, rfl⟩, fun _ _ => rfl, fun _ h => h, fun _ k hm => absurd hm (List.not_mem_nil)⟩
  | cons key need ih =>
    simp only [Core.takeChunks]
    split
    · rename_i hk
      obtain ⟨h1, h2, h3, h4⟩ := ih t got
      refine ⟨h1, h2, h3, fun he k hm => ?_⟩
      rcases List.mem_cons.1 hm with rfl | hm
      · exact h3 k hk
      · exact h4 he k hm
    · rename_i hk
      split
      · obtain ⟨h1, h2, h3, h4⟩ := ih (t.take key) (got ++ [(key, decide (t.entryLeft > 0))])
        have hn : tableFind t.chunks key = none := by simpa using hk
        have hkey : (tableFind (t.take key).chunks key).isSome := by
          simp only [Team.take, tableFind_put_same, Option.isSome_some]
        have hkeep : ∀ k, (tableFind t.chunks k).isSome → (tableFind (t.take key).chunks k).isSome := by
          intro k hs
          by_cases he : k = key
          · subst he; exact hkey
          · simpa only [Team.take, tableFind_put_other _ _ he] using hs
        refine ⟨h1, fun n l => (h2 n l).trans (t.container_take key n l hn), fun k hs => h3 k (hkeep k hs), fun he k hm => ?_⟩
        rcases List.mem_cons.1 hm with rfl | hm
        · exact h3 k hkey
        · exact h4 he k hm
      · refine ⟨⟨_, _, rfl⟩, fun _ _ => rfl, fun _ h => h, fun he => ?_⟩
        simp at he

theorem Team.takeAll_frame (t : Team) (keys : List Nat) : ∃ cs n, t.takeAll keys = { t with chunks := cs, entryLeft := n } := by
  induction keys generalizing t with
  | nil => exact ⟨_, _, rfl⟩
  | cons key keys ih => obtain ⟨cs, n, h⟩ := ih (t.take key); exact ⟨cs, n, h⟩

/-- The team that taking chunks makes is the team with what was taken. -/
theorem Core.takeChunks_team (c : Core) (t : Team) (need : List Nat) (got : List (Nat × Bool)) :
    ∃ new, (c.takeChunks t need got).2.1 = got ++ new ∧ (c.takeChunks t need got).1 = t.takeAll (new.map (·.1)) := by
  induction need generalizing t got with
  | nil => exact ⟨[], (List.append_nil got).symm, rfl⟩
  | cons key need ih =>
    simp only [Core.takeChunks]
    split
    · exact ih t got
    · split
      · obtain ⟨new, h1, h2⟩ := ih (t.take key) (got ++ [(key, decide (t.entryLeft > 0))])
        exact ⟨(key, decide (t.entryLeft > 0)) :: new, by rw [h1]; simp, by rw [h2]; rfl⟩
      · exact ⟨[], (List.append_nil got).symm, rfl⟩

theorem Core.takeChunks_nil_team (c : Core) (t : Team) (need : List Nat) :
    (c.takeChunks t need []).1 = t.takeAll ((c.takeChunks t need []).2.1.map (·.1)) := by
  obtain ⟨new, h1, h2⟩ := c.takeChunks_team t need []
  rw [h1, h2, List.nil_append]

/-! ## Claims -/

theorem Team.container_claim (t : Team) (keys : List Nat) (name lane : Nat) :
    (t.claim keys).container name lane = t.container name lane := rfl

theorem Team.split?_claim (t : Team) (keys : List Nat) (e : Nat) :
    (t.claim keys).split? e = (t.split? e).map fun x => { x with drawn := x.drawn.filter fun d => !keys.contains d.1 } := by
  simp only [Team.claim, Team.split?, List.find?_map]
  rfl

theorem Team.claim_nil (t : Team) : t.claim [] = t := by
  have e : (fun x : Split => { x with drawn := x.drawn.filter fun d => !([] : List Nat).contains d.1 }) = id :=
    funext fun x => by cases x; simp
  unfold Team.claim
  rw [e, List.map_id]

end Sys2Proof.Machine
end

