-- ==== Sys2Proof/Laws/Issue.lean ====
section
/-! SUPPORT. How an instruction of a split ends: a trap, or a completion as one update of its team. -/

namespace Sys2Proof.Machine

theorem State.ctx_r {s : State} {k : Ctx} (h : s.ctx = some k) : k.r = s.cur := ((s.ctxAt_iff _ _).1 h).1

/-- With no split resident under `cur` no word's instruction has a machine to act on. -/
theorem State.issue_none {s : State} (f : State → Ctx → Act) (h : s.ctx = none) : s.issue f = .fault .noIssuingSplit := by
  simp [State.issue, h]

/-- A cause that stands before the instruction's own ends the issue with its trap (R66). -/
theorem State.issue_cause {s : State} {k : Ctx} (f : State → Ctx → Act) {c : Nat} (h : s.ctx = some k)
    (hc : (f s k).cause k = some c) : s.issue f = .next ((s.raise k.r (k.cause c)).reap (teamOf k.r)) := by
  simp only [State.issue, h, hc, State.settle]

/-- Without one, the issue ends as its effect says. -/
theorem State.issue_eff {s : State} {k : Ctx} (f : State → Ctx → Act) (h : s.ctx = some k)
    (hc : (f s k).cause k = none) : s.issue f = .next (s.settle k (f s k).shape (f s k).eff) := by
  simp only [State.issue, h, hc]

/-- What the completion of an instruction makes of its team. -/
def State.retireTeam (s : State) (r : SplitRef) (d : Shape) (t : Team) : Team :=
  let t := if d.marks = [] then t else t.free d.marks (markWords (s.otherMasks r = []) (s.otherMasks r))
  (t.countSweep d.sweep).modSplit r.entry (Split.done d.nonIdem)

theorem State.retireTeam_slot (s : State) (r : SplitRef) (d : Shape) (t : Team) :
    (s.retireTeam r d t).slot = t.slot := by
  unfold State.retireTeam
  dsimp only
  split <;> rfl

/-- Retirement is one update of the team, and the note of a sweep. -/
theorem State.retire_eq {s : State} {r : SplitRef} {sp : Split} (d : Shape) (h : s.split? r = some sp) :
    s.retire r d = (s.modTeam r.part r.core r.slot (s.retireTeam r d)).swept r sp.mask d.sweep := by
  have e : ((s.freeMarks r d.marks).modTeam r.part r.core r.slot fun t => t.countSweep d.sweep).modSplit r
        (Split.done d.nonIdem) = s.modTeam r.part r.core r.slot (s.retireTeam r d) := by
    unfold State.freeMarks State.modSplit
    split
    · rename_i hm
      rw [State.modTeam_modTeam s _ _ _ (fun t => t.countSweep d.sweep) _ fun _ => rfl]
      exact congrArg (s.modTeam r.part r.core r.slot) (funext fun t => by simp only [State.retireTeam, if_pos hm])
    · rename_i hm
      dsimp only
      rw [State.modTeam_modTeam s _ _ _ (fun t => t.free d.marks _) _ fun _ => rfl,
        State.modTeam_modTeam s _ _ _ (fun t => (t.free d.marks _).countSweep d.sweep) _ fun _ =>
          rfl]
      exact congrArg (s.modTeam r.part r.core r.slot) (funext fun t => by simp only [State.retireTeam, if_neg hm])
  simp only [State.retire, h]
  unfold State.swept
  rw [← e]
  rfl

/-- Completion is one update of the team, the note of a sweep, and the move to the next address. -/
theorem State.complete_eq {s : State} {r : SplitRef} {sp : Split} (d : Shape) (dest : Option W64) (h : s.split? r = some sp) :
    s.complete r d dest = ((s.modTeam r.part r.core r.slot (s.retireTeam r d)).swept r sp.mask d.sweep).moveTo r
      (dest.getD (sp.after d.lits)) := by
  simp only [State.complete, h, State.retire_eq d h]

/-- An instruction whose effect is an update of its team, and then completion, goes on: what it leaves in the team is
that update followed by retirement. The update leaves the split its address and its lanes. -/
theorem continues_of_issue {i : Instr} {s : State} {k : Ctx} {f : State → Ctx → Act} {g : Team → Team}
    {P : Team → Team → Prop} {dest : Option W64} {sp : Split} (hx : exec i s = s.issue f) (h : s.ctx = some k)
    (hc : (f s k).cause k = none) (hg : ∀ t, (g t).slot = t.slot) (hsp : (g k.team).split? k.r.entry = some sp)
    (hpc : sp.pc = k.split.pc) (hmask : sp.mask = k.split.mask)
    (he : s.settle k (f s k).shape (f s k).eff =
      (s.modTeam k.r.part k.r.core k.r.slot g).complete k.r (f s k).shape dest)
    (hP : ∀ u : State, P k.team (u.retireTeam k.r (f s k).shape (g k.team))) :
    Continues i s k (f s k).shape.sweep (dest.getD (k.split.after (f s k).shape.lits)) P := by
  have hr := State.ctx_r h
  have h' : s.ctxAt k.r = some k := by rw [hr]; exact h
  have hctx := State.ctxAt_modTeam (s := s) g h' hg sp hsp
  refine ⟨fun t => (s.modTeam k.r.part k.r.core k.r.slot g).retireTeam k.r (f s k).shape (g t), ?_, hP _⟩
  rw [hx, State.issue_eff f h hc, he, State.complete_eq _ _ (State.split?_of_ctxAt hctx),
    State.modTeam_modTeam s k.r.part k.r.core k.r.slot g _ hg, hmask]
  simp only [Split.after, hpc]

/-! ## What retirement leaves -/

theorem State.retireTeam_bare (s : State) (r : SplitRef) (d : Shape) {v u : Team} (h : v.bare u = u) :
    (s.retireTeam r d v).bare u = u := by
  unfold State.retireTeam
  dsimp only
  split <;> exact h

theorem State.retireTeam_splits (s : State) (r : SplitRef) (d : Shape) (v : Team) :
    (s.retireTeam r d v).splits = v.splits.map fun x => if x.entry = r.entry then x.done d.nonIdem else x := by
  unfold State.retireTeam
  dsimp only
  split <;> rfl

theorem State.retireTeam_scalar (s : State) (r : SplitRef) (d : Shape) (v : Team) (q : SReg) :
    (s.retireTeam r d v).scalar q = v.scalar q := by
  unfold State.retireTeam
  dsimp only
  split <;> rfl

theorem State.retireTeam_container (s : State) (r : SplitRef) (d : Shape) (v : Team) {name lane : Nat}
    (hl : lane < 1024) (h : name ∉ d.marks) : (s.retireTeam r d v).container name lane = v.container name lane := by
  unfold State.retireTeam
  dsimp only
  split
  · rfl
  · exact Team.container_free_other v _ _ hl h

/-! ## The two common effects -/

theorem Ctx.split_found {s : State} {k : Ctx} (h : s.ctx = some k) : k.team.split? k.r.entry = some k.split := by
  have h' : s.ctxAt k.r = some k := by rw [State.ctx_r h]; exact h
  exact ((s.ctxAt_iff _ _).1 h').2.2.2.2

/-- An instruction whose effect is the write of a scalar. -/
theorem continues_of_scalar {i : Instr} {s : State} {k : Ctx} {f : State → Ctx → Act} {d : SReg} {x : W64}
    {marks : List Nat} {lits : Nat} (hx : exec i s = s.issue f) (h : s.ctx = some k)
    (hc : (f s k).cause k = none) (hsh : (f s k).shape = { lits := lits, marks := marks })
    (he : (f s k).eff = s.writeScalar k d x) :
    Continues i s k false (k.split.pc + BitVec.ofNat 64 (4 + 4 * lits)) (ScalarResult k marks d x) := by
  have key := continues_of_issue (g := fun t => t.setScalar d x) (P := ScalarResult k marks d x) (dest := none) hx h hc
    (fun _ => rfl) (Ctx.split_found h) rfl rfl (by rw [he, hsh]; rfl) ?_
  · rw [hsh] at key
    have e : 4 + 4 * lits = 4 * (1 + lits) := by omega
    rw [e]; exact key
  · intro u
    refine ⟨⟨State.retireTeam_bare _ _ _ rfl, ?_⟩, ?_, ?_, ?_⟩
    · rw [State.retireTeam_splits, hsh, Team.claim_nil]; rfl
    · rw [State.retireTeam_scalar]; exact Team.scalar_setScalar_same _ _ _
    · intro r hne; rw [State.retireTeam_scalar]; exact Team.scalar_setScalar_other _ _ hne
    · intro name lane hl hn
      rw [State.retireTeam_container _ _ _ _ hl (by rw [hsh]; exact hn)]; rfl

theorem writtenTo_none {ws : List Put} {name lane : Nat} (h : writtenTo ws name lane = none) :
    ∀ w ∈ ws, ¬ (name = w.name ∧ lane = w.lane) := by
  intro w hw e
  simp only [writtenTo, Option.map_eq_none_iff, List.find?_eq_none] at h
  have := h w hw
  simp [e.1, e.2] at this

theorem writtenTo_some {ws : List Put} {name lane : Nat} {x : W32} (h : writtenTo ws name lane = some x) :
    ∃ w ∈ ws, w.name = name ∧ w.lane = lane ∧ w.value = x := by
  simp only [writtenTo, Option.map_eq_some_iff] at h
  obtain ⟨w, hf, hv⟩ := h
  have := List.find?_some hf
  simp only [decide_eq_true_eq] at this
  exact ⟨w, List.mem_of_find?_eq_some hf, this.1, this.2, hv⟩

theorem Team.puts_frame (t : Team) (ws : List Put) :
    ∃ cs, t.puts ws = { t with chunks := cs } := by
  induction ws generalizing t with
  | nil => exact ⟨_, rfl⟩
  | cons w ws ih => obtain ⟨cs, h⟩ := ih (t.put w); exact ⟨cs, h⟩

/-- An instruction whose effect is the write of containers that the reserve rule lets have their chunks. -/
theorem continues_of_lanes {i : Instr} {s : State} {k : Ctx} {f : State → Ctx → Act} {ws : List Put}
    {marks : List Nat} {d : Shape} (hx : exec i s = s.issue f) (h : s.ctx = some k)
    (hc : (f s k).cause k = none) (hsh : (f s k).shape = d) (hni : d.nonIdem = false)
    (he : (f s k).eff = s.writeLanes k ws) (ht : k.takes ws)
    (hm : ∀ n ∈ d.marks, n ∈ marks ∧ ∀ w ∈ ws, w.name ≠ n) (hl : ∀ w ∈ ws, w.lane < 1024)
    (hd : ws.Pairwise fun a b => ¬ (a.name = b.name ∧ a.lane = b.lane)) :
    Continues i s k d.sweep (k.split.pc + BitVec.ofNat 64 (4 + 4 * d.lits)) (LaneResult k marks ws) := by
  let keys := (k.core.takeChunks k.team (chunksOf ws) []).2.1.map (·.1)
  have spec := k.core.takeChunks_spec k.team (chunksOf ws) []
  have key := continues_of_issue
    (g := fun t => ((t.takeAll keys).puts ws).claim (chunksOf ws))
    (P := LaneResult k marks ws) (dest := none)
    (sp := { k.split with drawn := k.split.drawn.filter fun d => !(chunksOf ws).contains d.1 }) hx h hc
    (fun t => by
      obtain ⟨cs, e⟩ := Team.puts_frame (t.takeAll keys) ws
      obtain ⟨cs', n, e'⟩ := t.takeAll_frame keys
      rw [e, e']; rfl)
    (by obtain ⟨cs, e⟩ := Team.puts_frame (k.team.takeAll keys) ws
        obtain ⟨cs', n, e'⟩ := k.team.takeAll_frame keys
        rw [e, e', Team.split?_claim]
        change Option.map _ (k.team.split? k.r.entry) = _
        rw [Ctx.split_found h]; rfl)
    rfl rfl
    (by
      rw [he, hsh]
      unfold State.writeLanes State.withChunks
      have h0 : (k.core.takeChunks k.team (chunksOf ws) []).2.2 = [] := ht
      have hsplit : k.core.takeChunks k.team (chunksOf ws) [] = ((k.core.takeChunks k.team (chunksOf ws) []).1,
          (k.core.takeChunks k.team (chunksOf ws) []).2.1, []) := by rw [← h0]
      dsimp only
      rw [hsplit]
      dsimp only [State.settle, State.putAll]
      rw [State.modTeam_modTeam _ _ _ _ (fun u => u.takeAll keys) _ fun u => by
        obtain ⟨cs, n, e⟩ := u.takeAll_frame keys; rw [e]]) ?_
  · rw [hsh] at key
    have e : 4 + 4 * d.lits = 4 * (1 + d.lits) := by omega
    rw [e]; exact key
  · intro u
    rw [hsh]
    have eT : k.team.takeAll keys = (k.core.takeChunks k.team (chunksOf ws) []).1 := (Core.takeChunks_nil_team _ _ _).symm
    have hT : ∀ name lane, (k.team.takeAll keys).container name lane = k.team.container name lane :=
      fun name lane => by rw [eT]; exact spec.2.1 name lane
    obtain ⟨cs, ecs⟩ := Team.puts_frame (k.team.takeAll keys) ws
    obtain ⟨cs', n', efr⟩ := k.team.takeAll_frame keys
    refine ⟨⟨?_, ?_⟩, ?_, ?_⟩
    · rw [ecs, efr]; exact State.retireTeam_bare _ _ _ rfl
    · rw [State.retireTeam_splits, ecs, efr, hni]; rfl
    · intro r; rw [State.retireTeam_scalar, ecs, efr]; rfl
    · intro name lane hlane
      refine ⟨fun x hw => ?_, fun hn hcase => ?_⟩
      · obtain ⟨w, hmem, rfl, rfl, rfl⟩ := writtenTo_some hw
        rw [State.retireTeam_container _ _ _ _ hlane fun hmk => (hm _ hmk).2 w hmem rfl, Team.container_claim]
        exact Team.container_puts_mem _ ws hl hd w hmem
      · rw [State.retireTeam_container _ _ _ _ hlane, Team.container_claim,
          Team.container_puts_other _ ws hlane hl (writtenTo_none hn), hT]
        intro hmk
        rcases hcase with hc | ⟨w, hw, e⟩
        · exact hc (hm _ hmk).1
        · exact (hm _ hmk).2 w hw e

end Sys2Proof.Machine
end

