-- ==== Sys2Proof/Laws/Memory.lean ====
section
/-! SUPPORT. Machine memory: what a byte reads after a write, and that every operation on memory, tags or Vault keeps
their canonical form. -/

namespace Sys2Proof.Machine

/-! ## The canonical form looks at three fields -/

theorem State.canonical_congr {s t : State} (hm : t.mem = s.mem) (ht : t.tags = s.tags) (hv : t.vault = s.vault)
    (h : s.canonical) : t.canonical := by
  simpa [State.canonical, hm, ht, hv] using h

theorem State.reset_canonical : State.reset.canonical := ⟨rfl, rfl, rfl⟩

theorem State.modPart_canonical {s : State} (p : Nat) (f : Partition → Partition) (h : s.canonical) :
    (s.modPart p f).canonical := h

theorem State.emit_canonical {s : State} (o : Output) (h : s.canonical) : (s.emit o).canonical := h

theorem State.fireMsix_canonical {s : State} (p v : Nat) (h : s.canonical) : (s.fireMsix p v).canonical := h

/-! ## Operations on memory keep it -/

theorem State.wipeLine_canonical {s : State} (tag line : Nat) (h : s.canonical) : (s.wipeLine tag line).canonical :=
  ⟨tableWf_filter _ _ _ h.1, tableWf_set _ _ _ _ h.2.1, h.2.2⟩

theorem State.putByte_canonical {s : State} (tag loc : Nat) (b : Byte) (h : s.canonical) : (s.putByte tag loc b).canonical := by
  unfold State.putByte
  split
  · exact ⟨tableWf_set _ _ _ _ h.1, h.2.1, h.2.2⟩
  · have w := State.wipeLine_canonical tag (loc / 64) h
    exact ⟨tableWf_set _ _ _ _ w.1, w.2.1, w.2.2⟩

theorem State.putBytes_canonical {s : State} (tag : Nat) (cells : List (Nat × Byte)) (h : s.canonical) :
    (s.putBytes tag cells).canonical := by
  induction cells generalizing s with
  | nil => exact h
  | cons c cells ih => exact ih (State.putByte_canonical tag c.1 c.2 h)

theorem State.store_canonical {s : State} (p : Nat) (w : Writer) (cells : List (Nat × Byte)) (h : s.canonical) :
    (s.store p w cells).canonical := by
  unfold State.store
  split
  · exact h
  · rename_i x _
    have := State.putBytes_canonical x.tag cells h
    dsimp only
    split
    · exact this
    · exact this

theorem State.storePpa_canonical {s : State} (p : Nat) (w : Writer) (ppa : Nat) (bytes : List Byte) (h : s.canonical) :
    (s.storePpa p w ppa bytes).canonical := by
  unfold State.storePpa
  split
  · exact h
  · exact State.store_canonical _ _ _ h

theorem State.putHeader_canonical {s : State} (p off v : Nat) (h : s.canonical) : (s.putHeader p off v).canonical := by
  unfold State.putHeader
  split
  · exact h
  · exact State.storePpa_canonical _ _ _ _ (State.storePpa_canonical _ _ _ _ h)

theorem State.applyAtomic_canonical {s : State} (p tag : Nat) (w : LateAtomic) (h : s.canonical) :
    (s.applyAtomic p tag w).canonical := by
  unfold State.applyAtomic
  split
  · exact h
  · exact State.store_canonical _ _ _ h

theorem State.giveLoad_canonical {s : State} (r : SplitRef) (bs : List (List Byte)) (d : LoadInto) (h : s.canonical) :
    (s.giveLoad r bs d).canonical := h

theorem State.performLate_canonical {s : State} (w : Late) (h : s.canonical) : (s.performLate w).canonical := by
  unfold State.performLate
  split
  · exact h
  · split
    · exact h
    · have a := State.applyAtomic_canonical w.writer.part (Partition.tag ‹_›) ‹LateAtomic› h
      dsimp only
      split
      · exact a
      · exact State.giveLoad_canonical _ _ _ a
    · exact State.store_canonical _ _ _ h

theorem State.performWhere_canonical {s : State} (f : Late → Bool) (h : s.canonical) : (s.performWhere f).canonical := by
  unfold State.performWhere
  split
  · exact h
  · have w : ({ s with late := s.late.filter fun w => !f w } : State).canonical := h
    revert w
    generalize ({ s with late := s.late.filter fun w => !f w } : State) = t
    intro w
    induction s.late.filter f generalizing t with
    | nil => exact w
    | cons c cs ih => exact ih _ (State.performLate_canonical _ w)

theorem State.performParts_canonical {s : State} (r : SplitRef) (waits : Nat → Bool) (parts : List (List (Nat × Byte)))
    (h : s.canonical) : (s.performParts r waits parts).canonical := by
  unfold State.performParts
  induction parts.zipIdx generalizing s with
  | nil => exact h
  | cons c cs ih =>
    refine ih ?_
    dsimp only
    split
    · exact h
    · exact State.store_canonical _ _ _ h

theorem State.keep_canonical {s : State} (p tile va : Nat) (write : Bool) (q : Xl) (h : s.canonical) :
    (s.keep p tile va write q).canonical := by
  unfold State.keep
  refine State.modPart_canonical _ _ ?_
  repeat' split
  all_goals first | exact h | exact State.storePpa_canonical _ _ _ _ h

theorem State.clearFrame_canonical {s : State} (tile phys frame : Nat) (h : s.canonical) :
    (s.clearFrame tile phys frame).canonical :=
  ⟨tableWf_filter _ _ _ h.1, h.2.1, h.2.2⟩

theorem State.vacate_canonical {s : State} (tile phys : Nat) (h : s.canonical) : (s.vacate tile phys).canonical :=
  ⟨tableWf_filter _ _ _ h.1, tableWf_filter _ _ _ h.2.1, h.2.2⟩

/-- An entry of a canonical table is not the default. -/
theorem tableFrom_ne {α : Type} [DecidableEq α] (d : α) {lo : Nat} (t : List (Nat × α)) (w : tableFrom d lo t) :
    ∀ e ∈ t, e.2 ≠ d := by
  induction t generalizing lo with
  | nil => simp
  | cons e t ih =>
    obtain ⟨k, v⟩ := e
    simp only [tableFrom, Bool.and_eq_true, decide_eq_true_eq] at w
    intro e he
    rcases List.mem_cons.1 he with rfl | he
    · simpa using w.1.2
    · exact ih w.2 e he

theorem rekey_wf {α : Type} [DecidableEq α] (d : α) (f : Nat → Nat) (t out : List (Nat × α)) (ht : ∀ e ∈ t, e.2 ≠ d)
    (w : tableWf d out) : tableWf d (rekey f t out) := by
  induction t generalizing out with
  | nil => exact w
  | cons e t ih =>
    obtain ⟨k, v⟩ := e
    exact ih _ (fun e he => ht e (List.mem_cons_of_mem _ he))
      (tableFrom_put d _ (ht (k, v) List.mem_cons_self) (Nat.zero_le _) w)

theorem State.moveFrames_canonical {s : State} (tile phys tile' phys' : Nat) (h : s.canonical) :
    (s.moveFrames tile phys tile' phys').canonical := by
  have h1 := State.vacate_canonical tile' phys' h
  have h2 := State.vacate_canonical tile phys h1
  refine ⟨rekey_wf _ _ _ _ (fun e he => ?_) h2.1, rekey_wf _ _ _ _ (fun e he => ?_) h2.2.1, h2.2.2⟩
  · exact tableFrom_ne _ _ h1.1 e (List.mem_filter.1 he).1
  · exact tableFrom_ne _ _ h1.2.1 e (List.mem_filter.1 he).1

theorem tableWf_setAll {α : Type} [DecidableEq α] (d : α) (at_ : Nat → Nat) (v : Nat → α) (l : List Nat) (t : List (Nat × α))
    (w : tableWf d t) : tableWf d (l.foldl (fun m i => tableSet d m (at_ i) (v i)) t) := by
  induction l generalizing t with
  | nil => exact w
  | cons i l ih => exact ih _ (tableWf_set d t (at_ i) (v i) w)

theorem State.sliceKeeps_canonical {s : State} (x : Partition) (line : Nat) (h : s.canonical) :
    (s.sliceKeeps x line).canonical := by
  unfold State.sliceKeeps
  split <;> exact h

theorem State.garble_canonical {s : State} (line : Nat) (h : s.canonical) : (s.garble line).canonical := by
  unfold State.garble
  split
  · exact h
  · rename_i x _
    have k := State.sliceKeeps_canonical x line h
    exact ⟨tableWf_setAll 0 _ _ _ _ k.1, k.2.1, k.2.2⟩

theorem State.setSlot_canonical {s : State} (k : Nat) (v : VaultSlot) (h : s.canonical) : (s.setSlot k v).canonical :=
  ⟨h.1, h.2.1, tableWf_set _ _ _ _ h.2.2⟩

/-! ## Taking an exception keeps it -/

theorem State.mergeEvent_canonical {s : State} (p i : Nat) (e : Event) (h : s.canonical) : (s.mergeEvent p i e).canonical := by
  unfold State.mergeEvent
  split
  · exact h
  · split
    · exact h
    · exact State.putHeader_canonical _ _ _
        (State.storePpa_canonical _ _ _ _ (State.storePpa_canonical _ _ _ _ (State.modPart_canonical _ _ h)))

theorem State.postEvent_canonical {s : State} (p i : Nat) (e : Event) (h : s.canonical) : (s.postEvent p i e).canonical := by
  unfold State.postEvent
  split
  · exact h
  · exact State.fireMsix_canonical _ _ (State.putHeader_canonical _ _ _
      (State.storePpa_canonical _ _ _ _ (State.storePpa_canonical _ _ _ _ (State.modPart_canonical _ _ h))))

theorem State.showHeld_canonical {s : State} (p : Nat) (h : s.canonical) : (s.showHeld p).canonical := by
  unfold State.showHeld
  split
  · exact h
  · split
    · exact State.putHeader_canonical _ _ _ (State.modPart_canonical _ _ h)
    · exact h

theorem State.holdEvent_canonical {s : State} (p : Nat) (e : Event) (h : s.canonical) : (s.holdEvent p e).canonical := by
  unfold State.holdEvent
  split
  · exact h
  · have := State.showHeld_canonical p (State.modPart_canonical p
      (fun y => { y with heldEvents := y.heldEvents ++ [e] }) h)
    dsimp only
    split
    · exact this
    · exact this

theorem State.event_canonical {s : State} (p : Nat) (e : Event) (h : s.canonical) : (s.event p e).canonical := by
  unfold State.event
  split
  · exact h
  · split
    · exact State.mergeEvent_canonical _ _ _ h
    · split
      · exact State.holdEvent_canonical _ _ h
      · split
        · exact State.postEvent_canonical _ _ _ h
        · exact State.holdEvent_canonical _ _ h

theorem State.raise_canonical {s : State} (r : SplitRef) (t : Trap) (h : s.canonical) : (s.raise r t).canonical := by
  unfold State.raise
  split
  · exact h
  · have w := State.performWhere_canonical (fun w => w.writer = r) h
    dsimp only
    split
    · exact State.event_canonical _ _ w
    · exact State.event_canonical _ _ w

theorem State.resumeSplit_canonical {s : State} (r : SplitRef) (code : Nat) (h : s.canonical) :
    (s.resumeSplit r code).canonical := by
  unfold State.resumeSplit
  split
  · exact h
  · exact h

/-! ## A byte after a write -/

theorem State.tagOf_wipeLine_same {s : State} (tag line : Nat) (h : s.canonical) : (s.wipeLine tag line).tagOf line = tag :=
  tableGet_set_same _ _ _ _ h.2.1

theorem State.tagOf_wipeLine_other (s : State) (tag : Nat) {line other : Nat} (ho : other ≠ line) :
    (s.wipeLine tag line).tagOf other = s.tagOf other :=
  tableGet_set_other _ _ _ ho

/-- A wiped line reads zero. -/
theorem State.byteAt_wipeLine_same (s : State) (tag any loc : Nat) : (s.wipeLine tag (loc / 64)).byteAt any loc = 0 := by
  unfold State.byteAt
  split
  · have := tableGet_filter (0 : Byte) s.mem (fun a => decide (a / 64 ≠ loc / 64)) loc
    simpa [State.wipeLine] using this
  · rfl

theorem State.byteAt_wipeLine_other (s : State) (tag any : Nat) {line loc : Nat} (h : loc / 64 ≠ line) :
    (s.wipeLine tag line).byteAt any loc = s.byteAt any loc := by
  unfold State.byteAt
  rw [State.tagOf_wipeLine_other s tag h]
  have := tableGet_filter (0 : Byte) s.mem (fun a => decide (a / 64 ≠ line)) loc
  simp only [ne_eq, h, not_false_eq_true, decide_true, if_true] at this
  simp only [State.wipeLine, ne_eq, this]

/-- A byte reads what was last written to it, under the tag that it was written under (R208). -/
theorem State.byteAt_putByte_same {s : State} (tag loc : Nat) (b : Byte) (h : s.canonical) :
    (s.putByte tag loc b).byteAt tag loc = b := by
  unfold State.putByte
  split
  · rename_i ht
    exact (if_pos ht).trans (tableGet_set_same _ _ _ _ h.1)
  · exact (if_pos (State.tagOf_wipeLine_same _ _ h)).trans
      (tableGet_set_same _ _ _ _ (State.wipeLine_canonical tag (loc / 64) h).1)

/-- A write of one byte under a tag leaves every other byte that is read under that tag. -/
theorem State.byteAt_putByte_other (s : State) (tag : Nat) {loc other : Nat} (b : Byte) (ho : other ≠ loc) :
    (s.putByte tag loc b).byteAt tag other = s.byteAt tag other := by
  have set_other : ∀ u : State, (({ u with
      mem := tableSet 0 u.mem loc b, bad := u.bad.filter (fun a => a ≠ loc), slices := putSlices loc b u.slices } : State)).byteAt
      tag other = u.byteAt tag other := by
    intro u
    unfold State.byteAt
    rw [tableGet_set_other (0 : Byte) u.mem b ho]
    rfl
  unfold State.putByte
  split
  · exact set_other s
  · rename_i ht
    rw [set_other]
    by_cases hl : other / 64 = loc / 64
    · have h0 : s.byteAt tag other = 0 := by simp [State.byteAt, hl, ht]
      rw [h0, ← hl]
      exact State.byteAt_wipeLine_same s tag tag other
    · exact State.byteAt_wipeLine_other s tag tag hl

/-- A write of several bytes leaves every byte outside them. -/
theorem State.byteAt_putBytes_other (s : State) (tag : Nat) (cells : List (Nat × Byte)) {loc : Nat}
    (ho : loc ∉ cells.map (·.1)) : (s.putBytes tag cells).byteAt tag loc = s.byteAt tag loc := by
  induction cells generalizing s with
  | nil => rfl
  | cons c cells ih =>
    simp only [List.map_cons, List.mem_cons, not_or] at ho
    exact (ih (s.putByte tag c.1 c.2) ho.2).trans (State.byteAt_putByte_other s tag c.2 ho.1)

/-- A byte written once among several reads as written. -/
theorem State.byteAt_putBytes_mem (s : State) (tag : Nat) (cells : List (Nat × Byte)) (hn : (cells.map (·.1)).Nodup)
    (hc : s.canonical) : ∀ c ∈ cells, (s.putBytes tag cells).byteAt tag c.1 = c.2 := by
  induction cells generalizing s with
  | nil => simp
  | cons d cells ih =>
    simp only [List.map_cons, List.nodup_cons] at hn
    intro c hmem
    rcases List.mem_cons.1 hmem with rfl | hmem
    · exact (State.byteAt_putBytes_other _ tag cells hn.1).trans
        (State.byteAt_putByte_same tag c.1 c.2 hc)
    · exact ih _ hn.2 (State.putByte_canonical _ _ _ hc) c hmem

end Sys2Proof.Machine
end

