-- ==== Sys2Proof/Tests/Slice0.lean ====
section
/-! SUPPORT. Tests: words of every row from the tables of the spec, terms that no word stands for, single steps with
results worked out by hand, and for every statement a state and operands that meet its hypotheses. -/

namespace Sys2Proof.Tests

open Sys2Proof Sys2Proof.Machine

-- Hundreds of theorems evaluated by the kernel at once would each take a thread.
set_option Elab.async false

/-! ## Words (R34, R36, R45 to R50, R63) -/

/-- Each word, with its literals, decodes to the instruction beside it, and the encoder gives it back. -/
def decodes (l : List (W32 × List W32 × Instr)) : Bool :=
  l.all fun e => (decodeWord e.1 e.2.1).toOption = some e.2.2 && encode e.2.2 = e.1 :: e.2.1

theorem test_decode_control : decodes [
    (0x01FFFF80, [], .br 0xFFFF80),
    (0x02E78001, [], .brc ⟨7, true⟩ 0x8001),
    (0x03678002, [], .brnc ⟨7, false⟩ 0x8002),
    (0x04E78003, [], .bru ⟨7, true⟩ 0x8003),
    (0x05008F00, [], .brx ⟨15, true⟩),
    (0x06FFFF85, [], .call 0xFFFF85),
    (0x07008F00, [], .callx ⟨15, true⟩),
    (0x09FFFF87, [], .rcv 0xFFFF87),
    (0x0A5F8008, [], .bdnz 31 0x8008),
    (0x0B000001, [], .exit 0x01),
    (0x0F005F00, [], .mode 31),
    (0x11000009, [], .modeg 0x09),
    (0x125F0000, [], .mrd 31),
    (0x135F0007, [], .splitq 31 0x07),
    (0x00000000, [], .nop),
    (0x08000000, [], .ret),
    (0x0C000000, [], .yield)] = true := by decide +kernel

theorem test_decode_vector : decodes [
    (0x20179113, [], .vadd 23 ⟨17, true⟩ ⟨19, false⟩),
    (0x21171193, [], .vsub 23 ⟨17, false⟩ ⟨19, true⟩),
    (0x22179113, [], .vmul 23 ⟨17, true⟩ ⟨19, false⟩),
    (0x23171193, [], .vmulh 23 ⟨17, false⟩ ⟨19, true⟩),
    (0x24179113, [], .vmad 23 ⟨17, true⟩ ⟨19, false⟩),
    (0x25171193, [], .vdiv 23 ⟨17, false⟩ ⟨19, true⟩),
    (0x26179113, [], .vrem 23 ⟨17, true⟩ ⟨19, false⟩),
    (0x27171193, [], .vmin 23 ⟨17, false⟩ ⟨19, true⟩),
    (0x28179113, [], .vmax 23 ⟨17, true⟩ ⟨19, false⟩),
    (0x29171100, [], .vabs 23 ⟨17, false⟩),
    (0x2A179100, [], .vneg 23 ⟨17, true⟩),
    (0x2B171193, [], .vand 23 ⟨17, false⟩ ⟨19, true⟩),
    (0x2C179113, [], .vor 23 ⟨17, true⟩ ⟨19, false⟩),
    (0x2D171193, [], .vxor 23 ⟨17, false⟩ ⟨19, true⟩),
    (0x2E179100, [], .vnot 23 ⟨17, true⟩),
    (0x2F171193, [], .vshl 23 ⟨17, false⟩ ⟨19, true⟩),
    (0x30179113, [], .vshr 23 ⟨17, true⟩ ⟨19, false⟩),
    (0x31171193, [], .vrot 23 ⟨17, false⟩ ⟨19, true⟩),
    (0x32179100, [], .vpop 23 ⟨17, true⟩),
    (0x33171100, [], .vclz 23 ⟨17, false⟩),
    (0x34179113, [], .vbfe 23 ⟨17, true⟩ ⟨19, false⟩),
    (0x35171193, [], .vbfi 23 ⟨17, false⟩ ⟨19, true⟩),
    (0x361791E5, [], .vsel 23 ⟨17, true⟩ ⟨5, true⟩),
    (0x37171100, [], .vmov 23 ⟨17, false⟩),
    (0x39175C00, [], .vbcast 23 28),
    (0x3A149012, [], .vlea 20 ⟨16, true⟩ ⟨18, false⟩),
    (0x3B171193, [], .vshuf 23 ⟨17, false⟩ ⟨19, true⟩),
    (0x3C179113, [], .vxfer 23 ⟨17, true⟩ ⟨19, false⟩),
    (0x3D651193, [], .vcmp 5 ⟨17, false⟩ ⟨19, true⟩),
    (0x3E170004, [], .vidr 23 0x04)] = true := by decide +kernel

theorem test_decode_numeric : decodes [
    (0x40171193, [], .fadd 23 ⟨17, false⟩ ⟨19, true⟩),
    (0x41179113, [], .fsub 23 ⟨17, true⟩ ⟨19, false⟩),
    (0x42171193, [], .fmul 23 ⟨17, false⟩ ⟨19, true⟩),
    (0x43179113, [], .ffma 23 ⟨17, true⟩ ⟨19, false⟩),
    (0x44171193, [], .fmin 23 ⟨17, false⟩ ⟨19, true⟩),
    (0x45179113, [], .fmax 23 ⟨17, true⟩ ⟨19, false⟩),
    (0x46171100, [], .fabs 23 ⟨17, false⟩),
    (0x47179100, [], .fneg 23 ⟨17, true⟩),
    (0x48171100, [], .frcp 23 ⟨17, false⟩),
    (0x49179100, [], .frsq 23 ⟨17, true⟩),
    (0x4A171100, [], .fsqrt 23 ⟨17, false⟩),
    (0x4B179113, [], .fdiv 23 ⟨17, true⟩ ⟨19, false⟩),
    (0x4C171100, [], .fexp2 23 ⟨17, false⟩),
    (0x4D179100, [], .flog2 23 ⟨17, true⟩),
    (0x4E651193, [], .fcmp 5 ⟨17, false⟩ ⟨19, true⟩),
    (0x4F179100, [], .fclass 23 ⟨17, true⟩),
    (0x50171100, [], .cvt 23 ⟨17, false⟩),
    (0x51179113, [], .cvtsc 23 ⟨17, true⟩ ⟨19, false⟩),
    (0x52171193, [], .cvtus 23 ⟨17, false⟩ ⟨19, true⟩),
    (0x53179100, [], .vamax 23 ⟨17, true⟩),
    (0x54171100, [], .scexp 23 ⟨17, false⟩),
    (0x55179113, [], .scpack 23 ⟨17, true⟩ ⟨19, false⟩),
    (0x56171193, [], .scunpk 23 ⟨17, false⟩ ⟨19, true⟩),
    (0x57179100, [], .bppack 23 ⟨17, true⟩),
    (0x58171100, [], .bpunpk 23 ⟨17, false⟩),
    (0x59149059, [], .vmodadd 20 ⟨16, true⟩ 25),
    (0x5A141059, [], .vmodsub 20 ⟨16, false⟩ 25),
    (0x5B149059, [], .vmodmul 20 ⟨16, true⟩ 25),
    (0x5C141059, [], .vbfly 20 ⟨16, false⟩ 25),
    (0x5D149059, [], .vibfly 20 ⟨16, true⟩ 25)] = true := by decide +kernel

theorem test_decode_memory : decodes [
    (0x6017BE7F, [], .ld8 23 (.v ⟨62, true⟩) .none),
    (0x61175E51, [], .ld16 23 (.s 30) (.s 17)),
    (0x6217BEA1, [], .ld32 23 (.v ⟨62, true⟩) (.v ⟨33, true⟩)),
    (0x63145E7F, [], .ld64 20 (.s 30) .none),
    (0x648FBE51, [], .st8 ⟨15, true⟩ (.v ⟨62, true⟩) (.s 17)),
    (0x650F5EA1, [], .st16 ⟨15, false⟩ (.s 30) (.v ⟨33, true⟩)),
    (0x668FBE7F, [], .st32 ⟨15, true⟩ (.v ⟨62, true⟩) .none),
    (0x670E5E51, [], .st64 ⟨14, false⟩ (.s 30) (.s 17)),
    (0x685F5C41, [], .lds 31 28 (.s 1)),
    (0x695F5C7F, [], .sts 31 28 .none),
    (0x6A175C59, [], .ldw 23 28 25),
    (0x6B0F5C59, [], .stw ⟨15, false⟩ 28 25),
    (0x6C17BE7F, [], .ldbp 23 (.v ⟨62, true⟩) .none),
    (0x6D175E06, [], .gld 23 (.s 30) 0x06),
    (0x6E17BE05, [], .lda32 23 (.v ⟨62, true⟩) 0x05),
    (0x6F145E03, [], .lda64 20 (.s 30) 0x03),
    (0x708FBE02, [], .stl32 ⟨15, true⟩ (.v ⟨62, true⟩) 0x02),
    (0x710E5E05, [], .stl64 ⟨14, false⟩ (.s 30) 0x05),
    (0x7200BE7F, [], .pref (.v ⟨62, true⟩) .none),
    (0x73005E51, [], .evict (.s 30) (.s 17))] = true := by decide +kernel

theorem test_decode_sync : decodes [
    (0x80000004, [], .fence 0x04),
    (0x81000005, [], .fencee 0x05),
    (0x823FBE93, [], .aadd (.to 63) (.v ⟨62, true⟩) ⟨19, true⟩),
    (0x833F5E13, [], .amin (.to 63) (.s 30) ⟨19, false⟩),
    (0x8480BE93, [], .amax .discard (.v ⟨62, true⟩) ⟨19, true⟩),
    (0x853F5E13, [], .aand (.to 63) (.s 30) ⟨19, false⟩),
    (0x863FBE93, [], .aor (.to 63) (.v ⟨62, true⟩) ⟨19, true⟩),
    (0x87805E13, [], .axor .discard (.s 30) ⟨19, false⟩),
    (0x883FBE93, [], .axchg (.to 63) (.v ⟨62, true⟩) ⟨19, true⟩),
    (0x893F5E13, [], .acas (.to 63) (.s 30) ⟨19, false⟩),
    (0x8A80BE93, [], .afadd .discard (.v ⟨62, true⟩) ⟨19, true⟩),
    (0x8B005F5C, [], .binit 31 28),
    (0x8C005F00, [], .barv 31),
    (0x8D655C00, [], .barx 5 28),
    (0x8E655C00, [], .bwait 5 28),
    (0x8F655C00, [], .btry 5 28),
    (0x90005F00, [], .binv 31),
    (0x91005F5C, [], .bexp 31 28),
    (0x93650000, [], .gbwait 5),
    (0x94650000, [], .gbtry 5),
    (0x95005F00, [], .mon 31),
    (0x97650000, [], .mtry 5),
    (0x92000000, [], .gbar),
    (0x96000000, [], .mwait)] = true := by decide +kernel

theorem test_decode_copy : decodes [
    (0xA0005F5C, [], .swait 31 28),
    (0xA1655C59, [], .stry 5 28 25),
    (0xA25F5C00, [], .cqry 31 28),
    (0xA3005F00, [], .cabort 31),
    (0xA4005F00, [], .csync 31)] = true := by decide +kernel

theorem test_decode_matrix : decodes [
    (0xB0775C00, [], .tcfg 15 28),
    (0xB15F7500, [], .trd 31 13),
    (0xB2770000, [], .tzero 15),
    (0xB3775C41, [], .tld 15 28 (.s 1)),
    (0xB4775C7F, [], .tst 15 28 .none),
    (0xB5777500, [], .tmov 15 13),
    (0xB6005F00, [], .gang 31),
    (0xB77F7573, [], .mma 7 13 11),
    (0xB87F7573, [], .mmam 7 13 11),
    (0xB97F7573, [], .mmab 7 13 11),
    (0xBA7F5C59, [], .acfg 7 28 25),
    (0xBB5F7E00, [], .astat 31 6),
    (0xBC7F0000, [], .aclr 7),
    (0xBD7F5C41, [], .adrain 7 28 (.s 1)),
    (0xBE7F5C7F, [], .adrainp 7 28),
    (0xBF7F7E00, [], .aswap 7 6),
    (0xC07F7E00, [], .amov 7 6),
    (0xC17F5C41, [], .aload 7 28 (.s 1))] = true := by decide +kernel

theorem test_decode_system : decodes [
    (0xD000002A, [], .trap 0x2A),
    (0xD15F0008, [], .sysq 31 0x08),
    (0xD25F0017, [], .csrr 31 0x17),
    (0xD3005F12, [], .csrw 31 0x12),
    (0xD4005F00, [], .tlbi 31),
    (0xD65F0000, [], .fqpop 31),
    (0xD7005F00, [], .fqrep 31),
    (0xD8005F00, [], .fqkill 31),
    (0xD95F0009, [], .perf 31 0x09),
    (0xDB005F00, [], .launch 31),
    (0xD5000000, [], .tlbia),
    (0xDA000000, [], .brkpt)] = true := by decide +kernel

theorem test_decode_scalar : decodes [
    (0xE05F5C59, [], .sadd 31 28 25),
    (0xE15F5C59, [], .ssub 31 28 25),
    (0xE25F5C59, [], .smul 31 28 25),
    (0xE35F5C59, [], .sand 31 28 25),
    (0xE45F5C59, [], .sor 31 28 25),
    (0xE55F5C59, [], .sxor 31 28 25),
    (0xE65F5C59, [], .sshl 31 28 25),
    (0xE75F5C59, [], .sshr 31 28 25),
    (0xE85F5C00, [], .smov 31 28),
    (0xEA655C59, [], .scmp 5 28 25),
    (0xEB5F0011, [], .sidr 31 0x11),
    (0xEC6566E5, [], .pand 5 ⟨6, false⟩ ⟨5, true⟩),
    (0xED65E665, [], .por 5 ⟨6, true⟩ ⟨5, false⟩),
    (0xEE6566E5, [], .pxor 5 ⟨6, false⟩ ⟨5, true⟩),
    (0xEF5FE600, [], .pcnt 31 ⟨6, true⟩)] = true := by decide +kernel

/-- The worked encodings of the spec's instruction tables. -/
theorem test_decode_examples : decodes [
    (0x93600000, [], .gbwait 0), (0x94600000, [], .gbtry 0), (0xA0004647, [], .swait 6 7), (0xA1634647, [], .stry 3 6 7),
    (0xA2494A00, [], .cqry 9 10), (0xA3004A00, [], .cabort 10), (0xA4004B00, [], .csync 11), (0xB06C4A00, [], .tcfg 4 10),
    (0xB1436A00, [], .trd 3 2), (0xB2690000, [], .tzero 1), (0xB368457F, [], .tld 0 5 .none), (0xB46B4546, [], .tst 3 5 (.s 6)),
    (0xB56A6900, [], .tmov 2 1), (0xB6004300, [], .gang 3), (0xB7796A6B, [], .mma 1 2 3), (0xB8786869, [], .mmam 0 0 1),
    (0xB978686C, [], .mmab 0 0 4), (0xBA7C4848, [], .acfg 4 8 8), (0xBB427C00, [], .astat 2 4), (0xBC7B0000, [], .aclr 3),
    (0xBD7C477F, [], .adrain 4 7 .none), (0xBE78497F, [], .adrainp 0 9), (0xBF787900, [], .aswap 0 1),
    (0xC07D7C00, [], .amov 5 4), (0xC17A457F, [], .aload 2 5 .none)] = true := by decide +kernel

theorem test_decode_examples_system : decodes [
    (0xD0000005, [], .trap 5), (0xD1430001, [], .sysq 3 1), (0xD2440000, [], .csrr 4 0), (0xD3004512, [], .csrw 5 0x12),
    (0xD4004600, [], .tlbi 6), (0xD6430000, [], .fqpop 3), (0xD7004300, [], .fqrep 3), (0xD8004300, [], .fqkill 3),
    (0xD9470002, [], .perf 7 2), (0xDB004900, [], .launch 9)] = true := by decide +kernel

/-- The rows that carry literals (R45). -/
theorem test_decode_literals : decodes [
    (0x0D5F5C00, [0x00FFFFFE], .yieldc 31 28 0x00FFFFFE),
    (0x0E000000, [0x00000006, 0x80000000, 0x00000000, 0x00000081], .region 6 0x80000000 0 0x81),
    (0x10000000, [0x00F8FFF0], .modei 0x00F8FFF0),
    (0x38170000, [0xDEADBEEF], .vmovl 23 0xDEADBEEF),
    (0xE95F0000, [0xFFFFFFFE], .smovl 31 0xFFFFFFFE)] = true := by decide +kernel

/-- Opcodes that no row lists (R62). -/
theorem test_decode_illegal : decodes [
    (0x14000000, [], .illegalOpcode 0x14000000), (0x1F000000, [], .illegalOpcode 0x1F000000),
    (0x3F000000, [], .illegalOpcode 0x3F000000), (0x5E000000, [], .illegalOpcode 0x5E000000),
    (0x74000000, [], .illegalOpcode 0x74000000), (0x98000000, [], .illegalOpcode 0x98000000),
    (0xA5000000, [], .illegalOpcode 0xA5000000), (0xC2000000, [], .illegalOpcode 0xC2000000),
    (0xDC000000, [], .illegalOpcode 0xDC000000), (0xF0123456, [], .illegalOpcode 0xF0123456),
    (0xFFFFFFFF, [], .illegalOpcode 0xFFFFFFFF)] = true := by decide +kernel

/-- Words of assigned opcodes that their rows do not take: reserved fields, names of another class, odd pairs. -/
theorem test_decode_refuses : [0x00000001, 0x05018200, 0x20418203, 0x2001FF03, 0x29018201, 0x12010000, 0x6204477E,
    0x63054600, 0x6204BF7F, 0x82C04205, 0xBE784900, 0xB3684501, 0xD2440004, 0xD2440018, 0xEC000000].all
      (fun (w : W32) => (decodeWord w []).toOption = none) = true := by decide +kernel

/-! ## Terms that no word stands for -/

/-- One ill-formed term for each check of `Instr.wf`. -/
theorem test_wf_refuses : ([.exit 2, .yieldc 0 0 0x01000000, .region 0 0 0 0x100, .modeg 17, .splitq 0 9,
    .vlea 1 ⟨2, false⟩ ⟨3, false⟩, .vlea 2 ⟨1, false⟩ ⟨3, false⟩, .vidr 0 5, .vmodadd 1 ⟨2, false⟩ 0,
    .vmodadd 2 ⟨1, false⟩ 0, .vmodsub 1 ⟨2, false⟩ 0, .vmodsub 2 ⟨3, false⟩ 0, .vmodmul 1 ⟨2, false⟩ 0,
    .vmodmul 2 ⟨3, false⟩ 0, .vbfly 2 ⟨4, false⟩ 0, .vbfly 4 ⟨3, false⟩ 0, .vibfly 6 ⟨4, false⟩ 0,
    .vibfly 4 ⟨5, false⟩ 0] : List Instr).all (fun i => !i.wf) = true := by decide +kernel

theorem test_wf_refuses_memory : ([.ld8 0 (.v ⟨1, false⟩) .none, .ld16 0 (.v ⟨1, false⟩) .none,
    .ld32 0 (.v ⟨1, false⟩) .none, .ld64 0 (.v ⟨1, false⟩) .none, .ld64 1 (.s 0) .none, .st8 ⟨0, false⟩ (.v ⟨3, true⟩) .none,
    .st16 ⟨0, false⟩ (.v ⟨3, true⟩) .none, .st32 ⟨0, false⟩ (.v ⟨3, true⟩) .none, .st64 ⟨0, false⟩ (.v ⟨3, true⟩) .none,
    .st64 ⟨1, false⟩ (.s 0) .none, .ldbp 0 (.v ⟨1, false⟩) .none, .gld 0 (.v ⟨1, false⟩) 0, .gld 0 (.s 0) 7,
    .lda32 0 (.v ⟨1, false⟩) 0, .lda32 0 (.s 0) 6, .lda64 1 (.s 0) 0, .lda64 0 (.v ⟨1, false⟩) 0, .lda64 0 (.s 0) 6,
    .stl32 ⟨0, false⟩ (.v ⟨1, false⟩) 0, .stl32 ⟨0, false⟩ (.s 0) 6, .stl64 ⟨1, false⟩ (.s 0) 0,
    .stl64 ⟨0, false⟩ (.v ⟨1, false⟩) 0, .stl64 ⟨0, false⟩ (.s 0) 6, .pref (.v ⟨1, false⟩) .none,
    .evict (.v ⟨1, false⟩) .none] : List Instr).all (fun i => !i.wf) = true := by decide +kernel

theorem test_wf_refuses_rest : ([.fence 6, .fencee 1, .fencee 6, .aadd .discard (.v ⟨1, false⟩) ⟨0, false⟩,
    .amin .discard (.v ⟨1, false⟩) ⟨0, false⟩, .amax .discard (.v ⟨1, false⟩) ⟨0, false⟩,
    .aand .discard (.v ⟨1, false⟩) ⟨0, false⟩, .aor .discard (.v ⟨1, false⟩) ⟨0, false⟩,
    .axor .discard (.v ⟨1, false⟩) ⟨0, false⟩, .axchg .discard (.v ⟨1, false⟩) ⟨0, false⟩,
    .acas .discard (.v ⟨1, false⟩) ⟨0, false⟩, .afadd .discard (.v ⟨1, false⟩) ⟨0, false⟩, .sysq 0 9, .csrr 0 0x04,
    .csrr 0 0x18, .csrw 0 0x00, .csrw 0 0x01, .csrw 0 0x03, .csrw 0 0x15, .csrw 0 0x18, .perf 0 10, .sidr 0 18,
    .illegalOpcode 0x20000000] : List Instr).all (fun i => !i.wf) = true := by decide +kernel

/-! ## Small states -/

/-- The partition that `withFetchWord` builds, its service team ready at a word of zeros. -/
def service : State := State.reset.withFetchWord 32 0

/-- The same with its root team ready. -/
def rooted : State := State.reset.withFetchWord 32 0xDB000000

/-- A service team of n lanes with a mode, some scalars and some containers (name, lane, value). -/
def demo (n mr : Nat) (regs : List (Nat × Nat)) (conts : List (Nat × Nat × Nat)) : State :=
  service.modTeam 0 0 0 fun t =>
    let t : Team := { t with
      hdr := { t.hdr with team := n }
      splits := t.splits.map fun x => { x with mask := BitVec.ofNat 1024 (2 ^ n - 1), mr := BitVec.ofNat 32 mr } }
    conts.foldl (fun t w => t.put ⟨w.1, w.2.1, BitVec.ofNat 32 w.2.2⟩)
      (regs.foldl (fun t e => t.setScalar (BitVec.ofNat 5 e.1) (BitVec.ofNat 64 e.2)) t)

/-- What a function of the state gives after a step. -/
def after {α : Type} (f : State → α) (o : Host.Outcome State Fault Refusal) : Option α :=
  match o with
  | .next t => some (f t)
  | _ => none

def inTeam {α : Type} (f : Team → α) (o : Host.Outcome State Fault Refusal) : Option α :=
  (after (fun t => (t.team? 0 0 0).map f) o).bind id

/-- A scalar, some lanes of a register, and the pc of the one split. -/
def scalarOf (r : Nat) (o : Host.Outcome State Fault Refusal) : Option Nat :=
  inTeam (fun t => (t.scalar (BitVec.ofNat 5 r)).toNat) o
def lanesAre (n r : Nat) (o : Host.Outcome State Fault Refusal) : Option (List Nat) :=
  inTeam (fun t => (List.range n).map fun l => (t.container r l).toNat) o
def pcIs (o : Host.Outcome State Fault Refusal) : Option (List Nat) := inTeam (fun t => t.splits.map fun x => x.pc.toNat) o

/-- Code, address, class and argument of the records posted, with the states of the team's splits. -/
def trapIs (o : Host.Outcome State Fault Refusal) : Option (List (Nat × Nat × Nat) × List SplitState) :=
  (after (fun t => ((t.part? 0).map fun x => x.queue.map fun q => (q.2.code, q.2.va.toNat, q.2.cls)).bind fun q =>
    (t.team? 0 0 0).map fun u => (q, u.splits.map fun x => x.state)) o).bind id

/-- Bytes of the partition's memory from a physical address on. -/
def bytesAre (a n : Nat) (o : Host.Outcome State Fault Refusal) : Option (List Nat) :=
  (after (fun t => (t.part? 0).map fun x => (List.range n).map fun i => (t.byteAt x.tag (a + i)).toNat) o).bind id

/-! ## Arithmetic -/

/-- The worked example after R161: packed bytes with SAT 1 and 0, the compare, the selection. -/
theorem test_vadd_sat : lanesAre 1 3 (exec (.vadd 3 ⟨1, false⟩ ⟨2, false⟩)
    (demo 1 0x00081080 [] [(1, 0, 0x7F8005FE), (2, 0, 0x01FF0304)])) = some [0x7F800802] := by decide +kernel

theorem test_vadd_wraps : lanesAre 1 3 (exec (.vadd 3 ⟨1, false⟩ ⟨2, false⟩)
    (demo 1 0x00080080 [] [(1, 0, 0x7F8005FE), (2, 0, 0x01FF0304)])) = some [0x807F0802] := by decide +kernel

theorem test_vcmp_every_element : lanesAre 1 0x61 (exec (.vcmp 1 ⟨3, false⟩ ⟨4, false⟩)
    (demo 1 0x00088080 [] [(3, 0, 0x7F800802), (0x61, 0, 1)])) = some [0] := by decide +kernel

theorem test_vsel_frees_marks : inTeam (fun t => (t.chunks.map (·.1), (t.container 5 0).toNat))
    (exec (.vsel 5 ⟨3, true⟩ ⟨1, true⟩) (demo 1 0x00088080 [] [(3, 0, 0x7F800802), (5, 0, 0x11111111), (0x61, 0, 0)])) =
      some ([160], 0x11111111) := by decide +kernel

theorem test_guard_keeps_lanes : lanesAre 4 1 (exec (.vmov 1 ⟨2, false⟩)
    (demo 4 0x00080001 [] [(1, 0, 9), (1, 1, 9), (2, 0, 5), (2, 1, 6), (2, 2, 7), (0x60, 1, 1), (0x60, 2, 1)])) =
      some [9, 6, 7, 0] := by decide +kernel

theorem test_vdiv_by_zero : lanesAre 1 1 (exec (.vdiv 1 ⟨2, false⟩ ⟨3, false⟩) (demo 1 0x00080020 [] [(2, 0, 7)])) =
    some [0xFFFFFFFF] := by decide +kernel

theorem test_vrot_wide : lanesAre 1 2 (exec (.vrot 2 ⟨4, false⟩ ⟨6, false⟩)
    (demo 1 0x00080160 [] [(4, 0, 1), (5, 0, 0x80000000), (6, 0, 65)])) = some [3] := by decide +kernel

theorem test_sadd_wraps : scalarOf 1 (exec (.sadd 1 2 3) (demo 1 0 [(2, 2 ^ 64 - 1), (3, 2)] [])) = some 1 := by
  decide +kernel

theorem test_sshr_signed : scalarOf 1 (exec (.sshr 1 2 3) (demo 1 0 [(2, 2 ^ 63), (3, 64 + 4)] [])) =
    some 0xF800000000000000 := by decide +kernel

theorem test_smovl_extends : scalarOf 4 (exec (.smovl 4 0xFFFFFFFE) (demo 1 0 [] [])) = some (2 ^ 64 - 2) := by decide +kernel

theorem test_smovl_moves_past_literal : pcIs (exec (.smovl 4 0xFFFFFFFE) (demo 1 0 [] [])) = some [0x10008] := by
  decide +kernel

theorem test_pcnt : scalarOf 1 (exec (.pcnt 1 ⟨2, false⟩) (demo 4 0 [] [(0x62, 0, 1), (0x62, 3, 1)])) = some 2 := by
  decide +kernel

/-! ## Floating point, conversions, codes: the worked examples of the numeric chapter -/

theorem test_fadd : lanesAre 1 1 (exec (.fadd 1 ⟨2, false⟩ ⟨3, false⟩)
    (demo 1 0x000800C0 [] [(2, 0, 0x3F800000), (3, 0, 0x40000000)])) = some [0x40400000] := by decide +kernel

theorem test_fdiv_inexact : lanesAre 1 1 (exec (.fdiv 1 ⟨2, false⟩ ⟨3, false⟩)
    (demo 1 0x000800C0 [] [(2, 0, 0x3F800000), (3, 0, 0x40400000)])) = some [0x3EAAAAAB] := by decide +kernel

/-- The four F32 elements 1.0, 300.0, 500.0 and 0.01 converted to E4M3 (R176). -/
theorem test_cvt_e4m3_sat : lanesAre 1 8 (exec (.cvt 8 ⟨4, false⟩)
    (demo 1 0x00681120 [] [(4, 0, 0x3F800000), (5, 0, 0x43960000), (6, 0, 0x43FA0000), (7, 0, 0x3C23D70A)])) =
      some [0x057E7938] := by decide +kernel

theorem test_cvt_e4m3 : lanesAre 1 8 (exec (.cvt 8 ⟨4, false⟩)
    (demo 1 0x00680120 [] [(4, 0, 0x3F800000), (5, 0, 0x43960000), (6, 0, 0x43FA0000), (7, 0, 0x3C23D70A)])) =
      some [0x057F7938] := by decide +kernel

/-- The steps of "Quantising one block". -/
theorem test_scexp : lanesAre 1 3 (exec (.scexp 3 ⟨2, true⟩) (demo 1 0x00680120 [] [(2, 0, 0x44BB8000)])) = some [0x81] := by
  decide +kernel

theorem test_cvtsc : lanesAre 1 8 (exec (.cvtsc 8 ⟨4, false⟩ ⟨10, true⟩)
    (demo 1 0x00681120 [] [(4, 0, 0x44BB8000), (5, 0, 0x43960000), (6, 0, 0xBF800000), (7, 0, 0x3C23D70A),
      (10, 0, 0x81818181)])) = some [0x01A8697C] := by decide +kernel

theorem test_cvtus : (lanesAre 1 4 (exec (.cvtus 4 ⟨8, false⟩ ⟨10, false⟩)
    (demo 1 0x009800C0 [] [(8, 0, 0x01A8697C), (10, 0, 0x81818181)]))) = some [0x44C00000] := by decide +kernel

/-- The stream of the example under R178. -/
theorem test_scunpk : lanesAre 32 6 (exec (.scunpk 6 ⟨2, false⟩ ⟨3, false⟩)
    (demo 32 0x00080000 [] [(2, 0, 0x0F8C80D2), (3, 0, 127)])) =
      some ([0x10081, 0x2007E, 0x3007E, 0x6008C, 0x7008B] ++ (List.range' 5 27).map fun i => (i + 3) * 65536 + 0x8B) := by
  decide +kernel

/-- The example under R187. -/
theorem test_bppack : lanesAre 32 6 (exec (.bppack 6 ⟨2, false⟩) (demo 32 0x00080000 [] [(2, 0, 0x17B5)])) =
    some ((List.range 32).map fun l => if l % 4 = 0 then [1, 0, 1, 3, 0, 3, 2, 3].getD (l / 4) 0 else 0) := by decide +kernel

theorem test_bpunpk : lanesAre 1 6 (exec (.bpunpk 6 ⟨2, false⟩)
    (demo 32 0x00040000 [] [(2, 0, 1), (2, 8, 1), (2, 12, 3), (2, 20, 3), (2, 24, 2), (2, 28, 3)])) = some [0x01FB] := by
  decide +kernel

/-- The example under R191. -/
theorem test_vbfly : (List.range 4).map (fun i => lanesAre 1 (12 + i) (exec (.vbfly 12 ⟨2, false⟩ 5)
    (demo 1 0x00080000 [(5, 17)] [(12, 0, 5), (14, 0, 7), (2, 0, 3)]))) = [some [9], some [0], some [1], some [0]] := by
  decide +kernel

theorem test_vibfly : (List.range 4).map (fun i => lanesAre 1 (12 + i) (exec (.vibfly 12 ⟨4, false⟩ 5)
    (demo 1 0x00080000 [(5, 17)] [(12, 0, 9), (14, 0, 1), (4, 0, 6)]))) = [some [10], some [0], some [14], some [0]] := by
  decide +kernel

theorem test_vbfly_modulus_traps : trapIs (exec (.vbfly 12 ⟨2, false⟩ 5)
    (demo 1 0x00080000 [(5, 16)] [(12, 0, 5), (14, 0, 7), (2, 0, 3)])) = some ([(0x12, 0x10000, 7)], [.stopped]) := by
  decide +kernel

/-! ## Memory -/

/-- `0x6204_4402` is stored at increasing addresses as `0x02`, `0x44`, `0x04`, `0x62` (R34). -/
theorem test_word_bytes : wordOfBytes 0x02 0x44 0x04 0x62 = 0x62044402 := by decide

/-- Offset `0x0040` of frame 3 on logical core 5 (R193). -/
theorem test_frame_ppa : framePpa 5 3 + 0x40 = 0x010000000140C040 := by decide

/-- A 32 MiB leaf at level 2 (R195 to R198). -/
theorem test_leaf_offset : (0x820300_4124 / 2 ^ levelShift 0 % 2048, 0x8203004124 / 2 ^ levelShift 1 % 2048,
    0x8203004124 / 2 ^ levelShift 2 % 2048, 0x0000001200000203 / 2 ^ 14 * 2 ^ 14 + 0x8203004124 % 2 ^ levelShift 2) =
      (0, 8, 257, 0x0000001201004124) := by decide

/-- Owner 9 writes under generation 41 and reads under 42 (R207, R208). -/
theorem test_generation : (let s := State.reset.putBytes 0x9029 ((leBytes 4 0x12345678).zipIdx.map fun e => (0x400 + e.2, e.1))
    let t := s.putByte 0x902A 0x400 0xAA
    ((List.range 4).map fun i => s.byteAt 0x9029 (0x400 + i), (List.range 4).map fun i => s.byteAt 0x902A (0x400 + i),
      (List.range 4).map fun i => t.byteAt 0x902A (0x400 + i), t.tagOf 16)) =
        ([0x78, 0x56, 0x34, 0x12], [0, 0, 0, 0], [0xAA, 0, 0, 0], 0x902A) := by decide +kernel

/-- The bytes from 0x20000 on, which the partition has written, are uncorrectable: a store that replaces them is performed at
once. -/
def spoilt (n : Nat) (s : State) : State := { s.putBytes 4096 [(0x20000, 1)] with bad := List.range' 0x20000 n }

theorem test_st32 : bytesAre 0x20000 8 (exec (.st32 ⟨2, false⟩ (.s 4) (.v ⟨3, false⟩))
    (spoilt 8 (demo 2 0x00080000 [(4, 0x20000)] [(2, 0, 0x11223344), (2, 1, 0x55667788), (3, 1, 4)]))) =
      some [0x44, 0x33, 0x22, 0x11, 0x88, 0x77, 0x66, 0x55] := by decide +kernel

/-- The first word of the table that the partition maps its memory with (R195): a leaf stands at `0x8000`. -/
theorem test_ld16_extends : lanesAre 1 1 (exec (.ld16 1 (.s 4) .none) (demo 1 0x00080000 [(4, 0x4000)] [])) = some [0xFFFF8071] := by
  decide +kernel

theorem test_lds : scalarOf 3 (exec (.lds 3 4 (.s 5)) (demo 1 0x00080000 [(4, 0x3000), (5, 0x1000)] [])) = some 0x8071 := by
  decide +kernel

theorem test_lda_misaligned : trapIs (exec (.lda32 1 (.s 4) 4) (demo 1 0x00080000 [(4, 0x20002)] [])) =
    some ([(0x07, 0x20002, 0)], [.stopped]) := by decide +kernel

theorem test_load_above : trapIs (exec (.ld32 1 (.s 4) .none) (demo 1 0x00080000 [(4, 2 ^ 58)] [])) =
    some ([(0x09, 2 ^ 58, 0)], [.stopped]) := by decide +kernel

theorem test_load_unmapped : trapIs (exec (.st8 ⟨1, false⟩ (.s 4) .none) (demo 1 0x00080000 [(4, 2 ^ 47)] [])) =
    some ([(0x08, 2 ^ 47, 1)], [.stopped]) := by decide +kernel

/-- The old values and the bytes that an atomic of one lane at `0x4000` leaves, performed at once or later: the lane's
register, and memory with the split's accesses performed. -/
def atomicLeaves (op : AtomOp) (later : Bool) (n : Nat) (s : State) : Option (Nat × List Nat) := do
  let k ← s.ctx
  let q ← (s.reachBy k { cls := 2, write := true } 0x4000 n).toOption
  let (s, olds) := s.performAtomics k.r k.part.tag (fun _ => later) [(0, k.atomicOf op (.to 1) ⟨2, false⟩ ⟨0, 0x4000, n⟩ q)]
  let t := (s.putAll k.r (atomicPuts k.type (.to 1) k.acting fun _ => (olds.headD (0, 0)).2)).performOwn k.r
  let u ← t.team? 0 0 0
  some ((u.container 1 0).toNat, (List.range n).map fun i => (t.byteAt k.part.tag (0x4000 + i)).toNat)

theorem test_aadd : ∀ later, atomicLeaves .add later 4 (demo 1 0x00080000 [(4, 0x4000)] [(1, 0, 5), (2, 0, 0xFFFFFFFF)]) =
    some (0x8071, [0x70, 0x80, 0, 0]) := by decide +kernel

theorem test_acas_keeps : ∀ later, atomicLeaves .cas later 4 (demo 1 0x00080000 [(4, 0x4000)] [(1, 0, 5), (2, 0, 7), (3, 0, 9)]) =
    some (0x8071, [0x71, 0x80, 0, 0]) := by decide +kernel

/-! ## Control and exceptions -/

theorem test_br_back : pcIs (exec (.br 0xFFFFFE) (demo 1 0 [] [])) = some [0xFF80] := by decide +kernel

theorem test_brc_divides : inTeam (fun t => t.splits.map fun x => (x.pc.toNat, x.mask.toNat)) (exec (.brc ⟨1, false⟩ 1)
    (demo 4 0x00080000 [] [(0x61, 0, 1), (0x61, 2, 1)])) = some [(0x10004, 0b1010), (0x10040, 0b101)] := by decide +kernel

theorem test_bdnz_ends : (let o := exec (.bdnz 2 0xFFFF) (demo 1 0 [(2, 1)] []); (scalarOf 2 o, pcIs o)) =
    (some 0, some [0x10004]) := by decide +kernel

theorem test_call_outside_slot_15 : trapIs (exec (.call 1) (demo 1 0 [] [])) = some ([(0x02, 0x10000, 7)], [.stopped]) := by
  decide +kernel

theorem test_mode_refused : trapIs (exec (.modei 0x11) (demo 1 0 [] [])) = some ([(0x02, 0x10000, 7)], [.stopped]) := by
  decide +kernel

theorem test_trap : ((after (fun t => (t.part? 0).map fun x => (x.queue.map fun q => (q.2.code, q.2.waiters), x.posted))
    (exec (.trap 0x2A) service)).bind id, bytesAre 0x1040 16 (exec (.trap 0x2A) service), bytesAre 0x1052 2 (exec (.trap 0x2A) service)) =
      (some ([(0x13, 1)], 1), some [0, 0, 1, 0, 0, 0, 0, 0, 0x13, 0, 7, 2, 0, 0, 0xF0, 0xFF], some [0x2A, 0]) := by decide +kernel

theorem test_launch_privilege : trapIs (exec (.launch 3) service) = some ([(0x0B, 0x10000, 7)], [.stopped]) := by decide +kernel

theorem test_fqpop_empty : scalarOf 3 (exec (.fqpop 3) (demo 1 0 [(3, 9)] [])) = some 0 := by decide +kernel

theorem test_csrw_reads_back : scalarOf 2 (match exec (.csrw 1 0x12) (demo 1 0 [(1, 6)] []) with
    | .next t => exec (.csrr 2 0x12) t
    | o => o) = some 6 := by decide +kernel

/-! ## Barriers, stamps, accumulators -/

theorem test_binit_then_barv : (after (fun t => (t.core? 0 0).map fun c => (c.bar 1).arrived) (match exec (.binit 1 2)
    (demo 1 0 [(1, 1), (2, 3)] []) with
    | .next t => exec (.barv 1) t
    | o => o)).bind id = some 1 := by decide +kernel

theorem test_barrier_turn : ({ Barrier.reset with valid := true, expect := 2, arrived := 2, early := 5 } : Barrier).turn =
    { Barrier.reset with valid := true, expect := 2, arrived := 2, early := 3, phase := true } := by decide

theorem test_stamp_meets : (stampMeets 5 5, stampMeets 4 5, stampMeets 0x8000000000000000 5) = (true, false, true) := by decide

theorem test_acfg_modulus : trapIs (exec (.acfg 0 1 2) (demo 1 0 [(1, 2), (2, 8)] [])) = some ([(0x12, 0x10000, 7)], [.stopped]) := by
  decide +kernel

theorem test_aswap : (after (fun t => (t.core? 0 0).map fun c => ((c.accAt 0).mode, (c.accAt 1).mode)) (match
    exec (.acfg 1 1 2) (demo 1 0 [(1, 1)] []) with
    | .next t => exec (.aswap 0 1) t
    | o => o)).bind id = some (1, 0) := by decide +kernel

/-! ## Steps and events -/

theorem test_step_runs_word : pcIs (step service) = some [0x10004] := by decide +kernel

theorem test_step_illegal : trapIs (step (State.reset.withFetchWord 32 0xF0000000)) = some ([(0x01, 0x10000, 7)], [.stopped]) := by
  decide +kernel

theorem test_step_sadd : scalarOf 1 (step ((State.reset.withFetchWord 32 0xE0414243).modTeam 0 0 0 fun t =>
    (t.setScalar 2 5).setScalar 3 6)) = some 11 := by decide +kernel

theorem test_power_on : (after (fun t => (t.booted, t.halted, t.tiles.length)) (exec .powerOn State.reset)) =
    some (true, false, 74) := by decide +kernel

theorem test_generate_needs_mint : (after (fun t => (t.outputs, t.vault)) (exec (.generate 200 .memory 0) State.reset)) =
    some ([.status .keyEntropy], []) := by decide +kernel


/-! ## A state and operands for the hypotheses of every statement -/

theorem ofSome {α : Type} {o : Option α} {P : α → Prop} (h : o.isSome) (p : P (o.get h)) : ∃ a, o = some a ∧ P a :=
  ⟨o.get h, (Option.some_get h).symm, p⟩

theorem ofOk {ε α : Type} {o : Except ε α} {P : α → Prop} (h : o.toOption.isSome) (p : P (o.toOption.get h)) :
    ∃ a, o = .ok a ∧ P a := by
  cases o with
  | error e => simp [Except.toOption] at h
  | ok a => exact ⟨a, rfl, p⟩

theorem ofSome' {α : Type} {o : Option α} (h : o.isSome) : ∃ a, o = some a := ⟨o.get h, (Option.some_get h).symm⟩

theorem ofError {ε α : Type} {o : Except ε α} (h : o.toOption.isNone) : ∃ e, o = .error e := by
  cases o with
  | error e => exact ⟨e, rfl⟩
  | ok a => simp [Except.toOption] at h

/-- The state in which the turn of the service team's split runs its word. -/
def issued (s : State) : State := { s with turns := [], tick := s.tick + 1, cur := ⟨0, 0, 0, 0⟩ }

theorem witness_DecodeOfEncode : (Instr.wf (.vadd 1 ⟨2, true⟩ ⟨3, false⟩)) = true ∧ Instr.isEvent (.vadd 1 ⟨2, true⟩ ⟨3, false⟩) = false := by
  decide

theorem witness_StepRunsDecodedInstruction_turns : ({ service with turns := [.corrupt 5] } : State).turns = .corrupt 5 :: [] ∧
    ({ service with turns := [.settle 5] } : State).turns = .settle 5 :: [] ∧
    ({ service with turns := [.tamper 5 1] } : State).turns = .tamper 5 1 :: [] ∧
    ({ service with turns := [.dropSlice 5] } : State).turns = .dropSlice 5 :: [] := ⟨rfl, rfl, rfl, rfl⟩

theorem witness_EncodeOfDecode : (decode (bytesOfWords [0x20018203])).toOption = some (.vadd 1 ⟨2, true⟩ ⟨3, false⟩) := by decide

/-- A split fetches a word without literals, from bytes that a reach names. -/
abbrev FetchesPlain (s : State) (r : SplitRef) (k : Ctx) (w : W32) (q : Reach) : Prop :=
  (k.split.state = .ready ∧ s.frozen r = false) ∧ k.mustRotate = false ∧ s.blocked k.part k.core.tile q.locs = false ∧
    bytesOfWord w = (s.performMine r q.locs).valueOf k.part.tag q ∧ k.split.pc.toNat % 64 / 4 ≤ 15 ∧
    (if opcodeAssigned (opcodeOf w) then literalCount (opcodeOf w) else 0) = 0

theorem wordsOf_none (s : State) (tag : Nat) : wordsOf s tag ⟨[], [], []⟩ = [] := by
  simp [wordsOf, State.reachBytes, takeWords]

theorem fetchesWord_of_plain {s : State} {r : SplitRef} {w : W32}
    (h : ∃ k, s.ctxAt r = some k ∧ ∃ q, s.reachBy k fetchWant k.split.pc 4 = .ok q ∧ FetchesPlain s r k w q) :
    ∃ k t, s.FetchesWord r k w [] t := by
  obtain ⟨k, h1, q, h2, h3, h4, h5, h6, h7, h8⟩ := h
  exact ⟨k, _, q, ⟨[], [], []⟩, h1, h3.1, h3.2, h4, h2, h5, h6, by rw [h8]; exact h7, fun _ => rfl, fun hn => absurd h8 hn, rfl,
    (wordsOf_none _ _).symm⟩

theorem witness_StepRunsDecodedInstruction : service.turns = .issue ⟨0, 0, 0, 0⟩ :: [] ∧
    ∃ k t, (issued service).Fetches ⟨0, 0, 0, 0⟩ k .nop t :=
  ⟨by decide +kernel, by
    obtain ⟨k, t, h⟩ := fetchesWord_of_plain (s := issued service) (r := ⟨0, 0, 0, 0⟩) (w := 0)
      (ofSome (by decide +kernel) (ofOk (by decide +kernel) (by decide +kernel)))
    exact ⟨k, t, 0, [], h, rfl⟩⟩

/-- A `vadd` of lanes 0 to 63: its words 0 and 1 are given quads apart. -/
def wordAtPc : State :=
  { (State.reset.withFetchWord 32 0x20018203).modSplit ⟨0, 0, 0, 0⟩ fun x => { x with mask := BitVec.ofNat 1024 (2 ^ 64 - 1) } with
    turns := [.word ⟨0, 0, 0, 0⟩ 1] }

theorem witness_StepRunsDecodedInstruction_word : wordAtPc.turns = .word ⟨0, 0, 0, 0⟩ 1 :: [] ∧
    unitOf (.vadd 1 ⟨2, true⟩ ⟨3, false⟩) = .lanes ∧
    (({ wordAtPc with turns := [], tick := wordAtPc.tick + 1 } : State).split? ⟨0, 0, 0, 0⟩).any
      (fun x => x.onQuad 1 && 1 < x.pendingWords.length) ∧
    ∃ k t, ({ wordAtPc with turns := [], tick := wordAtPc.tick + 1 } : State).Fetches ⟨0, 0, 0, 0⟩ k (.vadd 1 ⟨2, true⟩ ⟨3, false⟩) t :=
  ⟨rfl, rfl, by decide +kernel, by
    obtain ⟨k, t, h⟩ := fetchesWord_of_plain (s := { wordAtPc with turns := [], tick := wordAtPc.tick + 1 }) (r := ⟨0, 0, 0, 0⟩)
      (w := 0x20018203) (ofSome (by decide +kernel) (ofOk (by decide +kernel) (by decide +kernel)))
    exact ⟨k, t, 0x20018203, [], h, by rfl⟩⟩

/-- With `modei 0x20` and its literal at the pc: the literal is read too. -/
def modeiAtPc : State := State.reset.withFetchWord 64 0x0000002010000000

theorem witness_StepRunsDecodedInstruction_literal : modeiAtPc.turns = .issue ⟨0, 0, 0, 0⟩ :: [] ∧
    ∃ k, (issued modeiAtPc).ctxAt ⟨0, 0, 0, 0⟩ = some k ∧ ∃ ql,
      (issued modeiAtPc).reachBy k fetchWant (k.split.pc + 4) (4 * literalCount (opcodeOf 0x10000000)) = .ok ql ∧
      ∃ i, decodeWord 0x10000000 (wordsOf (issued modeiAtPc) k.part.tag ql) = .ok i ∧ i = .modei 0x20 :=
  ⟨by decide +kernel, ofSome (by decide +kernel) (ofOk (by decide +kernel) (ofOk (by decide +kernel) (by decide +kernel)))⟩

/-- With a `modei` in slot 15 of its block, at 0x1003C. -/
def modeiAtEnd : State :=
  (modeiAtPc.modSplit ⟨0, 0, 0, 0⟩ fun x => { x with pc := 0x1003C }).putBytes 4096 [(0x1003C, 0), (0x1003F, 0x10)]

theorem witness_LiteralsStayInTheBlock : modeiAtEnd.turns = .issue ⟨0, 0, 0, 0⟩ :: [] ∧
    ∃ k, (issued modeiAtEnd).ctxAt ⟨0, 0, 0, 0⟩ = some k ∧
      (k.split.state = .ready ∧ (issued modeiAtEnd).frozen ⟨0, 0, 0, 0⟩ = false) ∧
      ∃ q, (issued modeiAtEnd).reachBy k fetchWant k.split.pc 4 = .ok q ∧ ((issued modeiAtEnd).blocked k.part k.core.tile q.locs = false ∧
        bytesOfWord 0x10000000 = ((issued modeiAtEnd).performMine ⟨0, 0, 0, 0⟩ q.locs).valueOf k.part.tag q ∧ k.mustRotate = false ∧
        opcodeAssigned (opcodeOf 0x10000000) ∧ 15 < k.split.pc.toNat % 64 / 4 + literalCount (opcodeOf 0x10000000)) :=
  ⟨by decide +kernel, ofSome (by decide +kernel) ⟨by decide +kernel, ofOk (by decide +kernel) (by decide +kernel)⟩⟩

theorem witness_MachineNeverStops : Instr.isEvent .gbar = false ∧ service.ctx.isSome := by decide +kernel

theorem canonical_service : service.canonical := State.putBytes_canonical _ _ ⟨rfl, rfl, rfl⟩

theorem witness_StepKeepsCanonicalForm : service.canonical ∧ ∃ t, step service = .next t :=
  ⟨canonical_service, by
    have h : (after (fun _ => ()) (step service)).isSome := by decide +kernel
    revert h
    cases step service <;> simp [after]⟩

theorem witness_PhaseStart : ((service.team? 0 0 0).any fun t => t.hdr.team ≤ 1024) ∧
    ∃ c, service.core? 0 0 = some c ∧ tableWf Tile.reset c.fileTiles ∧ tableWf Acc.reset c.fileAccs ∧ tableWf Barrier.reset c.bars :=
  ⟨by decide +kernel, ofSome (by decide +kernel) (by decide +kernel)⟩

theorem witness_TrapEntry : ∃ k, service.ctxAt ⟨0, 0, 0, 0⟩ = some k ∧ k.split.drawn = [] :=
  ofSome (by decide +kernel) (by decide +kernel)

theorem witness_TrapEntry_after : ∃ k, (service.performOwn ⟨0, 0, 0, 0⟩).ctxAt ⟨0, 0, 0, 0⟩ = some k ∧
    ∃ u, (service.raise ⟨0, 0, 0, 0⟩ { code := 0x13, va := 0 }).team? 0 0 0 = some u ∧ u.splits.length = 1 :=
  ofSome (by decide +kernel) (ofSome (by decide +kernel) (by decide +kernel))

theorem witness_PostedRecordStandsInMemory : service.canonical ∧ ∃ x, service.part? 0 = some x ∧ 63 < 2 ^ x.csr.logn ∧
    x.csr.eqbase.toNat + 64 + 32 * 2 ^ x.csr.logn ≤ x.alloc ∧ x.alloc ≤ 2 ^ 48 ∧ (x.base + x.csr.eqbase.toNat) % 64 = 0 :=
  ⟨canonical_service, ofSome (by decide +kernel) (by decide +kernel)⟩

/-- The root team's split executes. -/
def rootTeam : State := { rooted with cur := ⟨0, 0, 1, 1⟩ }

theorem witness_PrivilegedInstructionsTrap : ∃ k, rootTeam.ctx = some k ∧ k.team.kind ≠ .service ∧ 0x10 ≤ (0x10#8).toNat ∧ csrListed 0x10 :=
  ofSome (by decide +kernel) (by decide +kernel)

theorem witness_PrivilegedInstructionsTrap_launch : ∃ k, service.ctx = some k ∧ k.team.kind ≠ .root :=
  ofSome (by decide +kernel) (by decide +kernel)

/-- A service team of four lanes that `brc` has divided. -/
def divided : State :=
  (demo 4 0x00080000 [] []).modTeam 0 0 0 fun t =>
    { t with splits := t.splits.map (fun x => { x with mask := 5 }) ++ t.splits.map fun x => { x with entry := 2, mask := 10 } }

theorem witness_TeamAndTypeTraps : ∃ k, divided.ctx = some k ∧ (k.team.kind = .service ∧ k.team.liveSplits ≠ 1) ∧
    ∃ c, scalarClaim (.sadd 1 2 3) divided k = some c ∧ c.may :=
  ofSome (by decide +kernel) ⟨by decide +kernel, _, rfl, trivial⟩

theorem witness_TeamAndTypeTraps_type : ∃ k, (demo 1 0x000800C0 [] []).ctx = some k ∧ typeInteger k.type = false ∧
    ∃ c, elementClaim (.vadd 1 ⟨2, false⟩ ⟨3, false⟩) k = some c :=
  ofSome (by decide +kernel) ⟨by decide +kernel, _, rfl⟩

theorem witness_TeamAndTypeTraps_reserved : ∃ k, (demo 1 0x000801C0 [] []).ctx = some k ∧ 13 < k.type ∧ (2#6).toNat % 2 = 0 :=
  ofSome (by decide +kernel) (by decide +kernel)

/-- Two lanes, the address in v10 and v11: lane 0 at 0x20000, lane 1 two bytes further. -/
def askew : State :=
  demo 2 0x00080000 [] [(10, 0, 0x20000), (11, 0, 0), (10, 1, 0x20002), (11, 1, 0)]

theorem witness_MisalignedAcquireTraps_load : ∃ k, askew.ctx = some k ∧
    ∃ c, loadClaim (.lda32 4 (.v ⟨10, false⟩) 0) k = some c ∧ (c.may ∧ c.align = some 0x07) ∧
      c.accesses = [⟨0, 0x20000, 4⟩] ++ ⟨1, 0x20002, 4⟩ :: [] ∧ (0x20002#64).toNat % 4 ≠ 0 ∧
      ∃ qs, askew.reachLanes k { cls := 0, data := true } (some 0x07) [⟨0, 0x20000, 4⟩] = .ok qs ∧ qs ≠ [] :=
  ofSome (by decide +kernel) ⟨_, rfl, ⟨⟨by unfold baseOk; decide, by decide⟩, rfl⟩, by decide +kernel, by decide,
    ofOk (by decide +kernel) (by decide +kernel)⟩

theorem witness_MisalignedAcquireTraps_store : ∃ k, askew.ctx = some k ∧
    ∃ c, storeClaim (.stl32 ⟨4, false⟩ (.v ⟨10, false⟩) 5) k = some c ∧ (c.may ∧ c.align = some 0x07 ∧ c.orders) ∧
      c.accesses = [⟨0, 0x20000, 4⟩] ++ ⟨1, 0x20002, 4⟩ :: [] ∧
      ∃ qs, (askew.performOwn k.r).reachLanes k storeWant (some 0x07) [⟨0, 0x20000, 4⟩] = .ok qs ∧ qs ≠ [] :=
  ofSome (by decide +kernel) ⟨_, rfl, ⟨⟨by unfold baseOk; decide, by decide⟩, rfl, by decide⟩, by decide +kernel,
    ofOk (by decide +kernel) (by decide +kernel)⟩

theorem witness_MisalignedAcquireTraps_atomic : ∃ k, askew.ctx = some k ∧
    ∃ c typed f, atomicClaim (.aadd (.to 3) (.v ⟨10, false⟩) ⟨5, false⟩) k = some (.to 3, .v ⟨10, false⟩, c, 1, typed, f) ∧ typed ∧
      baseOk (.v ⟨10, false⟩) ∧ atomicLegal k.type (.to 3) c 1 ∧
      accesses k.acting (k.address (.v ⟨10, false⟩) .none) (atomicWidth k.type) = [⟨0, 0x20000, 4⟩] ++ ⟨1, 0x20002, 4⟩ :: [] ∧
      ∃ qs, askew.reachLanes k { cls := 2, write := true, shadow := true, data := true } (some 0x07) [⟨0, 0x20000, 4⟩] = .ok qs ∧
        qs ≠ [] :=
  ofSome (by decide +kernel) ⟨_, _, _, rfl, .inl (by decide +kernel), by unfold baseOk; decide, by decide +kernel, by decide +kernel,
    ofOk (by decide +kernel) (by decide +kernel)⟩

theorem witness_MisalignedAcquireTraps_first : ∃ k, (demo 1 0x00080000 [(6, 0x20002)] []).ctx = some k ∧
    ∃ c, loadClaim (.lda32 4 (.s 6) 0) k = some c ∧ (c.may ∧ c.align = some 0x07) ∧ c.accesses = [] ++ ⟨0, 0x20002, 4⟩ :: [] :=
  ofSome (by decide +kernel) ⟨_, rfl, ⟨⟨trivial, by decide⟩, rfl⟩, by decide +kernel⟩

theorem witness_TrapInstructionsEnter : service.ctx.isSome ∧ opcodeAssigned (opcodeOf 0xF0000000) = false := by decide +kernel

/-- With a `nop` whose reserved bit 0 is set at the pc. -/
def reservedAtPc : State := State.reset.withFetchWord 32 1

theorem witness_TrapInstructionsEnter_word : reservedAtPc.turns = .issue ⟨0, 0, 0, 0⟩ :: [] ∧ (∃ e, decodeWord 1 [] = .error e) ∧
    ∃ k t, (issued reservedAtPc).FetchesWord ⟨0, 0, 0, 0⟩ k 1 [] t :=
  ⟨by decide +kernel, ofError (by decide +kernel), fetchesWord_of_plain (ofSome (by decide +kernel)
    (ofOk (by decide +kernel) (by decide +kernel)))⟩

theorem witness_MovingOnKeepsScalars : ∃ k, service.ctxAt ⟨0, 0, 0, 0⟩ = some k ∧ k.team.dying = false ∧
    (0x10004#64).toNat % 64 ≠ 0 :=
  ofSome (by decide +kernel) (by decide +kernel)

theorem witness_ScalarResults : ∃ k, service.ctx = some k ∧ k.team.liveSplits = 1 ∧
    ∃ c, scalarClaim (.sidr 1 17) service k = some c ∧ c.may :=
  ofSome (by decide +kernel) ⟨by decide +kernel, _, rfl, by show (17#8).toNat ≤ 17; decide⟩

theorem witness_ElementResults : ∃ k, (demo 4 0x00080160 [] []).ctx = some k ∧
    ∃ f, elementClaim (.vadd 2 ⟨4, false⟩ ⟨6, true⟩) k = some (2, ⟨4, false⟩, some ⟨6, true⟩, f) ∧ typeInteger k.type ∧
      k.paired [2, 4, 6] ∧ k.takes (putOperand (typeWide k.type) 2 k.acting fun _ => 0) :=
  ofSome (by decide +kernel) ⟨_, rfl, by unfold Ctx.paired Ctx.takes; decide +kernel⟩

theorem witness_LaneResults_move : ∃ k, (demo 4 0x00080000 [] []).ctx = some k ∧
    ∃ c, moveClaim (.vshuf 2 ⟨4, false⟩ ⟨6, true⟩) k = some c ∧ c.may ∧ k.takes c.puts :=
  ofSome (by decide +kernel) ⟨_, rfl, trivial, by unfold Ctx.takes; decide +kernel⟩

theorem witness_LaneResults_predicate : ∃ k, (demo 4 0x00080000 [] []).ctx = some k ∧
    ∃ c, predicateClaim (.pxor 2 ⟨4, false⟩ ⟨6, true⟩) k = some c ∧ c.may ∧ k.takes c.puts :=
  ofSome (by decide +kernel) ⟨_, rfl, trivial, by unfold Ctx.takes; decide +kernel⟩

theorem witness_LaneResults_convert : ∃ k, (demo 4 0x00080000 [] []).ctx = some k ∧
    ∃ c, convertClaim (.bppack 2 ⟨4, false⟩) k = some c ∧ c.may ∧ k.takes c.puts :=
  ofSome (by decide +kernel) ⟨_, rfl, trivial, by unfold Ctx.takes; decide +kernel⟩

theorem witness_FloatResults : ∃ k, (demo 4 0x000800C0 [] []).ctx = some k ∧
    ∃ f, floatClaim (.fneg 2 ⟨4, false⟩) = some (2, ⟨4, false⟩, none, f) ∧ floatClass k.type ∧
      k.takes (putLanes 2 k.acting fun _ => 0) :=
  ofSome (by decide +kernel) ⟨_, rfl, by unfold Ctx.takes; decide +kernel⟩

theorem witness_ResidueResults : ∃ k, (demo 4 0x00080000 [(3, 5)] []).ctx = some k ∧
    ∃ q may f, residueClaim (.vmodadd 2 ⟨4, false⟩ 3) k = some (q, ⟨4, false⟩, may, f) ∧ may ∧ q % 2 = 1 ∧ 3 ≤ q ∧ q < 2 ^ 62 ∧
      k.takes (residuePuts q k.acting f) :=
  ofSome (by decide +kernel) ⟨_, _, _, rfl, by decide, by unfold Ctx.takes; decide +kernel⟩

theorem witness_ResidueResults_modulus : ∃ k, (demo 4 0x00080000 [(3, 1)] []).ctx = some k ∧
    ∃ q may f, residueClaim (.vmodadd 2 ⟨4, false⟩ 3) k = some (q, ⟨4, false⟩, may, f) ∧ may ∧ ¬ (q % 2 = 1 ∧ 3 ≤ q ∧ q < 2 ^ 62) :=
  ofSome (by decide +kernel) ⟨_, _, _, rfl, by decide, by decide +kernel⟩

/-- A team that has no chunk left to draw. -/
def noChunks : State :=
  (demo 1 0x00080000 [] []).modTeam 0 0 0 fun t => { t with hdr := { t.hdr with fppeak := 0 } }

theorem witness_WritesWaitForChunks : ∃ k, noChunks.ctx = some k ∧
    ∃ c, moveClaim (.vmov 2 ⟨4, false⟩) k = some c ∧ c.may ∧ ¬ k.takes c.puts :=
  ofSome (by decide +kernel) ⟨_, rfl, trivial, by unfold Ctx.takes; decide +kernel⟩

/-- The same under another mode. -/
def noChunksIn (mr : Nat) : State :=
  (demo 1 mr [(3, 5)] []).modTeam 0 0 0 fun t => { t with hdr := { t.hdr with fppeak := 0 } }

theorem witness_WritesWaitForChunks_element : ∃ k, (noChunksIn 0x00080160).ctx = some k ∧
    ∃ f, elementClaim (.vadd 2 ⟨4, false⟩ ⟨6, true⟩) k = some (2, ⟨4, false⟩, some ⟨6, true⟩, f) ∧ typeInteger k.type ∧
      k.paired [2, 4, 6] ∧ ¬ k.takes (putOperand (typeWide k.type) 2 k.acting fun _ => 0) :=
  ofSome (by decide +kernel) ⟨_, rfl, by unfold Ctx.paired Ctx.takes; decide +kernel⟩

theorem witness_WritesWaitForChunks_float : ∃ k, (noChunksIn 0x000800C0).ctx = some k ∧
    ∃ f, floatClaim (.fneg 2 ⟨4, false⟩) = some (2, ⟨4, false⟩, none, f) ∧ floatClass k.type ∧
      ¬ k.takes (putLanes 2 k.acting fun _ => 0) :=
  ofSome (by decide +kernel) ⟨_, rfl, by unfold Ctx.takes; decide +kernel⟩

theorem witness_WritesWaitForChunks_residue : ∃ k, (noChunksIn 0x00080000).ctx = some k ∧
    ∃ q may f, residueClaim (.vmodadd 2 ⟨4, false⟩ 3) k = some (q, ⟨4, false⟩, may, f) ∧ may ∧ q % 2 = 1 ∧ 3 ≤ q ∧ q < 2 ^ 62 ∧
      ¬ k.takes (residuePuts q k.acting f) :=
  ofSome (by decide +kernel) ⟨_, _, _, rfl, by decide, by unfold Ctx.takes; decide +kernel⟩

def waitingFor (w : Wait) (st : SplitState) (s : State) : State :=
  s.modSplit ⟨0, 0, 0, 0⟩ fun x => { x with state := st, wait := w }

theorem witness_WritesWaitForChunks_grant : let s := waitingFor (.chunk [64]) .waitingMemory service
    ∃ k, s.ctxAt ⟨0, 0, 0, 0⟩ = some k ∧ s.frozen ⟨0, 0, 0, 0⟩ = false ∧ k.split.wait = .chunk [64] ∧ k.core.mayTake k.team ∧
      tableFind k.team.chunks 64 = none :=
  ofSome (by decide +kernel) (by decide +kernel)

theorem witness_WritesWaitForChunks_other :
    let s := waitingFor (.chunk [64]) .waitingMemory (demo 1 0x00080000 [] [(2, 0, 5)])
    ∃ k, s.ctxAt ⟨0, 0, 0, 0⟩ = some k ∧ s.frozen ⟨0, 0, 0, 0⟩ = false ∧ k.split.wait = .chunk [64] ∧
      (tableFind k.team.chunks 64).isSome :=
  ofSome (by decide +kernel) (by decide +kernel)

/-- Four lanes with the address of lane l at 0x20000 + 4 l for words of memory, from s6; the data in v4 and v5. -/
def access : State := demo 4 0x00080000 [(6, 0x20000), (7, 4)] [(4, 0, 7), (5, 1, 9)]

theorem witness_LoadResults : ∃ k, access.ctx = some k ∧ ∃ c, loadClaim (.ldw 4 6 7) k = some c ∧ c.may ∧
    ∃ qs, access.reachLanes k { cls := 0, data := true } c.align c.accesses = .ok qs ∧
      (∀ q ∈ qs, access.blocked k.part k.core.tile q.2.locs = false) ∧ k.takes (c.puts (access.laneValue k.part.tag qs)) :=
  ofSome (by decide +kernel) ⟨_, rfl, trivial, ofOk (by decide +kernel) (by unfold Ctx.takes; decide +kernel)⟩

theorem witness_LoadResults_scalar : ∃ k, access.ctx = some k ∧ k.team.liveSplits = 1 ∧
    ∃ q, access.reachBy k { cls := 0, data := true } (k.scalarAddress 6 .none) 8 = .ok q ∧
      access.blocked k.part k.core.tile q.locs = false :=
  ofSome (by decide +kernel) ⟨by decide +kernel, ofOk (by decide +kernel) (by decide +kernel)⟩

/-- A load into s1 that has still to write it. -/
def lateLoad : Late := { writer := ⟨0, 0, 0, 0⟩, cells := [], load := some (.scalar 1, [⟨[0x120000], [], none⟩]) }

theorem witness_LoadResults_late : lateLoad.load = some (.scalar 1, [⟨[0x120000], [], none⟩]) ∧
    ∃ x, access.part? lateLoad.writer.part = some x ∧
      (access.team? lateLoad.writer.part lateLoad.writer.core lateLoad.writer.slot).isSome :=
  ⟨rfl, ofSome (by decide +kernel) (by decide +kernel)⟩

theorem witness_StoreResults : ∃ k, access.ctx = some k ∧ ∃ c, storeClaim (.stw ⟨4, false⟩ 6 7) k = some c ∧ c.may ∧
    ∃ qs, access.reachLanes k storeWant c.align c.accesses = .ok qs ∧
      (∀ q ∈ qs, access.blocked k.part k.core.tile q.2.locs = false) :=
  ofSome (by decide +kernel) ⟨_, rfl, trivial, ofOk (by decide +kernel) (by decide +kernel)⟩

theorem witness_StoreResults_release : ∃ k, (demo 1 0x00080000 [(6, 0x20000)] []).ctx = some k ∧
    ∃ c, storeClaim (.stl32 ⟨4, false⟩ (.s 6) 5) k = some c ∧ c.may ∧ c.orders = true ∧
    ∃ qs, ((demo 1 0x00080000 [(6, 0x20000)] []).performOwn k.r).reachLanes k storeWant c.align c.accesses = .ok qs ∧
      (∀ q ∈ qs, (demo 1 0x00080000 [(6, 0x20000)] []).blocked k.part k.core.tile q.2.locs = false) :=
  ofSome (by decide +kernel) ⟨_, rfl, ⟨trivial, by decide⟩, by decide, ofOk (by decide +kernel) (by decide +kernel)⟩

theorem witness_StoreResults_st64 : ∃ k, (demo 1 0x00080000 [(6, 0x20000)] []).ctx = some k ∧
    ∃ c, storeClaim (.st64 ⟨4, false⟩ (.s 6) .none) k = some c ∧ c.may ∧
      (∀ y ∈ c.accesses, (demo 1 0x00080000 [(6, 0x20000)] []).kindAt k y.ea ≠ some 3) :=
  ofSome (by decide +kernel) ⟨_, rfl, ⟨trivial, by decide⟩, by decide +kernel⟩

theorem canonical_demo (n mr : Nat) (r : List (Nat × Nat)) (c : List (Nat × Nat × Nat)) : (demo n mr r c).canonical :=
  State.modPart_canonical 0 _ canonical_service

theorem witness_StoresWriteExactlyTheirBytes : access.canonical ∧ ∃ k, access.ctx = some k ∧
    ∃ c, storeClaim (.stw ⟨4, false⟩ 6 7) k = some c ∧
    ∃ qs, access.reachLanes k storeWant c.align c.accesses = .ok qs ∧ access.part? k.r.part = some k.part ∧
      overlap (qs.map fun q => q.2.locs) = false ∧
      ∀ q ∈ qs, q.2.locs.Nodup ∧ (c.bytes q.1.lane).length = q.2.locs.length :=
  ⟨canonical_demo _ _ _ _, ofSome (by decide +kernel) ⟨_, rfl, ofOk (by decide +kernel) (by decide +kernel)⟩⟩

theorem witness_ForeignLinesReadZero : service.canonical ∧ service.hidden 4097 (0x10000 / 64) ∧ 0x10001 / 64 = 0x10000 / 64 ∧
    0x10001 ≠ 0x10000 :=
  ⟨canonical_service, by unfold State.hidden; decide +kernel⟩

/-- Words of memory, as bytes. -/
def bytesOf (ws : List (Nat × Nat)) : List (Nat × Byte) := ws.flatMap fun (a, v) => (leBytes 8 v).zipIdx.map fun (b, i) => (a + i, b)

/-- At virtual address 2³⁶ the copy aperture of core 0 (s6), then its accumulator port (s7, accumulator 1 of slot 0) and a
group page whose descriptor names frame 0 of core 0 (s8); template 0 moves 64 bytes, and v4 names the argument record at
0x20000. -/
def deep : State :=
  (demo 1 0x00080000 [(6, 2 ^ 36), (7, 2 ^ 36 + 0x4008), (8, 2 ^ 36 + 0x8000)] [(4, 0, 0x08000000)]).putBytes 4096 (bytesOf
    [(0x8008, 0xC071), (0xC000, 0x14071), (0x14000, 2 ^ 57 + 0x633), (0x14008, 2 ^ 57 + 0x4643), (0x14010, 0x18211),
      (0x18000, 1), (0x3000, 0x43), (0x3008, 0x100000040), (0x3010, 1), (0x20000, 0x20000), (0x20008, 0x21000), (0x20010, 1)])

theorem witness_GroupLoadResult : ∃ k, deep.ctx = some k ∧ baseOk (.s 8) ∧
    ∃ gs, deep.groupLanes k (k.address (.s 8) .none) k.acting = .ok gs ∧
      (∀ g ∈ gs, ∀ x ∈ g.members, deep.blocked k.part k.core.tile ((g.locs k.part x).getD []) = false) ∧ k.takes (putLanes 2 k.acting fun _ => 0) :=
  ofSome (by decide +kernel) ⟨trivial, ofOk (by decide +kernel) (by unfold Ctx.takes; decide +kernel)⟩

theorem witness_GroupLoadResult_stop : ∃ k, deep.ctx = some k ∧ (k.acting = 0 :: [] ∧ (k.address (.s 8) .none 0).toNat % 4 = 0) ∧
    ∃ q, deep.translate k.part k.core.tile { cls := 4, write := false, sup := k.team.sup, kindOk := fun n => n = 1 || n = 5 }
      (k.address (.s 8) .none 0).toNat = .ok q ∧ ∃ ms, deep.groupMembers k.part k.core.tile (entryFrame q.entry) = .ok ms ∧
        ms.length = 1 ∧ (k.part.memberBytes (ms.getD 0 (0, 0)) 0).isSome :=
  ofSome (by decide +kernel) ⟨by decide +kernel, ofOk (by decide +kernel) (ofOk (by decide +kernel) (by decide +kernel))⟩

theorem witness_AtomicResults : ∃ k, (demo 1 0x00080000 [(6, 0x20000)] []).ctx = some k ∧
    ∃ c typed f, atomicClaim (.aadd (.to 3) (.s 6) ⟨5, false⟩) k = some (.to 3, .s 6, c, 1, typed, f) ∧ typed ∧ baseOk (.s 6) ∧
      atomicLegal k.type (.to 3) c 1 ∧
      ∃ qs, (demo 1 0x00080000 [(6, 0x20000)] []).reachLanes k { cls := 2, write := true, shadow := true, data := true } (some 0x07)
        (accesses k.acting (k.address (.s 6) .none) (atomicWidth k.type)) = .ok qs ∧
        (∀ q ∈ qs, (demo 1 0x00080000 [(6, 0x20000)] []).blocked k.part k.core.tile q.2.locs = false) ∧ overlap (qs.map fun q => q.2.locs) = false ∧
        k.takes (atomicPuts k.type (.to 3) k.acting fun _ => 0) :=
  ofSome (by decide +kernel) ⟨_, _, _, rfl, .inl (by decide +kernel), trivial, by decide +kernel,
    ofOk (by decide +kernel) (by unfold Ctx.takes; decide +kernel)⟩

/-- An atomic add of 1 to four bytes that has still to be performed, with and without a register for the old value. -/
def lateAtomic (into : Option LoadInto) : Late :=
  { writer := ⟨0, 0, 0, 0⟩, cells := [], atomic := some ⟨⟨[0x120000, 0x120001, 0x120002, 0x120003], [], none⟩, .add, 0, 0, 1, 0, into⟩ }

theorem witness_AtomicResults_late : (∀ d, (lateAtomic d).load = none ∧ (lateAtomic d).atomic.bind (fun a => a.into) = d) ∧
    (access.part? (lateAtomic none).writer.part).isSome :=
  ⟨fun _ => ⟨rfl, rfl⟩, by decide +kernel⟩

/-- R221: the copy that a slice keeps of the line at 0x20000 goes, the one of the next line stays. -/
theorem test_evict : after (fun t => t.slices.map fun c => c.1)
    (exec (.evict (.s 6) .none) { access with slices := [(0x800, []), (0x801, [])] }) = some [0x801] := by decide +kernel

theorem canonical_late {s : State} (l : List Late) (h : s.canonical) : ({ s with late := l } : State).canonical := h

/-- One store of the split is not performed, and a drain of its team has a line to write. -/
def owing : State :=
  { access.modCore 0 0 fun c => { c with drains := [⟨⟨.service, 0, 0, 0⟩, 0x20000, 0, 0, false, 0, [], [(0x800, 0x20000)]⟩] } with
    late := [{ writer := ⟨0, 0, 0, 0⟩, cells := [(0x121000, 7)] }] }

theorem witness_HintsAndFences_owing : owing.canonical ∧ (∃ k, owing.ctx = some k ∧ k.drains) ∧ (owing.part? 0).isSome ∧
    (owing.late.filter fun w => w.writer = ⟨0, 0, 0, 0⟩) = [{ writer := ⟨0, 0, 0, 0⟩, cells := [(0x121000, 7)] }] :=
  ⟨by unfold owing; exact canonical_late _ (State.modPart_canonical 0 _ (canonical_demo _ _ _ _)),
    ofSome (by decide +kernel) (by decide +kernel), by decide +kernel, by decide +kernel⟩

theorem witness_HintsAndFences_store : ∀ w ∈ owing.late, w.load = none ∧ w.atomic = none ∧ (w.cells.map (·.1)).Nodup := by
  decide +kernel

theorem witness_HintsAndFences : ∃ k, access.ctx = some k ∧ baseOk (.s 6) ∧
    (∀ l ∈ k.acting, access.evictFault k (k.address (.s 6) .none l) = none) ∧
    k.core.copiesOf k.team.issuer = [] ∧ k.drains = false :=
  ofSome (by decide +kernel) (by unfold baseOk; decide +kernel)

/-- A service team with named barrier 0 valid, expecting 2, with s1 its handle 0, s2 its remote handle, s3 a configuration. -/
def barred (x : Barrier) : State :=
  (demo 1 0x00080000 [(1, 0), (2, 2 ^ 63), (3, 2), (4, 1), (5, 2 ^ 62)] []).modCore 0 0 fun c => c.setBar 0 x

def openBar : Barrier := { Barrier.reset with valid := true, expect := 2 }

theorem witness_BarrierConfiguration : ∃ k, (barred openBar).ctx = some k ∧ configOk (k.s 3) ∧
    ∃ y, k.barrier (k.s 1) false = .ok y ∧ y = (k.r.core, 0) ∧ ∃ x, (k.core.bar 0).expectMore ((k.s 4).setWidth 32) = .ok x ∧ x.valid :=
  ofSome (by decide +kernel) ⟨by decide +kernel, ofOk (by decide +kernel) ⟨by decide +kernel, ofOk (by decide +kernel) (by decide +kernel)⟩⟩

theorem witness_BarrierConfiguration_limits : ∃ k, (demo 1 0x00080000 [(4, 2 ^ 31 - 3)] []).ctx = some k ∧
    (k.core.bar 0).valid = false ∧ (k.core.waiters (waitsBar 0) = []) ∧
    (openBar.valid ∧ 65535 < (openBar.expect : Int) + ((k.s 4).setWidth 32 : W32).toInt) ∧
    ({ openBar with arrived := 2 }.arrived = ({ openBar with arrived := 2 } : Barrier).expect ∧ openBar.pending = 0 ∧
      openBar.swap = false) ∧ (∃ c, (barred { openBar with arrived := 2, swap := true, pairs := 1 }).core? 0 0 = some c ∧
        (c.bar 0).valid ∧ (c.bar 0).arrived = (c.bar 0).expect ∧ (c.bar 0).pending = 0 ∧ (c.bar 0).swap) :=
  ofSome (by decide +kernel) (by decide +kernel)

theorem witness_ArrivalsAreCounted : ∃ k, (barred openBar).ctx = some k ∧
    (handleRemote (k.s 1) = false ∧ (k.core.bar 0).arrive = .counted { openBar with arrived := 1 } false ∧
      k.takes (putPreds 1 k.lanes fun _ => false)) ∧
    (∃ y, k.barrier (k.s 1) true = .ok y ∧ y = (k.r.core, 0)) ∧ ∃ y, k.barrier (k.s 1) false = .ok y ∧ y = (k.r.core, 0) :=
  ofSome (by decide +kernel) ⟨by unfold Ctx.takes; decide +kernel, ofOk (by decide +kernel) (by decide +kernel),
    ofOk (by decide +kernel) (by decide +kernel)⟩

theorem witness_ArrivalsAreCounted_early : ∃ k, (barred { openBar with arrived := 2 }).ctx = some k ∧
    (k.core.bar 0).arrive = .counted { openBar with arrived := 2, early := 1 } true :=
  ofSome (by decide +kernel) (by decide +kernel)

theorem witness_ArrivalsAreCounted_remote : ∃ k, (barred openBar).ctx = some k ∧ handleRemote (k.s 2) ∧
    ∃ y, k.barrier (k.s 2) true = .ok y ∧ y = (0, 0) :=
  ofSome (by decide +kernel) ⟨by decide +kernel, ofOk (by decide +kernel) (by decide +kernel)⟩

theorem witness_ArrivalsAreCounted_fabric : let s := waitingFor (.remote 0 0 0) .waitingBarrier (barred openBar)
    ∃ k, s.ctxAt ⟨0, 0, 0, 0⟩ = some k ∧ s.frozen ⟨0, 0, 0, 0⟩ = false ∧ k.split.wait = .remote 0 0 0 ∧
      (k.part.core? 0).any Core.silent = false ∧ s.awaitsCore k.part k.r.core 0 = false ∧
      k.part.remoteBar k.team.launch 0 0 0 = some 0 :=
  ofSome (by decide +kernel) (by decide +kernel)

/-- A `barx` that finds no chunk for its predicate. -/
theorem witness_ArrivalsAreCounted_chunks :
    ∃ k, ((barred openBar).modTeam 0 0 0 fun t => { t with hdr := { t.hdr with fppeak := 0 } }).ctx = some k ∧
    ((k.core.bar 0).valid ∧ ¬ k.takes (putPreds 1 k.lanes fun _ => false)) ∧
    ∃ y, k.barrier (k.s 1) false = .ok y ∧ y = (k.r.core, 0) :=
  ofSome (by decide +kernel) ⟨by unfold Ctx.takes; decide +kernel, ofOk (by decide +kernel) (by decide +kernel)⟩

/-- What an arrival meets at its core: a barrier that counts it, an invalid one, one whose EARLY has no room. -/
theorem witness_ArrivalsAreCounted_arrive :
    (∃ k, (barred openBar).ctxAt ⟨0, 0, 0, 0⟩ = some k ∧ ∃ c, ((barred openBar).performOwn ⟨0, 0, 0, 0⟩).core? 0 0 = some c ∧
      (c.bar 0).arrive = .counted { openBar with arrived := 1 } false ∧ (c.bar 1).arrive = .invalid) ∧
    ({ openBar with arrived := 2, early := 65535 } : Barrier).arrive = .crowded :=
  ⟨ofSome (by decide +kernel) (ofSome (by decide +kernel) (by decide +kernel)), by decide +kernel⟩

theorem witness_ArrivalsAreCounted_room : let s := waitingFor (.early 0 0 none) .waitingBarrier (barred openBar)
    ∃ k, s.ctxAt ⟨0, 0, 0, 0⟩ = some k ∧ s.frozen ⟨0, 0, 0, 0⟩ = false ∧ k.split.wait = .early 0 0 none :=
  ofSome (by decide +kernel) (by decide +kernel)

theorem witness_ArrivalsAreCounted_turns : (openBar.valid ∧ openBar.early < 65535 ∧ openBar.arrived < openBar.expect) ∧
    Barrier.reset.valid = false := by decide

theorem witness_MetWaitsComplete_bwait : ∃ k, (barred openBar).ctx = some k ∧
    (k.takes (putPreds 1 k.lanes fun _ => false) ∧ (k.core.bar 0).phase ≠ handlePh (k.s 5)) ∧
    ∃ y, k.barrier (k.s 5) false = .ok y ∧ y = (0, 0) :=
  ofSome (by decide +kernel) ⟨by unfold Ctx.takes; decide +kernel, ofOk (by decide +kernel) (by decide +kernel)⟩

/-- A service team whose grid wait has been released. -/
def released : State := (demo 1 0x00080000 [] []).modTeam 0 0 0 fun t => { t with grid := some true }

theorem witness_MetWaitsComplete_gbwait : ∃ k, released.ctx = some k ∧ k.takes (putPreds 1 k.lanes fun _ => false) ∧
    (k.split.gridCut = .none ∨ k.split.gridCut = .waiting) ∧ k.team.grid = some (!k.core.gph) :=
  ofSome (by decide +kernel) (by unfold Ctx.takes; decide +kernel)

/-- A service team whose monitor has been triggered. -/
def triggered : State :=
  (demo 1 0x00080000 [] []).modTeam 0 0 0 fun t => { t with monitor := { armed := true, trig := true, line := 0x20000 } }

theorem witness_MetWaitsComplete_mwait : ∃ k, triggered.ctx = some k ∧ k.takes (putPreds 1 k.lanes fun _ => false) ∧
    k.team.monitor.armed ∧ k.team.monitor.trig :=
  ofSome (by decide +kernel) (by unfold Ctx.takes; decide +kernel)

/-- The stamp at 0x20000 (s6) holds 40; s7 is the target. -/
def stamped (target : Nat) : State :=
  (demo 1 0x00080000 [(6, 0x20000), (7, target)] []).putBytes 4096 [(0x20000, 40)]

theorem witness_MetWaitsComplete_swait : ∃ k, (stamped 40).ctx = some k ∧ k.takes (putPreds 1 k.lanes fun _ => false) ∧
    ∃ q, (stamped 40).stampReach k (k.s 6) = .ok q ∧ (stamped 40).blocked k.part k.core.tile q.locs = false ∧
      meetsTarget (BitVec.ofNat 64 (leNat ((stamped 40).valueOf k.part.tag q))) (k.s 7) ∧
      meetsTarget (BitVec.ofNat 64 (leNat ((stamped 40).valueOf k.part.tag q))) 41 = false :=
  ofSome (by decide +kernel) ⟨by unfold Ctx.takes; decide +kernel, ofOk (by decide +kernel) (by decide +kernel)⟩

theorem witness_GridBarrierAndMonitor : ∃ k, (stamped 0).ctx = some k ∧
    ∃ q, (stamped 0).reachBy k { cls := 0, kinds := [0] } (k.s 6) 1 = .ok q ∧ q.ppa / 64 * 64 = 0x20000 :=
  ofSome (by decide +kernel) (ofOk (by decide +kernel) (by decide +kernel))

theorem witness_GridBarrierAndMonitor_release : let s := service.modCore 0 0 fun c => { c with garr := true }
    ∃ x, s.part? 0 = some x ∧ x.hold ≠ .suspended ∧ x.releasing = none ∧ (∀ c ∈ x.cores, c.garr ∨ c.excuse) ∧
      0 < x.cores.length ∧ (x.core? 0).any (fun c => c.warm.isSome) = false :=
  ofSome (by decide +kernel) (by decide +kernel)

/-- A release that has still to reach core 0. -/
theorem witness_GridBarrierAndMonitor_going : let s := service.modPart 0 fun x => { x with releasing := some [0] }
    ∃ x, s.part? 0 = some x ∧ (x.hold ≠ .suspended ∧ x.releasing = some [0] ∧ 0 ∈ [0]) ∧ (s.core? 0 0).any (fun c => c.warm.isSome) = false :=
  ofSome (by decide +kernel) (by decide +kernel)

theorem witness_CopyControl : ∃ k, (demo 1 0x00080000 [(1, 63)] []).ctx = some k ∧ (k.s 1).toNat < 8192 ∧
    (k.s 1).toNat % 4096 < k.part.csr.ttsize ∧ (k.s 1).toNat < 64 :=
  ofSome (by decide +kernel) (by decide +kernel)

theorem witness_CopyControl_aperture : ∃ k, deep.ctx = some k ∧ baseOk (.s 6) ∧
    (∃ y ∈ accesses k.acting (k.address (.s 6) .none) 8, deep.kindAt k y.ea = some 3) ∧
    ∃ os, deep.checkOffers k (k.v2 ⟨4, false⟩) (accesses k.acting (k.address (.s 6) .none) 8) = .ok os ∧
      ((os.foldl (fun u o => u.keepOffer k o.1.lane o.1.ea (k.v2 ⟨4, false⟩ o.1.lane) o.2) deep).acceptAll k.r
        (os.map fun o => o.2)).2 = [] :=
  ofSome (by decide +kernel) ⟨trivial, by decide +kernel, ofOk (by decide +kernel) (by decide +kernel)⟩

/-- The same with two lanes: the address in v10 and v11 is the aperture for lane 0 and 0x20000 for lane 1. -/
def mixed : State :=
  deep.modTeam 0 0 0 fun t =>
    [(11, 0, 0x10), (10, 1, 0x20000)].foldl (fun t w => t.put ⟨w.1, w.2.1, BitVec.ofNat 32 w.2.2⟩)
      { t with hdr := { t.hdr with team := 2 }, splits := t.splits.map fun x => { x with mask := 3 } }

theorem witness_CopyControl_mixed : ∃ k, mixed.ctx = some k ∧
    (∃ z ∈ accesses k.acting (k.address (.v ⟨10, false⟩) .none) 8, mixed.kindAt k z.ea = some 3) ∧
    mixed.blocked k.part k.core.tile ((accesses k.acting (k.address (.v ⟨10, false⟩) .none) 8).flatMap fun z =>
      mixed.argLocs k (k.v2 ⟨4, false⟩ z.lane)) = false ∧
    ∃ y, ((accesses k.acting (k.address (.v ⟨10, false⟩) .none) 8).find? fun z => (mixed.kindAt k z.ea).any fun n => n ≠ 3) = some y :=
  ofSome (by decide +kernel) ⟨by decide +kernel, by decide +kernel, ofSome' (by decide +kernel)⟩

theorem witness_TileAndAccumulatorResults : ∃ k, (demo 1 0x00080000 [(1, 2 ^ 24 + 2 ^ 14), (2, 1), (3, 2), (4, 5)] []).ctx = some k ∧
    k.latched = false ∧
    ((15#4).toNat < k.team.hdr.tiles ∧ (k.tile 15).busy = 0 ∧ ctlOk (k.s 1) k.team.hdr.tiles) ∧
    ((7#3).toNat < k.team.hdr.accs ∧ (k.s 3).toNat < 3 ∧ (k.s 4).toNat % 2 = 1 ∧ 3 ≤ (k.s 4).toNat ∧ (k.s 4).toNat < 2 ^ 62) ∧
    (k.s 2).toNat < 2 ^ k.team.hdr.gang ∧ (k.s 2).getLsbD k.team.gangix :=
  ofSome (by decide +kernel) (by decide +kernel)

/-- Tile 15 is one row of 16 bytes; s6 holds 0x20000. -/
def rowTile : State :=
  (demo 1 0x00080000 [(6, 0x20000)] []).modCore 0 0 fun c =>
    c.setTile 15 { Tile.reset with ctl := 0x100100, rows := 1, rbytes := 16 }

theorem witness_BlockTransfers : ∃ k, rowTile.ctx = some k ∧ k.latched = false ∧
    ((15#4).toNat < k.team.hdr.tiles ∧ (k.tile 15).busy = 0 ∧ (k.tile 15).tagOk ∧ (k.tile 15).shapeOk) ∧
    (∃ q, rowTile.reachBlock k blockRead (k.scalarAddress 6 .none) (ctlRows (k.tile 15).ctl * ctlRbytes (k.tile 15).ctl) =
      .ok q ∧ rowTile.blocked k.part k.core.tile q.locs = false) ∧
    ∃ q, rowTile.reachBlock k storeWant (k.scalarAddress 6 .none) (ctlRows (k.tile 15).ctl * ctlRbytes (k.tile 15).ctl) =
      .ok q ∧ rowTile.blocked k.part k.core.tile q.locs = false :=
  ofSome (by decide +kernel) ⟨by decide +kernel, by decide +kernel, ofOk (by decide +kernel) (by decide +kernel),
    ofOk (by decide +kernel) (by decide +kernel)⟩

/-- A byte of tile 15 and an entry of accumulator 7 that have still to be read. -/
def lateByte (d : LoadInto) : Late := { writer := ⟨0, 0, 0, 0⟩, cells := [], load := some (d, [⟨[0x120000], [], none⟩]) }

theorem witness_BlockTransfers_late : ((lateByte (.tile 15 3 16)).load.map (·.1) = some (.tile 15 3 16) ∧
    (lateByte (.acc 7 5)).load.map (·.1) = some (.acc 7 5)) ∧ (rowTile.part? 0).isSome ∧
    ∃ c, rowTile.core? 0 0 = some c ∧ tableWf Tile.reset c.fileTiles ∧ tableWf 0 (c.tileAt 15).bytes ∧ tableWf Acc.reset c.fileAccs ∧
      tableWf 0 (c.accAt 7).entries :=
  ⟨by decide, by decide +kernel, ofSome (by decide +kernel) (by decide +kernel)⟩

/-! Blocks of 32 KiB: too many bytes to list one by one. -/

theorem pieceLocs_ok (x : Partition) (h : x.alloc ≤ 2 ^ 56) : ∀ (n ppa va : Nat), ppa + n ≤ x.alloc →
    ∃ l, x.pieceLocs ppa va n = .ok l
  | 0, _, _, _ => ⟨[], rfl⟩
  | n + 1, ppa, va, hp => by
    obtain ⟨l, hl⟩ := pieceLocs_ok x h n (ppa + 1) (va + 1) (by omega)
    have h0 : ppa / 2 ^ 56 = 0 := Nat.div_eq_of_lt (by omega)
    have : x.locOf ppa = some (x.base + ppa) := by
      simp only [Partition.locOf, h0, if_pos]
      rw [if_neg (by omega), if_pos (by omega)]
    exact ⟨(x.base + ppa) :: l, by simp [Partition.pieceLocs, this, hl]⟩

theorem reach_page (s : State) (x : Partition) (tile : Nat) (sup : Bool) (far : Xl → Bool) (w : Want) (ea : W64) (n : Nat)
    (q : Xl) (hb : s.bad = []) (ha : x.alloc ≤ 2 ^ 56) (hea : ea.toNat < 2 ^ 58)
    (hp : pieces (n / 16384 + 2) ea.toNat n = [(ea.toNat, n)])
    (hq : s.translate x tile { cls := w.cls, write := w.write, sup := sup, kindOk := fun k => w.kinds.contains k } ea.toNat = .ok q)
    (hin : bankPpa w (far q) q + n ≤ x.alloc) : ∃ g, s.reach x tile sup far w ea n = .ok g := by
  obtain ⟨l, hl⟩ := pieceLocs_ok x ha n _ ea.toNat hin
  have hbad : ∀ l, s.firstBad x.tag l = none := by
    intro l
    simp [State.firstBad, State.badAt, hb]
  have : ¬ 2 ^ 58 ≤ ea.toNat := by omega
  simp only [State.reach, ge_iff_le, if_neg this, hp, State.walkPieces, hq, allLocs, hl, hbad]
  exact ⟨_, by simp; rfl⟩

theorem block_ok (s : State) (k : Ctx) (w : Want) (ea : W64) (a b : Xl) (hb : s.bad = []) (ha : k.part.alloc ≤ 2 ^ 56)
    (hea : ea.toNat % 16384 = 0 ∧ ea.toNat < 2 ^ 57) (hstuck : s.stuck k.part.pindex = false) (hheld : k.part.heldLines = [])
    (hsil : k.part.cores.all fun c => !c.silent)
    (hqa : s.translate k.part k.core.tile
      { cls := w.cls, write := w.write, sup := k.team.sup, kindOk := fun j => w.kinds.contains j } ea.toNat = .ok a)
    (hqb : s.translate k.part k.core.tile
      { cls := w.cls, write := w.write, sup := k.team.sup, kindOk := fun j => w.kinds.contains j } (ea.toNat + 16384) = .ok b)
    (hia : bankPpa w (remoteTo k.r.core a) a + 16384 ≤ k.part.alloc)
    (hib : bankPpa w (remoteTo k.r.core b) b + 16384 ≤ k.part.alloc) :
    ∃ q, s.reachBlock k w ea 32768 = .ok q ∧ s.blocked k.part k.core.tile q.locs = false := by
  have pa : ∀ v, v % 16384 = 0 → pieces (16384 / 16384 + 2) v 16384 = [(v, 16384)] := by
    intro v hv; simp [pieces, hv]
  have n1 : (BitVec.ofNat 64 ea.toNat).toNat = ea.toNat := by simp
  have n2 : (BitVec.ofNat 64 (ea.toNat + 16384)).toNat = ea.toNat + 16384 := by
    rw [BitVec.toNat_ofNat, Nat.mod_eq_of_lt (by omega)]
  obtain ⟨g, hg⟩ := reach_page s k.part k.core.tile k.team.sup (remoteTo k.r.core) { w with oneLane := false, data := false }
    (BitVec.ofNat 64 ea.toNat) 16384 a hb ha (by omega) (by rw [n1]; exact pa _ hea.1) (by rw [n1]; exact hqa) hia
  obtain ⟨h, hh⟩ := reach_page s k.part k.core.tile k.team.sup (remoteTo k.r.core) { w with oneLane := false, data := false }
    (BitVec.ofNat 64 (ea.toNat + 16384)) 16384 b hb ha (by omega) (by rw [n2]; exact pa _ (by omega)) (by rw [n2]; exact hqb) hib
  have hp : pieces (32768 / 16384 + 2) ea.toNat 32768 = [(ea.toNat, 16384), (ea.toNat + 16384, 16384)] := by
    have : (ea.toNat + 16384) % 16384 = 0 := by omega
    simp [pieces, hea.1]
  have hbad : ∀ l, s.firstBad k.part.tag l = none := by simp [State.firstBad, State.badAt, hb]
  refine ⟨_, by
    rw [State.reachBlock, if_neg (by omega), hp]
    simp only [State.reachPieces, State.reachBy, hg, hh, hbad, ite_self]
    rfl, ?_⟩
  have hs : ∀ locs, k.part.silent locs = false := by
    intro locs
    simp only [List.all_eq_true, Bool.not_eq_true'] at hsil
    simp only [Partition.silent, List.any_eq_false, Bool.and_eq_true, not_and]
    intro c hc h
    simp [hsil c hc] at h
  simp [State.blocked, State.awaitsLink, hstuck, Partition.blocked, hheld, hs]

theorem page_ok (s : State) (k : Ctx) (w : Want) (ea : W64) (a : Xl) (hb : s.bad = []) (ha : k.part.alloc ≤ 2 ^ 56)
    (hea : ea.toNat % 16384 = 0 ∧ ea.toNat < 2 ^ 57)
    (hqa : s.translate k.part k.core.tile
      { cls := w.cls, write := w.write, sup := k.team.sup, kindOk := fun j => w.kinds.contains j } ea.toNat = .ok a)
    (hia : bankPpa w (remoteTo k.r.core a) a + 16384 ≤ k.part.alloc) : ∃ q, s.reachBlock k w ea 16384 = .ok q := by
  have pa : ∀ v, v % 16384 = 0 → pieces (16384 / 16384 + 2) v 16384 = [(v, 16384)] := by
    intro v hv; simp [pieces, hv]
  have n1 : (BitVec.ofNat 64 ea.toNat).toNat = ea.toNat := by simp
  obtain ⟨g, hg⟩ := reach_page s k.part k.core.tile k.team.sup (remoteTo k.r.core) { w with oneLane := false, data := false }
    (BitVec.ofNat 64 ea.toNat) 16384 a hb ha (by omega) (by rw [n1]; exact pa _ hea.1) (by rw [n1]; exact hqa) hia
  have hbad : ∀ l, s.firstBad k.part.tag l = none := by simp [State.firstBad, State.badAt, hb]
  exact ⟨_, by
    rw [State.reachBlock, if_neg (by omega), pa _ hea.1]
    simp only [State.reachPieces, State.reachBy, hg, hbad, ite_self]
    rfl⟩

theorem okGet {ε α : Type} {o : Except ε α} (h : o.toOption.isSome) : o = .ok (o.toOption.get h) := by
  cases o with
  | error e => simp [Except.toOption] at h
  | ok a => rfl

theorem witness_BlockTransfers_aload : ∃ k, (demo 1 0x00080000 [(6, 0x20000)] []).ctx = some k ∧
    ∃ q, (demo 1 0x00080000 [(6, 0x20000)] []).reachBlock k blockRead (k.scalarAddress 6 .none) 32768 = .ok q ∧
      (demo 1 0x00080000 [(6, 0x20000)] []).blocked k.part k.core.tile q.locs = false :=
  ofSome (by decide +kernel) (block_ok _ _ _ _ _ _ (by decide +kernel) (by decide +kernel) (by decide +kernel) (by decide +kernel)
    (by decide +kernel) (by decide +kernel) (okGet (by decide +kernel)) (okGet (by decide +kernel)) (by decide +kernel)
    (by decide +kernel))

theorem witness_DrainsStart : ∃ k, (demo 1 0x00080000 [(6, 0x20000)] []).ctx = some k ∧
    ((7#3).toNat < k.team.hdr.accs ∧ drainTyped k.type (k.acc 7).mode ∧ 4096 * drainWidth k.type = 16384) ∧
    ∃ q, (demo 1 0x00080000 [(6, 0x20000)] []).reachBlock k storeWant (k.scalarAddress 6 .none) 16384 = .ok q :=
  ofSome (by decide +kernel) ⟨by decide +kernel, page_ok _ _ _ _ _ (by decide +kernel) (by decide +kernel) (by decide +kernel)
    (okGet (by decide +kernel)) (by decide +kernel)⟩

theorem witness_JointInstructionPerforms : ∃ k, (demo 1 0x00080000 [] []).ctx = some k ∧
    ((7#3).toNat < k.team.hdr.accs ∧ (15#4).toNat < k.team.hdr.tiles) ∧
    ∃ g, k.core.gang? k.team.gang = some g ∧ (g.latch = none ∧
      let h : Latch := ⟨.mma, 7, 15, 14, k.team.gangReg, 0, 0, [(k.r.slot, k.r.entry)], true, []⟩
      k.core.latchFull k.team.gang { h with complete := false } ∧ (∀ i ∈ k.core.jointTiles g h, (k.core.tileAt i).busy = 0) ∧
        (k.core.joint g h).cause .mma 0 = none) :=
  ofSome (by decide +kernel) ⟨by decide +kernel, ofSome (by decide +kernel) (by decide +kernel)⟩

/-- A rendezvous that the split's own team has joined already. -/
theorem witness_JointInstructionPerforms_behind :
    ∃ k, ((demo 1 0x00080000 [] []).modCore 0 0 fun c => c.modGang 0 fun g =>
      { g with latch := some ⟨.mma, 7, 15, 14, 1, 0, 0, [(0, 0)], false, []⟩ }).ctx = some k ∧
    ∃ g, k.core.gang? k.team.gang = some g ∧ ∃ h, g.latch = some h ∧ ¬ ∀ e ∈ h.joined, e.1 ≠ k.r.slot :=
  ofSome (by decide +kernel) (ofSome (by decide +kernel) (ofSome (by decide +kernel) (by decide +kernel)))

theorem witness_DrainsStart_type : (∃ k, (demo 1 0x00080020 [] []).ctx = some k ∧ (7#3).toNat < k.team.hdr.accs ∧ k.type = 1) ∧
    ∃ k, ((demo 1 0x00080000 [] []).modCore 0 0 fun c => { c with fileAccs := [(7, { Acc.reset with mode := 2 })] }).ctx = some k ∧
      (7#3).toNat < k.team.hdr.accs ∧ k.type = 0 ∧ 1 < (k.acc 7).mode :=
  ⟨ofSome (by decide +kernel) (by decide +kernel), ofSome (by decide +kernel) (by decide +kernel)⟩

theorem witness_DrainsStart_port : ∃ k, deep.ctx = some k ∧ (0#3).toNat < k.team.hdr.accs ∧
    ∃ q, deep.translate k.part k.core.tile { cls := 1, write := true, sup := k.team.sup, kindOk := fun j => j = 4 }
      (k.s 7).toNat = .ok q ∧ (portOk k.part q ∧ field q.ppa 52 4 = 0) ∧
      ∃ n, k.part.drainTarget (fun t => sameLaunch t.launch k.team.launch) (field q.ppa 22 13) (field q.ppa 6 4) (field q.ppa 3 3) =
        some n ∧ ∃ c, k.part.core? (field q.ppa 22 13) = some c ∧ ¬ (field q.ppa 22 13 = k.r.core ∧ n = k.accNo 0) ∧
          (c.accAt n).mode = (k.acc 0).mode ∧ (c.accAt n).modulus = (k.acc 0).modulus :=
  ofSome (by decide +kernel) ⟨by decide +kernel, ofOk (by decide +kernel) ⟨by decide +kernel, ofSome (by decide +kernel)
    (ofSome (by decide +kernel) (by decide +kernel))⟩⟩

/-- The port page names an accumulator of binding 1; the first peer port is in use, or none is. -/
def deepPeer (on : Bool) : State :=
  { (deep.putBytes 4096 (bytesOf [(0x14008, 2 ^ 57 + 2 ^ 52 + 0x4643)])).modPart 0 fun x => { x with bindings := [⟨1, ⟨5, 0, true⟩⟩] } with
    io := if on then [{ IoTile.reset 0 with peers := [true, false], host := some true }] else [] }

theorem witness_DrainsStart_peer : (deepPeer true).peerPort = some 0 ∧ (deepPeer false).peerPort = none ∧
    ∃ k, (deepPeer true).ctx = some k ∧ (0#3).toNat < k.team.hdr.accs ∧
      ∃ q, (deepPeer true).translate k.part k.core.tile { cls := 1, write := true, sup := k.team.sup, kindOk := fun j => j = 4 }
        (k.s 7).toNat = .ok q ∧ portOk k.part q ∧ q.ppa / 2 ^ 52 % 2 ^ 4 = 1 :=
  ⟨by decide +kernel, by decide +kernel, ofSome (by decide +kernel) ⟨by decide +kernel, ofOk (by decide +kernel) (by decide +kernel)⟩⟩

/-- A queue record in service in slot 3, with sequence number 9, a stopped split of another core attached. -/
def served : State :=
  (demo 1 0x00080000 [(1, 2 ^ 63 + 3 * 2 ^ 32 + 9), (2, 0x40000)] []).modPart 0 fun x =>
    { x with queue := [(3, ⟨.inService, 0, 0x13, 7, false, false, false, 1, 9, [.split 5 0 0]⟩)] }

theorem witness_SystemResults : ∃ k, served.ctx = some k ∧ (k.team.kind = .service ∧ k.team.liveSplits = 1) ∧
    (csrWritable 0x16 ∧ k.part.csrAccepts (0x16#8).toNat (k.s 2)) ∧
    ((k.s 2).toNat < 2 ^ 58 ∧ k.part.usesPage (k.part.samePage (k.s 2).toNat) = false ∧ k.part.usesPage (fun _ => true) = false) ∧
    ∀ e ∈ k.part.queue, e.2.state ≠ .posted :=
  ofSome (by decide +kernel) (by unfold csrWritable; decide +kernel)

/-- The same record, posted. -/
def posted : State :=
  (demo 1 0x00080000 [] []).modPart 0 fun x =>
    { x with queue := [(3, ⟨.posted, 0, 0x13, 7, false, false, false, 1, 9, [.split 5 0 0]⟩)] }

theorem witness_SystemResults_fqpop : ∃ k, posted.ctx = some k ∧ (k.team.kind = .service ∧ k.team.liveSplits = 1) ∧
    ∃ y, oldestPosted k.part.queue = some y ∧ y.1 = 3 :=
  ofSome (by decide +kernel) ⟨by decide +kernel, ofSome (by decide +kernel) (by decide +kernel)⟩

/-- A launch header of one lane at 0x20000 (s6): TEAM 1, the extents 1, FPPEAK 1, GANG and PHASES 1. -/
def headed : State :=
  (rootTeam.modTeam 0 0 1 fun t => t.setScalar 6 0x20000).putBytes 4096 (bytesOf
    [(0x20000, 0x10000), (0x20010, 2 ^ 32 + 2 ^ 16), (0x20018, 2 ^ 32)])

/-- 4,095 launches have been assigned since the first, which has not completed. -/
def windowFull : State := headed.modPart 0 fun x =>
  { x with lastLaunch := 4095, launches := [⟨1, Header.zero, false, 0, 0, false, false, false⟩] }

theorem witness_SystemResults_window : ∃ k, windowFull.ctx = some k ∧ k.team.kind = .root ∧ k.part.windowOpen = false :=
  ofSome (by decide +kernel) (by decide +kernel)

theorem witness_SystemResults_uses : ∃ k, (service.modPart 0 fun x =>
      { x with flights := [⟨⟨.service, 0, 0, 0⟩, 0, 0, 0, 0, 1, 0, ⟨[], 0, 0, 0⟩⟩] }).ctx = some k ∧
    k.part.usesPage (fun _ => true) ∧ k.part.usesPage (k.part.samePage 0x100) ∧
      k.part.usesPage (k.part.samePage (2 ^ 47)) = false :=
  ofSome (by decide +kernel) (by decide +kernel)

theorem witness_SystemResults_launch : ∃ k, headed.ctx = some k ∧
    (k.team.kind = .root ∧ (k.s 6).toNat % 64 = 0 ∧ (k.s 6).toNat < 2 ^ 58 ∧ k.part.windowOpen) ∧
    ∃ q, headed.reachBlock k blockRead (k.s 6) 128 = .ok q ∧ headed.blocked k.part k.core.tile q.locs = false :=
  ofSome (by decide +kernel) ⟨by decide +kernel, ofOk (by decide +kernel) (by decide +kernel)⟩

theorem witness_RecordsAreAnswered : ∃ k, served.ctx = some k ∧ k.team.kind = .service ∧
    ∃ y, k.part.served (k.s 1) = some y ∧ ∀ w ∈ y.2.attached, ∀ e, w ≠ .split k.r.core k.r.slot e :=
  ofSome (by decide +kernel) ⟨by decide +kernel, ofSome (by decide +kernel) (by
    intro w hw e
    have : w = .split 5 0 0 := by revert w; decide +kernel
    subst this
    have : ((served.ctx.get (by decide +kernel)).r.core) = 0 := by decide +kernel
    rw [this]
    simp)⟩

theorem witness_RecordsAreAnswered_refused : ∃ k, served.ctx = some k ∧ k.team.kind = .service ∧ k.part.served (k.s 2) = none :=
  ofSome (by decide +kernel) (by decide +kernel)

theorem witness_RecordsAreAnswered_resume : ∃ k, service.ctxAt ⟨0, 0, 0, 0⟩ = some k ∧ (0x13 ≠ 0x14) ∧ (8 ≠ 0x13 ∧ 8 ≠ 0x14) :=
  ofSome (by decide +kernel) (by decide)

theorem witness_RecordsAreAnswered_held :
    (∃ k, (service.modPart 0 fun x => { x with hold := .suspended }).ctxAt ⟨0, 0, 0, 0⟩ = some k ∧ k.part.hold = .suspended) ∧
    ∃ k, (rootTeam.modPart 0 fun x => { x with hold := .gated }).ctxAt ⟨0, 0, 1, 1⟩ = some k ∧ k.part.hold = .gated ∧
      k.team.kind ≠ .service :=
  ⟨ofSome (by decide +kernel) (by decide +kernel), ofSome (by decide +kernel) (by decide +kernel)⟩

/-- Four lanes with p1 true in all (0x61), p2 false in all, p3 true in lane 0; v4 holds the offset 64, v5 the offset 1. -/
def branching (pc : Nat) : State :=
  (demo 4 0x00080000 [(1, 7)] ((List.range 4).map (fun l => (0x61, l, 1)) ++ [(0x63, 0, 1)] ++
    (List.range 4).flatMap fun l => [(4, l, 64), (5, l, 1)])).modSplit ⟨0, 0, 0, 0⟩ fun x => { x with pc := BitVec.ofNat 64 pc }

theorem witness_UniformBranches : ∃ k, (branching 0x10000).ctx = some k ∧ k.lanes ≠ [] ∧
    (∀ l ∈ k.lanes, k.guard l ∧ k.p ⟨1, false⟩ l) ∧ (∀ l ∈ k.lanes, ¬ (k.guard l ∧ k.p ⟨2, false⟩ l)) ∧
    (∀ l ∈ k.lanes, k.guard l ∧ ¬ k.p ⟨2, false⟩ l) ∧ (∀ l ∈ k.lanes, ¬ (k.guard l ∧ ¬ k.p ⟨1, false⟩ l)) ∧
    k.acting ≠ [] ∧ (∃ l ∈ k.acting, k.p ⟨3, false⟩ l) ∧ (∃ l ∈ k.acting, ¬ k.p ⟨3, false⟩ l) ∧ k.team.liveSplits = 1 :=
  ofSome (by decide +kernel) (by decide +kernel)

theorem witness_TransfersAndCalls : ∃ k, (branching 0x1003C).ctx = some k ∧ k.lanes ≠ [] ∧
    (∀ l ∈ k.lanes, k.guard l ∧ k.v ⟨4, false⟩ l = 64) ∧ (64#32).toNat % 64 = 0 ∧ (∀ l ∈ k.lanes, k.guard l ∧ k.team.lane 63 l = 0) ∧
    (0#32).toNat % 64 = 0 ∧ k.split.pc.toNat % 64 = 60 ∧ k.takes (putLanes 63 k.lanes fun _ => 0) ∧ 3 ∈ k.acting ∧
    (k.v ⟨5, false⟩ 3).toNat % 64 ≠ 0 :=
  ofSome (by decide +kernel) (by unfold Ctx.takes; decide +kernel)

/-- A call under a guard that no lane meets. -/
theorem witness_TransfersAndCalls_none : ∃ k, ((demo 4 0x00080001 [] []).modSplit ⟨0, 0, 0, 0⟩ fun x => { x with pc := 0x1003C }).ctx =
    some k ∧ k.acting = [] ∧ k.split.pc.toNat % 64 = 60 ∧ k.lanes ≠ [] :=
  ofSome (by decide +kernel) (by decide +kernel)

theorem witness_TransfersAndCalls_slot : ∃ k, (branching 0x10000).ctx = some k ∧ k.split.pc.toNat % 4 = 0 ∧ k.split.pc.toNat % 64 ≠ 60 :=
  ofSome (by decide +kernel) (by decide +kernel)

theorem witness_DivergingBranchDividesTheSplit : ∃ k, (branching 0x10000).ctx = some k ∧
    (k.lanes.filter fun l => k.guard l && k.p ⟨3, false⟩ l) ≠ [] ∧ (k.lanes.filter fun l => !(k.guard l && k.p ⟨3, false⟩ l)) ≠ [] :=
  ofSome (by decide +kernel) (by decide +kernel)

/-- The same with the offsets 64 in lane 0 and 128 in the others in v6 and v63. -/
def parting : State :=
  (branching 0x1003C).modTeam 0 0 0 fun t => (List.range 4).foldl (fun t l =>
    (t.put ⟨6, l, if l = 0 then 64 else 128⟩).put ⟨63, l, if l = 0 then 64 else 128⟩) t

/-- A form divides its split: it may execute, and its lanes go to more than one address. -/
def Divides (i : Instr) (k : Ctx) : Prop := ∃ c, branchClaim i k = some c ∧ c.may ∧ k.takes c.puts ∧ 2 ≤ c.groups.length

theorem witness_DivergingBranchDividesTheSplit_forms : ∃ k, parting.ctx = some k ∧ Divides (.brc ⟨3, false⟩ 1) k ∧
    Divides (.brnc ⟨3, false⟩ 1) k ∧ Divides (.brx ⟨6, false⟩) k ∧ Divides .ret k ∧ Divides (.callx ⟨6, false⟩) k :=
  ofSome (by decide +kernel) ⟨⟨_, rfl, trivial, by unfold Ctx.takes; decide +kernel, by decide +kernel⟩,
    ⟨_, rfl, trivial, by unfold Ctx.takes; decide +kernel, by decide +kernel⟩,
    ⟨_, rfl, by show ∀ l ∈ _, _; decide +kernel, by unfold Ctx.takes; decide +kernel, by decide +kernel⟩,
    ⟨_, rfl, by show ∀ l ∈ _, _; decide +kernel, by unfold Ctx.takes; decide +kernel, by decide +kernel⟩,
    ⟨_, rfl, ⟨by decide +kernel, by show ∀ l ∈ _, _; decide +kernel⟩, by unfold Ctx.takes; decide +kernel, by decide +kernel⟩⟩

/-- A call under a guard that only lane 0 meets. -/
theorem witness_DivergingBranchDividesTheSplit_call : ∃ k, (demo 4 0x00080001 [] [(0x60, 0, 1)] |>.modSplit ⟨0, 0, 0, 0⟩ fun x =>
      { x with pc := 0x1003C }).ctx = some k ∧ Divides (.call 1) k :=
  ofSome (by decide +kernel) ⟨_, rfl, by decide +kernel, by unfold Ctx.takes; decide +kernel, by decide +kernel⟩

theorem witness_DivergingBranchDividesTheSplit_place : ∃ k, parting.ctxAt ⟨0, 0, 0, 0⟩ = some k ∧ k.r = ⟨0, 0, 0, 0⟩ ∧
    (k.core.teams.map fun t => t.slot).Nodup ∧ total (k.core.teams.map fun t => max 2 t.splits.length) ≤ 64 ∧
    0 < k.core.registersFor k.team ∧ 3 ≤ k.core.entriesFor k.team ∧ k.team.hdr.spill = 0 ∧ k.core.entriesFor k.team < 64 :=
  ofSome (by decide +kernel) (by decide +kernel)

theorem witness_SplitRegisters : ∃ k, (demo 1 0x00080000 [(1, 0x10), (2, 0x11)] []).ctx = some k ∧ (255#32).toNat < 2 ^ 8 ∧
    modeLegal ((k.s 2).setWidth 32) = false ∧ modeLegal 0x20 ∧ (16#8).toNat ≤ 16 ∧ modeLegal k.split.mr :=
  ofSome (by decide +kernel) (by decide +kernel)

theorem witness_SplitRegisters_mode : ∃ k, (demo 1 0x00080000 [(1, 0x20)] []).ctx = some k ∧ modeLegal ((k.s 1).setWidth 32) :=
  ofSome (by decide +kernel) (by decide +kernel)

theorem witness_SplitRegisters_refused : service.ctx.isSome ∧ modeLegal 0x11 = false ∧ 16 < (17#8).toNat ∧ 2 ^ 8 ≤ (0x100#32).toNat := by
  decide +kernel

/-- The split of a launched team of one lane executes, in the first of one or two phases. -/
def inLaunch (phases : Nat) : State :=
  demo 1 0x00080000 [] [] |>.modTeam 0 0 0 fun t =>
    { t with kind := .launched, launch := 1, hdr := { t.hdr with phases := phases, entry := 1, program := 0x10000 } }

theorem witness_YieldAndExit_launched : ∃ k, (inLaunch 2).ctx = some k ∧ k.team.kind = .launched ∧ k.team.liveSplits = 1 ∧
    k.split.parent = none ∧ (k.core.teams.map fun t => t.slot).Nodup ∧
    total (k.core.teams.map fun t => max 2 t.splits.length) ≤ 64 ∧ k.team.phase + 1 < k.team.hdr.phases :=
  ofSome (by decide +kernel) (by decide +kernel)

theorem witness_YieldAndExit_last : ∃ k, (inLaunch 1).ctx = some k ∧ k.team.kind = .launched ∧ k.team.liveSplits = 1 ∧
    k.split.parent = none ∧ ¬ k.team.phase + 1 < k.team.hdr.phases :=
  ofSome (by decide +kernel) (by decide +kernel)

theorem witness_YieldAndExit : ∃ k, (stamped 40).ctx = some k ∧ (0xFFFFFF#32).toNat < 2 ^ 24 ∧ (1#8).toNat ≤ 1 ∧
    ∃ q, (stamped 40).stampReach k (k.s 6) = .ok q ∧ (stamped 40).blocked k.part k.core.tile q.locs = false :=
  ofSome (by decide +kernel) ⟨by decide, by decide, ofOk (by decide +kernel) (by decide +kernel)⟩

theorem witness_YieldAndExit_unmet : ∃ k, (stamped 41).ctx = some k ∧
    ∃ q, (stamped 41).stampReach k (k.s 6) = .ok q ∧ (stamped 41).blocked k.part k.core.tile q.locs = false ∧
      meetsTarget (BitVec.ofNat 64 (leNat ((stamped 41).valueOf k.part.tag q))) (k.s 7) = false :=
  ofSome (by decide +kernel) (ofOk (by decide +kernel) (by decide +kernel))

def alone : SplitRef := ⟨0, 0, 0, 0⟩

theorem witness_WakeEvents_yield : let s := waitingFor (.yield 0 []) .yielded service
    ∃ k, s.ctxAt alone = some k ∧ s.frozen alone = false ∧ k.split.wait = .yield 0 [] :=
  ofSome (by decide +kernel) (by decide +kernel)

theorem witness_WakeEvents_yieldc : let s := waitingFor (.yieldc 0x20000 40 0x10000 true) .waitingMemory (stamped 40)
    ∃ k, s.ctxAt alone = some k ∧ (s.frozen alone = false ∧ k.split.wait = .yieldc 0x20000 40 0x10000 true) ∧
      ∃ q, s.stampReach k 0x20000 = .ok q ∧ s.blocked k.part k.core.tile q.locs = false ∧
        meetsTarget (BitVec.ofNat 64 (leNat (s.valueOf k.part.tag q))) 40 :=
  ofSome (by decide +kernel) ⟨by decide +kernel, ofOk (by decide +kernel) (by decide +kernel)⟩

theorem witness_WakeEvents_swait : let s := waitingFor (.stamp 0x20000 40 none 0 true) .waitingMemory (stamped 40)
    ∃ k, s.ctxAt alone = some k ∧ (s.frozen alone = false ∧ k.split.wait = .stamp 0x20000 40 none 0 true) ∧
      ∃ q, s.stampReach k 0x20000 = .ok q ∧ s.blocked k.part k.core.tile q.locs = false ∧
        meetsTarget (BitVec.ofNat 64 (leNat (s.valueOf k.part.tag q))) 40 :=
  ofSome (by decide +kernel) ⟨by decide +kernel, ofOk (by decide +kernel) (by decide +kernel)⟩

/-- The stamp's page has gone from the tables since the wait began. -/
theorem witness_WakeEvents_trap : let s := waitingFor (.stamp (2 ^ 47) 40 none 0 true) .waitingMemory (stamped 40)
    ∃ k, s.ctxAt alone = some k ∧ (s.frozen alone = false ∧ k.split.wait = .stamp (2 ^ 47) 40 none 0 true) ∧
      ∃ e, s.stampReach k (2 ^ 47) = .error e :=
  ofSome (by decide +kernel) ⟨by decide +kernel, ofError (by decide +kernel)⟩

/-- No write to the stamp's line since it was read. -/
theorem witness_WakeEvents_quiet : let s := waitingFor (.stamp 0x20000 41 none 0 false) .waitingMemory (stamped 40)
    ∃ k, s.ctxAt alone = some k ∧ k.split.wait = .stamp 0x20000 41 none 0 false :=
  ofSome (by decide +kernel) (by decide +kernel)

theorem witness_WakeEvents_monitor : let s := waitingFor (.monitor none 0) .waitingMemory triggered
    ∃ k, s.ctxAt alone = some k ∧ s.frozen alone = false ∧ k.split.wait = .monitor none 0 ∧ k.team.monitor.trig :=
  ofSome (by decide +kernel) (by decide +kernel)

theorem witness_WakeEvents_aperture : let s := waitingFor (.aperture [] []) .waitingMemory service
    ∃ k, s.ctxAt alone = some k ∧ s.frozen alone = false ∧ k.split.wait = .aperture [] [] ∧ (s.acceptAll alone []).2 = [] :=
  ofSome (by decide +kernel) (by decide +kernel)

/-- A service team's split in a wait since cycle 0, at cycle 1,024. -/
def overdue (w : Wait) : State := { waitingFor w .waitingMemory service with cycle := 1024 }

theorem witness_TimeLimits : ∀ w ∈ [Wait.bwait 0 1 (some 0), .grid 1 (some 0), .stamp 0x20000 41 (some 1) 0 true,
      .stamp 0x20000 41 (some 1) 0 false, .monitor (some 1) 0],
    ∃ k, (overdue w).ctxAt alone = some k ∧ ((overdue w).frozen alone = false ∧ k.split.wait = w) ∧
      ∃ q, (overdue w).stampReach k 0x20000 = .ok q := by
  intro w hw
  simp only [List.mem_cons, List.not_mem_nil, or_false] at hw
  rcases hw with rfl | rfl | rfl | rfl | rfl <;>
    exact ofSome (by decide +kernel) ⟨by decide +kernel, _, okGet (by decide +kernel)⟩

/-- A rendezvous that has been open for 65,536 cycles. -/
def rendezvous : State :=
  { service.modCore 0 0 fun c => c.modGang 0 fun g => { g with latch := some ⟨.mma, 0, 0, 1, 1, 0, 0, [(0, 0)], false, []⟩ } with cycle := 65536 }

theorem witness_TimeLimits_rendezvous : ∃ c, rendezvous.core? 0 0 = some c ∧ ∃ x, c.gang? 0 = some x ∧ ∃ h, x.latch = some h ∧
    h.complete = false ∧ c.silent = false ∧ h.opened + 65536 ≤ rendezvous.cycle :=
  ofSome (by decide +kernel) (ofSome (by decide +kernel) (ofSome (by decide +kernel) (by decide +kernel)))

/-- Two ready splits of one team at the same block. -/
def meeting : State :=
  service.modTeam 0 0 0 fun t =>
    { t with splits := t.splits.map (fun x => { x with mask := 1 }) ++ t.splits.map fun x => { x with entry := 2, mask := 2 } }

theorem witness_SchedulingEvents_meet : meeting.frozen alone = false ∧ ∃ k, meeting.ctxAt alone = some k ∧
    ∃ y, meeting.split? ⟨0, 0, 0, 2⟩ = some y ∧ meets k.split y :=
  ⟨by decide +kernel, ofSome (by decide +kernel) (ofSome (by decide +kernel) (by decide +kernel))⟩

def rotating : State :=
  service.modTeam 0 0 0 fun t =>
    { t with splits := t.splits.map (fun x => { x with issued := 512 }), spilled := [⟨0, true, true, 0, 0, false, .none, false⟩] }

theorem witness_SchedulingEvents_rotation : ∃ k, rotating.ctxAt alone = some k ∧ rotating.frozen alone = false ∧
    k.split.state = .ready ∧ k.split.begun = false ∧ 512 ≤ k.split.issued ∧ (∃ x ∈ k.team.spilled, x.isSplit ∧ x.ready) :=
  ofSome (by decide +kernel) (by decide +kernel)

/-- A ready split in the first run of records, by what a spill writes there. -/
def spilledOne : State := (service.modTeam 0 0 0 fun t => { t with hdr := { t.hdr with spill := 3 } }).writeSplitRun ⟨0, 0, 0⟩ 0
  { entry := 0, pc := 0x10040, mr := 0x00080000, mask := 2, pending := none, parent := none, regionPc := 0x10040
    regionMr := 0x00080000, liveIn := 0, state := .ready, wait := .none, issued := 0, nonIdem := false, drawn := [] }

theorem witness_SchedulingEvents_exchange : ∃ u, spilledOne.teamAt ⟨0, 0, 0⟩ = some u ∧ (u.split? 0).isSome ∧
    ∃ run, earliest (u.spilled.filter fun x => x.isSplit && x.ready) = some run ∧
      splitRecordOk (spilledOne.spillBytes ⟨0, 0, 0⟩ u run.first 192) :=
  ofSome (by decide +kernel) ⟨by decide +kernel, ofSome (by decide +kernel) (by decide +kernel)⟩

theorem witness_SchedulingEvents_starvation : let s := { service with cycle := 256 }
    ∃ u, s.teamAt ⟨0, 0, 0⟩ = some u ∧ u.rank = none ∧ (∃ x ∈ u.splits, x.state = .ready) ∧ u.lastIssue + 256 ≤ s.cycle :=
  ofSome (by decide +kernel) (by decide +kernel)

theorem witness_SchedulingEvents_release :
    let s := service.modCore 0 0 fun c => { c with releases := [⟨1, [(.launched, 0)], [5], [], [], []⟩] }
    ∃ c, s.core? 0 0 = some c ∧ ∃ q, c.releases[0]? = some q ∧ c.owes q.launch q.teams = false :=
  ofSome (by decide +kernel) (ofSome (by decide +kernel) (by decide +kernel))

/-- A launch of one team, with or without a completion stamp, and the partition that holds it. -/
def launchOf (stamp : W64) (placed ended : Nat) : Launch :=
  { n := 1, hdr := { Header.zero with program := 0x10000, team := 1, fppeak := 1, stamp := stamp }, refused := false
    placed := placed, ended := ended, error := false, stampWaits := false, done := false }

def launched (h : Launch) : State := service.modPart 0 fun x => { x with launches := [h], lastLaunch := 1 }

theorem witness_SchedulingEvents_dispatch : ∃ x, (launched (launchOf 0 0 0)).part? 0 = some x ∧ (x.hold = .running) ∧
    ∃ h, firstLaunch (x.launches.filter x.placeable) = some h ∧ ∃ l, x.findCore h.hdr = some l ∧ ∃ c, x.core? l = some c ∧
      c.pickOk h.hdr ⟨[2], [2], [[]], [], [], []⟩ :=
  ofSome (by decide +kernel) ⟨by decide +kernel, ofSome (by decide +kernel) (ofSome (by decide +kernel)
    (ofSome (by decide +kernel) (by decide +kernel)))⟩

theorem witness_SchedulingEvents_completion : ∃ x, (launched (launchOf 0 1 1)).part? 0 = some x ∧ (x.hold ≠ .suspended) ∧
    (x.core? 0).isSome ∧ ∃ h, (x.launches.find? fun e => e.n = 1) = some h ∧ h.done = false ∧ h.stampWaits = false ∧ x.workEnded h ∧
      h.hdr.stamp = 0 :=
  ofSome (by decide +kernel) ⟨by decide +kernel, by decide +kernel, ofSome (by decide +kernel) (by decide +kernel)⟩

theorem witness_SchedulingEvents_stamp : let s := launched (launchOf 0x20000 1 1)
    ∃ x, s.part? 0 = some x ∧ (x.hold ≠ .suspended) ∧ ∃ c, x.core? 0 = some c ∧
      ∃ h, (x.launches.find? fun e => e.n = 1) = some h ∧ (h.done = false ∧ h.stampWaits = false ∧ x.workEnded h ∧ h.hdr.stamp ≠ 0) ∧
      ∃ q, s.reach x c.tile false (remoteTo 0) { cls := 1, write := true, kinds := [0] } h.hdr.stamp 8 = .ok q ∧
        s.blocked x c.tile q.locs = false :=
  ofSome (by decide +kernel) ⟨by decide +kernel, ofSome (by decide +kernel) (ofSome (by decide +kernel) ⟨by decide +kernel,
    ofOk (by decide +kernel) (by decide +kernel)⟩)⟩

/-- An event that waits outside the queue. -/
def heldEvent : Event := { va := 0, code := 0x13, cls := 7, sup := false, absent := false, team := 0, split := 0, arg := 0, region := 0, waiter := none }

theorem witness_SchedulingEvents_held : let s := service.modPart 0 fun x => { x with heldEvents := [heldEvent] }
    ∃ x, s.part? 0 = some x ∧ (x.heldEvents = heldEvent :: [] ∧ x.mergeSlot heldEvent = none) ∧ ∃ i, x.openSlot = some i ∧ i = 0 :=
  ofSome (by decide +kernel) ⟨by decide +kernel, ofSome (by decide +kernel) (by decide +kernel)⟩

/-- `deep` once its aperture store has queued a copy on channel 0 of core 0: destination lines 0x840. -/
def copying : State := match exec (.st64 ⟨4, false⟩ (.s 6) .none) deep with
  | .next t => t
  | _ => deep

/-- Its channel is full, so that a further store waits. -/
def crowded : State :=
  deep.modCore 0 0 fun c => { c with chans := match copying.core? 0 0 with
    | none => []
    | some d => d.chans.map fun e => (e.1, { e.2 with queue := (List.replicate Config.channelDepth e.2.queue).flatten }) }

theorem witness_CopyControl_full : ∃ k, crowded.ctx = some k ∧ baseOk (.s 6) ∧
    (∃ y ∈ accesses k.acting (k.address (.s 6) .none) 8, crowded.kindAt k y.ea = some 3) ∧
    ∃ os, crowded.checkOffers k (k.v2 ⟨4, false⟩) (accesses k.acting (k.address (.s 6) .none) 8) = .ok os ∧
      ((os.foldl (fun u o => u.keepOffer k o.1.lane o.1.ea (k.v2 ⟨4, false⟩ o.1.lane) o.2) crowded).acceptAll k.r
        (os.map fun o => o.2)).2.length = 1 :=
  ofSome (by decide +kernel) ⟨trivial, by decide +kernel, ofOk (by decide +kernel) (by decide +kernel)⟩

theorem witness_CopyEngineEvents_line : ∃ x, copying.part? 0 = some x ∧ (x.hold ≠ .suspended) ∧
    ∃ c, copying.core? 0 0 = some c ∧ (c.absent = false ∧ c.silent = false ∧ (c.chan 0).suspended = false) ∧
      ∃ y, (c.chan 0).queue[0]? = some y ∧ c.earlierFill y = false ∧ x.silent (copying.lineLocs x c y 0x840) = false ∧
        copying.awaitsLink x c.tile (copying.lineLocs x c y 0x840) = false ∧ 0x840 ∈ y.left :=
  ofSome (by decide +kernel) ⟨by decide +kernel, ofSome (by decide +kernel) ⟨by decide +kernel, ofSome (by decide +kernel)
    (by decide +kernel)⟩⟩

/-- The same copy with its payload written, and with a line sent and not answered. -/
def copied (unacked : List Nat) : State :=
  copying.modCore 0 0 fun c =>
    { c with chans := c.chans.map fun e => (e.1, { e.2 with queue := e.2.queue.map fun y => { y with left := [], unacked := unacked } }) }

theorem witness_CopyEngineEvents_performed : ∃ x, copying.part? 0 = some x ∧ ∃ c, copying.core? 0 0 = some c ∧
    ∃ y, (c.chan 0).queue[0]? = some y ∧ (y.tmpl.dst = 0 ∧ y.held = []) ∧
      ∃ put, copying.linePut x c y 0x840 = .ok put ∧ put.any (fun e => e.1 ≠ [] && !x.heldByOthers y.id (e.1.map (·.1))) :=
  ofSome (by decide +kernel) (ofSome (by decide +kernel) (ofSome (by decide +kernel)
    ⟨by decide +kernel, ofOk (by decide +kernel) (by decide +kernel)⟩))

/-- The same copy with a tile as its destination, and as a scatter to frame 0 of core 0 or of a core that there is not. -/
def toTile (y : Copy) : Copy := { y with tmpl := { y.tmpl with dst := 1 } }
def scattered (m : Nat) (y : Copy) : Copy := { y with tmpl := { y.tmpl with dst := 2, dims := 2 }, scatter := some (1, 0, [(m, 0)]) }

theorem witness_CopyEngineEvents_places : ∃ x, copying.part? 0 = some x ∧ ∃ c, copying.core? 0 0 = some c ∧
    ∃ y, (c.chan 0).queue[0]? = some y ∧
      (∃ d, copying.lineData x c.tile y.issuer.sup (toTile y).tmpl y.arg (cellRuns copying.tick (lineCells (toTile y).tmpl y.arg 0 0)) =
        .ok d ∧ d.1 ≠ []) ∧
      ((x.memberLoc true (5, 0) 0 = none ∧ (x.memberLoc true (0, 0) 0).isSome) ∧
      ∃ d, copying.lineData x c.tile y.issuer.sup (scattered 0 y).tmpl y.arg
        (cellRuns copying.tick (lineCells (scattered 0 y).tmpl y.arg 0 0)) = .ok d ∧
        x.heldByOthers y.id ((d.1.filterMap fun e => (x.memberLoc true (0, 0) e.1).map fun a => (a, e.2)).map (·.1)) = false) :=
  ofSome (by decide +kernel) (ofSome (by decide +kernel) (ofSome (by decide +kernel)
    ⟨ofOk (by decide +kernel) (by decide +kernel), by decide +kernel, ofOk (by decide +kernel) (by decide +kernel)⟩))

/-- The same copy to binding 1, at window offset 0 or at the end of the window's addresses. -/
def toPeer (far : Bool) (y : Copy) : Copy :=
  { y with tmpl := { y.tmpl with dst := 3, scope := 5 }, arg := { y.arg with dst := if far then 2 ^ 60 + (2 ^ 58 - 32) else 2 ^ 60 } }

def copyingOut : State :=
  { copying with io := [{ IoTile.reset 0 with peers := [true, false], host := some true }] }.modPart 0 fun x =>
    { x with bindings := [⟨1, ⟨5, 0, true⟩⟩] }

theorem witness_CopyEngineEvents_peer : copyingOut.peerPort = some 0 ∧ copying.peerPort = none ∧
    ∃ x, copyingOut.part? 0 = some x ∧ ∃ c, copyingOut.core? 0 0 = some c ∧ ∃ y, (c.chan 0).queue[0]? = some y ∧
      (x.bound (toPeer false y).arg.binding ∧ x.bound 2 = false ∧
        (∀ e ∈ lineCells (toPeer false y).tmpl (toPeer false y).arg 0 0, e.dest < 2 ^ 58) ∧
        ((lineCells (toPeer true y).tmpl (toPeer true y).arg 0 (2 ^ 52 )).find? fun e => 2 ^ 58 ≤ e.dest).isSome) ∧
      ∃ d, copyingOut.lineData x c.tile y.issuer.sup (toPeer false y).tmpl (toPeer false y).arg
        (cellRuns copyingOut.tick (lineCells (toPeer false y).tmpl (toPeer false y).arg 0 0)) = .ok d ∧ d.1 ≠ [] :=
  ⟨by decide +kernel, by decide +kernel, ofSome (by decide +kernel) (ofSome (by decide +kernel) (ofSome (by decide +kernel)
    ⟨by decide +kernel, ofOk (by decide +kernel) (by decide +kernel)⟩))⟩

theorem witness_CopyEngineEvents_written : ∃ x, copying.part? 0 = some x ∧ ∃ c, copying.core? 0 0 = some c ∧
    ∃ y, (c.chan 0).queue[0]? = some y ∧
      ∃ q, copying.engineReach x c.tile y.issuer.sup { cls := 6, write := true, kinds := [0] } 0x22000 8 = .ok q ∧
        x.heldByOthers y.id q.locs = false :=
  ofSome (by decide +kernel) (ofSome (by decide +kernel) (ofSome (by decide +kernel) (ofOk (by decide +kernel) (by decide +kernel))))

/-- The copy with its line taken ahead, and another copy that holds the line of the stamp. -/
def holding (n : Nat) : State :=
  copying.modCore 0 0 fun c =>
    { c with chans := c.chans.map fun e => (e.1, { e.2 with queue := e.2.queue.flatMap fun y =>
        [{ y with held := [⟨0x840, [(0x121000, 7)], 1⟩] }, { y with id := y.id + 1, held := [⟨0x880, [(n, 7)], 1⟩] }] }) }

theorem witness_CopyEngineEvents_held : ∃ x, (holding 0).part? 0 = some x ∧ ∃ c, (holding 0).core? 0 0 = some c ∧
    ∃ y, (c.chan 0).queue[0]? = some y ∧ ∃ h, (y.held.find? fun h => h.line = 0x840) = some h ∧
      x.silent (h.cells.map (·.1)) = false ∧ (holding 0).awaitsLink x c.tile (h.cells.map (·.1)) = false :=
  ofSome (by decide +kernel) (ofSome (by decide +kernel) (ofSome (by decide +kernel) (ofSome (by decide +kernel) (by decide +kernel))))

theorem witness_CopyEngineEvents_waits : ∃ x, (holding 0x22000).part? 0 = some x ∧ ∃ c, (holding 0x22000).core? 0 0 = some c ∧
    ∃ y, (c.chan 0).queue[0]? = some y ∧
      ∃ q, (holding 0x22000).engineReach x c.tile y.issuer.sup { cls := 6, write := true, kinds := [0] } 0x22000 8 = .ok q ∧
        x.heldByOthers y.id q.locs :=
  ofSome (by decide +kernel) (ofSome (by decide +kernel) (ofSome (by decide +kernel) (ofOk (by decide +kernel) (by decide +kernel))))

/-- Core 0's state is lost, and virtual address 2³⁶ leads to its frame 0. -/
def stampLost : State :=
  ((copying.putBytes 4096 (bytesOf [(0x14000, 2 ^ 56 + 0x683)])).modCore 0 0 fun c => { c with lost := true }).modPart 0 fun x =>
    { x with rtu := [] }

theorem witness_CopyEngineEvents_lost : ∃ x, stampLost.part? 0 = some x ∧ ∃ c, stampLost.core? 0 0 = some c ∧
    ∃ q, stampLost.engineReach x c.tile false { cls := 6, write := true, kinds := [0] } (2 ^ 36) 8 = .ok q ∧ x.onLost q.locs :=
  ofSome (by decide +kernel) (ofSome (by decide +kernel) (ofOk (by decide +kernel) (by decide +kernel)))

theorem witness_CopyEngineEvents_stamp : ∃ c, (copied []).core? 0 0 = some c ∧
    ∃ y, (c.chan 0).queue[0]? = some y ∧ y.left = [] ∧ c.earlierFill y = false ∧ y.arg.seq.getLsbD 63 = false :=
  ofSome (by decide +kernel) (ofSome (by decide +kernel) (by decide +kernel))

theorem witness_CopyEngineEvents_answer : ∃ c, (copied [0x840]).core? 0 0 = some c ∧
    ∃ y, (c.chan 0).queue[0]? = some y ∧ 0x840 ∈ y.unacked :=
  ofSome (by decide +kernel) (ofSome (by decide +kernel) (by decide +kernel))

/-- A binding 1 in force, and a peer window of one page at PPA 0x20000. -/
def bound : State :=
  { service with io := [{ IoTile.reset 0 with peers := [true, false], host := some true }] }.modPart 0 fun x =>
    { x with bindings := [⟨1, ⟨5, 0, true⟩⟩], csr := { x.csr with pwbase := 0x20000, pwctl := 0x10000 } }

theorem witness_CopyEngineEvents_receive : ∃ x, bound.part? 0 = some x ∧ (x.bound 1 ∧ x.hold ≠ .suspended ∧
    16382 + [1#8, 2#8].length ≤ x.windowSize ∧ x.windowSize < 16383 + [1#8, 2#8].length) ∧
    bound.peerPort = some 0 ∧ ∃ locs, x.locsOf (x.csr.pwbase.toNat + 16382) 2 = some locs ∧ x.blocked locs = false :=
  ofSome (by decide +kernel) ⟨by decide +kernel, by decide +kernel, ofSome (by decide +kernel) (by decide +kernel)⟩

def someIssuer : Issuer := ⟨.service, 0, 0, 0⟩

/-- A drain with one line to write, and a peer drain on its way into accumulator 1 of the service team. -/
def draining : State :=
  (service.modCore 0 0 fun c => { c with drains := [⟨someIssuer, 0x20000, 0, 0, false, 0, [], [(0x800, 0x20000)]⟩] }).modPart 0 fun x =>
    { x with flights := [⟨someIssuer, 0, 0, 0, 0, 1, 0, ⟨[], 0, 0, 0⟩⟩, ⟨someIssuer, 0, 1, 0, 0, 1, 0, ⟨[], 0, 0, 0⟩⟩] }

theorem witness_DrainEvents_line : ∃ x, draining.part? 0 = some x ∧ ∃ c, draining.core? 0 0 = some c ∧
    ∃ d, c.drains[0]? = some d ∧ (d.left.find? fun e => e.1 = 0x800) = some (0x800, 0x20000) ∧ x.hold ≠ .suspended ∧
      c.silent = false ∧ x.heldByOthers x.copyCount (((d.lineBytes 0x800).filterMap fun e =>
        (x.locOf (0x20000 + e.1)).map fun a => (a, e.2)).map (·.1)) = false ∧
      draining.awaitsLink x c.tile (((d.lineBytes 0x800).filterMap fun e =>
        (x.locOf (0x20000 + e.1)).map fun a => (a, e.2)).map (·.1)) = false :=
  ofSome (by decide +kernel) (ofSome (by decide +kernel) (ofSome (by decide +kernel) (by decide +kernel)))

theorem witness_DrainEvents_addition : ∃ x, draining.part? 0 = some x ∧ (x.hold ≠ .suspended) ∧
    ∃ f, x.flights[0]? = some f ∧ (f.binding = 0 ∧ x.overtakes 0 f = false ∧ draining.awaitsCore x f.srcCore f.core = false) ∧
      ∃ c, x.core? f.core = some c ∧ c.silent = false ∧
      ∃ a, x.flightTarget f = some a ∧ (c.accAt a).mode = f.data.mode ∧ (c.accAt a).modulus = f.data.modulus :=
  ofSome (by decide +kernel) ⟨by decide +kernel, ofSome (by decide +kernel) ⟨by decide +kernel, ofSome (by decide +kernel)
    ⟨by decide +kernel, ofSome (by decide +kernel) (by decide +kernel)⟩⟩⟩

/-- A peer drain that finds no team in slot 9, and one that finds another mode. -/
def astray (slot mode : Nat) : State := service.modPart 0 fun x => { x with flights := [⟨someIssuer, 0, 0, 0, slot, 1, 0, ⟨[], mode, 0, 0⟩⟩] }

theorem witness_DrainEvents_astray : ∀ e ∈ [(9, 0), (0, 1)], ∃ x, (astray e.1 e.2).part? 0 = some x ∧ (x.hold ≠ .suspended) ∧
    ∃ f, x.flights[0]? = some f ∧ (f.binding = 0 ∧ x.overtakes 0 f = false ∧ (astray e.1 e.2).awaitsCore x f.srcCore f.core = false ∧
      (x.core? f.core).any Core.silent = false) ∧ (e.1 = 9 → x.flightTarget f = none) ∧
      (e.1 = 0 → (x.flightTarget f).any fun a => (x.core? f.core).any fun c => (c.accAt a).mode ≠ f.data.mode) := by
  intro e he
  simp only [List.mem_cons, List.not_mem_nil, or_false] at he
  rcases he with rfl | rfl <;> exact ofSome (by decide +kernel) ⟨by decide +kernel, ofSome (by decide +kernel) (by decide +kernel)⟩

/-- The team of slot 0 is a launched one, and PWCTL admits binding 1, or not. -/
def admitting (admits : Bool) : State :=
  (bound.modTeam 0 0 0 fun t => { t with kind := .launched }).modPart 0 fun x =>
    { x with csr := { x.csr with pwctl := if admits then 0x10002 else 0x10000 } }

theorem witness_DrainEvents_bound : (admitting true).peerPort = some 0 ∧ (admitting false).peerPort = some 0 ∧
    (∃ x, (admitting true).part? 0 = some x ∧ (x.hold ≠ .suspended ∧ x.bound 1 ∧ (x.core? 0).any Core.silent = false ∧
      x.csr.pwctl.getLsbD 1 ∧ x.drainTarget (fun t => t.kind = .launched) 0 9 0 = none) ∧
      ∃ n, x.drainTarget (fun t => t.kind = .launched) 0 0 0 = some n ∧ ∃ c, x.core? 0 = some c ∧ (c.accAt n).mode = 0) ∧
    ∃ x, (admitting false).part? 0 = some x ∧ x.csr.pwctl.getLsbD 1 = false :=
  ⟨by decide +kernel, by decide +kernel, ofSome (by decide +kernel) ⟨by decide +kernel, ofSome (by decide +kernel)
    (ofSome (by decide +kernel) (by decide +kernel))⟩, ofSome (by decide +kernel) (by decide +kernel)⟩

theorem witness_DrainEvents_acknowledgement : ∃ x, draining.part? 0 = some x ∧ ∃ f, x.flights[1]? = some f ∧ f.binding ≠ 0 :=
  ofSome (by decide +kernel) (ofSome (by decide +kernel) (by decide +kernel))

/-- I/O tile 0 with its host port and its first peer port in use. -/
def portsUp : List IoTile := [{ IoTile.reset 0 with peers := [true, false], host := some true }]

def tileOf (st : TileState) (cores : List PhysState) : TileInfo := { state := st, cores := cores, duty := 16 }

/-- A module in service with three tiles: one holds the partition (a live core, a spare, a retired one), one is free, one is
spare. -/
def inService : State :=
  { service with
    booted := true, mintHealthy := true, capacity := 0x400000, io := portsUp
    tiles := [tileOf .assigned [.live, .spare, .retired], tileOf .free [.live], tileOf .spare [.live]] }

/-- Whether two tiles are neighbours is a free value: where tiles 0 and 1 are, every hypothesis of a grow is met. -/
theorem witness_ReshapesAreQuiesces_grow : ∃ x, inService.part? 0 = some x ∧ (inService.halted = false ∧ x.hold ≠ .suspended) ∧
    (inService.joins 0 1 = true → inService.growOk ⟨[1], none, 2⟩ x) ∧ inService.growOk ⟨[2], none, 1⟩ x = false :=
  ofSome (by decide +kernel) ⟨by decide +kernel, by
    intro h
    have h' : inService.joins 1 0 = true := by rw [← h, State.joins, State.joins, Bool.and_comm]
    have hx : ((inService.part? 0).get (by decide +kernel)).tiles = [0] := by decide +kernel
    have hc : inService.connected [0, 1] = true := by
      simp [State.connected, State.span, State.spread, State.nextLevel, inTree, h]
    have hd : inService.treeDepth [0, 1] = 2 := by
      simp [State.treeDepth, State.depthFrom, State.span, State.spread, State.nextLevel, inTree, h, h', greatest]
    simp only [State.growOk, hx, List.cons_append, List.nil_append, State.depthOk, hc, hd]
    decide +kernel, by decide +kernel⟩

/-- The partition has a second core, on tile 1. -/
def twoTiles : State :=
  inService.modPart 0 fun x => { x with tiles := [0, 1], cores := x.cores ++ [freshCore 1 0] }

theorem witness_ReshapesAreQuiesces_shrink : ∃ x, twoTiles.part? 0 = some x ∧ twoTiles.halted = false ∧ x.hold ≠ .suspended ∧
    twoTiles.shrinkOk ⟨1, [1], [], none, 1⟩ x :=
  ofSome (by decide +kernel) (by decide +kernel)

theorem witness_ReshapesAreQuiesces_compaction : ∃ x, twoTiles.part? 0 = some x ∧ twoTiles.halted = false ∧ x.hold ≠ .suspended ∧
    colsOk (some 2) ((x.cores.filter fun c => !c.absent).length + (twoTiles.returned x).length) ∧
    ((twoTiles.compact 0 none).part? 0).isSome ∧ ∃ c ∈ x.cores, c.absent = false :=
  ofSome (by decide +kernel) (by decide +kernel)

theorem witness_ReshapesAreQuiesces_migration : let s := { inService with tiles := inService.tiles.set 0 (tileOf .degraded [.live]) }
    ∃ x, s.part? 0 = some x ∧ s.halted = false ∧ x.hold ≠ .suspended ∧ 0 ∈ x.tiles ∧ s.mayMigrate x 0 ∧ s.mayReplace x 0 2 ∧
      ((s.migrate 0 0 2).part? 0).isSome :=
  ofSome (by decide +kernel) (by decide +kernel)

theorem witness_ReshapesAreQuiesces_erasing : ∃ x, inService.part? 0 = some x ∧ (inService.halted = false ∧ x.hold ≠ .suspended ∧
    inService.alarm1 = false ∧ inService.mintHealthy ∧ inService.mayBump x) ∧
    ∃ r, inService.spareSlot = some r ∧ ∃ t, inService.generate r .memory 0 = .ok t ∧ True :=
  ofSome (by decide +kernel) ⟨by decide +kernel, ofSome (by decide +kernel) (ofOk (by decide +kernel) trivial)⟩

/-- The next generation of the partition's owner, 1, has been used and not been scrubbed since. -/
def worn : State := { inService with worn := [4097] }

theorem witness_ReshapesAreQuiesces_waits : ∃ x, worn.part? 0 = some x ∧ worn.halted = false ∧ x.hold ≠ .suspended ∧
    worn.alarm1 = false ∧ worn.mintHealthy ∧ worn.mayBump x = false ∧ worn.spareSlot.isSome :=
  ofSome (by decide +kernel) (by decide +kernel)

theorem witness_ReshapesAreQuiesces_refused : ({ inService with alarm1 := true } : State).alarm1 = true ∧
    ({ inService with mintHealthy := false } : State).mintHealthy = false ∧ inService.alarm1 = false := by decide +kernel

theorem witness_ReshapesAreQuiesces_strand : ∀ x ∈ inService.parts, ∀ t ∈ x.tiles, inService.tileFailed t = false := by
  decide +kernel

theorem witness_ReshapesAreQuiesces_suspended : let s := inService.modPart 0 fun x => { x with hold := .suspended, byHost := true }
    ∃ x, s.part? 0 = some x ∧ s.halted = false ∧ x.hold = .suspended ∧ x.byHost ∧ x.byHeat = false :=
  ofSome (by decide +kernel) (by decide +kernel)

/-- Tile 0 is degraded; the partition is suspended where `held`, and tile 0 failed during that suspension. -/
def failing (held : Bool) : State :=
  { inService.modPart 0 fun x => { x with hold := if held then .suspended else x.hold, failedNow := if held then [0] else [] } with
    tiles := inService.tiles.set 0 (tileOf .degraded [.live]) }

theorem witness_ReshapesAreQuiesces_folded : ∃ x, (failing true).part? 0 = some x ∧ (failing true).halted = false ∧
    x.hold = .suspended ∧ 0 ∈ x.failedNow ∧ (0 ∈ x.tiles ∧ (failing true).mayMigrate x 0 ∧ (failing true).mayReplace x 0 2) ∧
    (failing true).mayReplace x 0 0 = false ∧ 1 ∉ x.failedNow :=
  ofSome (by decide +kernel) (by decide +kernel)

theorem witness_ReshapesAreQuiesces_not : ∃ x, twoTiles.part? 0 = some x ∧ twoTiles.halted = false ∧ x.hold ≠ .suspended ∧
    twoTiles.shrinkOk ⟨0, [1], [], none, 1⟩ x = false ∧
    colsOk (some 9) ((x.cores.filter fun c => !c.absent).length + (twoTiles.returned x).length) = false ∧
    twoTiles.mayReplace x 0 1 = false :=
  ofSome (by decide +kernel) (by decide +kernel)

def key (st : SlotState) (use : Purpose) (p : Nat) : VaultSlot := { state := st, key := 1, use := use, owner := p, since := 0 }

/-- No replacement slot is empty. -/
def fullSpares : State := { inService with vault := (List.range 56).map fun i => (200 + i, key .active .detour 9) }

theorem witness_ReshapesAreQuiesces_full : ∃ x, fullSpares.part? 0 = some x ∧ fullSpares.halted = false ∧ x.hold ≠ .suspended ∧
    fullSpares.alarm1 = false ∧ fullSpares.mintHealthy ∧ fullSpares.spareSlot = none :=
  ofSome (by decide +kernel) (by decide +kernel)

/-- The router of dead tile 2 holds tables of partition 0, which does not hold that tile. -/
theorem witness_ReshapesAreQuiesces_through :
    let s := { inService with tiles := inService.tiles.set 2 { tileOf .dead [] with router := [(0, [⟨0, 1, 0⟩])] } }
    0 ∈ s.throughDead ∧ inService.throughDead = [] := by decide +kernel

/-- A creation command for partition 1 on tile 1, with host port 0. -/
def creation : CreateSpec :=
  { pindex := 1, owner := 2, generation := 0, tiles := [1], cols := none, base := 0x100000, alloc := 0x100000, depth := 1
    s1root := 0x4000, eqbase := 0x1000, logn := 6, ttbase := 0x3000, ttsize := 64, mboxppa := 0x2000, service := loadTeam true
    root := loadTeam false, image := [] }

def asked (mint : Bool) : State := { inService with mintHealthy := mint, inputs := { inService.inputs with create := some creation } }

theorem witness_CreationAndDestruction_create : ∃ c, (asked true).inputs.create = some c ∧
    ((asked true).halted = false ∧ (asked true).booted ∧ (asked true).alarm1 = false ∧ (asked true).tilesOk c) ∧
    ∃ t, (asked true).partitionKeys c.pindex [.memory, .detour, .hostStream] = .ok t ∧ t.createOk c :=
  ofSome (by decide +kernel) ⟨by decide +kernel, ofOk (by decide +kernel) (by decide +kernel)⟩

theorem witness_CreationAndDestruction_refuse : ∃ c, (asked false).inputs.create = some c ∧
    ((asked false).halted = false ∧ (asked false).booted ∧ (asked false).alarm1 = false ∧ (asked false).tilesOk c ∧
      (asked false).mintHealthy = false ∧ (asked false).tilesOk { c with tiles := [0] } = false) ∧
    ∃ e, (asked false).partitionKeys c.pindex [.memory, .detour, .hostStream] = .error e :=
  ofSome (by decide +kernel) ⟨by decide +kernel, ofError (by decide +kernel)⟩

theorem witness_CreationAndDestruction_destroy : ∃ x, inService.part? 0 = some x ∧ inService.halted = false ∧ inService.mayBump x :=
  ofSome (by decide +kernel) (by decide +kernel)

theorem witness_CreationAndDestruction_waits : ∃ x, worn.part? 0 = some x ∧ worn.halted = false ∧ worn.mayBump x = false :=
  ofSome (by decide +kernel) (by decide +kernel)

/-- Partition 3 stands beside partition 0, on tile 1. -/
def beside : State :=
  { inService with
    parts := inService.parts ++ (inService.parts.map fun x => { x with pindex := 3, tiles := [1], cores := [freshCore 1 0] })
    tiles := inService.tiles.set 1 (tileOf .assigned [.live]) }

theorem witness_CreationAndDestruction_beside : (beside.part? 0).isSome ∧ beside.halted = false ∧
    (beside.part? 0).any beside.mayBump ∧ ∃ y, beside.part? 3 = some y ∧ ∀ c ∈ y.cores, c.warm = none :=
  ⟨by decide +kernel, by decide +kernel, by decide +kernel, ofSome (by decide +kernel) (by decide +kernel)⟩

theorem witness_CoreAndTileEvents : inService.serves 0 1 = none ∧ inService.serves 0 0 = some (0, 0) ∧
    (∃ i, inService.tiles[0]? = some i ∧ i.cores[2]? = some .retired) ∧
    ∃ k, inService.core? 0 0 = some k ∧ k.lost = false ∧ k.warm = none ∧ inService.halted = false ∧
      inService.spareOn 0 k = some 1 ∧ (inService.part? 0).any (fun x => x.hold ≠ .suspended) :=
  ⟨by decide +kernel, by decide +kernel, ofSome (by decide +kernel) (by decide +kernel),
    ofSome (by decide +kernel) (by decide +kernel)⟩

theorem witness_CoreAndTileEvents_return : inService.serves 0 2 = none ∧ inService.serves 0 0 ≠ none ∧
    ∃ i, inService.tiles[0]? = some i ∧ i.cores[2]? = some .retired :=
  ⟨by decide +kernel, by decide +kernel, ofSome (by decide +kernel) (by decide +kernel)⟩

theorem witness_CoreAndTileEvents_warm : let s := inService.modCore 0 0 fun c => { c with warm := some 1 }
    ∃ k, s.core? 0 0 = some k ∧ k.warm = some 1 :=
  ofSome (by decide +kernel) (by decide +kernel)

theorem witness_CoreAndTileEvents_degraded : inService.holds 0 = some 0 ∧ inService.tileFailed 0 = false ∧
    ∃ x, inService.part? 0 = some x ∧ x.hold ≠ .suspended ∧
      (∀ y ∈ inService.parts, ∀ u ∈ y.tiles, u ≠ 0 → inService.tileFailed u = false) ∧ (∀ y ∈ inService.parts, 0 ∈ y.tiles → y = x) ∧
      let s1 := inService.modTile 0 fun i => { i with state := .degraded, cores := i.cores.map fun _ => .retired }
      (∃ n < inService.tiles.length, s1.tileIs n .spare) ∧ ∃ n < inService.tiles.length, s1.mayReplace x 0 n :=
  ⟨by decide +kernel, by decide +kernel, ofSome (by decide +kernel) (by decide +kernel)⟩

/-- A packet at the router of tile 1, which holds tables of partition 0 where `known`, from the service team. -/
def packet (known faulty : Bool) : State :=
  { inService with
    tiles := inService.tiles.set 1 { tileOf .free [.live] with router := if known then [(0, [⟨0, 1, 0⟩])] else [] }
    inputs := { inService.inputs with dropTile := 1, dropFaulty := faulty, dropSender := some ⟨0, 0, 0, 0⟩ } }

theorem witness_CoreAndTileEvents_router :
    ((packet true false).routed 1 0 ∧ (packet true false).inputs.dropFaulty = false) ∧ (packet false false).routed 1 0 = false ∧
    (packet true true).inputs.dropFaulty ∧ (packet false false).inputs.dropSender = some ⟨0, 0, 0, 0⟩ ∧
    inService.inputs.dropSender = none := by decide +kernel

theorem witness_CoreAndTileEvents_bank : inService.holds 1 = none ∧ inService.holds 0 = some 0 ∧ (inService.part? 0).isSome := by
  decide +kernel

theorem witness_CoreAndTileEvents_map : let s := inService.modPart 0 fun x => { x with mapTiles := [] }
    ∃ x, s.part? 0 = some x ∧ (0 ∈ x.tiles ∧ 0 ∉ x.mapTiles) ∧ ∃ c, s.core? 0 0 = some c ∧ c.tile ∉ x.mapTiles ∧ c.remap ≠ .waiting :=
  ofSome (by decide +kernel) ⟨by decide +kernel, ofSome (by decide +kernel) (by decide +kernel)⟩

/-- Every bank of tile 0 was retired since the map of generation 0: whatever bank that map gave the line, it is one of
them. -/
def remapped : State := inService.modPart 0 fun x => { x with mapTiles := [], mapGen := 32, banksGone := x.banks [] }

theorem witness_CoreAndTileEvents_remap : ∃ x, remapped.part? 0 = some x ∧ remapped.superseded x 0 0x800 :=
  ofSome (by decide +kernel) (by
    let x := (remapped.part? 0).get (by decide +kernel)
    have hg : x.goneSince 0 = x.banksGone := by decide +kernel
    have hr : (remapped.banksRetired x).filter (fun b => !x.banksGone.contains b) = [] := by decide +kernel
    have hl : (x.banks []).length = 32 := by decide +kernel
    have h : ∀ i < 32, ((x.banks [])[i]?).any x.banksGone.contains = true := by decide +kernel
    show remapped.superseded x 0 0x800 = true
    simp only [State.superseded, hg, hr, Partition.homeBank, hl]
    exact h _ (Nat.mod_lt _ (by decide)))

/-- Core 0 of the partition, on core 1 of tile 0, and tile 0 with these other cores. -/
def coresOf (l : List PhysState) : State := { inService with tiles := inService.tiles.set 0 (tileOf .assigned l) }

theorem witness_CoreAndTileEvents_idle :
    ((coresOf [.live, .live, .spare]).serves 0 1 = none ∧ (coresOf [.live, .live, .spare]).halted = false ∧
      ((coresOf [.live, .live, .spare]).setPhys 0 1 .retired).warmTarget 0 1 = none ∧
      (((coresOf [.live, .live, .spare]).setPhys 0 1 .retired).tiles[0]?.bind fun i => (i.coresIn .spare).head?) = some 2) ∧
    (((coresOf [.live, .live]).setPhys 0 1 .retired).tiles[0]?.bind fun i => (i.coresIn .spare).head?) = none := by decide +kernel

/-- A warm substitution of core 0 is under way to core 1, which fails; core 2 is a spare, or there is none. -/
def filling (l : List PhysState) : State := (coresOf l).modCore 0 0 fun c => { c with warm := some 1 }

theorem witness_CoreAndTileEvents_retarget : ∀ l ∈ [[PhysState.live, .live, .spare], [.live, .live]],
    (filling l).serves 0 1 = none ∧ ((filling l).setPhys 0 1 .retired).warmTarget 0 1 = some (0, 0) ∧
    ∃ k, ((filling l).setPhys 0 1 .retired).core? 0 0 = some k ∧
      ((filling l).setPhys 0 1 .retired).spareOn 0 k = if l.length = 3 then some 2 else none := by
  intro l hl
  simp only [List.mem_cons, List.not_mem_nil, or_false] at hl
  rcases hl with rfl | rfl <;> exact ⟨by decide +kernel, by decide +kernel, ofSome (by decide +kernel) (by decide +kernel)⟩

theorem witness_CoreAndTileEvents_cold : inService.spareOn 0 (freshCore 0 0) = some 1 ∧
    (coresOf [.live]).spareOn 0 (freshCore 0 0) = none ∧ (coresOf [.live]).serves 0 0 = some (0, 0) ∧
    ∃ k, (coresOf [.live]).core? 0 0 = some k ∧ k.lost = false ∧ k.warm = none ∧ (coresOf [.live]).spareOn 0 k = none :=
  ⟨by decide +kernel, by decide +kernel, by decide +kernel, ofSome (by decide +kernel) (by decide +kernel)⟩

/-- Tile 0, which the partition holds, and tile 1, which is free, fail, readable or not; tile 2 is dead. -/
theorem witness_CoreAndTileEvents_tiles :
    let s := { inService with tiles := inService.tiles.set 2 (tileOf .dead []) }
    let f (t : Nat) := s.modTile t fun i => { i with state := .dead, cores := i.cores.map fun _ => .retired }
    s.tileIs 2 .dead ∧ s.tiles.length ≤ 3 ∧ s.tileIs 0 .degraded = false ∧ s.tileIs 0 .dead = false ∧ s.tileIs 1 .dead = false ∧
    (f 1).holds 1 = none ∧ s.tileIs 1 .free ∧ (f 0).holds 0 = some 0 ∧ (f 0).spareTile = none ∧
    (((f 0).noteLive).part? 0).isSome := by decide +kernel

theorem witness_CoreAndTileEvents_named : (inService.parts.map fun y => y.pindex).Nodup ∧
    ∀ i ∈ inService.tiles, i.state = .dead → i.router = [] := by decide +kernel

theorem witness_CoreAndTileEvents_known :
    let s := inService.modTile 0 fun i => { i with banksGone := [(7, 3)] }
    ∃ i, s.tiles[0]? = some i ∧ (7, 3) ∈ i.banksGone ∧ (0, 0) ∉ i.banksGone :=
  ofSome (by decide +kernel) (by decide +kernel)

/-- A request was sent again under the newest map of `remapped`, or under the one before all its retirements. -/
theorem witness_CoreAndTileEvents_resent : ∃ x, (remapped.modCore 0 0 fun c => { c with remap := .resent, remapGen := 32 }).part? 0 = some x ∧
    ∃ c, (remapped.modCore 0 0 fun c => { c with remap := .resent, remapGen := 32 }).core? 0 0 = some c ∧ c.tile ∉ x.mapTiles ∧
      c.remap = .resent ∧ (x.banksGone.drop (x.banksGone.length - (x.mapGen - c.remapGen))) = [] ∧
      (x.banksGone.drop (x.banksGone.length - (x.mapGen - 0))) = x.banksGone :=
  ofSome (by decide +kernel) (ofSome (by decide +kernel) (by decide +kernel))

theorem witness_LinkEvents : let s := { inService with ucie := [⟨2, 3, 7, .full, true⟩] }
    2 < s.tiles.length ∧ (s.ucieAt 2 3 7).repairing ∧ (s.ucieAt 2 3 6).cond = .full := by decide +kernel

theorem witness_LinkEvents_binding : ∃ x, bound.part? 0 = some x ∧ bound.halted = false ∧ (∃ y ∈ x.bindings, y.b = 1) ∧
    (∀ y ∈ x.bindings, y.b ≠ 2) ∧ bound.peerPort.isSome :=
  ofSome (by decide +kernel) (by decide +kernel)

/-- A module in service with these Vault slots. -/
def vaulted (v : List (Nat × VaultSlot)) : State := { inService with vault := v }

theorem canonical_vaulted (v : List (Nat × VaultSlot)) (h : Vault.wf v) : (vaulted v).canonical := by
  simp only [vaulted, inService, State.canonical]
  exact ⟨canonical_service.1, canonical_service.2.1, h⟩

theorem witness_VaultCommands_births : let s := vaulted [(2, key .active .operator 0)]
    s.canonical ∧ s.alarm1 = false ∧ s.mintHealthy ∧ (s.slot 255).state = .empty ∧ slotFits 255 .detour 63 ∧ s.operatorKey :=
  ⟨canonical_vaulted _ (by decide), by decide +kernel⟩

theorem witness_VaultCommands_provisioned : let s := vaulted [(200, key .provisioned .detour 3)]
    s.canonical ∧ s.alarm1 = false ∧ (s.slot 200).state = .provisioned ∧ (s.slot 200).inUse :=
  ⟨canonical_vaulted _ (by decide), by decide +kernel⟩

theorem witness_VaultCommands_rotate : let s := vaulted [(18, key .active .detour 3), (200, key .provisioned .detour 3)]
    s.canonical ∧ (s.slot 18).state = .active ∧ (s.slot 18).use = .detour ∧ (s.slot 200).state = .provisioned ∧
      (s.slot 200).use = (s.slot 18).use ∧ (s.slot 200).owner = (s.slot 18).owner ∧ s.part? (s.slot 18).owner = none :=
  ⟨canonical_vaulted _ (by decide), by decide +kernel⟩

theorem witness_VaultCommands_retiring : let s := vaulted [(18, key .retiring .detour 3)]
    s.canonical ∧ (s.slot 18).state = .retiring :=
  ⟨canonical_vaulted _ (by decide), by decide +kernel⟩

theorem witness_VaultCommands_entropy : let s := { vaulted [] with mintHealthy := false }
    s.alarm1 = false ∧ (s.slot 200).state = .empty ∧ slotFits 200 .detour 3 ∧ s.mintHealthy = false := by decide +kernel

/-- Slot 200 provisioned, and slot 16, partition 0's memory key, active while the partition exists. -/
theorem witness_VaultCommands_state : let s := vaulted [(16, key .active .memory 0), (200, key .provisioned .detour 3)]
    s.alarm1 = false ∧ (s.slot 200).state ≠ .empty ∧ s.operatorKey = false ∧ (s.slot 16).state ≠ .provisioned ∧
      (∃ x, s.part? (s.slot 16).owner = some x) ∧ (s.slot 17).inUse = false ∧ (s.slot 16).state ≠ .retiring ∧
      (s.slot 200).state ≠ .active :=
  ⟨by decide +kernel, by decide +kernel, by decide +kernel, by decide +kernel, ofSome' (by decide +kernel), by decide +kernel,
    by decide +kernel, by decide +kernel⟩

theorem witness_VaultCommands_alarm : ({ inService with alarm1 := true } : State).alarm1 := rfl

/-- The line of machine byte 0x10000 is the partition's, and is sealed; the next line has not been written. -/
theorem witness_VaultCommands_zeroise : service.canonical ∧ (0x10000 / 64 < 2 ^ 42 ∧
    (∃ x ∈ service.parts, x.tag = service.tagOf (0x10000 / 64)) ∧ 0x10000 / 64 ∈ service.tags.map (·.1)) ∧
    0x10040 / 64 ∉ service.tags.map (·.1) :=
  ⟨canonical_service, by decide +kernel, by decide +kernel⟩

theorem witness_VaultCommands_rotate_drawn : let s := vaulted [(18, key .active .detour 3)]
    s.canonical ∧ s.alarm1 = false ∧ (s.slot 18).state = .active ∧ (s.slot 18).use = .detour ∧ (s.slot 255).state = .empty ∧
      (s.slot 18).owner < 64 ∧ s.mintHealthy ∧ ({ s with mintHealthy := false } : State).mintHealthy = false :=
  ⟨canonical_vaulted _ (by decide), by decide +kernel⟩

theorem witness_VaultCommands_rotate_refused : let s := vaulted [(18, key .active .detour 3), (200, key .provisioned .memory 3), (201, key .provisioned .detour 2), (202, key .active .detour 3)]
    s.canonical ∧ s.alarm1 = false ∧ (s.slot 18).state = .active ∧ (s.slot 18).use = .detour ∧
      (s.slot 200).use ≠ (s.slot 18).use ∧ (s.slot 201).owner ≠ (s.slot 18).owner ∧ (s.slot 202).state ≠ .provisioned :=
  ⟨canonical_vaulted _ (by decide), by decide +kernel⟩

theorem witness_StreamsMintAndAlarms : let s : State := { inService with seals := [⟨.ucie 0 1, 2 ^ 62, [], true, 0, [], []⟩] }
    2 ^ 62 ≤ (s.seal (.ucie 0 1)).counter ∧ s.mintHealthy ∧ (s.seal (.ucie 0 2)).counter < 2 ^ 62 := by decide +kernel

theorem witness_StreamsMintAndAlarms_detour :
    let s := { vaulted [(18, key .active .detour 3)] with seals := [⟨.detour 3, 2 ^ 62, [], true, 0, [], []⟩] }
    2 ^ 62 ≤ (s.seal (.detour 3)).counter ∧ s.activeSlot 3 .detour = some 18 ∧ s.spareSlot = some 200 ∧
      ∃ t, s.rotate 18 200 = .ok t ∧ True :=
  ⟨by decide +kernel, by decide +kernel, by decide +kernel, ofOk (by decide +kernel) trivial⟩

/-- Eight tag failures of the last second, and one that is older. -/
theorem witness_StreamsMintAndAlarms_ninth :
    let s : State := { inService with cycle := 2000000000, seals := [⟨.peer 0, 0, 5 :: List.replicate 8 1999999999, true, 0, [], []⟩] }
    ((s.seal (.peer 0)).fails.filter fun f => s.cycle < f + 1250000000).length = 8 := by decide +kernel

theorem witness_StreamsMintAndAlarms_mint : State.reset.mintHealthy = false ∧ State.reset.mintTested = none ∧
    State.reset.inputs.mintSource ∧
    ({ State.reset with mintTested := some 7, cycle := 8 } : State).cycle < 7 + 1250000000 ∧
    ({ State.reset with inputs := { Inputs.reset with mintSource := false } } : State).inputs.mintSource = false ∧
    ({ State.reset with inputs := { Inputs.reset with alarm := .firmware } } : State).inputs.alarm = .firmware ∧
    State.reset.inputs.alarm = .operatorCommand := by decide

theorem canonical_seals {s : State} (l : List Seal) (h : s.canonical) : ({ s with seals := l } : State).canonical := h

theorem canonical_inputs {s : State} (i : Inputs) (h : s.canonical) : ({ s with inputs := i } : State).canonical := h

theorem witness_StreamsMintAndAlarms_peer : let s : State := { inService with seals := [⟨.peer 3, 2 ^ 62, [], true, 0, [], []⟩] }
    2 ^ 62 ≤ (s.seal (.peer 3)).counter ∧ s.mintHealthy ∧ ({ s with mintHealthy := false } : State).mintHealthy = false := by
  decide +kernel

theorem witness_StreamsMintAndAlarms_again :
    let s : State := { inService with seals := [⟨.detour 0, 2 ^ 62, [], true, 0, [(0, 2 ^ 62)], []⟩, ⟨.io 0 1, 2 ^ 62, [], true, 0, [], [0]⟩] }
    2 ^ 62 ≤ tableGet 0 (s.seal (.detour 0)).sources 0 ∧ (s.seal (.detour 0)).stream = .detour 0 ∧
      2 ^ 62 ≤ (s.seal (.io 0 1)).counter ∧ (s.part? 0).any (fun x => x.tiles ≠ []) ∧ (s.seal (.io 0 1)).stream = .io 0 1 := by
  decide +kernel

theorem witness_StreamsMintAndAlarms_host :
    let s := { vaulted [(10, key .active .hostStream 0), (200, key .provisioned .hostStream 0)] with
      seals := [⟨.host 0, 2 ^ 62, [], true, 0, [], []⟩] }
    2 ^ 62 ≤ (s.seal (.host 0)).counter ∧ s.activeSlot 0 .hostStream = some 10 ∧ s.activeSlot 1 .hostStream = none ∧
      s.canonical ∧ ∃ r, s.spareSlot = some r ∧ ∃ t, s.rotate 10 r = .ok t ∧ True :=
  ⟨by decide +kernel, by decide +kernel, by decide +kernel, canonical_seals _ (canonical_vaulted _ (by decide)),
    ofSome (by decide +kernel) (ofOk (by decide +kernel) trivial)⟩

theorem witness_StreamsMintAndAlarms_rekeyRefused :
    let s := { vaulted [(10, key .active .hostStream 0)] with mintHealthy := false, seals := [⟨.host 0, 2 ^ 62, [], true, 0, [], []⟩] }
    s.activeSlot 0 .hostStream = some 10 ∧ s.spareSlot = some 200 ∧ ∃ e, s.rotate 10 200 = .error e :=
  ⟨by decide +kernel, by decide +kernel, ofError (by decide +kernel)⟩

theorem witness_StreamsMintAndAlarms_source :
    let s := { vaulted [(18, key .active .detour 3)] with inputs := { inService.inputs with alarm := .tagFailures (.detour 3) } }
    s.canonical ∧ s.inputs.alarm = .tagFailures (.detour 3) ∧ (s.slot 18).owner = 3 ∧ (s.slot 18).use = .detour ∧
      (s.slot 18).inUse ∧ ({ s.inputs with alarm := .tamper } : Inputs).alarm = .tamper :=
  ⟨canonical_inputs _ (canonical_vaulted _ (by decide)), by decide +kernel⟩

/-- Owner 1 is at generation 2; machine lines 0x400 and 0x401 are its own, of generation 1 and 2, line 0x402 is another's. -/
def left : State :=
  { inService with gens := [(1, 2)], mem := [], tags := [(0x400, 4097), (0x401, 4098), (0x402, 8192)] }

theorem witness_ScrubsClearOldLines : left.canonical ∧ left.tagOf 0x400 = 4097 ∧ 4097 ≠ Config.quarantineTag ∧ 4097 / 4096 = 1 ∧
    4097 % 4096 ≠ left.genOf 1 ∧ left.tagOf 0x402 / 4096 ≠ 1 :=
  ⟨⟨by decide +kernel, by decide +kernel, by decide +kernel⟩, by decide +kernel⟩

/-- A scrub of owner 1 is asked for, or reported. -/
def scrubbing (started : Bool) : State :=
  { inService with scrubs := [{ reason := 0, owner := 1, pindex := none, newGen := 1, started := started, lines := 0, frames := 0
                                bad := [], covers := [0x8000] }] }

theorem witness_ScrubsClearOldLines_scrub : (pullFirst (fun (j : ScrubJob) => !j.started) (scrubbing false).scrubs).isSome ∧
    (pullFirst (fun (j : ScrubJob) => j.started) (scrubbing true).scrubs).isSome ∧
    (scrubbing false).rangeFree 0x100000 0x100000 ∧ (scrubbing false).rangeFree 0x200000 0x1000 = false := by
  decide +kernel

/-- A partition with two sessions, its host stream and slot 1 of the Vault in use. -/
def sessions : State :=
  { inService.modPart 0 fun x => { x with sessions := [(0, .opened), (1, .finished)] } with
    certified := true, vault := [(1, key .active .attestation 0)] }

theorem witness_HostMessages : ∃ x, sessions.part? 0 = some x ∧ sessions.halted = false ∧
    (x.sessions.find? fun e => e.1 = 0) = some (0, .opened) ∧ (x.sessions.find? fun e => e.1 = 1) = some (1, .finished) ∧
    (∃ e ∈ x.sessions, e.1 = 1 ∧ e.2 ≠ .opened) ∧ (∀ e ∈ x.sessions, e.1 = 0 → e.2 = .opened) :=
  ofSome (by decide +kernel) (by decide +kernel)

theorem witness_HostMessages_keys : (sessions.slot 1).inUse ∧ (inService.slot 1).inUse = false ∧ (inService.part? 0).isSome := by
  decide +kernel

theorem witness_HostBars : ∃ x, inService.part? 0 = some x ∧ inService.halted = false ∧ x.tdisp ≠ .run :=
  ofSome (by decide +kernel) (by decide +kernel)

theorem witness_HostBars_run : let s := inService.modPart 0 fun x => { x with tdisp := .run }
    ∃ x, s.part? 0 = some x ∧ s.halted = false ∧ x.tdisp = .run ∧ s.inputs.barIde ∧ x.pindex = 0 ∧ s.hostPortOn x.port ∧
      (s.seal (.host 0)).up ∧ (s.seal (.host 0)).counter < 2 ^ 62 ∧ x.msixPending = 0 ∧
      0xFFFF8 + 8 ≤ x.alloc ∧ 0xFFFFF + [1#8].length ≤ x.alloc :=
  ofSome (by decide +kernel) (by decide +kernel)

/-- Partition 0 in RUN; its host stream at this counter, up or not, with these accesses waiting. -/
def running (counter : Nat) (up : Bool) (w : List HostUnit) : State :=
  { inService.modPart 0 fun x => { x with tdisp := .run, hostWait := w, csr := { x.csr with mboxppa := 0x20000 } } with
    seals := [⟨.host 0, counter, [], up, 0, [], []⟩] }

theorem witness_HostBars_paths : ∀ e ∈ [(0, true, HostPath.clear), (2 ^ 62, true, .waits), (0, false, .closed)],
    ∃ x, (running e.1 e.2.1 []).part? 0 = some x ∧ (running e.1 e.2.1 []).halted = false ∧ x.tdisp = .run ∧
      (running e.1 e.2.1 []).inputs.barIde ∧ (running e.1 e.2.1 []).hostPath x = e.2.2 ∧ x.msixPending = 0 ∧
      (x.locOf (x.csr.mboxppa.toNat + 63)).isSome := by
  intro e he
  simp only [List.mem_cons, List.not_mem_nil, or_false] at he
  rcases he with rfl | rfl | rfl <;> exact ofSome (by decide +kernel) (by decide +kernel)

/-- A read waits: what comes after it waits too. -/
theorem witness_HostBars_order : ∃ x, (running 0 true [.read 2 0 8]).part? 0 = some x ∧
    (running 0 true [.read 2 0 8]).hostPath x = .waits :=
  ofSome (by decide +kernel) (by decide +kernel)

theorem witness_HostBars_vectors : ∃ x, (inService.modPart 0 fun x => { x with msixPending := 8 }).part? 0 = some x ∧
    x.msixPending.testBit 3 ∧ x.msixPending.testBit 2 = false ∧ x.msixMasked 3 = false ∧
      ({ x with msixTable := [(0x3C, 1)] } : Partition).msixMasked 3 :=
  ofSome (by decide +kernel) (by decide +kernel)

theorem witness_BringUpPowerAndHeat : (State.reset.inputs.bringUp.mintOk ∧ State.reset.inputs.bringUp.firmwareOk) ∧
    ({ State.reset.inputs.bringUp with mintOk := false } : BringUp).mintOk = false ∧
    (inService.halted = false ∧ inService.hot = false ∧ (∀ t < inService.tiles.length, inService.inputs.temps.getD t 0 < 90) ∧
      inService.tiles ≠ [] ∧ (inService.parts.map fun x => x.pindex).Nodup) ∧
    ({ inService with inputs := { inService.inputs with temps := [20, 105] } } : State).inputs.temps.getD 1 0 = 105 ∧
    ({ inService with hot := true } : State).hot := by decide +kernel

end Sys2Proof.Tests
end

section
/-! # Retirement, substitution and return of cores, and the count of live cores (R3, R408 to R413) -/

namespace Sys2Proof.Machine

/-! ## Retirement and return of cores -/

theorem exec_coreRetirement (t c : Nat) (readable : Bool) (s : State) :
    exec (.coreRetirement t c readable) s = execCoreRetirement t c readable s := rfl

theorem exec_coreReturn (t c : Nat) (s : State) : exec (.coreReturn t c) s = execCoreReturn t c s := rfl

theorem exec_warmSubstitutionDone (p l : Nat) (s : State) :
    exec (.warmSubstitutionDone p l) s = execWarmSubstitutionDone p l s := rfl

/-- The retirement of a core that serves nobody (R408). -/
theorem execCoreRetirement_idle {s : State} {t c : Nat} (readable : Bool) (h : s.serves t c = none) :
    execCoreRetirement t c readable s = .next (s.retireIdle t c) := by
  simp only [execCoreRetirement, h]

/-- A held module, and a core that carried no number, are only noted (R440). -/
theorem State.retireIdle_noted {s : State} {t c : Nat}
    (h : s.halted ∨ (s.tiles[t]?).bind (fun i => i.cores[c]?) ≠ some .live) :
    s.retireIdle t c = (s.setPhys t c .retired).noteLive :=
  if_pos h

theorem State.setPhys_halted (s : State) (t c : Nat) (st : PhysState) : (s.setPhys t c st).halted = s.halted := rfl

/-- A numbered core that a warm substitution was filling: another spare has to be found for it. -/
theorem State.retireIdle_target {s : State} {t c p l : Nat} (hh : s.halted = false)
    (hw : (s.tiles[t]?).bind (fun i => i.cores[c]?) = some .live)
    (ht : (s.setPhys t c .retired).warmTarget t c = some (p, l)) :
    s.retireIdle t c = (s.setPhys t c .retired).retarget p l t := by
  simp [State.retireIdle, State.setPhys_halted, hh, hw, ht]

/-- Any other numbered core gives way to the first spare of its tile. -/
theorem State.retireIdle_spare {s : State} {t c n : Nat} (hh : s.halted = false)
    (hw : (s.tiles[t]?).bind (fun i => i.cores[c]?) = some .live) (ht : (s.setPhys t c .retired).warmTarget t c = none)
    (hn : (((s.setPhys t c .retired).tiles[t]?).bind fun i => (i.coresIn .spare).head?) = some n) :
    s.retireIdle t c = (s.setPhys t c .retired).setPhys t n .live := by
  simp [State.retireIdle, State.setPhys_halted, hh, hw, ht, hn]

/-- Without a spare the module has one core fewer. -/
theorem State.retireIdle_bare {s : State} {t c : Nat} (hh : s.halted = false)
    (hw : (s.tiles[t]?).bind (fun i => i.cores[c]?) = some .live) (ht : (s.setPhys t c .retired).warmTarget t c = none)
    (hn : (((s.setPhys t c .retired).tiles[t]?).bind fun i => (i.coresIn .spare).head?) = none) :
    s.retireIdle t c = (s.setPhys t c .retired).noteLive.strand := by
  simp [State.retireIdle, State.setPhys_halted, hh, hw, ht, hn]

theorem State.retarget_spare {s : State} {p l t n : Nat} {k : Core} (hk : s.core? p l = some k)
    (hn : s.spareOn t k = some n) :
    s.retarget p l t = (s.setPhys t n .live).modCore p l fun k => { k with warm := some n } := by
  simp only [State.retarget, hk, hn]

theorem State.retarget_absent {s : State} {p l t : Nat} {k : Core} (hk : s.core? p l = some k)
    (hn : s.spareOn t k = none) :
    s.retarget p l t = (((s.modCore p l fun k => { k with warm := none }).loseCore p l false).noteLive).keepZero p := by
  simp only [State.retarget, hk, hn]

/-- The retirement of a core that serves a number and still has its state (R408). -/
theorem execCoreRetirement_serving {s : State} {t c p l : Nat} {k : Core} (readable : Bool)
    (h : s.serves t c = some (p, l)) (hk : s.core? p l = some k) (hl : k.lost = false) (hh : s.halted = false) :
    execCoreRetirement t c readable s = .next (s.retireCore p l t c readable k) := by
  simp only [execCoreRetirement, h, hk, hl, hh]
  rfl

theorem State.retireCore_warm {s : State} {t c p l n : Nat} {k : Core} {x : Partition} (hw : k.warm = none)
    (hn : s.spareOn t k = some n) (hx : s.part? p = some x) (hr : x.hold ≠ .suspended) :
    s.retireCore p l t c true k = ((s.setPhys t c .retired).setPhys t n .live).warmSubstitute p l n := by
  have hp : ((s.setPhys t c .retired).setPhys t n .live).part? p = some x := hx
  simp only [State.retireCore, hw, hn, if_true, hp, Option.any_some, hr, decide_false, Bool.false_eq_true, if_false]

theorem State.retireCore_cold {s : State} {t c p l n : Nat} {k : Core} (hw : k.warm = none)
    (hn : s.spareOn t (freshCore t c) = some n) :
    s.retireCore p l t c false k = ((s.setPhys t c .retired).setPhys t n .live).coldSubstitute p l t n := by
  simp only [State.retireCore, hw, Bool.false_eq_true, if_false, hn]

theorem State.retireCore_absent {s : State} {t c p l : Nat} {k : Core} (readable : Bool) (hw : k.warm = none)
    (hn : s.spareOn t (if readable then k else freshCore t c) = none) :
    s.retireCore p l t c readable k = (((s.setPhys t c .retired).loseCore p l false).noteLive).keepZero p := by
  simp only [State.retireCore, hw, hn]

theorem State.moveCore_kept {s : State} {p l : Nat} {c : Core} (tile phys : Nat) (h : s.core? p l = some c)
    (hl : c.lost = false) : s.moveCore p l tile phys =
      (s.moveFrames c.tile c.phys tile phys).modCore p l fun c => { c with tile := tile, phys := phys, warm := none } := by
  simp only [State.moveCore, h, hl]
  rfl

theorem execWarmSubstitutionDone_moves {s : State} {p l n : Nat} {k : Core} (hh : s.halted = false)
    (hk : s.core? p l = some k) (hn : k.warm = some n) :
    execWarmSubstitutionDone p l s = .next (s.moveCore p l k.tile n).noteWithheld := by
  simp only [execWarmSubstitutionDone, hh, Bool.false_eq_true, if_false, hk, hn]

theorem execCoreReturn_spare {s : State} {t c : Nat} {i : TileInfo} (hi : s.tiles[t]? = some i)
    (hc : i.cores[c]? = some .retired) (hs : s.serves t c = none) :
    execCoreReturn t c s = .next (s.setPhys t c .spare) := by
  simp only [execCoreReturn, hi, Option.bind_some, hc, hs, and_self, if_true]

theorem execCoreReturn_serving {s : State} {t c : Nat} (hs : s.serves t c ≠ none) : execCoreReturn t c s = .next s :=
  if_neg fun h => hs h.2

/-! ## The count of live cores (R3) -/

theorem total_eq_sum (l : List Nat) : total l = l.sum := List.sum_eq_foldl.symm

/-- The cores that are counted: those of the tiles in service, and those of as many spare tiles as failed ones are awaited for. -/
theorem State.liveCount_eq (s : State) :
    let cores (st : TileState) : List Nat := (s.tiles.filter fun i => i.state = st).map fun i => min 64 (i.coresIn .live).length
    s.liveCount =
      ((s.tiles.filter fun i => i.state = .assigned || i.state = .free).map fun i => min 64 (i.coresIn .live).length).sum +
        ((cores .spare).take s.awaited).sum := by
  have hl : TileInfo.liveCores = fun i => min 64 (i.coresIn .live).length := funext fun i => Nat.min_comm _ _
  simp only [State.liveCount, total_eq_sum, hl]

theorem State.noteLive_eq (s : State) : s.noteLive =
    if s.liveCount < s.liveKnown then ({ s with liveKnown := s.liveCount } : State).emit (.liveCores s.liveCount)
    else { s with liveKnown := s.liveCount } := rfl

end Sys2Proof.Machine
end

section
/-! # A core that moves takes its bytes along (R201, R409) -/

namespace Sys2Proof.Machine

variable {α : Type}

/-! ## Tables under other keys -/

/-- Under a change of keys that is one-to-one a key's entry is found under its new key, and where the table has none, what
stood there before. -/
theorem tableGet_rekey (d : α) (f : Nat → Nat) (t out : List (Nat × α)) (a : Nat)
    (hf : ∀ e ∈ t, f e.1 = f a → e.1 = a) (ht : (t.map (·.1)).Nodup) :
    tableGet d (rekey f t out) (f a) = if a ∈ t.map (·.1) then tableGet d t a else tableGet d out (f a) := by
  induction t generalizing out with
  | nil => simp [rekey]
  | cons e t ih =>
    obtain ⟨k, v⟩ := e
    simp only [List.map_cons, List.nodup_cons] at ht
    have hfk : f k = f a → k = a := hf (k, v) List.mem_cons_self
    rw [rekey, ih _ (fun e he => hf e (List.mem_cons_of_mem _ he)) ht.2]
    by_cases hk : k = a
    · subst hk
      simp [ht.1, tableGet, tableGet_put_same]
    · have hne : f a ≠ f k := fun h => hk (hfk h.symm)
      simp only [List.map_cons, List.mem_cons, Ne.symm hk, false_or, tableGet, hk, if_false, tableGet_put_other d _ _ hne]

/-- The keys of a canonical table are one of a kind. -/
theorem tableFrom_keys [DecidableEq α] (d : α) {lo : Nat} (t : List (Nat × α)) (w : tableFrom d lo t) :
    (t.map (·.1)).Nodup ∧ ∀ k ∈ t.map (·.1), lo ≤ k := by
  induction t generalizing lo with
  | nil => simp
  | cons e t ih =>
    obtain ⟨k, v⟩ := e
    simp only [tableFrom, Bool.and_eq_true, decide_eq_true_eq] at w
    obtain ⟨hn, hlo⟩ := ih w.2
    simp only [List.map_cons, List.nodup_cons, List.mem_cons]
    refine ⟨⟨fun hk => ?_, hn⟩, ?_⟩
    · have := hlo k hk; omega
    · rintro j (rfl | hj)
      · exact w.1.1
      · have := hlo j hj; omega

/-- A key that a table does not list reads as the default. -/
theorem tableGet_unlisted (d : α) (t : List (Nat × α)) {a : Nat} (h : a ∉ t.map (·.1)) : tableGet d t a = d := by
  induction t with
  | nil => rfl
  | cons e t ih =>
    obtain ⟨k, v⟩ := e
    simp only [List.map_cons, List.mem_cons, not_or] at h
    simp [tableGet, Ne.symm h.1, ih h.2]

/-- Entries moved to keys that hold nothing read there as they read before. -/
theorem tableGet_rekey_fresh [DecidableEq α] (d : α) (f : Nat → Nat) (t out : List (Nat × α)) (a : Nat) (w : tableWf d t)
    (hf : ∀ e ∈ t, f e.1 = f a → e.1 = a) (ho : tableGet d out (f a) = d) :
    tableGet d (rekey f t out) (f a) = tableGet d t a := by
  rw [tableGet_rekey d f t out a hf (tableFrom_keys d t w).1, ho]
  split
  · rfl
  · exact (tableGet_unlisted d t ‹_›).symm

/-! ## The bytes of a core that moves (R201, R409) -/

theorem inScratch_iff (t c a : Nat) :
    inScratch t c a ↔ 2 ^ 48 + (t * 66 + c) * 3145728 ≤ a ∧ a < 2 ^ 48 + (t * 66 + c) * 3145728 + 3145728 := by
  rw [inScratch, Bool.and_eq_true, decide_eq_true_iff, decide_eq_true_iff]
  simp only [scratchLoc, Config.coresPerTile, Config.frameCount]
  omega

/-- The frames of a core stand at whole lines. -/
theorem inScratch_line (t c a : Nat) : inScratch t c (64 * (a / 64)) = inScratch t c a := by
  rw [Bool.eq_iff_iff, inScratch_iff, inScratch_iff]
  omega

theorem inScratch_scratchLoc (t c : Nat) {n : Nat} (h : n < 192 * 16384) : inScratch t c (scratchLoc t c 0 n) := by
  rw [inScratch_iff]
  simp only [scratchLoc, Config.coresPerTile, Config.frameCount]
  omega

/-- Two physical cores share no byte. -/
theorem inScratch_other {t c t' c' a : Nat} (hc : c < 66) (hc' : c' < 66) (hne : (t', c') ≠ (t, c))
    (h : inScratch t c a) : inScratch t' c' a = false := by
  rw [Bool.eq_false_iff]
  intro h'
  rw [inScratch_iff] at h h'
  exact hne (by simp only [Prod.mk.injEq]; omega)

/-- A byte of a frame and its new place. -/
theorem scratchLoc_moved (t c t' c' n : Nat) :
    scratchLoc t c 0 n - scratchLoc t c 0 0 + scratchLoc t' c' 0 0 = scratchLoc t' c' 0 n := by
  simp only [scratchLoc]; omega

theorem scratchLoc_line_moved (t c t' c' n : Nat) :
    scratchLoc t c 0 n / 64 - scratchLoc t c 0 0 / 64 + scratchLoc t' c' 0 0 / 64 = scratchLoc t' c' 0 n / 64 := by
  simp only [scratchLoc, Config.coresPerTile, Config.frameCount]; omega

/-- What a core's memory table reads once its frames have moved: `inside` picks the entries of a core's frames. -/
theorem tableGet_moved [DecidableEq α] (d : α) (f : Nat → Nat) (here there : Nat → Bool) (m : List (Nat × α)) (a : Nat)
    (w : tableWf d m) (ha : here a) (hd : there a = false) (hf : ∀ k, here k → f k = f a → k = a) (hfa : there (f a)) :
    tableGet d (rekey f ((m.filter fun e => !there e.1).filter fun e => here e.1)
      ((m.filter fun e => !there e.1).filter fun e => !here e.1)) (f a) = tableGet d m a := by
  rw [tableGet_rekey_fresh d f _ _ a (tableWf_filter d _ _ (tableWf_filter d _ _ w))]
  · rw [tableGet_filter d _ here, if_pos ha, tableGet_filter d m fun k => !there k, hd]
    rfl
  · intro e he
    exact hf e.1 (List.mem_filter.1 he).2
  · rw [tableGet_filter d _ fun k => !here k, tableGet_filter d m fun k => !there k, hfa]
    simp

/-- A core that moves finds every byte of its frames as it was, under every tag. -/
theorem State.byteAt_moveFrames {s : State} {t c t' c' n : Nat} (h : s.canonical) (hc : c < 66) (hc' : c' < 66)
    (hne : (t', c') ≠ (t, c)) (any : Nat) (hn : n < 192 * 16384) :
    (s.moveFrames t c t' c').byteAt any (scratchLoc t' c' 0 n) = s.byteAt any (scratchLoc t c 0 n) := by
  have here := inScratch_scratchLoc t c hn
  have gone := inScratch_other hc hc' hne here
  have mem : tableGet 0 (s.moveFrames t c t' c').mem (scratchLoc t' c' 0 n) = tableGet 0 s.mem (scratchLoc t c 0 n) := by
    rw [← scratchLoc_moved t c t' c' n]
    refine tableGet_moved 0 _ (inScratch t c) (inScratch t' c') s.mem _ h.1 here gone (fun k hk e => ?_) ?_
    · rw [inScratch_iff] at hk
      simp only [scratchLoc, Config.coresPerTile, Config.frameCount] at e ⊢
      omega
    · rw [scratchLoc_moved]; exact inScratch_scratchLoc t' c' hn
  have tag : (s.moveFrames t c t' c').tagOf (scratchLoc t' c' 0 n / 64) = s.tagOf (scratchLoc t c 0 n / 64) := by
    unfold State.tagOf
    rw [← scratchLoc_line_moved t c t' c' n]
    refine tableGet_moved _ _ (fun l => inScratch t c (64 * l)) (fun l => inScratch t' c' (64 * l)) s.tags _ h.2.1
      (by rw [inScratch_line]; exact here) (by rw [inScratch_line]; exact gone) (fun k hk e => ?_) ?_
    · rw [inScratch_iff] at hk
      simp only [scratchLoc, Config.coresPerTile, Config.frameCount] at e ⊢
      omega
    · rw [scratchLoc_line_moved, inScratch_line]; exact inScratch_scratchLoc t' c' hn
  simp only [State.byteAt, mem, tag]

end Sys2Proof.Machine
end

section
/-! # Failed tiles, and what their replacements are chosen by (R407, R461) -/

namespace Sys2Proof.Machine

/-! ## What tells which tile can take another's place (R14, R275, R396, R442) -/

/-- Two states agree on what a replacement is chosen by: tiles, partitions, withheld frames and links. -/
structure State.SameGround (s t : State) : Prop where
  halted : t.halted = s.halted
  tiles : t.tiles = s.tiles
  parts : t.parts = s.parts
  scrubs : t.scrubs = s.scrubs
  quarantine : t.quarantine = s.quarantine
  ucie : t.ucie = s.ucie
  seals : t.seals = s.seals

namespace State.SameGround

variable {s t : State}

theorem joins (h : s.SameGround t) : t.joins = s.joins := by
  unfold State.joins State.exitTo State.edgeUp State.linkFailed State.shutCount State.seal
  rw [h.ucie, h.seals, h.halted]

theorem spread (h : s.SameGround t) (ts : List Nat) (n : Nat) (tree : List Node) :
    t.spread ts n tree = s.spread ts n tree := by
  induction n generalizing tree with
  | zero => rfl
  | succ n ih => simp only [State.spread, State.nextLevel, h.joins, ih]

theorem span (h : s.SameGround t) (ts : List Nat) (root : Nat) : t.span ts root = s.span ts root := h.spread ts _ _

theorem connected (h : s.SameGround t) (ts : List Nat) : t.connected ts = s.connected ts := by
  cases ts with
  | nil => rfl
  | cons r ts => simp only [State.connected, h.span]

theorem treeDepth (h : s.SameGround t) (ts : List Nat) : t.treeDepth ts = s.treeDepth ts := by
  have hp : t.passable = s.passable := by simp only [State.passable, h.tiles, h.parts]
  cases ts with
  | nil => rfl
  | cons r ts => simp only [State.treeDepth, State.depthFrom, h.span, hp]

theorem takes (h : s.SameGround t) (c : Core) (a n : Nat) : t.takes c a n = s.takes c a n := by
  simp only [State.takes, State.withheldOn, State.withheldFrames, State.keepsFrame, h.scrubs, h.parts, h.quarantine]

theorem mayReplace (h : s.SameGround t) (x : Partition) (old new : Nat) : t.mayReplace x old new = s.mayReplace x old new := by
  have ht : t.takes = s.takes := by funext c a n; exact h.takes c a n
  unfold State.mayReplace State.tileFailed State.tileIs State.seats State.liveOn
  dsimp only
  rw [h.connected, h.treeDepth, ht, h.tiles]

theorem replacements (h : s.SameGround t) (x : Partition) (a : Nat) : t.replacements x a = s.replacements x a := by
  simp only [State.replacements, h.tiles]
  exact List.filter_congr fun n _ => h.mayReplace x a n

end State.SameGround

/-- Taking the count of live cores changes nothing else of the module. -/
theorem State.noteLive_sameGround (s : State) : s.SameGround s.noteLive := by
  rw [State.noteLive_eq]
  split <;> exact ⟨rfl, rfl, rfl, rfl, rfl, rfl, rfl⟩

/-! ## Tiles that fail (R407) -/

theorem exec_tileDegraded (t : Nat) (readable : Bool) (s : State) :
    exec (.tileDegraded t readable) s = .next (s.failTile t readable) := rfl

/-- The module with a tile that has just failed. -/
def State.markFailed (s : State) (t : Nat) (readable : Bool) : State :=
  s.modTile t fun i => { i with state := if readable then .degraded else .dead, cores := i.cores.map fun _ => .retired }

theorem State.failTile_known {s : State} {t : Nat} {readable : Bool}
    (h : s.tileIs t .dead ∨ s.tiles.length ≤ t ∨ s.tileIs t .degraded ∧ readable) : s.failTile t readable = s :=
  if_pos h

section

variable {s : State} {t : Nat} {readable : Bool} (hd : s.tileIs t .dead = false) (ht : t < s.tiles.length)
  (hg : s.tileIs t .degraded = false ∨ readable = false)

include hd ht hg

theorem State.failTile_new : s.failTile t readable =
    if s.halted then (s.markFailed t readable).noteLive
    else (match (s.markFailed t readable).holds t with
      | none => (if s.tileIs t .free then (s.markFailed t readable).coverFree else (s.markFailed t readable).noteLive).strand
      | some p => ((s.markFailed t readable).failHeld p t readable).strand).leaveDead := by
  have hn : ¬ (s.tileIs t .dead ∨ t ≥ s.tiles.length ∨ (s.tileIs t .degraded ∧ readable)) := by
    rcases hg with hg | hg <;> simp [hd, hg, ht]
  unfold State.failTile
  dsimp only
  rw [if_neg hn]
  rfl

/-- A held module only notes the failure (R440). -/
theorem State.failTile_halted (hh : s.halted) : s.failTile t readable = (s.markFailed t readable).noteLive := by
  rw [State.failTile_new hd ht hg, if_pos hh]

/-- A tile that no partition holds. -/
theorem State.failTile_unheld (hh : s.halted = false) (hp : (s.markFailed t readable).holds t = none) :
    s.failTile t readable =
      (if s.tileIs t .free then (s.markFailed t readable).coverFree else (s.markFailed t readable).noteLive).strand.leaveDead := by
  rw [State.failTile_new hd ht hg, hh, hp]
  rfl

/-- A tile of a partition. -/
theorem State.failTile_held {p : Nat} (hh : s.halted = false) (hp : (s.markFailed t readable).holds t = some p) :
    s.failTile t readable = ((s.markFailed t readable).failHeld p t readable).strand.leaveDead := by
  rw [State.failTile_new hd ht hg, hh, hp]
  rfl

end

theorem State.coverFree_eq (s : State) : s.coverFree =
    (match s.spareTile with
      | some n => s.setTileState n .free
      | none => s).noteLive := rfl

/-- A partition in a quiesce notes that a tile of its has failed. -/
def Partition.noteFailed (x : Partition) (t : Nat) : Partition :=
  if x.hold = .suspended then { x with failedNow := t :: x.failedNow } else x

theorem State.failHeld_eq {s : State} {p t : Nat} {x : Partition} (readable : Bool)
    (hx : (s.modPart p fun x => x.noteFailed t).noteLive.part? p = some x) :
    s.failHeld p t readable =
      if readable ∨ (s.modPart p fun x => x.noteFailed t).noteLive.replacements x t = []
      then (s.modPart p fun x => x.noteFailed t).noteLive
      else (s.modPart p fun x => x.noteFailed t).noteLive.loseTile p t true := by
  unfold State.failHeld
  dsimp only
  change (match (s.modPart p fun x => x.noteFailed t).noteLive.part? p with
    | none => (s.modPart p fun x => x.noteFailed t).noteLive
    | some x => if readable ∨ (s.modPart p fun x => x.noteFailed t).noteLive.replacements x t = []
      then (s.modPart p fun x => x.noteFailed t).noteLive
      else (s.modPart p fun x => x.noteFailed t).noteLive.loseTile p t true) = _
  rw [hx]

/-! ## Where a failed tile stays with its partition (R461, R402) -/

/-- An update that leaves the partitions of a number as they are changes nothing. -/
theorem State.modPart_eq_self {s : State} {p : Nat} {f : Partition → Partition} (h : ∀ x ∈ s.parts, x.pindex = p → f x = x) :
    s.modPart p f = s := by
  have e : (s.parts.map fun x => if x.pindex = p then f x else x) = s.parts :=
    (List.map_congr_left fun x hx => by
      by_cases e : x.pindex = p
      · exact (if_pos e).trans (h x hx e)
      · exact if_neg e).trans (List.map_id _)
  unfold State.modPart
  rw [e]

theorem State.part?_mem {s : State} {p : Nat} {x : Partition} (h : s.part? p = some x) : x ∈ s.parts ∧ x.pindex = p :=
  ⟨List.mem_of_find?_eq_some h, by simpa using List.find?_some h⟩

/-- Where a function takes no value twice on a list, it tells the list's elements apart. -/
theorem eq_of_nodup_map {α β : Type} {f : α → β} {l : List α} (hn : (l.map f).Nodup) {a b : α} (ha : a ∈ l) (hb : b ∈ l)
    (he : f a = f b) : a = b := by
  induction l with
  | nil => cases ha
  | cons c l ih =>
    rw [List.map_cons, List.nodup_cons] at hn
    obtain ⟨hc, hn⟩ := hn
    rcases List.mem_cons.1 ha with rfl | ha'
    · rcases List.mem_cons.1 hb with rfl | hb'
      · rfl
      · exact absurd (he ▸ List.mem_map_of_mem hb') hc
    · rcases List.mem_cons.1 hb with rfl | hb'
      · exact absurd (he ▸ List.mem_map_of_mem ha') hc
      · exact ih hn ha' hb'

/-- Partitions of different numbers: each is found under its own. -/
theorem State.part?_of_mem {s : State} {x : Partition} (hn : (s.parts.map fun y => y.pindex).Nodup) (hx : x ∈ s.parts) :
    s.part? x.pindex = some x := by
  cases h : s.part? x.pindex with
  | none => simpa using (List.find?_eq_none.1 h) x hx
  | some y =>
    obtain ⟨hy, e⟩ := State.part?_mem h
    rw [eq_of_nodup_map hn hy hx e]

/-- A tile for which another can come stays. -/
theorem State.strandTile_kept {s : State} {p t : Nat} {x : Partition} (hx : s.part? p = some x) (h : s.replacements x t ≠ []) :
    s.strandTile p t = s := by
  simp only [State.strandTile, hx, h, decide_false, Bool.and_false, Bool.false_eq_true, if_false]

theorem State.strand_kept {s : State}
    (h : ∀ x ∈ s.parts, ∀ t ∈ x.tiles, s.tileFailed t → ∃ y, s.part? x.pindex = some y ∧ s.replacements y t ≠ []) :
    s.strand = s := by
  have fold : ∀ l : List (Nat × Nat), (∀ e ∈ l, ∃ y, s.part? e.1 = some y ∧ s.replacements y e.2 ≠ []) →
      l.foldl (fun s (p, t) => s.strandTile p t) s = s := by
    intro l
    induction l with
    | nil => intro _; rfl
    | cons e l ih =>
      intro hl
      obtain ⟨y, hy, hr⟩ := hl e List.mem_cons_self
      change l.foldl (fun s (p, t) => s.strandTile p t) (s.strandTile e.1 e.2) = s
      rw [State.strandTile_kept hy hr]
      exact ih fun e he => hl e (List.mem_cons_of_mem _ he)
  unfold State.strand
  split
  · rfl
  · refine fold _ fun e he => ?_
    obtain ⟨x, hx, he⟩ := List.mem_flatMap.1 he
    obtain ⟨t, ht, rfl⟩ := List.mem_map.1 he
    obtain ⟨htx, hf⟩ := List.mem_filter.1 ht
    exact h x hx t htx hf

/-- Where no dead tile's router holds a table no detour leads through one. -/
theorem State.leaveDead_kept {s : State} (h : ∀ i ∈ s.tiles, i.state = .dead → i.router = []) : s.leaveDead = s := by
  have e : s.throughDead = [] := by
    have hf : ((s.tiles.zipIdx.filter fun (i, _) => i.state = .dead).flatMap fun (i, t) => (i.router.filter fun e =>
        (s.part? e.1).any fun x => x.hold ≠ .suspended &&
          (!x.tiles.contains t || e.2.any fun r => r.chan = 3 && r.port ≠ 4)).map fun e => e.1) = [] := by
      refine List.flatMap_eq_nil_iff.2 fun ⟨i, t⟩ he => ?_
      obtain ⟨hz, hd⟩ := List.mem_filter.1 he
      simp only [h i (List.fst_mem_of_mem_zipIdx hz) (by simpa using hd), List.filter_nil, List.map_nil]
    simp only [State.throughDead, hf]
    rfl
  simp only [State.leaveDead, e, List.foldl_nil]

theorem State.modTile_tiles (s : State) (t : Nat) (f : TileInfo → TileInfo) (u : Nat) :
    (s.modTile t f).tiles[u]? = if t = u then (s.tiles[u]?).map f else s.tiles[u]? := by
  simp only [State.modTile, List.getElem?_modify]
  split <;> simp

/-- The failure of one tile leaves the others as they are. -/
theorem State.markFailed_other (s : State) {t u : Nat} (readable : Bool) (h : u ≠ t) :
    (s.markFailed t readable).tileFailed u = s.tileFailed u := by
  simp only [State.tileFailed, State.tileIs, State.markFailed, State.modTile_tiles, if_neg h.symm]

/-- The failure of a readable tile makes no tile dead. -/
theorem State.markFailed_dead {s : State} {t : Nat} {i : TileInfo} (hi : i ∈ (s.markFailed t true).tiles)
    (hd : i.state = .dead) : i ∈ s.tiles := by
  obtain ⟨u, hu⟩ := List.mem_iff_getElem?.1 hi
  simp only [State.markFailed, State.modTile_tiles] at hu
  split at hu
  · obtain ⟨j, -, rfl⟩ := Option.map_eq_some_iff.1 hu
    simp at hd
  · exact List.mem_of_getElem? hu

/-- The one failed tile of a running partition, readable and with a replacement: the module only takes its count, and
the tile's cores run on until the migration (R461). -/
theorem State.failTile_readable {s : State} {t p : Nat} {x : Partition} (hlt : t < s.tiles.length)
    (hf : s.tileFailed t = false) (hh : s.halted = false) (hp : s.holds t = some p) (hx : s.part? p = some x)
    (hold : x.hold ≠ .suspended) (alone : ∀ y ∈ s.parts, ∀ u ∈ y.tiles, u ≠ t → s.tileFailed u = false)
    (own : ∀ y ∈ s.parts, t ∈ y.tiles → y = x) (hn : (s.parts.map fun y => y.pindex).Nodup)
    (hr : ∀ i ∈ s.tiles, i.state = .dead → i.router = [])
    (hm : ∃ n < s.tiles.length, (s.markFailed t true).mayReplace x t n) :
    s.failTile t true = (s.markFailed t true).noteLive := by
  have hnot : s.tileIs t .degraded = false ∧ s.tileIs t .dead = false := by
    simpa only [State.tileFailed, Bool.or_eq_false_iff] using hf
  have ground := (s.markFailed t true).noteLive_sameGround
  have hparts : (s.markFailed t true).noteLive.parts = s.parts := ground.parts
  have htiles : (s.markFailed t true).noteLive.tiles = (s.markFailed t true).tiles := ground.tiles
  have hfind : ∀ q, (s.markFailed t true).noteLive.part? q = s.part? q := fun q => by
    simp only [State.part?, hparts]
  have hmod : (s.markFailed t true).modPart p (fun x => x.noteFailed t) = s.markFailed t true := by
    refine State.modPart_eq_self fun y hy e => if_neg ?_
    have hyx : s.part? y.pindex = some y := State.part?_of_mem hn hy
    rw [e, hx] at hyx
    rw [← Option.some.inj hyx]
    exact hold
  have held : (s.markFailed t true).failHeld p t true = (s.markFailed t true).noteLive := by
    rw [State.failHeld_eq (x := x) true (by rw [hmod, hfind, hx]), hmod, if_pos (.inl rfl)]
  have stays : (s.markFailed t true).noteLive.strand = (s.markFailed t true).noteLive := by
    refine State.strand_kept fun y hy u hu hfu => ?_
    rw [hparts] at hy
    refine ⟨y, by rw [hfind]; exact State.part?_of_mem hn hy, ?_⟩
    have hut : u = t := by
      refine Decidable.byContradiction fun hne => ?_
      have e : (s.markFailed t true).noteLive.tileFailed u = (s.markFailed t true).tileFailed u := by
        simp only [State.tileFailed, State.tileIs, htiles]
      rw [e, State.markFailed_other s true hne, alone y hy u hu hne] at hfu
      exact absurd hfu (by decide)
    subst hut
    obtain rfl := own y hy hu
    rw [ground.replacements]
    obtain ⟨n, hnl, hmay⟩ := hm
    have hlen : n < (s.markFailed u true).tiles.length := by simpa [State.markFailed, State.modTile] using hnl
    exact List.ne_nil_of_mem (List.mem_filter.2 ⟨List.mem_range.2 hlen, hmay⟩)
  have dead : (s.markFailed t true).noteLive.leaveDead = (s.markFailed t true).noteLive := by
    refine State.leaveDead_kept fun i hi hd => ?_
    rw [htiles] at hi
    exact hr i (State.markFailed_dead hi hd) hd
  rw [State.failTile_held hnot.2 hlt (.inl hnot.1) hh (p := p) hp, held, stays, dead]

end Sys2Proof.Machine
end

section
/-! # Routers and slice maps, and the statement on cores and tiles (R206, R401, R407) -/

namespace Sys2Proof.Machine

/-! ## Routers (R401) -/

theorem exec_routerDrop (s : State) : exec .routerDrop s = execRouterDrop s := rfl

theorem execRouterDrop_goes {s : State} (hr : s.routed s.inputs.dropTile s.inputs.dropTag) (hf : s.inputs.dropFaulty = false) :
    execRouterDrop s = .next s := by
  simp only [execRouterDrop, hr, hf, Bool.not_false, Bool.and_self, if_true]

theorem execRouterDrop_drops {s : State} (h : s.routed s.inputs.dropTile s.inputs.dropTag = false ∨ s.inputs.dropFaulty) :
    execRouterDrop s = .next (s.dropPacket s.inputs.dropTile s.inputs.dropSender) := by
  rcases h with h | h <;> simp [execRouterDrop, h]

/-! ## Slice maps (R206, R407) -/

theorem exec_sliceBankRetirement (t slice bank : Nat) (s : State) :
    exec (.sliceBankRetirement t slice bank) s = execSliceBankRetirement t slice bank s := rfl

theorem exec_remap (p l line : Nat) (s : State) : exec (.remap p l line) s = execRemap p l line s := rfl

theorem exec_sliceMapUpdate (p t : Nat) (s : State) : exec (.sliceMapUpdate p t) s = execSliceMapUpdate p t s := rfl

/-- A bank of a tile is retired. -/
def State.bankKnown (s : State) (t slice bank : Nat) : Prop := ∃ i, s.tiles[t]? = some i ∧ (slice, bank) ∈ i.banksGone

theorem State.bankKnown_iff (s : State) (t slice bank : Nat) :
    s.bankKnown t slice bank ↔ (s.tiles[t]?).any fun i => decide ((slice, bank) ∈ i.banksGone) := by
  cases h : s.tiles[t]? <;> simp [State.bankKnown, h]

section

variable {s : State} {t slice bank : Nat}

theorem execSliceBankRetirement_known (h : s.bankKnown t slice bank) : execSliceBankRetirement t slice bank s = .next s := by
  rw [State.bankKnown_iff] at h
  simp [execSliceBankRetirement, h]

variable (hs : slice < 8) (hb : bank < 4) (h : ¬ s.bankKnown t slice bank)

include hs hb h

theorem execSliceBankRetirement_unheld (hh : s.holds t = none) :
    execSliceBankRetirement t slice bank s =
      .next (s.modTile t fun i => { i with banksGone := i.banksGone ++ [(slice, bank)] }) := by
  rw [State.bankKnown_iff] at h
  simp [execSliceBankRetirement, Config.sliceCount, Config.bankCount, hs, hb, h, hh]

theorem execSliceBankRetirement_held {p : Nat} {x : Partition} (hh : s.holds t = some p) (hx : s.part? p = some x) :
    execSliceBankRetirement t slice bank s =
      .next ((s.retireBank x t slice bank).modTile t fun i => { i with banksGone := i.banksGone ++ [(slice, bank)] }) := by
  rw [State.bankKnown_iff] at h
  simp [execSliceBankRetirement, Config.sliceCount, Config.bankCount, hs, hb, h, hh, hx]

end

theorem State.superseded_iff (s : State) (x : Partition) (gen line : Nat) :
    s.superseded x gen line ↔ ∃ b ∈ x.goneSince gen,
      x.homeBank ((s.banksRetired x).filter fun b => !(x.goneSince gen).contains b) gen line = some b := by
  unfold State.superseded
  dsimp only
  cases x.homeBank ((s.banksRetired x).filter fun b => !(x.goneSince gen).contains b) gen line <;> simp

section

variable {s : State} {p l : Nat} {x : Partition} {c : Core} (hx : s.part? p = some x) (hc : s.core? p l = some c)
  (ht : c.tile ∉ x.mapTiles)

include hx hc ht

/-- The newest map is superseded in turn: the request waits. -/
theorem execRemap_waits {line : Nat} (hr : c.remap = .resent) (hs : s.superseded x c.remapGen line) :
    execRemap p l line s = .next (s.modCore p l fun c => { c with remaps := c.remaps + 1, remap := .waiting }) := by
  simp [execRemap, hx, hc, ht, hr, hs]

/-- The request is sent again under the newest map. -/
theorem execRemap_resent {line : Nat} (hr : c.remap = .idle ∨ c.remap = .resent ∧ s.superseded x c.remapGen line = false)
    (hs : s.superseded x (x.heldGen c.tile) line) :
    execRemap p l line s =
      .next (s.modCore p l fun c => { c with remaps := c.remaps + 1, remap := .resent, remapGen := x.mapGen }) := by
  rcases hr with hr | ⟨hr, hn⟩
  · simp [execRemap, hx, hc, ht, hr, hs]
  · simp [execRemap, hx, hc, ht, hr, hn, hs]

end

theorem execSliceMapUpdate_received {s : State} {p t : Nat} {x : Partition} (hx : s.part? p = some x) (ht : t ∈ x.tiles)
    (hm : t ∉ x.mapTiles) : execSliceMapUpdate p t s = .next (s.modPart p fun y => y.receiveMap t) := by
  simp [execSliceMapUpdate, hx, ht, hm]

/-! ## The statement -/

/-- Settles O53: each event's meaning in its own cases, the bytes of a core that moves, and where a failed tile stays. -/
theorem coreAndTileEvents : Obligations.CoreAndTileEvents := by
  unfold Obligations.CoreAndTileEvents
  refine ⟨?idle, ?count, ?serving, ?moves, ?bytes, ?warm, ?back, ?busy, ?tile, ?stays, ?router, fun _ _ _ _ => rfl, ?bank,
    ?superseded, ?remap, ?received⟩
  case idle =>
    intro s t c readable hs
    rw [exec_coreRetirement, execCoreRetirement_idle readable hs]
    refine ⟨fun h => by rw [State.retireIdle_noted h], fun hh hw ht => ⟨fun n hn => ?_, fun hn => ?_⟩,
      fun p l k hh hw ht hk => ⟨fun n hn => ?_, fun hn => ?_⟩⟩
    · rw [State.retireIdle_spare hh hw ht hn]
    · rw [State.retireIdle_bare hh hw ht hn]
    · rw [State.retireIdle_target hh hw ht, State.retarget_spare hk hn]
    · rw [State.retireIdle_target hh hw ht, State.retarget_absent hk hn]
  case count =>
    intro s
    rw [State.noteLive_eq, State.liveCount_eq]
    rfl
  case serving =>
    intro s t c p l k x hs hk hl hw hh hx
    simp only [exec_coreRetirement, execCoreRetirement_serving _ hs hk hl hh]
    refine ⟨fun n hn hr => ?_, fun n hn => ?_, fun readable hn => ?_⟩
    · rw [State.retireCore_warm hw hn hx hr]; rfl
    · rw [State.retireCore_cold hw hn]; rfl
    · rw [State.retireCore_absent readable hw hn]; rfl
  case moves => exact fun s p l tile phys c hc hl => State.moveCore_kept tile phys hc hl
  case bytes => exact fun s t c t' c' h hc hc' hne any n hn => State.byteAt_moveFrames h hc hc' hne any hn
  case warm =>
    intro s p l k n hh hk hn
    rw [exec_warmSubstitutionDone, execWarmSubstitutionDone_moves hh hk hn]
  case back => exact fun s t c i hi hc hs => execCoreReturn_spare hi hc hs
  case busy => exact fun s t c hs => execCoreReturn_serving hs
  case tile =>
    intro s t readable
    simp only [exec_tileDegraded]
    refine ⟨fun h => by rw [State.failTile_known h], fun hd ht hg => ⟨fun hh => ?_, fun hh hp => ?_, fun p x hh hp hx => ?_⟩⟩
    · rw [State.failTile_halted hd ht hg hh]; rfl
    · rw [State.failTile_unheld hd ht hg hh hp]
      by_cases hf : s.tileIs t .free
      · rw [if_pos hf, if_pos hf]; rfl
      · rw [if_neg hf, if_neg hf]; rfl
    · rw [State.failTile_held hd ht hg hh hp, State.failHeld_eq (s := s.markFailed t readable) readable hx]; rfl
  case stays =>
    intro s t p x hlt hf hh hp hx hold alone own hn hr _ hm
    rw [exec_tileDegraded, State.failTile_readable hlt hf hh hp hx hold alone own hn hr hm]
    rfl
  case router =>
    intro s
    refine ⟨fun hr hf => execRouterDrop_goes hr hf, fun h => ?_⟩
    rw [exec_routerDrop, execRouterDrop_drops h]
    exact ⟨fun hs => by rw [hs]; rfl, fun r hs => by rw [hs]; rfl⟩
  case bank =>
    intro s t slice bank hs hb
    refine ⟨fun h => execSliceBankRetirement_known h, fun h hh => execSliceBankRetirement_unheld hs hb h hh,
      fun p x h hh hx => ?_⟩
    rw [exec_sliceBankRetirement, execSliceBankRetirement_held hs hb h hh hx, State.retireBank, (State.part?_mem hx).2]
  case superseded => exact fun s x gen line => State.superseded_iff s x gen line
  case remap =>
    exact fun s p l line x c hx hc ht => ⟨fun hr hs => execRemap_waits hx hc ht hr hs,
      fun hr hs => execRemap_resent hx hc ht hr hs⟩
  case received => exact fun s p t x hx ht hm => execSliceMapUpdate_received hx ht hm

end Sys2Proof.Machine
end

section
/-! # What a load leaves to be read later (R28, R211) -/

namespace Sys2Proof.Machine

/-! ## Reads and what they find -/

theorem State.reachBytes_eq (s : State) (tag : Nat) (q : Reach) : s.reachBytes tag q = s.valueOf tag q := by
  simp only [State.reachBytes, State.valueOf, List.contains_eq_mem, decide_eq_true_eq]

theorem State.readReach_eq (s : State) (tag : Nat) (q : Reach) : s.readReach tag q = leNat (s.valueOf tag q) := by
  rw [State.readReach, State.reachBytes_eq]

theorem State.readPart_eq (s : State) (tag : Nat) (p : LoadPart) :
    s.readPart tag p = { p with got := some (p.got.getD (s.partValue tag p)) } := by
  simp only [State.readPart, State.partValue, List.contains_eq_mem, decide_eq_true_eq]

theorem State.readPart_bytes (s : State) (tag : Nat) (p : LoadPart) :
    (s.readPart tag p).bytes = p.got.getD (s.partValue tag p) := by
  rw [State.readPart_eq]; rfl

/-- A part as it waits: as it was, or read now. -/
def State.Waits (s : State) (tag : Nat) (p q : LoadPart) : Prop := q = p ∨ q = s.readPart tag p

theorem State.Waits.locs {s : State} {tag : Nat} {p q : LoadPart} (h : s.Waits tag p q) : q.locs = p.locs := by
  rcases h with rfl | rfl <;> rfl

theorem State.Waits.cached {s : State} {tag : Nat} {p q : LoadPart} (h : s.Waits tag p q) : q.cached = p.cached := by
  rcases h with rfl | rfl <;> rfl

/-- A part that had not been read holds, if anything, what stands there now. -/
theorem State.Waits.got {s : State} {tag : Nat} {p q : LoadPart} (h : s.Waits tag p q) (hp : p.got = none) {bs : List Byte}
    (hq : q.got = some bs) : bs = s.partValue tag q := by
  rcases h with rfl | rfl
  · simp [hp] at hq
  · rw [State.readPart_eq, hp] at hq
    exact (Option.some.inj hq).symm

/-- The parts of a load as they wait, each at its place: as it was, or read now. -/
def State.WaitAll (s : State) (tag : Nat) (parts ps : List LoadPart) : Prop :=
  ∃ f : LoadPart × Nat → LoadPart, ps = parts.zipIdx.map f ∧ ∀ p j, s.Waits tag p (f (p, j))

/-- What a load leaves behind: its writer's accesses, each for one of its destinations, with its parts as they wait. -/
theorem State.leaveLoads_spec (s : State) (r : SplitRef) (tag : Nat) (waits : Nat → Bool)
    (loads : List (LoadInto × List LoadPart)) :
    ∃ ls, s.leaveLoads r tag waits loads = { s with late := s.late ++ ls } ∧
      ∀ w ∈ ls, ∃ d parts ps, (d, parts) ∈ loads ∧ w = { writer := r, cells := [], load := some (d, ps) } ∧
        s.WaitAll tag parts ps := by
  refine ⟨_, rfl, fun w hw => ?_⟩
  obtain ⟨⟨⟨d, parts⟩, i⟩, hm, hw⟩ := List.mem_filterMap.1 hw
  dsimp only at hw
  split at hw
  · cases hw
  · cases hw
    refine ⟨d, parts, _, List.fst_mem_of_mem_zipIdx hm, rfl, _, rfl, fun p j => ?_⟩
    dsimp only
    split
    · exact .inl rfl
    · exact .inr rfl

theorem State.leaveLoads_nil (s : State) (r : SplitRef) (tag : Nat) (waits : Nat → Bool) :
    s.leaveLoads r tag waits [] = { s with late := s.late ++ [] } := rfl

/-- Parts that wait lie where the parts of the load lie. -/
theorem State.WaitAll.flatMap_locs {s : State} {tag : Nat} {parts ps : List LoadPart} (h : s.WaitAll tag parts ps) :
    (ps.flatMap fun p => p.locs) = parts.flatMap fun p => p.locs := by
  obtain ⟨f, rfl, hf⟩ := h
  have hl : (fun e : LoadPart × Nat => (f e).locs) = fun e => e.1.locs := funext fun e => (hf e.1 e.2).locs
  rw [List.flatMap_map, hl, ← List.flatMap_map (f := Prod.fst), List.zipIdx_map_fst]

/-- Each part that waits is one of the load's. -/
theorem State.WaitAll.exists_part {s : State} {tag : Nat} {parts ps : List LoadPart}
    (h : s.WaitAll tag parts ps) : ∀ q ∈ ps, ∃ p ∈ parts, s.Waits tag p q := by
  obtain ⟨f, rfl, hf⟩ := h
  intro q hq
  obtain ⟨⟨p, j⟩, hp, rfl⟩ := List.mem_map.1 hq
  exact ⟨p, List.fst_mem_of_mem_zipIdx hp, hf p j⟩

/-! ## The reads of one access (R211) -/

theorem readsOf_locs (a : LaneAccess) (q : Reach) : ((readsOf a q).flatMap fun p => p.locs) = q.locs := by
  unfold readsOf
  split
  · simp
  · simp [List.flatMap_map]

theorem readsOf_got (a : LaneAccess) (q : Reach) : ∀ p ∈ readsOf a q, p.got = none := by
  unfold readsOf
  split
  · simp
  · intro p hp
    obtain ⟨_, _, rfl⟩ := List.mem_map.1 hp
    rfl

theorem readsOf_cached (a : LaneAccess) (q : Reach) : ∀ p ∈ readsOf a q, ∀ loc ∈ p.locs, loc ∈ p.cached ↔ loc ∈ q.cached := by
  unfold readsOf
  split
  · simp
  · intro p hp loc hl
    obtain ⟨_, _, rfl⟩ := List.mem_map.1 hp
    simp only [List.mem_singleton] at hl
    simp [hl]

/-- A load whose accesses are read as a whole or byte by byte leaves behind later reads of these accesses. -/
theorem State.leaveLoads_later (s : State) (k : Ctx) (waits : Nat → Bool) (loads : List (LoadInto × List LoadPart))
    (P : LoadInto → List LoadPart → Prop)
    (h : ∀ e ∈ loads, ∃ a q, e.2 = readsOf a q ∧ ∀ ps, (ps.flatMap fun p => p.locs) = q.locs →
      (∀ p ∈ ps, ∀ loc ∈ p.locs, loc ∈ p.cached ↔ loc ∈ q.cached) → P e.1 ps) :
    ∃ ls, s.leaveLoads k.r k.part.tag waits loads = { s with late := s.late ++ ls } ∧ (loads = [] → ls = []) ∧
      LaterReads s k ls P := by
  obtain ⟨ls, he, hs⟩ := s.leaveLoads_spec k.r k.part.tag waits loads
  refine ⟨ls, he, fun h0 => ?_, fun w hw => ?_⟩
  · refine List.eq_nil_iff_forall_not_mem.2 fun w hw => ?_
    obtain ⟨d, parts, ps, hm, -⟩ := hs w hw
    simp [h0] at hm
  · obtain ⟨d, parts, ps, hm, rfl, hf⟩ := hs w hw
    obtain ⟨a, q, hparts, hP⟩ := h (d, parts) hm
    have hr : parts = readsOf a q := hparts
    subst hr
    refine ⟨rfl, rfl, d, ps, rfl, hP ps ?_ ?_, ?_⟩
    · rw [State.WaitAll.flatMap_locs hf, readsOf_locs]
    · intro p hp loc hl
      obtain ⟨p', hp', hw'⟩ := State.WaitAll.exists_part hf p hp
      rw [hw'.cached]
      exact readsOf_cached a q p' hp' loc (by rw [← hw'.locs]; exact hl)
    · intro p hp bs _ hb
      obtain ⟨p', hp', hw'⟩ := State.WaitAll.exists_part hf p hp
      exact hw'.got (readsOf_got a q p' hp') hb

end Sys2Proof.Machine
end

section
/-! # Loads: what each form reads and writes (R215 to R219) -/

namespace Sys2Proof.Machine

/-! ## The value that a lane receives -/

/-- Extension by TYPE, in the words of the rule (R215). -/
theorem extend_eq (t w v : Nat) (hw : w ≤ 32) :
    extend t w v = BitVec.ofNat 32
      (if typeSigned t ∧ 2 ^ (w - 1) ≤ v % 2 ^ w then v % 2 ^ w + (2 ^ 32 - 2 ^ w) else v % 2 ^ w) := by
  have hlt : v % 2 ^ w < 2 ^ w := Nat.mod_lt _ (Nat.two_pow_pos w)
  have hle : 2 ^ w ≤ 2 ^ 32 := Nat.pow_le_pow_right (by decide) hw
  apply BitVec.eq_of_toNat_eq
  simp only [extend, valueOf, signedOf, BitVec.toNat_ofInt, BitVec.toNat_ofNat]
  cases typeSigned t
  · simp only [Bool.false_eq_true, false_and, if_false]
    omega
  · by_cases hs : v % 2 ^ w < 2 ^ (w - 1)
    · simp only [if_true, true_and, if_pos hs, if_neg (Nat.not_le.2 hs)]
      omega
    · simp only [if_true, true_and, if_neg hs, if_pos (Nat.not_lt.1 hs)]
      omega

/-- A word is not extended. -/
theorem extend_word (v : Nat) : extend 1 32 v = BitVec.ofNat 32 v := by
  rw [extend_eq 1 32 v (by decide), if_neg (by simp [typeSigned])]
  exact BitVec.eq_of_toNat_eq (by simp)

/-! ## What a load writes in one lane -/

theorem Ctx.acting_nodup (k : Ctx) : k.acting.Nodup := (List.nodup_range.filter _).filter _

/-- Of what is written lane by lane, one lane's part. -/
theorem filter_lane (g : Nat → List Put) (hg : ∀ l, ∀ u ∈ g l, u.lane = l) (ls : List Nat) (hn : ls.Nodup) {l : Nat}
    (hl : l ∈ ls) : (ls.flatMap g).filter (fun u => u.lane = l) = g l := by
  have whole : ∀ m, (g m).filter (fun u => u.lane = l) = if m = l then g m else [] := by
    intro m
    split
    · exact List.filter_eq_self.2 fun u hu => by simp [hg m u hu, *]
    · exact List.filter_eq_nil_iff.2 fun u hu => by simp [hg m u hu, *]
  induction ls with
  | nil => cases hl
  | cons m ls ih =>
    rw [List.nodup_cons] at hn
    rw [List.flatMap_cons, List.filter_append, whole]
    rcases List.mem_cons.1 hl with rfl | hl
    · have rest : (ls.flatMap g).filter (fun u => u.lane = l) = [] := by
        refine List.filter_eq_nil_iff.2 fun u hu => ?_
        obtain ⟨m, hm, hu⟩ := List.mem_flatMap.1 hu
        simp only [hg m u hu, decide_eq_true_eq]
        rintro rfl
        exact hn.1 hm
      rw [if_pos rfl, rest, List.append_nil]
    · have hne : m ≠ l := fun e => hn.1 (e ▸ hl)
      rw [if_neg hne, List.nil_append, ih hn.2 hl]

theorem putLanes_lane (d : VReg) {ls : List Nat} (f : Nat → W32) (hn : ls.Nodup) {l : Nat} (hl : l ∈ ls) :
    (putLanes d ls f).filter (fun u => u.lane = l) = [⟨d.toNat, l, f l⟩] := by
  have e : putLanes d ls f = ls.flatMap fun l => [⟨d.toNat, l, f l⟩] := List.map_eq_flatMap
  rw [e, filter_lane (fun l => [⟨d.toNat, l, f l⟩]) (by simp) ls hn hl]

theorem putPairs_lane (d : VReg) {ls : List Nat} (f : Nat → W64) (hn : ls.Nodup) {l : Nat} (hl : l ∈ ls) :
    (putPairs d ls f).filter (fun u => u.lane = l) =
      [⟨d.toNat, l, (f l).setWidth 32⟩, ⟨d.toNat + 1, l, (f l).extractLsb' 32 32⟩] :=
  filter_lane (fun l => [⟨d.toNat, l, (f l).setWidth 32⟩, ⟨d.toNat + 1, l, (f l).extractLsb' 32 32⟩]) (by simp) ls hn hl

/-- A waiting read of a lane writes there what the load writes. -/
def LoadInto.Fits (f : Nat → LoadInto) (as : List LaneAccess) (puts : (Nat → Nat) → List Put) : Prop :=
  ∀ a ∈ as, ∀ bss : List (List Byte), bss.flatten.length = a.size →
    (f a.lane).puts bss = (puts fun _ => leNat bss.flatten).filter fun u => u.lane = a.lane

theorem accesses_lane {ls : List Nat} {ea : Nat → W64} {n : Nat} {a : LaneAccess} (h : a ∈ accesses ls ea n) :
    a.lane ∈ ls ∧ a.size = n := by
  obtain ⟨l, hl, rfl⟩ := List.mem_map.1 h
  exact ⟨hl, rfl⟩

theorem LoadInto.fits_lane (d : VReg) {k : Ctx} {ls : List Nat} (hls : ∀ l ∈ ls, l ∈ k.acting) (ea : Nat → W64) (n t w : Nat)
    (g : Nat → W32) (hg : ∀ v, extend t w v = g v) :
    LoadInto.Fits (fun l => .lane d.toNat l t w) (accesses ls ea n) fun v => putLanes d k.acting fun l => g (v l) := by
  intro a ha bss _
  rw [putLanes_lane d _ k.acting_nodup (hls _ (accesses_lane ha).1), ← hg]
  rfl

theorem LoadInto.fits_pair (d : VReg) (k : Ctx) (ea : Nat → W64) :
    LoadInto.Fits (fun l => .pair d.toNat l) (accesses k.acting ea 8)
      fun v => putPairs d k.acting fun l => BitVec.ofNat 64 (v l) := by
  intro a ha bss _
  rw [putPairs_lane d _ k.acting_nodup (accesses_lane ha).1]
  simp only [LoadInto.puts]
  congr 2
  · simp [BitVec.setWidth_ofNat_of_le]
  · congr 1
    apply BitVec.eq_of_toNat_eq
    simp only [BitVec.extractLsb'_toNat, BitVec.toNat_ofNat, Nat.shiftRight_eq_div_pow]
    omega

/-! ## The forms -/

theorem baseOk_wf {m : Base} (h : baseOk m) : m.wf = true := by
  cases m with
  | s r => rfl
  | v r => exact decide_eq_true h

theorem scopeOk_of_le {c : Byte} (h : c.toNat ≤ 5) : scopeOk c = true := decide_eq_true h

/-- The address of a strided access (R217). -/
theorem Ctx.strided_eq (k : Ctx) (a b : SReg) :
    k.strided a b = fun l : Nat => mod64 ((k.s a).toNat + l * (k.s b).toNat) := by
  funext l
  apply BitVec.eq_of_toNat_eq
  simp only [Ctx.strided, mod64, BitVec.toNat_add, BitVec.toNat_mul, BitVec.toNat_ofNat, BitVec.toNat_ofInt]
  have e : ((k.s a).toNat : Int) + (l : Int) * ((k.s b).toNat : Int) = (((k.s a).toNat + l * (k.s b).toNat : Nat) : Int) := by
    push_cast; rfl
  rw [e, ← Int.natCast_emod, Int.toNat_natCast, Nat.mod_mul_mod, Nat.add_mod_mod]

/-- An instruction is a load as its claim says; `into` is where the lanes that are read later put what they read. -/
structure LoadForm (i : Instr) (k : Ctx) (c : LoadClaim) (into : Option (Nat → LoadInto)) : Prop where
  issues : ∀ s, ∃ f, exec i s = s.issue f ∧
    f s k = loadAct s k true true c.align (without c.marks c.written) c.accesses c.puts into
  acquires : c.align = some 0x07 → into = none
  fits : ∀ f, into = some f → LoadInto.Fits f c.accesses c.puts

/-- Every load that the claim speaks of has one of these forms. -/
theorem loadForm_of_claim {i : Instr} {k : Ctx} {c : LoadClaim} (h : loadClaim i k = some c) (hm : c.may) :
    ∃ into, LoadForm i k c into := by
  have all : ∀ l ∈ k.acting, l ∈ k.acting := fun _ h => h
  have word : ∀ v, extend 1 32 v = BitVec.ofNat 32 (id v) := extend_word
  unfold loadClaim at h
  dsimp only at h
  split at h
  case h_1 d m x =>
    cases h
    obtain ⟨hb, ht⟩ := hm
    have low : ∀ v, extend k.type 8 v = _ := fun v => extend_eq k.type 8 v (by decide)
    refine ⟨some fun l => .lane d.toNat l k.type 8, fun s => ⟨_, .trans (b := execLd8 d m x s) rfl rfl, ?_⟩, nofun, fun f hf => ?_⟩
    · have hl : Instr.wf (.ld8 d m x) = true := baseOk_wf hb
      simp only [hl, decide_eq_true ht, low]
      rfl
    · cases hf
      exact LoadInto.fits_lane d all _ 1 k.type 8 _ low
  case h_2 d m x =>
    cases h
    obtain ⟨hb, ht⟩ := hm
    have low : ∀ v, extend k.type 16 v = _ := fun v => extend_eq k.type 16 v (by decide)
    refine ⟨some fun l => .lane d.toNat l k.type 16, fun s => ⟨_, .trans (b := execLd16 d m x s) rfl rfl, ?_⟩, nofun, fun f hf => ?_⟩
    · have hl : Instr.wf (.ld16 d m x) = true := baseOk_wf hb
      simp only [hl, decide_eq_true ht, low]
      rfl
    · cases hf
      exact LoadInto.fits_lane d all _ 2 k.type 16 _ low
  case h_3 d m x =>
    cases h
    refine ⟨some fun l => .lane d.toNat l 1 32, fun s => ⟨_, .trans (b := execLd32 d m x s) rfl rfl, ?_⟩, nofun, fun f hf => ?_⟩
    · have hl : Instr.wf (.ld32 d m x) = true := baseOk_wf hm
      simp only [hl]
      rfl
    · cases hf
      exact LoadInto.fits_lane d all _ 4 1 32 _ word
  case h_4 d m x =>
    cases h
    obtain ⟨hb, he⟩ := hm
    refine ⟨some fun l => .pair d.toNat l, fun s => ⟨_, .trans (b := execLd64 d m x s) rfl rfl, ?_⟩, nofun, fun f hf => ?_⟩
    · have hl : Instr.wf (.ld64 d m x) = true := by simp [Instr.wf, evenReg, he, baseOk_wf hb]
      simp only [hl]
    · cases hf
      exact LoadInto.fits_pair d k _
  case h_5 d a b =>
    cases h
    refine ⟨some fun l => .lane d.toNat l 1 32, fun s => ⟨_, .trans (b := execLdw d a b s) rfl rfl, ?_⟩, nofun, fun f hf => ?_⟩
    · simp only [Ctx.strided_eq]
      rfl
    · cases hf
      exact LoadInto.fits_lane d all _ 4 1 32 _ word
  case h_6 d m x =>
    cases h
    obtain ⟨hb, h2, h8⟩ := hm
    refine ⟨some fun l => .lane d.toNat l 1 32, fun s => ⟨_, .trans (b := execLdbp d m x s) rfl rfl, ?_⟩, nofun, fun f hf => ?_⟩
    · have hl : Instr.wf (.ldbp d m x) = true := baseOk_wf hb
      simp only [hl, decide_eq_true h2, decide_eq_true h8]
      rfl
    · cases hf
      exact LoadInto.fits_lane d (fun l hl => (List.mem_filter.1 hl).1) _ 4 1 32 _ word
  case h_7 d m x =>
    cases h
    obtain ⟨hb, hs⟩ := hm
    refine ⟨none, fun s => ⟨_, .trans (b := execLda32 d m x s) rfl rfl, ?_⟩, fun _ => rfl, nofun⟩
    have hl : Instr.wf (.lda32 d m x) = true := by simp [Instr.wf, baseOk_wf hb, scopeOk_of_le hs]
    simp only [hl]
    rfl
  case h_8 d m x =>
    cases h
    obtain ⟨hb, he, hs⟩ := hm
    refine ⟨none, fun s => ⟨_, .trans (b := execLda64 d m x s) rfl rfl, ?_⟩, fun _ => rfl, nofun⟩
    have hl : Instr.wf (.lda64 d m x) = true := by simp [Instr.wf, evenReg, he, baseOk_wf hb, scopeOk_of_le hs]
    simp only [hl]
  case h_9 => cases h

end Sys2Proof.Machine
end

section
/-! # Loads: the statement (R28, R211, R215 to R219, R242) -/

namespace Sys2Proof.Machine

/-! ## Loads of lanes -/

/-- Every access that has been checked is one of those asked for. -/
theorem State.reachLanes_mem {s : State} {k : Ctx} {w : Want} {align : Option Nat} {as : List LaneAccess}
    {qs : List (LaneAccess × Reach)} (h : s.reachLanes k w align as = .ok qs) : ∀ q ∈ qs, q.1 ∈ as := by
  induction as generalizing qs with
  | nil => cases h; simp
  | cons a as ih =>
    unfold State.reachLanes at h
    dsimp only at h
    split at h
    · cases h
    · split at h
      · cases h
      · split at h
        · cases h
        · rename_i qs' hqs
          cases h
          intro q hq
          rcases List.mem_cons.1 hq with rfl | hq
          · exact List.mem_cons_self
          · exact List.mem_cons_of_mem _ (ih hqs q hq)

/-- A write whose chunks are to be had goes on. -/
theorem State.withChunks_taken {k : Ctx} {ws : List Put} (h : k.takes ws) (s : State) (f : State → Eff) :
    s.withChunks k ws f = f (s.taken k ws) := by
  have h0 : (k.core.takeChunks k.team (chunksOf ws) []).2.2 = [] := h
  have hsplit : k.core.takeChunks k.team (chunksOf ws) [] = ((k.core.takeChunks k.team (chunksOf ws) []).1,
      (k.core.takeChunks k.team (chunksOf ws) []).2.1, []) := by rw [← h0]
  unfold State.withChunks
  dsimp only
  rw [hsplit]
  rfl

/-- A load whose checks pass and whose chunks are to be had performs the split's own accesses to its bytes, keeps the
translations and writes what it reads; some reads are left for later. -/
theorem State.loadLanes_done {s : State} {k : Ctx} {w : Want} {align : Option Nat} {as : List LaneAccess}
    {puts : (Nat → Nat) → List Put} {qs : List (LaneAccess × Reach)} (into : Option (Nat → LoadInto))
    (hq : s.reachLanes k w align as = .ok qs) (hb : ∀ q ∈ qs, s.blocked k.part k.core.tile q.2.locs = false)
    (ht : k.takes (puts ((s.performMine k.r (reached qs)).laneValue k.part.tag qs))) :
    s.loadLanes k w align as puts into =
      let s1 := s.performMine k.r (reached qs)
      let ws := puts (s1.laneValue k.part.tag qs)
      .done ((((s1.taken k ws).keepLanes k false qs).putAll k.r ws).leaveLoads k.r k.part.tag (Config.late s1.tick)
        (loadsOf into qs)) := by
  have hany : (qs.any fun q => s.blocked k.part k.core.tile q.2.locs) = false := by
    rw [List.any_eq_false]
    exact fun q hq => by simp [hb q hq]
  have hval : (fun l : Nat => match qs.find? fun q => q.1.lane = l with
      | none => 0
      | some q => (s.performMine k.r (reached qs)).readReach k.part.tag q.2) =
      (s.performMine k.r (reached qs)).laneValue k.part.tag qs := by
    funext l
    unfold State.laneValue
    cases qs.find? fun q => q.1.lane = l with
    | none => rfl
    | some q => exact State.readReach_eq _ _ _
  have hset : s.loadLanes k w align as puts into =
      (s.performMine k.r (reached qs)).withChunks k (puts ((s.performMine k.r (reached qs)).laneValue k.part.tag qs))
        fun u => .done (((u.keepLanes k false qs).putAll k.r
          (puts ((s.performMine k.r (reached qs)).laneValue k.part.tag qs))).leaveLoads k.r k.part.tag (Config.late u.tick)
            (loadsOf into qs)) := by
    rw [← hval]
    simp only [State.loadLanes, hq, hany, Bool.false_eq_true, if_false]
    rfl
  rw [hset, State.withChunks_taken ht]
  rfl

/-- An act with nothing against it comes to its effect. -/
theorem loadAct_cause (s : State) (k : Ctx) (align : Option Nat) (marks : List Nat) (as : List LaneAccess)
    (puts : (Nat → Nat) → List Put) (into : Option (Nat → LoadInto)) :
    (loadAct s k true true align marks as puts into).cause k = none := rfl

/-- What the lanes of a load leave to be read later reads what the load reads. -/
theorem plainReads_later {s t : State} {k : Ctx} {w : Want} {align : Option Nat} {as : List LaneAccess}
    {puts : (Nat → Nat) → List Put} {qs : List (LaneAccess × Reach)} {into : Option (Nat → LoadInto)} (waits : Nat → Bool)
    (hq : s.reachLanes k w align as = .ok qs) (hf : ∀ f, into = some f → LoadInto.Fits f as puts) :
    ∃ ls, t.leaveLoads k.r k.part.tag waits (loadsOf into qs) = { t with late := t.late ++ ls } ∧ (into = none → ls = []) ∧
      LaterReads t k ls (PlainReads qs puts) := by
  have each : ∀ e ∈ loadsOf into qs, ∃ a q, e.2 = readsOf a q ∧ ∀ ps, (ps.flatMap fun p => p.locs) = q.locs →
      (∀ p ∈ ps, ∀ loc ∈ p.locs, loc ∈ p.cached ↔ loc ∈ q.cached) → PlainReads qs puts e.1 ps := by
    intro e he
    cases into with
    | none => cases he
    | some f =>
      obtain ⟨q, hm, rfl⟩ := List.mem_map.1 he
      exact ⟨q.1, q.2, rfl, fun ps hl hc => ⟨q, hm, hl, hc, hf f rfl q.1 (State.reachLanes_mem hq q hm)⟩⟩
  obtain ⟨ls, he, hn, hl⟩ := t.leaveLoads_later k waits (loadsOf into qs) _ each
  exact ⟨ls, he, fun h => hn (by rw [h]; rfl), hl⟩

/-- The outcome of a load of one of the forms. -/
theorem LoadForm.result {i : Instr} {s : State} {k : Ctx} {c : LoadClaim} {into : Option (Nat → LoadInto)}
    {qs : List (LaneAccess × Reach)} (form : LoadForm i k c into) (h : s.ctx = some k)
    (hq : s.reachLanes k { cls := 0, data := true } c.align c.accesses = .ok qs)
    (hb : ∀ q ∈ qs, s.blocked k.part k.core.tile q.2.locs = false)
    (ht : k.takes (c.puts ((s.performMine k.r (reached qs)).laneValue k.part.tag qs))) :
    let s1 := s.performMine k.r (reached qs)
    let ws := c.puts (s1.laneValue k.part.tag qs)
    let t := ((s1.taken k ws).keepLanes k false qs).putAll k.r ws
    ∃ ls, exec i s = .next (({ t with late := t.late ++ ls } : State).complete k.r
        { marks := without c.marks c.written, sweep := true } none) ∧
      (c.align = some 0x07 → ls = []) ∧ LaterReads t k ls (PlainReads qs c.puts) := by
  intro s1 ws t
  obtain ⟨f, hx, ha⟩ := form.issues s
  obtain ⟨ls, he, hn, hl⟩ := plainReads_later (t := t) (Config.late (s1.taken k ws).tick) hq form.fits
  refine ⟨ls, ?_, fun ha => hn (form.acquires ha), hl⟩
  have heff : (f s k).eff = .done { t with late := t.late ++ ls } := by
    rw [ha, ← he]
    exact State.loadLanes_done into hq hb ht
  rw [hx, State.issue_eff f h (by rw [ha]; exact loadAct_cause _ _ _ _ _ _ _), heff, ha]
  rfl

/-! ## The scalar load (R216) -/

theorem exec_lds (d m : SReg) (x : SIndex) (s : State) : exec (.lds d m x) s = execLds d m x s := rfl

theorem scalarLoad_result {d m : SReg} {x : SIndex} {s : State} {k : Ctx} {q : Reach} (h : s.ctx = some k)
    (hc : k.team.liveSplits = 1) (hq : s.reachBy k { cls := 0, data := true } (k.scalarAddress m x) 8 = .ok q)
    (hb : s.blocked k.part k.core.tile q.locs = false) :
    let s1 := s.performMine k.r q.locs
    let t := (s1.keepReach k false q).modTeam k.r.part k.r.core k.r.slot fun t =>
      t.setScalar d (BitVec.ofNat 64 (leNat (s1.valueOf k.part.tag q)))
    ∃ ls, exec (.lds d m x) s = .next (({ t with late := t.late ++ ls } : State).complete k.r {} none) ∧
      LaterReads t k ls fun e ps => e = .scalar d.toNat ∧ (ps.flatMap fun p => p.locs) = q.locs := by
  intro s1 t
  obtain ⟨ls, he, -, hl⟩ := t.leaveLoads_later k (Config.late s1.tick)
    [(.scalar d.toNat, readsOf ⟨0, k.scalarAddress m x, 8⟩ q)]
    (fun e ps => e = .scalar d.toNat ∧ (ps.flatMap fun p => p.locs) = q.locs)
    (fun e he => by
      obtain rfl := List.mem_singleton.1 he
      exact ⟨_, q, rfl, fun ps hp _ => ⟨rfl, hp⟩⟩)
  refine ⟨ls, ?_, hl⟩
  have hconv : k.team.converged = true := decide_eq_true hc
  rw [exec_lds, ← he]
  unfold execLds
  rw [State.issue_eff _ h]
  · simp only [hq, hb, Bool.false_eq_true, if_false, State.readReach_eq]
    rfl
  · simp only [Act.cause, hconv]
    rfl

/-! ## A load that is performed later -/

theorem Core.give_teams (c : Core) (bss : List (List Byte)) (d : LoadInto) : (c.give bss d).teams = c.teams := by
  cases d <;> rfl

theorem Team.give_scalar (u : Team) (bss : List (List Byte)) (n : Nat) :
    u.give bss (.scalar n) = u.putScalar n (BitVec.ofNat 64 (leNat bss.flatten)) := rfl

theorem Team.give_lanes (u : Team) (bss : List (List Byte)) {d : LoadInto} (h : ∀ n, d ≠ .scalar n) :
    u.give bss d = u.puts ((d.puts bss).filter fun w => (tableFind u.chunks (32 * w.name + w.lane / 32)).isSome) := by
  cases d with
  | scalar n => exact absurd rfl (h n)
  | _ => rfl

/-- A load that is given its value changes the scalars or the chunks of its team, nothing else. -/
theorem Team.give_frame (u : Team) (bss : List (List Byte)) (d : LoadInto) :
    ∃ cs sregs, u.give bss d = { u with chunks := cs, sregs := sregs } := by
  by_cases h : ∃ n, d = .scalar n
  · obtain ⟨n, rfl⟩ := h
    exact ⟨_, _, rfl⟩
  · rw [Team.give_lanes u bss fun n e => h ⟨n, e⟩]
    obtain ⟨cs, e⟩ := Team.puts_frame u ((d.puts bss).filter fun w => (tableFind u.chunks (32 * w.name + w.lane / 32)).isSome)
    exact ⟨cs, _, e⟩

/-- A load writes no container twice. -/
theorem LoadInto.puts_distinct (d : LoadInto) (bss : List (List Byte)) :
    (d.puts bss).Pairwise fun a b => ¬ (a.name = b.name ∧ a.lane = b.lane) := by
  cases d <;> simp [LoadInto.puts]

/-- A container after a load has been given its value: a chunk that is still held takes it. -/
theorem Team.container_give (u : Team) (bss : List (List Byte)) {d : LoadInto} (h : ∀ n, d ≠ .scalar n)
    (hl : ∀ w ∈ d.puts bss, w.lane < 1024) (name : Nat) {lane : Nat} (hlane : lane < 1024) :
    (u.give bss d).container name lane =
      if (tableFind u.chunks (32 * name + lane / 32)).isSome then (writtenTo (d.puts bss) name lane).getD (u.container name lane)
      else u.container name lane := by
  let held := (d.puts bss).filter fun w => (tableFind u.chunks (32 * w.name + w.lane / 32)).isSome
  have hheld : ∀ w ∈ held, w ∈ d.puts bss ∧ (tableFind u.chunks (32 * w.name + w.lane / 32)).isSome :=
    fun w hw => List.mem_filter.1 hw
  have hlt : ∀ w ∈ held, w.lane < 1024 := fun w hw => hl w (hheld w hw).1
  rw [Team.give_lanes u bss h]
  change (u.puts held).container name lane = _
  by_cases hc : (tableFind u.chunks (32 * name + lane / 32)).isSome
  · rw [if_pos hc]
    cases hw : writtenTo (d.puts bss) name lane with
    | none =>
      exact Team.container_puts_other u held hlane hlt fun w hm => writtenTo_none hw w (hheld w hm).1
    | some x =>
      obtain ⟨w, hm, rfl, rfl, rfl⟩ := writtenTo_some hw
      exact Team.container_puts_mem u held hlt ((d.puts_distinct bss).filter _) w (List.mem_filter.2 ⟨hm, hc⟩)
  · rw [if_neg hc]
    refine Team.container_puts_other u held hlane hlt ?_
    rintro w hm ⟨rfl, rfl⟩
    exact hc (hheld w hm).2

/-- The team of a load that is given its value. -/
theorem State.team?_giveLoad {s : State} {r : SplitRef} {u : Team} (bss : List (List Byte)) (d : LoadInto)
    (h : s.team? r.part r.core r.slot = some u) :
    (s.giveLoad r bss d).team? r.part r.core r.slot = some (u.give bss d) := by
  have hslot : ∀ t : Team, (t.give bss d).slot = t.slot := fun t => by
    obtain ⟨cs, sregs, e⟩ := t.give_frame bss d
    rw [e]
  have hcore : (s.modCore r.part r.core fun c => c.give bss d).team? r.part r.core r.slot = some u := by
    rw [← h]
    simp only [State.team?, State.core?_modCore, Option.bind_map]
    congr 1
    funext c
    simp only [Core.team?, Function.comp, Core.give_teams]
  unfold State.giveLoad
  rw [State.team?_modTeam _ _ _ _ _ hslot, hcore]
  rfl

/-- A waiting load is performed: its destination is given what its parts have found, or find now. -/
theorem State.performLate_load {s : State} {w : Late} {d : LoadInto} {ps : List LoadPart} {x : Partition}
    (h : w.load = some (d, ps)) (hx : s.part? w.writer.part = some x) :
    s.performLate w = s.giveLoad w.writer (ps.map fun p => p.got.getD (s.partValue x.tag p)) d := by
  simp only [State.performLate, hx, h, State.readPart_bytes]

/-- Settles O23: loads by their forms, the scalar load, and what a load left to be read later writes when it is read. -/
theorem loadResults : Obligations.LoadResults := by
  unfold Obligations.LoadResults
  refine ⟨fun i s k c qs h hc hm hq hb => ?lanes, fun d m x s k q h hc hq hb => scalarLoad_result h hc hq hb,
    fun s w d ps x u hw hx hu => ?later⟩
  case lanes =>
    obtain ⟨into, form⟩ := loadForm_of_claim hc hm
    exact fun ht => form.result h hq hb ht
  case later =>
    intro bss
    refine ⟨u.give bss d, ?_, ?_, ?_, ?_, fun hd => ⟨?_, fun hl name lane hlane => Team.container_give u bss hd hl name hlane⟩⟩
    · rw [State.performLate_load hw hx]
      exact State.team?_giveLoad bss d hu
    · obtain ⟨cs, sregs, e⟩ := u.give_frame bss d
      rw [e]
    · rw [State.performLate_load hw hx]
      rfl
    · rintro n rfl
      refine ⟨rfl, fun q => ?_⟩
      split
      · subst q; exact Team.scalar_setScalar_same u _ _
      · exact Team.scalar_setScalar_other u _ ‹_›
    · rw [Team.give_lanes u bss hd]
      obtain ⟨cs, e⟩ := Team.puts_frame u ((d.puts bss).filter fun w => (tableFind u.chunks (32 * w.name + w.lane / 32)).isSome)
      rw [e]

end Sys2Proof.Machine
end

section
/-! # What the work of a partition leaves as it was: who holds which partition -/

namespace Sys2Proof.Machine

/-! ## How the partitions stand -/

/-- How a partition stands: its number, whether it runs, and whether heat holds it (R427). -/
def Partition.standing (x : Partition) : Nat × Hold × Bool := (x.pindex, x.hold, x.byHeat)

def State.standing (s : State) : List (Nat × Hold × Bool) := s.parts.map Partition.standing

theorem Partition.standing_pindex {x y : Partition} (h : x.standing = y.standing) : x.pindex = y.pindex :=
  congrArg (fun k : Nat × Hold × Bool => k.1) h

/-! ## Updates of the state -/

theorem State.standing_modPart (s : State) (p : Nat) {f : Partition → Partition} (h : ∀ x, (f x).standing = x.standing) :
    (s.modPart p f).standing = s.standing := by
  simp only [State.standing, State.modPart, List.map_map]
  refine List.map_congr_left fun x _ => ?_
  by_cases hx : x.pindex = p <;> simp [hx, h]

@[simp] theorem State.standing_modCore (s : State) (p l : Nat) (f : Core → Core) : (s.modCore p l f).standing = s.standing :=
  s.standing_modPart p fun _ => rfl

@[simp] theorem State.standing_modTeam (s : State) (p l k : Nat) (f : Team → Team) : (s.modTeam p l k f).standing = s.standing :=
  s.standing_modCore p l _

@[simp] theorem State.standing_modSplit (s : State) (r : SplitRef) (f : Split → Split) :
    (s.modSplit r f).standing = s.standing :=
  s.standing_modTeam _ _ _ _

@[simp] theorem State.standing_atTeam (s : State) (t : TeamRef) (f : Team → Team) : (s.atTeam t f).standing = s.standing :=
  s.standing_modTeam _ _ _ _

theorem State.standing_foldl {α : Type} (f : State → α → State) (h : ∀ s a, (f s a).standing = s.standing) (l : List α)
    (s : State) : (l.foldl f s).standing = s.standing := by
  induction l generalizing s with
  | nil => rfl
  | cons a l ih => exact (ih _).trans (h s a)

/-! ## Memory, seals and outputs -/

@[simp] theorem State.standing_emit (s : State) (o : Output) : (s.emit o).standing = s.standing := rfl
@[simp] theorem State.standing_sendPeer (s : State) (q : Nat) (o : Output) : (s.sendPeer q o).standing = s.standing := rfl
@[simp] theorem State.standing_clearFrame (s : State) (t c f : Nat) : (s.clearFrame t c f).standing = s.standing := rfl

@[simp] theorem State.standing_putByte (s : State) (tag loc : Nat) (b : Byte) : (s.putByte tag loc b).standing = s.standing := by
  unfold State.putByte; split <;> rfl

@[simp] theorem State.standing_putBytes (s : State) (tag : Nat) (cells : List (Nat × Byte)) :
    (s.putBytes tag cells).standing = s.standing := by
  induction cells generalizing s with
  | nil => rfl
  | cons c cells ih => exact (ih _).trans (s.standing_putByte _ _ _)

theorem Partition.fire_standing (x : Partition) (v : Nat) (path : HostPath) : (x.fire v path).standing = x.standing := by
  unfold Partition.fire; split
  · rfl
  · cases path <;> rfl

@[simp] theorem State.standing_fireMsix (s : State) (p v : Nat) : (s.fireMsix p v).standing = s.standing := by
  simp only [State.standing, State.fireMsix, List.map_map]
  refine List.map_congr_left fun x _ => ?_
  simp only [Function.comp]
  split
  · exact x.fire_standing v _
  · rfl

theorem Partition.trigger_standing (x : Partition) (locs : List Nat) (names : Core → Team → W64 → Bool) :
    (x.trigger locs names).standing = x.standing := by
  dsimp only [Partition.standing, Partition.trigger]

@[simp] theorem State.standing_store (s : State) (p : Nat) (w : Writer) (cells : List (Nat × Byte)) :
    (s.store p w cells).standing = s.standing := by
  unfold State.store
  split
  · rfl
  · rename_i x _
    have h (n : Core → Team → W64 → Bool) :
        ((s.putBytes x.tag cells).modPart p fun y => y.trigger (cells.map (·.1)) n).standing = s.standing := by
      rw [State.standing_modPart _ _ fun y => y.trigger_standing _ _, State.standing_putBytes]
    dsimp only
    split <;> simp [h]

@[simp] theorem State.standing_storePpa (s : State) (p : Nat) (w : Writer) (ppa : Nat) (bytes : List Byte) :
    (s.storePpa p w ppa bytes).standing = s.standing := by
  unfold State.storePpa; split <;> simp

@[simp] theorem State.standing_keep (s : State) (p tile va : Nat) (write : Bool) (q : Xl) :
    (s.keep p tile va write q).standing = s.standing := by
  unfold State.keep
  dsimp only
  rw [State.standing_modPart]
  · generalize q.entry ||| (if write = true then (0x600 : W64) else 0x200) = want
    split
    · rfl
    · split <;> simp
  · intro x
    dsimp only [Partition.standing]

@[simp] theorem State.standing_keepPages (s : State) (p l tile : Nat) (write : Bool) (qs : List (Nat × Xl)) :
    (s.keepPages p l tile write qs).standing = s.standing := by
  induction qs generalizing s with
  | nil => rfl
  | cons q qs ih =>
    refine (ih _).trans ?_
    split
    · split <;> simp
    · simp

@[simp] theorem State.standing_keepAll (s : State) (p l tile : Nat) (qs : List Reach) :
    (s.keepAll p l tile qs).standing = s.standing := by
  induction qs generalizing s with
  | nil => rfl
  | cons q qs ih => exact (ih _).trans (s.standing_keepPages _ _ _ _ _)

/-! ## Accesses that wait -/

@[simp] theorem State.standing_giveLoad (s : State) (r : SplitRef) (bss : List (List Byte)) (d : LoadInto) :
    (s.giveLoad r bss d).standing = s.standing := by
  simp [State.giveLoad]

@[simp] theorem State.standing_applyAtomic (s : State) (p tag : Nat) (w : LateAtomic) :
    (s.applyAtomic p tag w).standing = s.standing := by
  unfold State.applyAtomic; split <;> simp

@[simp] theorem State.standing_performLate (s : State) (w : Late) : (s.performLate w).standing = s.standing := by
  unfold State.performLate
  split
  · rfl
  · split
    · simp
    · dsimp only
      split <;> simp
    · simp

@[simp] theorem State.standing_performWhere (s : State) (f : Late → Bool) : (s.performWhere f).standing = s.standing := by
  unfold State.performWhere
  split
  · rfl
  · exact State.standing_foldl _ State.standing_performLate _ _

@[simp] theorem State.standing_performOwn (s : State) (r : SplitRef) : (s.performOwn r).standing = s.standing :=
  s.standing_performWhere _

@[simp] theorem State.standing_performTeam (s : State) (t : TeamRef) : (s.performTeam t).standing = s.standing :=
  s.standing_performWhere _

@[simp] theorem State.standing_performPart (s : State) (p : Nat) : (s.performPart p).standing = s.standing :=
  s.standing_performWhere _

@[simp] theorem State.standing_performMatrix (s : State) (p l : Nat) : (s.performMatrix p l).standing = s.standing :=
  s.standing_performWhere _

/-! ## Records and traps (R39, R370) -/

@[simp] theorem State.standing_putHeader (s : State) (p off v : Nat) : (s.putHeader p off v).standing = s.standing := by
  unfold State.putHeader; split <;> simp

@[simp] theorem State.standing_showHeld (s : State) (p : Nat) : (s.showHeld p).standing = s.standing := by
  unfold State.showHeld
  split
  · rfl
  · split
    · exact (State.standing_putHeader _ _ _ _).trans (s.standing_modPart p fun _ => rfl)
    · rfl

@[simp] theorem State.standing_mergeEvent (s : State) (p i : Nat) (e : Event) : (s.mergeEvent p i e).standing = s.standing := by
  unfold State.mergeEvent
  split
  · rfl
  · split
    · rfl
    · simp only [State.standing_putHeader, State.standing_storePpa]
      exact s.standing_modPart p fun _ => rfl

@[simp] theorem State.standing_postEvent (s : State) (p i : Nat) (e : Event) : (s.postEvent p i e).standing = s.standing := by
  unfold State.postEvent
  split
  · rfl
  · simp only [State.standing_fireMsix, State.standing_putHeader, State.standing_storePpa]
    exact s.standing_modPart p fun _ => rfl

@[simp] theorem State.standing_holdEvent (s : State) (p : Nat) (e : Event) : (s.holdEvent p e).standing = s.standing := by
  have h : ((s.modPart p fun y => { y with heldEvents := y.heldEvents ++ [e] }).showHeld p).standing = s.standing :=
    (State.standing_showHeld _ _).trans (s.standing_modPart p fun _ => rfl)
  unfold State.holdEvent
  split
  · rfl
  · dsimp only
    split
    · exact h
    · exact h

@[simp] theorem State.standing_event (s : State) (p : Nat) (e : Event) : (s.event p e).standing = s.standing := by
  unfold State.event
  split
  · rfl
  · split
    · simp
    · split
      · simp
      · split <;> simp

@[simp] theorem State.standing_raise (s : State) (r : SplitRef) (t : Trap) : (s.raise r t).standing = s.standing := by
  unfold State.raise
  split
  · rfl
  · dsimp only
    split <;> simp

@[simp] theorem State.standing_raiseRun (s : State) (t : TeamRef) (first : Nat) (sp : Split) (c : Trap) :
    (s.raiseRun t first sp c).standing = s.standing := by
  unfold State.raiseRun
  split
  · rfl
  · dsimp only
    split <;> simp

@[simp] theorem State.standing_engineEvent (s : State) (p : Nat) (i : Issuer) (e : EngineFault) (w : Option Waiter) :
    (s.engineEvent p i e w).standing = s.standing :=
  s.standing_event _ _

end Sys2Proof.Machine
end

section
/-! # How the partitions stand while teams reconverge, end and complete -/

namespace Sys2Proof.Machine

/-! ## Spill memory (R104 to R111) -/

@[simp] theorem State.standing_putSpill (s : State) (t : TeamRef) (u : Team) (rec off : Nat) (bytes : List Byte) :
    (s.putSpill t u rec off bytes).standing = s.standing := by
  unfold State.putSpill; split <;> simp

@[simp] theorem State.standing_writeSplitRun (s : State) (t : TeamRef) (first : Nat) (sp : Split) :
    (s.writeSplitRun t first sp).standing = s.standing := by
  unfold State.writeSplitRun; split <;> simp

@[simp] theorem State.standing_setCounts (s : State) (t : TeamRef) (ordinal expected arrived : Nat) :
    (s.setCounts t ordinal expected arrived).standing = s.standing := by
  unfold State.setCounts
  split
  · rfl
  · split
    · simp
    · split <;> simp

@[simp] theorem State.standing_dropRejoin (s : State) (t : TeamRef) (ordinal : Nat) :
    (s.dropRejoin t ordinal).standing = s.standing :=
  s.standing_atTeam t _

@[simp] theorem State.standing_putPlaced (s : State) (t : TeamRef) (at_ : Place) (sp : Split) :
    (s.putPlaced t at_ sp).standing = s.standing := by
  cases at_ with
  | entry e => exact s.standing_modSplit _ _
  | run a =>
    unfold State.putPlaced
    dsimp only
    split <;> simp

@[simp] theorem State.standing_dropPlaced (s : State) (t : TeamRef) (at_ : Place) :
    (s.dropPlaced t at_).standing = s.standing := by
  cases at_ <;> simp [State.dropPlaced]

@[simp] theorem State.standing_loadSplit (s : State) (t : TeamRef) (x : SpillRun) (e : Nat) :
    (s.loadSplit t x e).standing = s.standing := by
  unfold State.loadSplit
  split
  · rfl
  · dsimp only
    split <;> simp

@[simp] theorem State.standing_stopChain (s : State) (t : TeamRef) (va : W64) (ps : List (Place × Split)) :
    (s.stopChain t va ps).standing = s.standing := by
  induction ps generalizing s with
  | nil => rfl
  | cons q ps ih =>
    obtain ⟨at_, sp⟩ := q
    cases at_ <;> refine (ih _).trans ?_ <;> split <;> simp

@[simp] theorem State.standing_loadRejoin (s : State) (t : TeamRef) (x : SpillRun) :
    (s.loadRejoin t x).standing = s.standing := by
  unfold State.loadRejoin
  split
  · rfl
  · dsimp only
    split <;> simp

@[simp] theorem State.standing_refill (s : State) (p l fuel : Nat) : (s.refill p l fuel).standing = s.standing := by
  induction fuel generalizing s with
  | zero => rfl
  | succ fuel ih =>
    unfold State.refill
    split
    · rfl
    · split
      · rfl
      · dsimp only
        rw [ih]
        split
        · split <;> simp
        · simp

@[simp] theorem State.standing_refillCore (s : State) (p l : Nat) : (s.refillCore p l).standing = s.standing :=
  s.standing_refill p l 96

@[simp] theorem State.standing_exchange (s : State) (t : TeamRef) (e : Nat) : (s.exchange t e).standing = s.standing := by
  unfold State.exchange
  split
  · rfl
  · split <;> simp

/-! ## Reconvergence (R100 to R102) -/

/-- A fused split takes an entry, or the run that stays. -/
def State.seatFused (s : State) (t : TeamRef) (f : Split) : Option Nat → Option Nat → State
  | some e, r =>
    let s := match r with
      | some a => s.dropPlaced t (.run a)
      | none => s
    s.atTeam t fun v => { v with splits := v.splits ++ [{ f with entry := e }] }
  | none, some a => s.putPlaced t (.run a) f
  | none, none => s

@[simp] theorem State.standing_seatFused (s : State) (t : TeamRef) (f : Split) (e r : Option Nat) :
    (s.seatFused t f e r).standing = s.standing := by
  cases e <;> cases r <;> simp [State.seatFused]

@[simp] theorem State.standing_fuse (s : State) (t : TeamRef) (j : Rejoin) : (s.fuse t j).1.standing = s.standing := by
  unfold State.fuse
  dsimp only
  split
  · rfl
  · simp
  · refine (State.standing_seatFused _ t _ _ _).trans ?_
    simp only [State.standing_atTeam, State.standing_dropRejoin]
    refine State.standing_foldl _ (fun s q => ?_) _ s
    rw [apply_ite State.standing, State.standing_dropPlaced, ite_self]

@[simp] theorem State.standing_park (s : State) (t : TeamRef) (lane : Nat) : (s.park t lane).1.standing = s.standing := by
  unfold State.park
  split
  · rfl
  · dsimp only
    split
    · rfl
    · simp only [State.standing_putPlaced, State.standing_setCounts]
      exact State.standing_foldl _ (fun s _ => s.standing_setCounts _ _ _ _) _ s

@[simp] theorem State.standing_reconverge (t : TeamRef) (fuel : Nat) (w : List Work) (s : State) :
    (s.reconverge t fuel w).standing = s.standing := by
  induction fuel generalizing w s with
  | zero => rfl
  | succ fuel ih =>
    cases w with
    | nil => rfl
    | cons a rest =>
      cases a with
      | arrive lane => exact (ih _ _).trans (s.standing_park t lane)
      | check n =>
        unfold State.reconverge
        split
        · exact ih _ _
        · rename_i j _
          have h := s.standing_fuse t j
          split
          · exact ih _ _
          · split <;> rename_i hf <;> rw [hf] at h <;> exact (ih _ _).trans h
      | swap lane =>
        unfold State.reconverge
        split
        · split <;> simp [ih]
        · exact ih _ _

@[simp] theorem State.standing_doWork (s : State) (t : TeamRef) (w : List Work) : (s.doWork t w).standing = s.standing := by
  simp [State.doWork]

@[simp] theorem State.standing_checkArrival (s : State) (r : SplitRef) : (s.checkArrival r).standing = s.standing := by
  unfold State.checkArrival
  split
  · rfl
  · split
    · split <;> simp
    · rfl

/-! ## The end of a team (R127, R377) -/

@[simp] theorem State.standing_removeTeam (s : State) (t : TeamRef) (u : Team) (error : Bool) :
    (s.removeTeam t u error).standing = s.standing := by
  unfold State.removeTeam
  rw [State.standing_modPart, State.standing_performTeam]
  exact fun _ => rfl

@[simp] theorem State.standing_killTeam (s : State) (t : TeamRef) : (s.killTeam t).standing = s.standing := by
  unfold State.killTeam
  split
  · rfl
  · split
    · rfl
    · split
      · simp
      · split
        · simp
        · simp only [State.standing_refillCore, State.standing_atTeam]
          rw [State.standing_modPart, State.standing_performTeam]
          exact fun _ => rfl

@[simp] theorem State.standing_reap (s : State) (t : TeamRef) : (s.reap t).standing = s.standing := by
  unfold State.reap
  split
  · split <;> simp
  · rfl

/-! ## Completion (R86) -/

@[simp] theorem State.standing_freeMarks (s : State) (r : SplitRef) (names : List Nat) :
    (s.freeMarks r names).standing = s.standing := by
  unfold State.freeMarks; split <;> simp

@[simp] theorem State.standing_retire (s : State) (r : SplitRef) (d : Shape) : (s.retire r d).standing = s.standing := by
  unfold State.retire
  split
  · rfl
  · dsimp only
    split <;> simp

@[simp] theorem State.standing_moveTo (s : State) (r : SplitRef) (pc : W64) : (s.moveTo r pc).standing = s.standing := by
  simp [State.moveTo]

@[simp] theorem State.standing_complete (s : State) (r : SplitRef) (d : Shape) (dest : Option W64) :
    (s.complete r d dest).standing = s.standing := by
  unfold State.complete; split <;> simp

@[simp] theorem State.standing_putAll (s : State) (r : SplitRef) (ws : List Put) : (s.putAll r ws).standing = s.standing :=
  s.standing_modTeam _ _ _ _

@[simp] theorem State.standing_putPredAll (s : State) (r : SplitRef) (pd : PReg) (v : Bool) :
    (s.putPredAll r pd v).standing = s.standing := by
  unfold State.putPredAll; split <;> simp

@[simp] theorem State.standing_finishWait (s : State) (r : SplitRef) (d : Shape) (res : Option (PReg × Bool)) :
    (s.finishWait r d res).standing = s.standing := by
  cases res <;> simp [State.finishWait]

end Sys2Proof.Machine
end

section
/-! # How the partitions stand while barriers, latches and engines go on -/

namespace Sys2Proof.Machine

/-! ## Barriers (R235, R266, R270) -/

@[simp] theorem State.standing_writePair (s : State) (p l k : Nat) : (s.writePair p l k).standing = s.standing := by
  unfold State.writePair
  split
  · rw [State.standing_modPart]
    · exact State.standing_foldl _ (fun s _ => s.standing_store _ _ _) _ s
    · exact fun _ => rfl
  · rfl

@[simp] theorem State.standing_settlePair (s : State) (p l k : Nat) : (s.settlePair p l k).standing = s.standing := by
  unfold State.settlePair; split <;> simp

@[simp] theorem State.standing_swapPair (s : State) (p l k : Nat) : (s.swapPair p l k).standing = s.standing := by
  unfold State.swapPair
  dsimp only
  split <;> simp

@[simp] theorem State.standing_swapPairs (s : State) (p l first n : Nat) : (s.swapPairs p l first n).standing = s.standing := by
  induction n generalizing s with
  | zero => rfl
  | succ n ih => exact (ih _).trans (s.standing_swapPair _ _ _)

@[simp] theorem State.standing_releaseAll (s : State) (p l : Nat) (v : Bool) (go : List (Nat × Nat × PReg × Bool)) :
    (s.releaseAll p l v go).standing = s.standing := by
  induction go generalizing s with
  | nil => rfl
  | cons g go ih => exact (ih _).trans (s.standing_finishWait _ _ _)

@[simp] theorem State.standing_completeBar (s : State) (p l b fuel : Nat) : (s.completeBar p l b fuel).standing = s.standing := by
  induction fuel generalizing s with
  | zero => rfl
  | succ fuel ih =>
    unfold State.completeBar
    split
    · rfl
    · dsimp only
      split
      · rfl
      · rw [ih, State.standing_releaseAll, State.standing_modCore]
        split <;> simp

@[simp] theorem State.standing_checkBar (s : State) (p l b : Nat) : (s.checkBar p l b).standing = s.standing := by
  unfold State.checkBar; split <;> simp

@[simp] theorem State.standing_arriveAt (s : State) (r : SplitRef) (l b : Nat) (pd : Option PReg) :
    (s.arriveAt r l b pd).standing = s.standing := by
  unfold State.arriveAt
  dsimp only
  split
  · split
    · simp
    · simp
    · cases pd <;> simp
  · simp
  · simp

@[simp] theorem State.standing_subtractPending (s : State) (p : Nat) (bar : Option (Nat × Nat × Nat)) (n : Nat) :
    (s.subtractPending p bar n).standing = s.standing := by
  unfold State.subtractPending
  split
  · rfl
  · split
    · rfl
    · dsimp only
      split <;> simp

@[simp] theorem State.standing_countRemote (s : State) (k : Ctx) (l slot index : Nat) :
    (s.countRemote k l slot index).standing = s.standing := by
  unfold State.countRemote; split <;> simp

/-! ## The matrix latch (R341) -/

@[simp] theorem State.standing_raiseHeld (s : State) (p l code : Nat) (js : List (Nat × Nat)) :
    (s.raiseHeld p l code js).standing = s.standing := by
  induction js generalizing s with
  | nil => rfl
  | cons j js ih =>
    refine (ih _).trans ?_
    split <;> simp

@[simp] theorem State.standing_completeHeld (s : State) (p l : Nat) (js : List (Nat × Nat)) :
    (s.completeHeld p l js).standing = s.standing := by
  induction js generalizing s with
  | nil => rfl
  | cons j js ih => exact (ih _).trans (s.standing_complete _ _ _)

@[simp] theorem State.standing_finishLatch (s : State) (p l g : Nat) : (s.finishLatch p l g).standing = s.standing := by
  unfold State.finishLatch
  dsimp only
  split
  · simp
  · split
    · simp
    · split
      · simp
      · split
        · simp
        · split
          · simp
          · split <;> simp

@[simp] theorem State.standing_finishLatches (s : State) (p l : Nat) : (s.finishLatches p l).standing = s.standing := by
  unfold State.finishLatches
  split
  · rfl
  · exact State.standing_foldl _ (fun s g => s.standing_finishLatch p l g) _ s

/-! ## Copies: their queues and their ends (R289, R309 to R313) -/

@[simp] theorem State.standing_modChan (s : State) (p l n : Nat) (f : Channel → Channel) :
    (s.modChan p l n f).standing = s.standing :=
  s.standing_modCore p l _

@[simp] theorem State.standing_modCopy (s : State) (p l n id : Nat) (f : Copy → Copy) :
    (s.modCopy p l n id f).standing = s.standing :=
  s.standing_modChan p l n _

@[simp] theorem State.standing_wakeCancel (s : State) (p l id : Nat) : (s.wakeCancel p l id).standing = s.standing := by
  unfold State.wakeCancel
  split
  · rfl
  · refine State.standing_foldl _ (fun s q => ?_) _ s
    dsimp only
    split
    · split
      · rfl
      · split <;> simp
    · rfl

@[simp] theorem State.standing_lineDone (s : State) (p l n : Nat) (y : Copy) (line bytes : Nat) :
    (s.lineDone p l n y line bytes).standing = s.standing := by
  simp [State.lineDone]

@[simp] theorem State.standing_writeHeld (s : State) (p l n : Nat) (y : Copy) (h : HeldLine) :
    (s.writeHeld p l n y h).standing = s.standing := by
  simp [State.writeHeld]

@[simp] theorem State.standing_writeHeldLine (s : State) (p l n id line : Nat) :
    (s.writeHeldLine p l n id line).standing = s.standing := by
  unfold State.writeHeldLine
  split
  · rfl
  · split
    · rfl
    · split <;> simp

@[simp] theorem State.standing_writeAllHeld (s : State) (p l n id : Nat) : (s.writeAllHeld p l n id).standing = s.standing := by
  unfold State.writeAllHeld
  split
  · rfl
  · exact State.standing_foldl _ (fun s _ => s.standing_writeHeldLine _ _ _ _ _) _ s

@[simp] theorem State.standing_detachCopy (s : State) (p id : Nat) : (s.detachCopy p id).standing = s.standing := by
  unfold State.detachCopy
  rw [State.standing_modPart]
  exact fun _ => rfl

@[simp] theorem State.standing_leaveQueue (s : State) (p l n : Nat) (y : Copy) :
    (s.leaveQueue p l n y).standing = s.standing := by
  unfold State.leaveQueue
  dsimp only
  split <;> simp

@[simp] theorem State.standing_failCopy (s : State) (p l n : Nat) (y : Copy) : (s.failCopy p l n y).standing = s.standing := by
  unfold State.failCopy
  dsimp only
  split <;> simp

@[simp] theorem State.standing_copyFault (s : State) (p l n : Nat) (y : Copy) (e : EngineFault) :
    (s.copyFault p l n y e).standing = s.standing := by
  unfold State.copyFault; split <;> simp

/-! ## Copies: acceptance (R298) -/

/-- The partition's count of copies goes on. -/
theorem State.standing_nextCopy (s : State) (p : Nat) :
    (s.modPart p fun x => { x with copyCount := x.copyCount + 1 }).standing = s.standing := by
  rw [State.standing_modPart]
  exact fun _ => rfl

@[simp] theorem State.standing_accept (s : State) (k : Ctx) (o : Offer) : (s.accept k o).standing = s.standing := by
  unfold State.accept
  dsimp only
  split <;> split <;> simp [State.standing_nextCopy]

@[simp] theorem State.standing_acceptAll (s : State) (r : SplitRef) (os : List Offer) :
    (s.acceptAll r os).1.standing = s.standing := by
  induction os generalizing s with
  | nil => rfl
  | cons o os ih =>
    unfold State.acceptAll
    split
    · rfl
    · split
      · rfl
      · exact (ih _).trans (s.standing_accept _ _)

/-! ## Copies: stamps (R306, R307, R313) -/

theorem State.standing_writeStamp {s t : State} {p l : Nat} {y : Copy} {va : W64} (h : s.writeStamp p l y va = .ok (some t)) :
    t.standing = s.standing := by
  unfold State.writeStamp at h
  split at h
  · split at h
    · cases h
    · split at h
      · cases h; rfl
      · split at h <;> cases h
        simp
  · cases h

@[simp] theorem State.standing_stampFault (s : State) (p l n : Nat) (y : Copy) (e : EngineFault) :
    (s.stampFault p l n y e).standing = s.standing := by
  unfold State.stampFault
  split
  · simp
  · split
    · simp
    · dsimp only
      split <;> simp

@[simp] theorem State.standing_stampStep (s : State) (p l n : Nat) (y : Copy) : (s.stampStep p l n y).standing = s.standing := by
  unfold State.stampStep
  split
  · split
    · simp
    · split
      · simp
      · rfl
      · rename_i h
        simp [State.standing_writeStamp h]
  · split
    · rfl
    · split
      · simp
      · split
        · simp
        · rfl
        · rename_i h
          simp [State.standing_writeStamp h]

@[simp] theorem State.standing_journalStamp (s : State) (p l : Nat) (y : Copy) (va : W64) :
    (s.journalStamp p l y va).1.standing = s.standing := by
  unfold State.journalStamp
  split
  · rfl
  · split
    · rename_i h
      exact State.standing_writeStamp h
    · rfl
    · simp

@[simp] theorem State.standing_endJournal (s : State) (p l n : Nat) (y : Copy) :
    (s.endJournal p l n y).standing = s.standing := by
  unfold State.endJournal
  have h := s.standing_journalStamp p l y (if y.relDone then 0 else y.tmpl.relStamp)
  split <;> rename_i t he <;> rw [he] at h
  · exact h
  · have g := (t.modCopy p l n y.id fun z => { z with relDone := true }).standing_journalStamp p l y y.tmpl.visStamp
    split <;> rename_i hf <;> rw [hf] at g <;> simp_all

/-! ## Copies: lines (R303, R308) -/

@[simp] theorem State.standing_performLine (s : State) (x : Partition) (c : Core) (p l n : Nat) (y : Copy) (line : Nat) :
    (s.performLine x c p l n y line).standing = s.standing := by
  unfold State.performLine
  dsimp only
  split
  · split <;> simp
  · split
    · simp
    · split
      · rfl
      · split
        · simp
        · split
          · simp
          · simp only [State.standing_modCopy]
            rw [State.standing_foldl, State.standing_keepAll]
            exact fun _ _ => rfl
  · split
    · simp
    · simp
    · split <;> simp

end Sys2Proof.Machine
end

section
/-! # How the partitions stand in a quiesce (R394, R415, R423) -/

namespace Sys2Proof.Machine

/-! ## Events that a quiesce carries out -/

@[simp] theorem State.standing_after_execQueueSlotFree (s : State) (r : SplitRef) :
    (s.after (execQueueSlotFree r s)).standing = s.standing := by
  unfold execQueueSlotFree
  split
  · rfl
  · split
    · rfl
    · split
      · rename_i left _ _
        have h := s.standing_acceptAll r left
        split <;> rename_i he <;> rw [he] at h <;> simpa [State.after] using h
      · rfl

@[simp] theorem State.standing_after_execEarlyRoom (s : State) (r : SplitRef) :
    (s.after (execEarlyRoom r s)).standing = s.standing := by
  unfold execEarlyRoom
  split
  · rfl
  · split
    · rfl
    · split
      · exact s.standing_arriveAt _ _ _ _
      · rfl

@[simp] theorem State.standing_after_execPeerLineAck (s : State) (r : CopyRef) (line : Nat) (ok : Bool) :
    (s.after (execPeerLineAck r line ok s)).standing = s.standing := by
  unfold execPeerLineAck
  split
  · rfl
  · split
    · rfl
    · split
      · rfl
      · split <;> simp [State.after]

@[simp] theorem State.standing_after_execDrainLine (s : State) (p l n line : Nat) :
    (s.after (execDrainLine p l n line s)).standing = s.standing := by
  unfold execDrainLine
  split
  · split
    · rfl
    · split
      · rfl
      · dsimp only
        split <;> simp [State.after]
  · rfl

/-- A drain in flight ends (R358). -/
theorem State.standing_landFlight (s : State) (p n : Nat) :
    (s.modPart p fun y => { y with flights := y.flights.eraseIdx n }).standing = s.standing := by
  rw [State.standing_modPart]
  exact fun _ => rfl

@[simp] theorem State.standing_drainInto (s : State) (p : Nat) (x : Partition) (ok : Team → Bool) (l slot acc : Nat)
    (d : DrainData) : (s.drainInto p x ok l slot acc d).1.standing = s.standing := by
  unfold State.drainInto
  dsimp only
  split
  · split <;> simp
  · simp

@[simp] theorem State.standing_drainRecord (s : State) (p : Nat) (f : Flight) (a : DrainAnswer) :
    (s.drainRecord p f a).standing = s.standing := by
  cases a <;> simp [State.drainRecord]

@[simp] theorem State.standing_after_execPeerDrainAddition (s : State) (p n : Nat) :
    (s.after (execPeerDrainAddition p (.inside n) s)).standing = s.standing := by
  unfold execPeerDrainAddition
  split
  · rfl
  · split
    · rfl
    · dsimp only
      split
      · rfl
      · split
        · rfl
        · simp [State.after, State.standing_landFlight]

@[simp] theorem State.standing_after_execDrainAcknowledgement (s : State) (p n : Nat) (a : DrainAnswer) :
    (s.after (execDrainAcknowledgement p n a s)).standing = s.standing := by
  unfold execDrainAcknowledgement
  split
  · rfl
  · split
    · rfl
    · split
      · rfl
      · simp [State.after, State.standing_landFlight]

/-! ## Launches (R389, R391) -/

theorem State.standing_modLaunch (s : State) (p n : Nat) (f : Launch → Launch) :
    (s.modPart p fun y => y.modLaunch n f).standing = s.standing := by
  rw [State.standing_modPart]
  exact fun _ => rfl

@[simp] theorem State.standing_assignLaunches (s : State) (p : Nat) : (s.assignLaunches p).standing = s.standing := by
  unfold State.assignLaunches
  split
  · rfl
  · refine State.standing_foldl _ (fun s q => ?_) _ s
    dsimp only
    split
    · split
      · rw [State.standing_complete, State.standing_modPart]
        exact fun _ => rfl
      · rfl
    · rfl

@[simp] theorem State.standing_completeLaunch (s : State) (p n : Nat) : (s.completeLaunch p n).standing = s.standing := by
  unfold State.completeLaunch
  split
  · rfl
  · split
    · split
      · rfl
      · dsimp only
        split
        · simp [State.standing_modLaunch]
        · split
          · simp [State.standing_modLaunch]
          · split <;> simp [State.standing_modLaunch]
    · rfl

/-! ## Cores that move (R409, R410) -/

@[simp] theorem State.standing_substitute (s : State) (p l tile phys : Nat) :
    (s.substitute p l tile phys).standing = s.standing :=
  State.standing_modCore _ p l _

@[simp] theorem State.standing_moveCore (s : State) (p l tile phys : Nat) : (s.moveCore p l tile phys).standing = s.standing := by
  unfold State.moveCore
  split
  · rfl
  · split
    · simp
    · exact State.standing_modCore _ p l _

@[simp] theorem State.standing_endWarm (s : State) (p : Nat) : (s.endWarm p).standing = s.standing := by
  unfold State.endWarm
  split
  · rfl
  · refine State.standing_foldl _ (fun s q => ?_) _ s
    dsimp only
    split <;> simp

/-! ## Steps 1 and 2: splits are saved (R379) -/

@[simp] theorem State.standing_saveSplit (s : State) (late : Bool) (r : SplitRef) : (s.saveSplit late r).standing = s.standing := by
  unfold State.saveSplit
  split
  · rfl
  · split
    · rfl
    · split
      · rfl
      · dsimp only
        split <;> simp

@[simp] theorem State.standing_completeIssued (s : State) (r : SplitRef) : (s.completeIssued r).standing = s.standing := by
  unfold State.completeIssued
  split
  · rfl
  · split <;> simp

@[simp] theorem State.standing_cutBarx (s : State) (r : SplitRef) : (s.cutBarx r).standing = s.standing := by
  unfold State.cutBarx
  split
  · rfl
  · split <;> simp

theorem State.standing_modCores (s : State) (p : Nat) (f : Core → Core) :
    (s.modPart p fun x => { x with cores := x.cores.map f }).standing = s.standing := by
  rw [State.standing_modPart]
  exact fun _ => rfl

@[simp] theorem State.standing_preempt (s : State) (p : Nat) : (s.preempt p).standing = s.standing := by
  unfold State.preempt
  dsimp only
  rw [State.standing_foldl _ fun s r => s.standing_saveSplit false r, State.standing_modCores,
    State.standing_foldl _ State.standing_cutBarx, State.standing_foldl _ State.standing_completeIssued,
    State.standing_performPart]

@[simp] theorem State.standing_saveSpilled (s : State) (t : TeamRef) (run : SpillRun) :
    (s.saveSpilled t run).standing = s.standing := by
  unfold State.saveSpilled
  split <;> simp

@[simp] theorem State.standing_saveTeamSpilled (s : State) (t : TeamRef) : (s.saveTeamSpilled t).standing = s.standing := by
  unfold State.saveTeamSpilled
  split
  · rfl
  · exact State.standing_foldl _ (fun s q => s.standing_saveSpilled t q) _ s

@[simp] theorem State.standing_dropChunks (s : State) (t : TeamRef) : (s.dropChunks t).standing = s.standing := by
  unfold State.dropChunks
  split
  · dsimp only
    split <;> simp
  · rfl

/-! ## Step 3: the engines end -/

@[simp] theorem State.standing_copyWork (s : State) (p l n id : Nat) : (s.copyWork p l n id).standing = s.standing := by
  unfold State.copyWork
  split
  · split
    · simp
    · split
      · split
        · split <;> simp
        · split <;> simp
      · simp
      · simp
  · rfl

@[simp] theorem State.standing_runCopy (s : State) (p l n id fuel : Nat) : (s.runCopy p l n id fuel).standing = s.standing := by
  induction fuel generalizing s with
  | zero => rfl
  | succ fuel ih => exact (ih _).trans (s.standing_copyWork _ _ _ _)

@[simp] theorem State.standing_runCopies (s : State) (p : Nat) : (s.runCopies p).standing = s.standing := by
  unfold State.runCopies
  dsimp only
  repeat rw [State.standing_foldl]
  all_goals
    rintro s ⟨l, n, y⟩
    split <;> simp

@[simp] theorem State.standing_runDrains (s : State) (p l fuel : Nat) : (s.runDrains p l fuel).standing = s.standing := by
  induction fuel generalizing s with
  | zero => rfl
  | succ fuel ih =>
    unfold State.runDrains
    split
    · rfl
    · split <;> simp [ih]

@[simp] theorem State.standing_runFlights (s : State) (p fuel : Nat) : (s.runFlights p fuel).standing = s.standing := by
  induction fuel generalizing s with
  | zero => rfl
  | succ fuel ih =>
    unfold State.runFlights
    split
    · rfl
    · rw [ih]
      split <;> simp

@[simp] theorem State.standing_runCarried (s : State) (r : SplitRef) : (s.runCarried r).standing = s.standing := by
  unfold State.runCarried
  split
  · rfl
  · split <;> simp

@[simp] theorem State.standing_engineRound (s : State) (p : Nat) : (s.engineRound p).standing = s.standing := by
  unfold State.engineRound
  dsimp only
  rw [State.standing_foldl _ fun s n => s.standing_completeLaunch p n, State.standing_foldl _ State.standing_runCarried,
    State.standing_runFlights, State.standing_foldl _ fun s (e : Nat × Nat) => s.standing_runDrains p e.1 e.2, State.standing_runCopies]

@[simp] theorem State.standing_engineRounds (s : State) (p fuel : Nat) : (s.engineRounds p fuel).standing = s.standing := by
  induction fuel generalizing s with
  | zero => rfl
  | succ fuel ih =>
    unfold State.engineRounds
    rw [ih, State.standing_engineRound]

@[simp] theorem State.standing_drainEngines (s : State) (p : Nat) : (s.drainEngines p).standing = s.standing := by
  unfold State.drainEngines
  rw [State.standing_modCores, State.standing_engineRounds]

end Sys2Proof.Machine
end

section
/-! # Which partitions heat holds, when it suspends them and lets them go (R427) -/

namespace Sys2Proof.Machine

/-! ## The quiesce of one partition holds that one -/

/-- How the partitions stand once a quiesce holds partition p. -/
def suspendKey (p : Nat) (k : Nat × Hold × Bool) : Nat × Hold × Bool := if k.1 = p then (k.1, .suspended, k.2.2) else k

theorem State.standing_modPart_key (s : State) (p : Nat) {f : Partition → Partition}
    {g : Nat × Hold × Bool → Nat × Hold × Bool} (h : ∀ x, (f x).standing = g x.standing) :
    (s.modPart p f).standing = s.standing.map fun k => if k.1 = p then g k else k := by
  simp only [State.standing, State.modPart, List.map_map]
  refine List.map_congr_left fun x _ => ?_
  have hk : x.standing.1 = x.pindex := rfl
  by_cases hx : x.pindex = p <;> simp [hk, hx, h]

/-- Steps 1 to 4 hold the partition and leave the others as they were. -/
theorem State.standing_quiesceBegin (s : State) (p : Nat) :
    (s.quiesceBegin p).standing = s.standing.map (suspendKey p) := by
  unfold State.quiesceBegin
  dsimp only
  rw [State.standing_modPart_key (g := fun k => (k.1, .suspended, k.2.2)) (h := fun _ => rfl)]
  rw [State.standing_foldl _ State.standing_dropChunks, State.standing_foldl _ State.standing_saveTeamSpilled,
    State.standing_foldl _ fun s r => s.standing_saveSplit true r, State.standing_foldl _ State.standing_reap,
    State.standing_foldl _ fun s r => s.standing_saveSplit true r, State.standing_foldl _ State.standing_cutBarx,
    State.standing_performPart, State.standing_drainEngines, State.standing_preempt, State.standing_endWarm]
  rfl

/-! ## Which partitions heat holds -/

/-- The partitions' numbers, each with whether heat holds it. -/
def State.heats (s : State) : List (Nat × Bool) := s.standing.map fun k => (k.1, k.2.2)

theorem State.heats_of_standing {s t : State} (h : t.standing = s.standing) : t.heats = s.heats := by
  rw [State.heats, h, State.heats]

theorem State.heats_foldl {α : Type} (f : State → α → State) (h : ∀ s a, (f s a).heats = s.heats) (l : List α)
    (s : State) : (l.foldl f s).heats = s.heats := by
  induction l generalizing s with
  | nil => rfl
  | cons a l ih => exact (ih _).trans (h s a)

theorem State.heats_modPart (s : State) (p : Nat) {f : Partition → Partition}
    (h : ∀ x, (f x).pindex = x.pindex ∧ (f x).byHeat = x.byHeat) : (s.modPart p f).heats = s.heats := by
  simp only [State.heats, State.standing, State.modPart, List.map_map]
  refine List.map_congr_left fun x _ => ?_
  by_cases hx : x.pindex = p <;> simp [hx, h, Partition.standing]

theorem State.heats_quiesceBegin (s : State) (p : Nat) : (s.quiesceBegin p).heats = s.heats := by
  rw [State.heats, State.standing_quiesceBegin, List.map_map, State.heats]
  refine List.map_congr_left fun k _ => ?_
  by_cases hk : k.1 = p <;> simp [suspendKey, hk]

/-! ## Steps 6 and 7 -/

theorem State.standing_reroute (s : State) (p : Nat) : (s.reroute p).standing = s.standing := by
  unfold State.reroute
  split
  · rfl
  · dsimp only
    rw [State.standing_modPart]
    · rfl
    · exact fun _ => rfl

theorem State.standing_noteWithheld (s : State) : s.noteWithheld.standing = s.standing := by
  unfold State.noteWithheld
  split
  · rfl
  · simp only [State.standing, List.map_map]
    exact List.map_congr_left fun _ _ => rfl

theorem State.standing_signReport (s : State) (p : Nat) : (s.signReport p).standing = s.standing := by
  unfold State.signReport
  rw [State.standing_modPart]
  intro x
  dsimp only [Partition.standing]

theorem State.standing_gridReset (s : State) (p : Nat) : (s.gridReset p).standing = s.standing := by
  unfold State.gridReset
  split
  · rfl
  · dsimp only
    rw [State.standing_foldl, State.standing_modPart]
    · exact fun _ => rfl
    · intro s l
      split <;> simp

theorem Partition.restartSystem_standing (x : Partition) (cycle : Nat) : (x.restartSystem cycle).standing = x.standing := by
  unfold Partition.restartSystem
  generalize x.restarts = ks
  induction ks generalizing x with
  | nil => rfl
  | cons k ks ih =>
    refine (ih _).trans ?_
    dsimp only
    split
    · split <;> rfl
    · split <;> rfl

theorem Partition.restartLost_standing (x : Partition) (cycle : Nat) : (x.restartLost cycle).standing = x.standing :=
  Partition.restartSystem_standing _ cycle

theorem Partition.restartLost_pindex (x : Partition) (cycle : Nat) : (x.restartLost cycle).pindex = x.pindex :=
  Partition.standing_pindex (x.restartLost_standing cycle)

theorem Partition.restartLost_byHeat (x : Partition) (cycle : Nat) : (x.restartLost cycle).byHeat = x.byHeat :=
  congrArg (fun k : Nat × Hold × Bool => k.2.2) (x.restartLost_standing cycle)

theorem State.standing_restartSystem (s : State) (p : Nat) : (s.restartSystem p).standing = s.standing := by
  unfold State.restartSystem
  refine State.standing_foldl _ (fun s t => ?_) _ s
  split
  · split <;> simp
  · rfl

theorem State.heats_quiesceEnd (s : State) (p : Nat) : (s.quiesceEnd p).heats = s.heats := by
  unfold State.quiesceEnd
  split
  · rfl
  · rename_i x _
    dsimp only
    refine (State.heats_foldl (fun s t => s.setTileState t .dead) (fun _ _ => rfl) x.emptied _).trans ?_
    rw [apply_ite State.heats, State.heats_of_standing (State.standing_fireMsix _ p 0), ite_self, State.heats_modPart,
      apply_ite State.heats, State.heats_of_standing (State.standing_restartSystem _ p), ite_self, State.heats_modPart,
      apply_ite State.heats, State.heats_modPart, State.heats_of_standing (State.standing_gridReset _ p), ite_self,
      State.heats_of_standing (State.standing_signReport _ p), State.heats_modPart,
      State.heats_of_standing (State.standing_noteWithheld _), State.heats_of_standing (State.standing_reroute _ p)]
    · rfl
    · exact fun _ => ⟨rfl, rfl⟩
    · exact fun _ => ⟨rfl, rfl⟩
    · exact fun _ => ⟨Partition.restartLost_pindex _ _, Partition.restartLost_byHeat _ _⟩
    · exact fun _ => ⟨rfl, rfl⟩

theorem State.heats_endQuiesce (s : State) (p : Nat) : (s.endQuiesce p).heats = s.heats := by
  unfold State.endQuiesce State.leaveDead
  rw [State.heats_foldl, State.heats_quiesceEnd]
  intro s q
  unfold State.setDepth
  rw [State.heats_quiesceEnd, State.heats_modPart, State.heats_quiesceBegin]
  exact fun _ => ⟨rfl, rfl⟩

theorem State.heats_resumePart (s : State) (p : Nat) : (s.resumePart p).heats = s.heats := by
  unfold State.resumePart
  split
  · rfl
  · split
    · exact s.heats_endQuiesce p
    · rfl

/-! ## Heat suspends and resumes -/

/-- Heat lets a partition go: R427. -/
def State.coolPart (s : State) (p : Nat) : State := (s.modPart p fun x => { x with byHeat := false }).resumePart p

/-- Heat holds a partition: R427. -/
def State.heatPart (s : State) (p : Nat) : State := (s.suspendPart p).modPart p fun x => { x with byHeat := true }

theorem State.heats_coolPart (s : State) (p : Nat) :
    (s.coolPart p).heats = s.heats.map fun k => if k.1 = p then (k.1, false) else k := by
  rw [State.coolPart, State.heats_resumePart, State.heats, State.heats, List.map_map,
    State.standing_modPart_key (g := fun k => (k.1, k.2.1, false)) (h := fun _ => rfl), List.map_map]
  refine List.map_congr_left fun k _ => ?_
  by_cases hk : k.1 = p <;> simp [hk]

/-- After every partition of a list has been let go, heat holds none of them. -/
theorem State.heats_foldl_coolPart (l : List Nat) (s : State) :
    (l.foldl State.coolPart s).heats = s.heats.map fun k => if k.1 ∈ l then (k.1, false) else k := by
  induction l generalizing s with
  | nil => simp
  | cons p l ih =>
    rw [List.foldl_cons, ih, State.heats_coolPart, List.map_map]
    refine List.map_congr_left fun k _ => ?_
    by_cases hk : k.1 = p <;> simp [hk]

theorem State.resumeCool_byHeat (s : State) : ∀ x ∈ s.resumeCool.parts, x.byHeat = false := by
  intro x hx
  have h : s.resumeCool.heats = s.heats.map fun k => if k.1 ∈ s.parts.map fun x => x.pindex then (k.1, false) else k :=
    State.heats_foldl_coolPart _ s
  have hk : (x.pindex, x.byHeat) ∈ s.resumeCool.heats := by
    simpa [State.heats, State.standing] using ⟨x, hx, rfl, rfl⟩
  rw [h] at hk
  obtain ⟨k, hk, he⟩ := List.mem_map.1 hk
  have hin : k.1 ∈ s.parts.map fun x => x.pindex := by
    obtain ⟨y, hy, rfl⟩ : ∃ y ∈ s.parts, (y.pindex, y.byHeat) = k := by
      simpa [State.heats, State.standing, Partition.standing] using hk
    exact List.mem_map_of_mem hy
  rw [if_pos hin] at he
  exact (congrArg Prod.snd he).symm

theorem State.standing_pindex (s : State) : (s.standing.map fun k => k.1) = s.parts.map fun x => x.pindex := by
  simp [State.standing, Partition.standing]

/-- A partition that is suspended stays so, any other is suspended by a quiesce. -/
theorem State.standing_suspendPart {s : State} (hn : (s.parts.map fun x => x.pindex).Nodup) (p : Nat) :
    (s.suspendPart p).standing = s.standing.map (suspendKey p) := by
  have same (h : ∀ x ∈ s.parts, x.pindex = p → x.hold = .suspended) : s.standing = s.standing.map (suspendKey p) := by
    simp only [State.standing, List.map_map]
    refine List.map_congr_left fun x hx => ?_
    by_cases hp : x.pindex = p
    · simp [suspendKey, Partition.standing, h x hx hp]
    · simp [suspendKey, Partition.standing, hp]
  unfold State.suspendPart
  split
  · rename_i h
    exact same fun x hx hp => absurd hp (by simpa using List.find?_eq_none.1 h x hx)
  · rename_i x h
    split
    · rename_i hs
      refine same fun y hy hp => ?_
      have hy' : s.part? p = some y := hp ▸ State.part?_of_mem hn hy
      rw [h] at hy'
      cases hy'
      exact hs
    · exact s.standing_quiesceBegin p

theorem State.standing_heatPart {s : State} (hn : (s.parts.map fun x => x.pindex).Nodup) (p : Nat) :
    (s.heatPart p).standing = s.standing.map fun k => if k.1 = p then (k.1, .suspended, true) else k := by
  rw [State.heatPart, State.standing_modPart_key (g := fun k => (k.1, k.2.1, true)) (h := fun _ => rfl),
    State.standing_suspendPart hn, List.map_map]
  refine List.map_congr_left fun k _ => ?_
  by_cases hk : k.1 = p <;> simp [suspendKey, hk]

theorem State.pindexes_heatPart {s : State} (hn : (s.parts.map fun x => x.pindex).Nodup) (p : Nat) :
    ((s.heatPart p).parts.map fun x => x.pindex) = s.parts.map fun x => x.pindex := by
  rw [← State.standing_pindex, State.standing_heatPart hn, List.map_map, ← State.standing_pindex]
  refine List.map_congr_left fun k _ => ?_
  by_cases hk : k.1 = p <;> simp [hk]

/-- After every partition of a list has been suspended for heat, all of them are held so. -/
theorem State.standing_foldl_heatPart (l : List Nat) {s : State} (hn : (s.parts.map fun x => x.pindex).Nodup) :
    (l.foldl State.heatPart s).standing = s.standing.map fun k => if k.1 ∈ l then (k.1, .suspended, true) else k := by
  induction l generalizing s with
  | nil => simp
  | cons p l ih =>
    rw [List.foldl_cons, ih (by rwa [State.pindexes_heatPart hn]), State.standing_heatPart hn, List.map_map]
    refine List.map_congr_left fun k _ => ?_
    by_cases hk : k.1 = p <;> simp [hk]

theorem State.standing_suspendHot {s : State} (hn : (s.parts.map fun x => x.pindex).Nodup) :
    s.suspendHot.standing = s.standing.map fun k => (k.1, .suspended, true) := by
  have h : s.suspendHot.standing = s.standing.map fun k =>
      if k.1 ∈ s.parts.map fun x => x.pindex then (k.1, .suspended, true) else k :=
    State.standing_foldl_heatPart _ hn
  rw [h]
  refine List.map_congr_left fun k hk => if_pos ?_
  rw [← State.standing_pindex]
  exact List.mem_map_of_mem hk

theorem State.suspendHot_held {s : State} (hn : (s.parts.map fun x => x.pindex).Nodup) :
    ∀ x ∈ s.suspendHot.parts, x.hold = .suspended ∧ x.byHeat := by
  intro x hx
  have hk : x.standing ∈ s.suspendHot.standing := List.mem_map_of_mem hx
  rw [State.standing_suspendHot hn] at hk
  obtain ⟨k, -, he⟩ := List.mem_map.1 hk
  exact ⟨congrArg (fun k : Nat × Hold × Bool => k.2.1) he.symm, congrArg (fun k : Nat × Hold × Bool => k.2.2) he.symm⟩

theorem State.suspendHot_pindexes {s : State} (hn : (s.parts.map fun x => x.pindex).Nodup) :
    (s.suspendHot.parts.map fun x => x.pindex) = s.parts.map fun x => x.pindex := by
  rw [← State.standing_pindex, State.standing_suspendHot hn, List.map_map, ← State.standing_pindex]
  rfl

/-! ## Die temperatures -/

theorem exec_thermalReport (s : State) : exec .thermalReport s = execThermalReport s := rfl
theorem exec_coolantFlowLoss (s : State) : exec .coolantFlowLoss s = execCoolantFlowLoss s := rfl

/-- Each tile's duty steps down above 95 °C, and up otherwise. -/
def State.stepDuties (s : State) (temp : Nat → Nat) : State :=
  { s with tiles := s.tiles.zipIdx.map fun e =>
      { e.1 with duty := if 95 < temp e.2 then max 1 (e.1.duty - 1) else min 16 (e.1.duty + 1) } }

theorem State.heat_eq {s : State} (temp : Nat → Nat) (hh : s.halted = false) : s.heat temp =
    if ∃ t < s.tiles.length, 105 ≤ temp t then (s.stepDuties temp).suspendHot
    else if s.hot ∧ ∀ t < s.tiles.length, temp t < 90 then (s.stepDuties temp).resumeCool
    else s.stepDuties temp := by
  have h : s.heat temp = if (s.stepDuties temp).halted then s.stepDuties temp
      else if (List.range s.tiles.length).any fun t => 105 ≤ temp t then (s.stepDuties temp).suspendHot
      else if (s.stepDuties temp).hot && (List.range s.tiles.length).all fun t => temp t < 90 then (s.stepDuties temp).resumeCool
      else s.stepDuties temp := rfl
  rw [h]
  simp [State.stepDuties, hh]

theorem execThermalReport_mild {s : State} (hh : s.halted = false) (hc : s.hot = false)
    (ht : ∀ t < s.tiles.length, s.inputs.temps.getD t 0 < 105) :
    execThermalReport s = .next (s.stepDuties fun t => s.inputs.temps.getD t 0) := by
  rw [execThermalReport, State.heat_eq _ hh, if_neg, if_neg]
  · simp [hc]
  · rintro ⟨t, hlt, h⟩
    exact absurd h (Nat.not_le_of_gt (ht t hlt))

/-- At 105 °C on a tile every partition is suspended, and the host told. -/
theorem State.heat_hot {s : State} {temp : Nat → Nat} (hh : s.halted = false)
    (hn : (s.parts.map fun x => x.pindex).Nodup) (ht : ∃ t < s.tiles.length, 105 ≤ temp t) :
    (s.heat temp).hot ∧ .physical 105 ∈ (s.heat temp).outputs ∧
    (∀ x ∈ (s.heat temp).parts, x.hold = .suspended ∧ x.byHeat) ∧
    (s.heat temp).parts.map (fun x => x.pindex) = s.parts.map fun x => x.pindex := by
  rw [State.heat_eq _ hh, if_pos ht]
  refine ⟨rfl, List.mem_append_right _ (List.mem_singleton_self _), State.suspendHot_held hn, State.suspendHot_pindexes hn⟩

/-- Below 90 °C on every tile heat lets every partition go. -/
theorem State.heat_cool {s : State} {temp : Nat → Nat} (hh : s.halted = false) (hc : s.hot)
    (ht : ∀ t < s.tiles.length, temp t < 90) :
    (s.heat temp).hot = false ∧ ∀ x ∈ (s.heat temp).parts, x.byHeat = false := by
  rw [State.heat_eq _ hh, if_neg, if_pos ⟨hc, ht⟩]
  · exact ⟨rfl, State.resumeCool_byHeat _⟩
  · rintro ⟨t, hlt, h⟩
    have := ht t hlt
    omega

end Sys2Proof.Machine
end

section
/-! # Bring-up, and the statement on bring-up, power and heat (R425 to R427) -/

namespace Sys2Proof.Machine

/-! ## What a power cycle keeps (R209, R425) -/

theorem State.bump_eq (s : State) (p : Nat) : ∃ ps g w, s.bump p = { s with parts := ps, gens := g, worn := w } := by
  unfold State.bump
  split
  · exact ⟨_, _, _, rfl⟩
  · exact ⟨_, _, _, rfl⟩

theorem State.foldl_bump_eq (l : List Nat) (s : State) :
    ∃ ps g w, l.foldl State.bump s = { s with parts := ps, gens := g, worn := w } := by
  induction l generalizing s with
  | nil => exact ⟨_, _, _, rfl⟩
  | cons p l ih =>
    obtain ⟨ps, g, w, h⟩ := s.bump_eq p
    obtain ⟨ps', g', w', h'⟩ := ih (s.bump p)
    exact ⟨ps', g', w', h'.trans (by rw [h])⟩

theorem State.foldl_dropKeys_eq (l : List Nat) (s : State) : ∃ v, l.foldl State.dropKeys s = { s with vault := v } := by
  induction l generalizing s with
  | nil => exact ⟨_, rfl⟩
  | cons p l ih => exact ih (s.dropKeys p)

/-- A tile that a partition had is free once the partition is gone. -/
def TileInfo.freed (i : TileInfo) : TileInfo := if i.state = .assigned then { i with state := .free } else i

theorem TileInfo.freed_state (i : TileInfo) : i.freed.state ≠ .assigned := by
  unfold TileInfo.freed
  split
  · exact nofun
  · assumption

theorem TileInfo.freed_failed {i : TileInfo} (h : i.state = .degraded ∨ i.state = .dead) : i.freed = i := by
  unfold TileInfo.freed
  rw [if_neg]
  rcases h with h | h <;> simp [h]

theorem State.dropPartitions_eq (s : State) : ∃ g w v, s.dropPartitions =
    { s with
      gens := g, worn := w, vault := v, parts := [], seals := [], ucie := [], hot := false, duty := 16, late := [], slices := []
      bumps := [], tiles := s.tiles.map TileInfo.freed } := by
  obtain ⟨ps, g, w, h⟩ := State.foldl_bump_eq (s.parts.map fun x => x.pindex) s
  obtain ⟨v, h'⟩ := State.foldl_dropKeys_eq
    (((s.parts.map fun x => x.pindex).foldl State.bump s).parts.map fun x => x.pindex)
    ((s.parts.map fun x => x.pindex).foldl State.bump s)
  refine ⟨g, w, v, ?_⟩
  unfold State.dropPartitions
  dsimp only
  rw [h', h]
  rfl

theorem State.raiseAlarm1_eq (s : State) (src : AlarmSource) :
    ∃ v o, s.raiseAlarm1 src = { s with alarm1 := true, vault := v, outputs := o } := by
  have fold (l : List Nat) (u : State) : ∃ v, l.foldl State.revoke u = { u with vault := v } := by
    induction l generalizing u with
    | nil => exact ⟨_, rfl⟩
    | cons k l ih =>
      obtain ⟨v, h⟩ := ih (u.revoke k)
      refine ⟨v, h.trans ?_⟩
      unfold State.revoke
      split <;> rfl
  obtain ⟨v, h⟩ := fold (s.namedSlots src) { s with alarm1 := true }
  refine ⟨v, s.outputs ++ [.alarm 1 src], ?_⟩
  unfold State.raiseAlarm1
  rw [h]
  rfl

theorem State.mintTest_failed (s : State) : (s.mintTest false).parts = s.parts ∧ (s.mintTest false).tiles = s.tiles := by
  unfold State.mintTest
  simp only [Bool.false_eq_true, if_false]
  split
  · obtain ⟨v, o, h⟩ := State.raiseAlarm1_eq
      { s with mintTested := some s.cycle, mintHealthy := false, mintFails := s.mintFails + 1 } .mintStartup
    rw [h]
    exact ⟨rfl, rfl⟩
  · exact ⟨rfl, rfl⟩

theorem State.askScrub_eq (s : State) (reason owner : Nat) (q : Option Nat) (vacated : List Nat) :
    ∃ m b l t j, s.askScrub reason owner q vacated = { s with mem := m, bad := b, slices := l, tags := t, scrubs := j } := by
  have fold (ls : List Nat) (u : State) : ∃ m b l t, ls.foldl (fun u n => u.wipeLine Config.quarantineTag n) u =
      { u with mem := m, bad := b, slices := l, tags := t } := by
    induction ls generalizing u with
    | nil => exact ⟨_, _, _, _, rfl⟩
    | cons n ls ih => exact ih (u.wipeLine Config.quarantineTag n)
  obtain ⟨m, b, l, t, h⟩ := fold ((s.tags.filter fun t => s.scrubbed reason owner t.2).map fun t => t.1) s
  refine ⟨m, b, l, t, (s.askScrub reason owner q vacated).scrubs, ?_⟩
  unfold State.askScrub
  dsimp only
  rw [h]

theorem State.reportShort_eq (s : State) : ∃ n o, s.reportShort = { s with liveKnown := n, outputs := o } := by
  unfold State.reportShort
  dsimp only
  split
  · exact ⟨_, _, rfl⟩
  · exact ⟨_, _, rfl⟩

/-! ## Tiles in service (R1, R14, R395) -/

theorem inService_cons (t : TileState) (l : List TileState) :
    inService (t :: l) = (if t = .free then 1 else 0) + inService l := by
  unfold inService
  by_cases h : t = .free <;> simp [h, Nat.add_comm]

@[simp] theorem tileStates_length (n : Nat) (l : List TileState) : (tileStates n l).length = l.length := by
  induction l generalizing n with
  | nil => rfl
  | cons t l ih => cases t <;> cases n <;> simp [tileStates, ih]

@[simp] theorem bringIn_length (n : Nat) (l : List TileState) : (bringIn n l).length = l.length := by
  induction l generalizing n with
  | nil => cases n <;> rfl
  | cons t l ih => cases n <;> cases t <;> simp [bringIn, ih]

theorem inService_tileStates (n : Nat) (l : List TileState) : inService (tileStates n l) ≤ n := by
  induction l generalizing n with
  | nil => exact Nat.zero_le n
  | cons t l ih =>
    cases n with
    | zero =>
      have h := ih 0
      cases t <;> simp only [tileStates, inService_cons, reduceCtorEq, if_false] <;> omega
    | succ n =>
      have h := ih n
      have h' := ih (n + 1)
      cases t <;> simp only [tileStates, inService_cons, reduceCtorEq, if_true, if_false] <;> omega

theorem inService_bringIn (n : Nat) (l : List TileState) : inService (bringIn n l) ≤ inService l + n := by
  induction l generalizing n with
  | nil => cases n <;> exact Nat.zero_le _
  | cons t l ih =>
    cases n with
    | zero => exact Nat.le_refl _
    | succ n =>
      have h := ih n
      have h' := ih (n + 1)
      cases t <;> simp only [bringIn, inService_cons, reduceCtorEq, if_true, if_false] <;> omega

theorem inService_bringUpStates (limit : Nat) (found : List TileState) : inService (bringUpStates limit found) ≤ limit := by
  have h := inService_tileStates limit found
  have h' := inService_bringIn (limit - inService (tileStates limit found)) (tileStates limit found)
  unfold bringUpStates
  dsimp only
  omega

theorem tileStates_unassigned (n : Nat) (l : List TileState) : .assigned ∉ tileStates n l := by
  induction l generalizing n with
  | nil => exact List.not_mem_nil
  | cons t l ih => cases t <;> cases n <;> simp [tileStates, ih]

theorem bringIn_unassigned (n : Nat) (l : List TileState) (h : .assigned ∉ l) : .assigned ∉ bringIn n l := by
  induction l generalizing n with
  | nil => cases n <;> exact h
  | cons t l ih =>
    obtain ⟨ht, hl⟩ := not_or.1 (mt List.mem_cons.2 h)
    cases n with
    | zero => exact h
    | succ n => cases t <;> simp_all [bringIn]

theorem bringUpStates_unassigned (limit : Nat) (found : List TileState) : .assigned ∉ bringUpStates limit found :=
  bringIn_unassigned _ _ (tileStates_unassigned limit found)

theorem bringUpStates_length (limit : Nat) (found : List TileState) : (bringUpStates limit found).length = found.length := by
  simp [bringUpStates]

/-- A tile that has failed is neither taken out of service nor brought in. -/
theorem tileStates_failed {t : TileState} (ht : t = .degraded ∨ t = .dead) (n k : Nat) (l : List TileState) (h : l[k]? = some t) :
    (tileStates n l)[k]? = some t := by
  induction l generalizing n k with
  | nil => simp at h
  | cons u l ih =>
    cases k with
    | zero =>
      obtain rfl : u = t := by simpa using h
      rcases ht with rfl | rfl <;> rfl
    | succ k => cases u <;> cases n <;> simpa [tileStates] using ih _ _ (by simpa using h)

theorem bringIn_failed {t : TileState} (ht : t = .degraded ∨ t = .dead) (n k : Nat) (l : List TileState) (h : l[k]? = some t) :
    (bringIn n l)[k]? = some t := by
  induction l generalizing n k with
  | nil => simp at h
  | cons u l ih =>
    cases n with
    | zero => exact h
    | succ n =>
      cases k with
      | zero =>
        obtain rfl : u = t := by simpa using h
        rcases ht with rfl | rfl <;> rfl
      | succ k => cases u <;> simpa [bringIn] using ih _ _ (by simpa using h)

theorem bringUpStates_failed {t : TileState} (ht : t = .degraded ∨ t = .dead) (limit k : Nat) (found : List TileState)
    (h : found[k]? = some t) : (bringUpStates limit found)[k]? = some t :=
  bringIn_failed ht _ k _ (tileStates_failed ht limit k found h)

/-! ## Cores that carry numbers (R16) -/

theorem spareMap_live (failed : Nat → Bool) (n : Nat) (l : List Nat) :
    ((spareMap failed n l).filter fun c => c = .live).length ≤ n := by
  induction l generalizing n with
  | nil => exact Nat.zero_le n
  | cons c l ih =>
    unfold spareMap
    split
    · simpa using ih n
    · split
      · simpa using ih 0
      · simpa using ih _

theorem TileInfo.coresIn_length (i : TileInfo) (st : PhysState) :
    (i.coresIn st).length = (i.cores.filter fun c => c = st).length := by
  have h : (i.cores.zipIdx.filter fun e => e.1 = st).map Prod.fst = i.cores.filter fun c => c = st := by
    conv => rhs; rw [← i.cores.zipIdx_map_fst 0, List.filter_map]
    rfl
  rw [← h, List.length_map]
  exact List.length_map _

end Sys2Proof.Machine
end

section
/-! # Bring-up as a whole, and the statement on bring-up, power and heat (R1, R14, R425 to R427) -/

namespace Sys2Proof.Machine

/-! ## Stage 3: the tiles (R14, R16, R395) -/

/-- What the self-tests of a bring-up find of the tiles. -/
def State.found (s : State) (b : BringUp) : List TileState :=
  (List.range Config.tileCount).map fun t =>
    testTile ((s.tiles[t]?).getD TileInfo.reset).state (b.tiles.getD t .spare) (s.cutOff t)

theorem State.testTiles_tiles (s : State) (b : BringUp) :
    (s.testTiles b).tiles = (bringUpStates (serviceLimit s.grade) (s.found b)).zipIdx.map fun e =>
      bringUpTile b ((s.tiles[e.2]?).getD TileInfo.reset) e.1 e.2 := rfl

theorem State.found_length (s : State) (b : BringUp) : (s.found b).length = 74 := by
  simp [State.found, Config.tileCount]

theorem State.found_failed {s : State} (b : BringUp) {n : Nat} {i : TileInfo} (hn : n < 74) (hi : s.tiles[n]? = some i)
    (hf : i.state = .degraded ∨ i.state = .dead) : (s.found b)[n]? = some i.state := by
  have ht : testTile i.state (b.tiles.getD n .spare) (s.cutOff n) = i.state := if_pos hf
  have hr : (List.range Config.tileCount)[n]? = some n := List.getElem?_range hn
  rw [State.found, List.getElem?_map, hr, Option.map_some, hi, Option.getD_some, ht]

theorem State.testTiles_states (s : State) (b : BringUp) :
    ((s.testTiles b).tiles.map fun i => i.state) = bringUpStates (serviceLimit s.grade) (s.found b) := by
  rw [State.testTiles_tiles, List.map_map]
  exact List.zipIdx_map_fst 0 _

theorem State.testTiles_length (s : State) (b : BringUp) : (s.testTiles b).tiles.length = 74 := by
  rw [← List.length_map (f := fun i : TileInfo => i.state), State.testTiles_states, bringUpStates_length, State.found_length]

theorem State.testTiles_free (s : State) (b : BringUp) :
    ((s.testTiles b).tiles.filter fun i => i.state = .free).length ≤ serviceLimit s.grade := by
  have h := inService_bringUpStates (serviceLimit s.grade) (s.found b)
  rwa [← State.testTiles_states, inService, List.filter_map, List.length_map] at h

theorem State.testTiles_unassigned (s : State) (b : BringUp) {i : TileInfo} (hi : i ∈ (s.testTiles b).tiles) :
    i.state ≠ .assigned := by
  intro h
  refine bringUpStates_unassigned (serviceLimit s.grade) (s.found b) ?_
  rw [← State.testTiles_states, ← h]
  exact List.mem_map_of_mem hi

theorem State.testTiles_live (s : State) (b : BringUp) {i : TileInfo} (hi : i ∈ (s.testTiles b).tiles) :
    (i.coresIn .live).length ≤ 64 := by
  rw [State.testTiles_tiles] at hi
  obtain ⟨e, -, rfl⟩ := List.mem_map.1 hi
  rw [TileInfo.coresIn_length]
  exact spareMap_live _ 64 _

theorem State.tileFailed_iff (s : State) (n : Nat) :
    s.tileFailed n ↔ ∃ i, s.tiles[n]? = some i ∧ (i.state = .degraded ∨ i.state = .dead) := by
  cases h : s.tiles[n]? <;> simp [State.tileFailed, State.tileIs, h]

theorem State.tileFailed_congr {s t : State} (h : t.tiles = s.tiles) (n : Nat) : t.tileFailed n = s.tileFailed n := by
  simp only [State.tileFailed, State.tileIs, h]

/-- A tile that has failed before stays out of service. -/
theorem State.testTiles_failed {s : State} (b : BringUp) {n : Nat} (hn : n < 74) (h : s.tileFailed n) :
    (s.testTiles b).tileFailed n := by
  obtain ⟨i, hi, hf⟩ := (s.tileFailed_iff n).1 h
  have hs := bringUpStates_failed hf (serviceLimit s.grade) n _ (State.found_failed b hn hi hf)
  rw [← State.testTiles_states, List.getElem?_map] at hs
  obtain ⟨j, hj, hjs⟩ := Option.map_eq_some_iff.1 hs
  exact (State.tileFailed_iff _ n).2 ⟨j, hj, by rwa [hjs]⟩

/-! ## Stages 4 to 6: the memory (R23, R442) -/

theorem reachable_le (io : List IoTile) : reachable io ≤ 16384 * 10 ^ 9 := Nat.min_le_left _ _

theorem State.trainPorts_capacity (s : State) (b : BringUp) :
    (s.trainPorts b).capacity ≤ 16384 * 10 ^ 9 - 64 * (s.quarantine.filter fun w => w.toNat / 2 ^ 62 = 0).length :=
  Nat.sub_le_sub_right (Nat.le_trans (Nat.min_le_right _ _) (reachable_le _)) _

/-! ## POWER_ON -/

theorem exec_powerOn (s : State) : exec .powerOn s = execPowerOn s := rfl

/-- Stages 2 to 7, up to the measurement of the firmware. -/
def State.trainUp (s : State) (b : BringUp) : State :=
  ({ ((s.trainLinks b).testTiles b).trainPorts b with digest := b.digest } : State).certify

/-- After alarm level 2 the module scrubs everything, and is to be provisioned again (R440). -/
def State.recover (s : State) : State :=
  if s.alarm2 then ({ s with alarm2 := false, reprovision := true } : State).askScrub 3 0xFFFF none [] else s


theorem State.trainUp_capacity (s : State) (b : BringUp) :
    (s.trainUp b).capacity ≤ 16384 * 10 ^ 9 - 64 * (s.quarantine.filter fun w => w.toNat / 2 ^ 62 = 0).length :=
  State.trainPorts_capacity ((s.trainLinks b).testTiles b) b

theorem State.trainUp_tiles (s : State) (b : BringUp) : (s.trainUp b).tiles = ((s.trainLinks b).testTiles b).tiles := by
  dsimp only [State.trainUp, State.certify, State.trainPorts]

theorem State.trainUp_kept (s : State) (b : BringUp) :
    (s.trainUp b).parts = s.parts ∧ (s.trainUp b).mem = s.mem ∧ (s.trainUp b).alarm2 = s.alarm2 := by
  dsimp only [State.trainUp, State.certify, State.trainPorts, State.testTiles, State.trainLinks]
  exact ⟨rfl, rfl, rfl⟩

theorem State.trainUp_length (s : State) (b : BringUp) : (s.trainUp b).tiles.length = 74 :=
  State.testTiles_length (s.trainLinks b) b

theorem State.trainUp_unassigned (s : State) (b : BringUp) : ∀ i ∈ (s.trainUp b).tiles, i.state ≠ .assigned :=
  fun _ hi => State.testTiles_unassigned (s.trainLinks b) b hi

theorem State.trainUp_live (s : State) (b : BringUp) : ∀ i ∈ (s.trainUp b).tiles, (i.coresIn .live).length ≤ 64 :=
  fun _ hi => State.testTiles_live (s.trainLinks b) b hi

theorem State.trainUp_free (s : State) (b : BringUp) :
    ((s.trainUp b).tiles.filter fun i => i.state = .free).length ≤ serviceLimit s.grade :=
  State.testTiles_free (s.trainLinks b) b

theorem State.trainUp_failed {s : State} (b : BringUp) {n : Nat} (hn : n < 74) (h : s.tileFailed n) :
    (s.trainUp b).tileFailed n := by
  rw [State.tileFailed_congr (s.trainUp_tiles b)]
  exact State.testTiles_failed b hn ((State.tileFailed_congr rfl n).trans h)

/-- The state with which stage 2 begins. -/
def State.cleared (s : State) : State := s.dropPartitions.mintTest true

theorem State.cleared_eq (s : State) : s.cleared.grade = s.grade ∧ s.cleared.parts = [] ∧ s.cleared.mem = s.mem ∧
    s.cleared.alarm2 = s.alarm2 ∧ s.cleared.quarantine = s.quarantine ∧ s.cleared.tiles = s.tiles.map TileInfo.freed := by
  obtain ⟨g, w, v, hd⟩ := s.dropPartitions_eq
  unfold State.cleared
  rw [hd]
  exact ⟨rfl, rfl, rfl, rfl, rfl, rfl⟩

theorem State.cleared_failed {s : State} {n : Nat} (h : s.tileFailed n) : s.cleared.tileFailed n := by
  obtain ⟨i, hi, hf⟩ := (s.tileFailed_iff n).1 h
  obtain ⟨-, -, -, -, -, ht⟩ := s.cleared_eq
  exact (State.tileFailed_iff _ n).2 ⟨i, by rw [ht, List.getElem?_map, hi, Option.map_some, TileInfo.freed_failed hf], hf⟩

theorem execPowerOn_passes {s : State} (hm : s.inputs.bringUp.mintOk) (hf : s.inputs.bringUp.firmwareOk) :
    execPowerOn s = .next ({ (s.cleared.trainUp s.inputs.bringUp).recover with
      booted := true, halted := false } : State).reportShort := by
  unfold execPowerOn
  dsimp only
  rw [hm, hf]
  rfl

/-- A module that a failed stage of bring-up holds (R425). -/
def State.heldAt (s : State) (stage : Nat) : State := ({ s with booted := false, halted := true } : State).emit (.physical stage)

theorem State.heldAt_holds {s : State} (stage : Nat) (hp : s.parts = []) (ht : ∀ i ∈ s.tiles, i.state ≠ .assigned) :
    (s.heldAt stage).booted = false ∧ (s.heldAt stage).halted ∧ (s.heldAt stage).parts = [] ∧
    ∀ i ∈ (s.heldAt stage).tiles, i.state ≠ .assigned := by
  dsimp only [State.heldAt, State.emit]
  exact ⟨rfl, rfl, hp, ht⟩

theorem execPowerOn_mintFails {s : State} (hm : s.inputs.bringUp.mintOk = false) :
    execPowerOn s = .next ((s.dropPartitions.mintTest false).heldAt 1) := by
  unfold execPowerOn
  dsimp only
  rw [hm]
  rfl

theorem execPowerOn_firmwareFails {s : State} (hm : s.inputs.bringUp.mintOk) (hf : s.inputs.bringUp.firmwareOk = false) :
    execPowerOn s =
      .next (((s.cleared.trainUp s.inputs.bringUp).raiseAlarm1 .firmware).heldAt 7) := by
  unfold execPowerOn
  dsimp only
  rw [hm, hf]
  rfl

theorem State.recover_eq (s : State) : ∃ a r m b l t j, s.recover =
    { s with alarm2 := a, reprovision := r, mem := m, bad := b, slices := l, tags := t, scrubs := j } ∧
    (s.alarm2 = false → m = s.mem) := by
  unfold State.recover
  split
  · rename_i ha
    obtain ⟨m, b, l, t, j, h⟩ := State.askScrub_eq { s with alarm2 := false, reprovision := true } 3 0xFFFF none []
    exact ⟨_, _, m, b, l, t, j, h, fun hn => absurd (ha.symm.trans hn) nofun⟩
  · exact ⟨_, _, _, _, _, _, _, rfl, fun _ => rfl⟩

/-- A bring-up that passes leaves the module in service, without a partition. -/
theorem execPowerOn_inService {s : State} (hm : s.inputs.bringUp.mintOk) (hf : s.inputs.bringUp.firmwareOk) :
    ∃ t, execPowerOn s = .next t ∧ t.booted ∧
      t.halted = false ∧ t.parts = [] ∧ t.digest = s.inputs.bringUp.digest ∧ t.tiles.length = 74 ∧
      (t.tiles.filter fun i => i.state = .free).length ≤ (if s.grade = 0 then 72 else 68) ∧
      (∀ i ∈ t.tiles, i.state ≠ .assigned ∧ (i.coresIn .live).length ≤ 64) ∧ (s.alarm2 = false → t.mem = s.mem) ∧
      t.capacity ≤ 16384 * 10 ^ 9 - 64 * (s.quarantine.filter fun w => w.toNat / 2 ^ 62 = 0).length ∧ t.io.length = 8 ∧
      ∀ n < 74, s.tileFailed n → t.tileFailed n := by
  refine ⟨_, execPowerOn_passes hm hf, ?_⟩
  obtain ⟨hg, hp, hmem, ha, hq, -⟩ := s.cleared_eq
  obtain ⟨hp', hmem', ha'⟩ := s.cleared.trainUp_kept s.inputs.bringUp
  obtain ⟨a, r, m, b, l, t, j, hr, hm'⟩ := (s.cleared.trainUp s.inputs.bringUp).recover_eq
  obtain ⟨n, o, hs⟩ := ({ (s.cleared.trainUp s.inputs.bringUp).recover with
      booted := true, halted := false } : State).reportShort_eq
  rw [hs, hr]
  dsimp only
  refine ⟨rfl, rfl, hp'.trans hp, rfl, s.cleared.trainUp_length s.inputs.bringUp, ?_,
    fun i hi => ⟨s.cleared.trainUp_unassigned s.inputs.bringUp i hi, s.cleared.trainUp_live s.inputs.bringUp i hi⟩,
    fun h => ?_, ?_, rfl, fun k hk h => ?_⟩
  · have h := s.cleared.trainUp_free s.inputs.bringUp
    rw [hg] at h
    exact h
  · rw [hm' (by rw [ha', ha, h]), hmem', hmem]
  · have h := s.cleared.trainUp_capacity s.inputs.bringUp
    rw [hq] at h
    exact h
  · rw [State.tileFailed_congr (s := s.cleared.trainUp s.inputs.bringUp)]
    · exact State.trainUp_failed s.inputs.bringUp hk (State.cleared_failed h)
    · rfl

/-- A failed stage holds the module, without a partition and without a tile that one had. -/
theorem execPowerOn_held {s : State} (h : s.inputs.bringUp.mintOk = false ∨ s.inputs.bringUp.firmwareOk = false) :
    ∃ t, execPowerOn s = .next t ∧ t.booted = false ∧ t.halted ∧ t.parts = [] ∧ ∀ i ∈ t.tiles, i.state ≠ .assigned := by
  cases hm : s.inputs.bringUp.mintOk with
  | false =>
    obtain ⟨g, w, v, hd⟩ := s.dropPartitions_eq
    obtain ⟨hp, ht⟩ := s.dropPartitions.mintTest_failed
    rw [hd] at hp ht
    refine ⟨_, execPowerOn_mintFails hm, State.heldAt_holds 1 ?_ fun i hi => ?_⟩
    · rw [hd, hp]
    · rw [hd, ht] at hi
      obtain ⟨j, -, rfl⟩ := List.mem_map.1 hi
      exact j.freed_state
  | true =>
    have hf : s.inputs.bringUp.firmwareOk = false := h.resolve_left (by rw [hm]; exact nofun)
    obtain ⟨-, hp, -⟩ := s.cleared_eq
    obtain ⟨hp', -⟩ := s.cleared.trainUp_kept s.inputs.bringUp
    obtain ⟨v, o, ha⟩ := (s.cleared.trainUp s.inputs.bringUp).raiseAlarm1_eq .firmware
    refine ⟨_, execPowerOn_firmwareFails hm hf, State.heldAt_holds 7 ?_ ?_⟩
    · rw [ha]
      exact hp'.trans hp
    · rw [ha]
      exact s.cleared.trainUp_unassigned s.inputs.bringUp

/-! ## The statement -/

theorem exec_powerSample (s : State) : exec .powerSample s =
    .next (if 24000 ≤ s.inputs.watts then { s with duty := max 1 (s.duty - 1) }
      else if s.inputs.watts < 23000 then { s with duty := min 16 (s.duty + 1) } else s) := rfl

/-- Settles O60: bring-up by what each stage gives, heat by the frame of a quiesce, which leaves every partition's number, hold
and heat flag as they were but for the hold of its own. -/
theorem bringUpPowerAndHeat : Obligations.BringUpPowerAndHeat := by
  unfold Obligations.BringUpPowerAndHeat
  simp only [exec_powerOn]
  refine ⟨fun s hm hf => execPowerOn_inService hm hf, fun s h => execPowerOn_held h, exec_powerSample,
    fun s hh hc ht => execThermalReport_mild hh hc ht, fun i s hh hn hi => ?_,
    fun s hh hc ht => ⟨_, exec_thermalReport s, State.heat_cool hh hc ht⟩⟩
  rcases hi with ⟨rfl, ht⟩ | ⟨rfl, ht⟩
  · exact ⟨_, exec_coolantFlowLoss s, State.heat_hot hh hn ⟨0, List.length_pos_iff.2 ht, Nat.le_refl _⟩⟩
  · exact ⟨_, exec_thermalReport s, State.heat_hot hh hn ht⟩

end Sys2Proof.Machine
end

section
/-! # What decides whether an access waits for a link, and that performing accesses leaves it as it was (R246, R429) -/

namespace Sys2Proof.Machine

/-! ## What the ways between tiles depend on -/

/-- A link or stream other than one to the host: an access of a team may have to wait for it (R429). -/
def withinModule : Stream → Bool
  | .host _ => false
  | .ucie _ _ | .detour _ | .peer _ | .io _ _ | .memory _ => true

/-- What is known of the links and streams within the module. -/
def State.innerSeals (s : State) : List Seal := s.seals.filter fun q => withinModule q.stream

/-- What the ways between the tiles, and the waits on them, depend on. -/
structure Fabric where
  halted : Bool
  tiles : List TileInfo
  ucie : List Ucie
  tick : Nat
  emptied : List (List Nat)
  seals : List Seal

def State.fabric (s : State) : Fabric :=
  { halted := s.halted, tiles := s.tiles, ucie := s.ucie, tick := s.tick
    emptied := s.parts.map fun x => x.emptied, seals := s.innerSeals }

/-! ## Updates that leave it as it was -/

theorem State.fabric_modPart (s : State) (p : Nat) {f : Partition → Partition} (h : ∀ x, (f x).emptied = x.emptied) :
    (s.modPart p f).fabric = s.fabric := by
  have e : (s.modPart p f).parts.map (fun x => x.emptied) = s.parts.map fun x => x.emptied := by
    simp only [State.modPart, List.map_map]
    refine List.map_congr_left fun x _ => ?_
    by_cases hx : x.pindex = p <;> simp [hx, h]
  simp only [State.fabric, e, State.modPart_halted, State.modPart_tiles, State.modPart_ucie, State.modPart_tick,
    State.modPart_seals, State.innerSeals]

@[simp] theorem State.fabric_modCore (s : State) (p l : Nat) (f : Core → Core) : (s.modCore p l f).fabric = s.fabric :=
  s.fabric_modPart p fun _ => rfl

@[simp] theorem State.fabric_giveLoad (s : State) (r : SplitRef) (bss : List (List Byte)) (d : LoadInto) :
    (s.giveLoad r bss d).fabric = s.fabric :=
  (State.fabric_modCore _ _ _ _).trans (s.fabric_modCore _ _ _)

@[simp] theorem State.fabric_putByte (s : State) (tag loc : Nat) (b : Byte) : (s.putByte tag loc b).fabric = s.fabric := by
  unfold State.putByte; split <;> rfl

@[simp] theorem State.fabric_putBytes (s : State) (tag : Nat) (cells : List (Nat × Byte)) :
    (s.putBytes tag cells).fabric = s.fabric := by
  induction cells generalizing s with
  | nil => rfl
  | cons c cells ih => exact (ih _).trans (s.fabric_putByte _ _ _)

theorem Partition.fire_emptied (x : Partition) (v : Nat) (path : HostPath) : (x.fire v path).emptied = x.emptied := by
  unfold Partition.fire; split
  · rfl
  · cases path <;> rfl

theorem Partition.trigger_emptied (x : Partition) (locs : List Nat) (names : Core → Team → W64 → Bool) :
    (x.trigger locs names).emptied = x.emptied := rfl

/-- The seal looked up for a stream is that stream's. -/
theorem State.seal_stream (s : State) (x : Stream) : (s.seal x).stream = x := by
  unfold State.seal
  cases h : s.seals.find? fun q => q.stream = x with
  | none => rfl
  | some q => simpa using List.find?_some h

/-- A unit that goes to the host counts for no link within the module. -/
theorem State.innerSeals_count_host (s : State) (p : Nat) :
    (s.count (.host p)).innerSeals = s.innerSeals := by
  simp only [State.innerSeals, State.count, State.putSeal, List.filter_cons, State.seal_stream, withinModule,
    Bool.false_eq_true, if_false, List.filter_filter]
  refine List.filter_congr fun q _ => ?_
  by_cases hq : q.stream = .host p <;> simp [hq]

@[simp] theorem State.fabric_fireMsix (s : State) (p v : Nat) : (s.fireMsix p v).fabric = s.fabric := by
  have hparts : (s.fireMsix p v).parts.map (fun x => x.emptied) = s.parts.map fun x => x.emptied := by
    simp only [State.fireMsix, List.map_map]
    refine List.map_congr_left fun x _ => ?_
    simp only [Function.comp]
    split
    · exact x.fire_emptied v _
    · rfl
  have hseals : (s.fireMsix p v).innerSeals = s.innerSeals := by
    simp only [State.innerSeals, State.fireMsix]
    split
    · exact s.innerSeals_count_host p
    · rfl
  simp only [State.fabric, hparts, hseals, State.fireMsix_halted, State.fireMsix_tiles, State.fireMsix_ucie,
    State.fireMsix_tick]

/-- Of all links and streams a write event counts for the host's at most, by the doorbell (R462). -/
@[simp] theorem State.fabric_store (s : State) (p : Nat) (w : Writer) (cells : List (Nat × Byte)) :
    (s.store p w cells).fabric = s.fabric := by
  unfold State.store
  split
  · rfl
  · rename_i x _
    have h : ((s.putBytes x.tag cells).modPart p fun y =>
        y.trigger (cells.map (·.1)) (s.namesLine x (cells.map (·.1)))).fabric = s.fabric :=
      (State.fabric_modPart _ _ fun y => y.trigger_emptied _ _).trans (s.fabric_putBytes _ _)
    dsimp only
    split
    · exact (State.fabric_fireMsix _ _ _).trans h
    · exact h

@[simp] theorem State.fabric_applyAtomic (s : State) (p tag : Nat) (w : LateAtomic) :
    (s.applyAtomic p tag w).fabric = s.fabric := by
  unfold State.applyAtomic; split <;> simp

@[simp] theorem State.fabric_performLate (s : State) (w : Late) : (s.performLate w).fabric = s.fabric := by
  unfold State.performLate
  split
  · rfl
  · split
    · simp
    · dsimp only
      split <;> simp
    · simp

@[simp] theorem State.fabric_performWhere (s : State) (f : Late → Bool) : (s.performWhere f).fabric = s.fabric := by
  have run : ∀ (ws : List Late) (t : State), (ws.foldl State.performLate t).fabric = t.fabric := by
    intro ws
    induction ws with
    | nil => exact fun _ => rfl
    | cons w ws ih => exact fun t => (ih _).trans (t.fabric_performLate w)
  unfold State.performWhere
  split
  · rfl
  · exact run _ _

@[simp] theorem State.fabric_performOwn (s : State) (r : SplitRef) : (s.performOwn r).fabric = s.fabric :=
  s.fabric_performWhere _

/-! ## Accesses that wait for a link -/

theorem State.seal_inner (s : State) {x : Stream} (hx : withinModule x = true) :
    s.seal x = (s.innerSeals.find? fun q => q.stream = x).getD
      { stream := x, counter := 0, fails := [], up := !s.halted } := by
  have e : (fun q : Seal => decide (withinModule q.stream = true ∧ decide (q.stream = x) = true)) =
      fun q => decide (q.stream = x) := by
    funext q
    by_cases hq : q.stream = x <;> simp [hq, hx]
  rw [State.seal, State.innerSeals, List.find?_filter, e]

theorem State.stuck_inner (s : State) (p : Nat) : s.stuck p = s.innerSeals.any fun q => match q.stream with
    | .ucie _ _ | .io _ _ => q.up && Config.rekeyLimit ≤ q.counter
    | .detour n => n = p && !(q.up && q.counter < Config.rekeyLimit)
    | _ => false := by
  rw [State.innerSeals, List.any_filter, State.stuck]
  congr 1
  funext q
  cases q.stream <;> rfl

section

variable {s t : State} (h : t.fabric = s.fabric)

include h

theorem State.seal_of_fabric {x : Stream} (hx : withinModule x = true) : t.seal x = s.seal x := by
  have hh : t.halted = s.halted := congrArg Fabric.halted h
  have hs : t.innerSeals = s.innerSeals := congrArg Fabric.seals h
  rw [State.seal_inner t hx, State.seal_inner s hx, hh, hs]

theorem State.seal_ucie_of_fabric (a e : Nat) : t.seal (.ucie a e) = s.seal (.ucie a e) := State.seal_of_fabric h rfl

theorem State.exitTo_of_fabric : t.exitTo = s.exitTo := by
  have hu : t.ucie = s.ucie := congrArg Fabric.ucie h
  have hup : t.edgeUp = s.edgeUp := by
    funext a e
    rw [State.edgeUp, State.edgeUp, State.linkFailed, State.linkFailed, State.shutCount, State.shutCount, hu,
      State.seal_ucie_of_fabric h]
  funext a b
  simp only [State.exitTo, hup]

theorem State.span_of_fabric (ts : List Nat) (root : Nat) : t.span ts root = s.span ts root := by
  have spread : ∀ n tree, t.spread ts n tree = s.spread ts n tree := by
    intro n
    induction n with
    | zero => exact fun _ => rfl
    | succ n ih => exact fun tree => by simp only [State.spread, State.nextLevel, State.joins, State.exitTo_of_fabric h, ih]
  exact spread _ _

theorem State.passable_of_fabric : t.passable = s.passable := by
  have emptied (u : State) (a : Nat) : (u.parts.any fun x => x.emptied.contains a) =
      u.fabric.emptied.any fun l => l.contains a := by
    simp only [State.fabric, List.any_map]
    rfl
  have ht : t.tiles = s.tiles := congrArg Fabric.tiles h
  simp only [State.passable, emptied, h, ht]

theorem State.ownTree_of_fabric (ts : List Nat) (a : Nat) : t.ownTree ts a = s.ownTree ts a := by
  simp only [State.ownTree, State.alive, State.passable_of_fabric h, State.span_of_fabric h]

theorem State.wideTree_of_fabric (ts : List Nat) : t.wideTree ts = s.wideTree ts := by
  simp only [State.wideTree, State.alive, State.passable_of_fabric h, State.span_of_fabric h]

theorem State.wayOpen_of_fabric (x : Partition) (a b : Nat) : t.wayOpen x a b = s.wayOpen x a b := by
  have ht : t.tiles = s.tiles := congrArg Fabric.tiles h
  have hd (p : Nat) : t.seal (.detour p) = s.seal (.detour p) := State.seal_of_fabric h rfl
  simp only [State.wayOpen, State.clearAlong, State.sends, State.detourSends, State.ownTree_of_fabric h,
    State.wideTree_of_fabric h, State.exitTo_of_fabric h, ht, hd, State.seal_ucie_of_fabric h]

theorem State.stuck_of_fabric (p : Nat) : t.stuck p = s.stuck p := by
  have hs : t.innerSeals = s.innerSeals := congrArg Fabric.seals h
  rw [State.stuck_inner, State.stuck_inner, hs]

theorem State.placeOf_of_fabric (x : Partition) (loc : Nat) : t.placeOf x loc = s.placeOf x loc := by
  have ht : t.tiles = s.tiles := congrArg Fabric.tiles h
  simp only [State.placeOf, State.bankOf, State.banksRetired, ht]

theorem State.ioWaits_of_fabric (loc : Nat) : t.ioWaits loc = s.ioWaits loc := by
  have ht : t.tick = s.tick := congrArg Fabric.tick h
  have hio (a e : Nat) : t.seal (.io a e) = s.seal (.io a e) := State.seal_of_fabric h rfl
  simp only [State.ioWaits, State.atLimit, ht, hio, State.seal_ucie_of_fabric h]

/-- Whether an access waits depends on the partition's engines and cores, and on the fabric. -/
theorem State.blocked_of_fabric (x : Partition) (tile : Nat) (locs : List Nat) :
    t.blocked x tile locs = s.blocked x tile locs := by
  simp only [State.blocked, State.awaitsLink, State.awaitsTile, State.stuck_of_fabric h, State.wayOpen_of_fabric h,
    State.placeOf_of_fabric h, State.ioWaits_of_fabric h]

end

end Sys2Proof.Machine
end

section
/-! # Stores: the statement (R28, R215 to R217, R219, R245) -/

namespace Sys2Proof.Machine

/-! ## What a store issues -/

/-- The state in which a store is checked and performed: a releasing one stands behind all that the split stored (R219). -/
def StoreClaim.start (c : StoreClaim) (s : State) (k : Ctx) : State := if c.orders then s.performOwn k.r else s

/-- The act of a store: nothing stands against it, and its effect is that of its lanes. -/
def StoreClaim.act (c : StoreClaim) (s : State) (k : Ctx) : Act :=
  { shape := { marks := c.marks, sweep := c.sweep, nonIdem := (c.start s k).touchesPhased k 1 c.accesses }
    eff := (c.start s k).storeLanes k storeWant c.align c.accesses c.bytes }

/-- Every store that the claim speaks of issues the claim's act. -/
theorem storeClaim_issues {i : Instr} {s : State} {k : Ctx} {c : StoreClaim} (h : storeClaim i k = some c) (hm : c.may)
    (ha : ∀ a m x, i = .st64 a m x → ∀ y ∈ c.accesses, s.kindAt k y.ea ≠ some 3) :
    ∃ f, exec i s = s.issue f ∧ f s k = c.act s k := by
  unfold storeClaim at h
  split at h
  case h_1 a m x =>
    cases h
    refine ⟨_, .trans (b := execSt8 a m x s) rfl rfl, ?_⟩
    have hl : Instr.wf (.st8 a m x) = true := baseOk_wf hm
    simp only [hl]
    rfl
  case h_2 a m x =>
    cases h
    refine ⟨_, .trans (b := execSt16 a m x s) rfl rfl, ?_⟩
    have hl : Instr.wf (.st16 a m x) = true := baseOk_wf hm
    simp only [hl]
    rfl
  case h_3 a m x =>
    cases h
    refine ⟨_, .trans (b := execSt32 a m x s) rfl rfl, ?_⟩
    have hl : Instr.wf (.st32 a m x) = true := baseOk_wf hm
    simp only [hl]
    rfl
  case h_4 a m x =>
    cases h
    obtain ⟨hb, he⟩ := hm
    refine ⟨_, .trans (b := execSt64 a m x s) rfl rfl, ?_⟩
    have hl : Instr.wf (.st64 a m x) = true := by simp [Instr.wf, evenReg, he, baseOk_wf hb]
    have hn : ((accesses k.acting (k.address m x) 8).any fun y => s.kindAt k y.ea = some 3) = false := by
      simpa using ha a m x rfl
    simp only [hl, hn, Bool.false_eq_true, if_false]
    rfl
  case h_5 d a b =>
    cases h
    refine ⟨_, .trans (b := execStw d a b s) rfl rfl, ?_⟩
    simp only [Ctx.strided_eq]
    rfl
  case h_6 a m x =>
    cases h
    obtain ⟨hb, hs⟩ := hm
    refine ⟨_, .trans (b := execStl32 a m x s) rfl rfl, ?_⟩
    have hl : Instr.wf (.stl32 a m x) = true := by simp [Instr.wf, baseOk_wf hb, scopeOk_of_le hs]
    simp only [hl, StoreClaim.act, StoreClaim.start, decide_eq_true_eq, ne_eq, ite_not]
    rfl
  case h_7 a m x =>
    cases h
    obtain ⟨hb, he, hs⟩ := hm
    refine ⟨_, .trans (b := execStl64 a m x s) rfl rfl, ?_⟩
    have hl : Instr.wf (.stl64 a m x) = true := by simp [Instr.wf, evenReg, he, baseOk_wf hb, scopeOk_of_le hs]
    simp only [hl, StoreClaim.act, StoreClaim.start, decide_eq_true_eq, ne_eq, ite_not]
    rfl
  case h_8 a m x =>
    cases h
    exact ⟨_, .trans (b := execSts a m x s) rfl rfl, rfl⟩
  case h_9 => cases h

/-! ## What it comes to -/

/-- A store whose checks pass, and which nothing holds up, keeps the translations and performs its lanes' stores. -/
theorem State.storeLanes_done {s : State} {k : Ctx} {w : Want} {align : Option Nat} {as : List LaneAccess}
    {bytes : Nat → List Byte} {qs : List (LaneAccess × Reach)} (hq : s.reachLanes k w align as = .ok qs)
    (hb : ∀ q ∈ qs, s.blocked k.part k.core.tile q.2.locs = false) :
    s.storeLanes k w align as bytes = .done ((s.keepLanes k true qs).performStores k.r (storeCells qs bytes)) := by
  have hany : (qs.any fun q => s.blocked k.part k.core.tile q.2.locs) = false := by simpa using hb
  simp only [State.storeLanes, hq, hany, Bool.false_eq_true, if_false]
  rfl

/-- What a releasing store performs first holds up no access and lets none go on. -/
theorem StoreClaim.start_blocked (c : StoreClaim) (s : State) (k : Ctx) (x : Partition) (tile : Nat) (locs : List Nat) :
    (c.start s k).blocked x tile locs = s.blocked x tile locs := by
  unfold StoreClaim.start
  split
  · exact State.blocked_of_fabric (s.fabric_performOwn k.r) x tile locs
  · rfl

/-- Settles O24: the form of each store, and the effect of one whose checks pass; what a releasing store performs first
leaves the fabric as it was, so nothing that may go on begins to wait. -/
theorem storeResults : Obligations.StoreResults := by
  unfold Obligations.StoreResults
  intro i s k c qs h hc hm ha s1 hq hb
  obtain ⟨f, hx, hf⟩ := storeClaim_issues hc hm ha
  have hb1 : ∀ q ∈ qs, (c.start s k).blocked k.part k.core.tile q.2.locs = false := fun q hmem =>
    (c.start_blocked s k _ _ _).trans (hb q hmem)
  have heff : (f s k).eff = .done (((c.start s k).keepLanes k true qs).performStores k.r (storeCells qs c.bytes)) := by
    rw [hf]
    exact State.storeLanes_done hq hb1
  rw [hx, State.issue_eff f h (by rw [hf]; rfl), heff, hf]
  rfl

end Sys2Proof.Machine
end

section
/-! # Words that write containers: what they issue, and what they leave (R36, R51, R83, R86, R134) -/

namespace Sys2Proof.Machine

/-! ## Where containers are written -/

theorem Ctx.lanes_nodup (k : Ctx) : k.lanes.Nodup := List.nodup_range.filter _

theorem Ctx.lanes_lt (k : Ctx) : ∀ l ∈ k.lanes, l < 1024 := by
  intro l hl
  simp only [Ctx.lanes, lanesOf, List.mem_filter] at hl
  exact BitVec.lt_of_getLsbD hl.2

theorem Ctx.acting_sublist (k : Ctx) : k.acting.Sublist k.lanes := List.filter_sublist

/-- Containers of some names, each in a lane that exists, and none twice. -/
structure Writes (names : List Nat) (ws : List Put) : Prop where
  name : ∀ w ∈ ws, w.name ∈ names
  lane : ∀ w ∈ ws, w.lane < 1024
  once : ws.Pairwise fun a b => ¬ (a.name = b.name ∧ a.lane = b.lane)

/-- What lanes of the split write is well placed where one lane's part is. -/
theorem writes_flatMap {k : Ctx} {ls names : List Nat} (hls : ls.Sublist k.lanes) {g : Nat → List Put}
    (hlane : ∀ l, ∀ w ∈ g l, w.lane = l) (hname : ∀ l, ∀ w ∈ g l, w.name ∈ names)
    (honce : ∀ l, (g l).Pairwise fun a b => a.name ≠ b.name) : Writes names (ls.flatMap g) where
  name w hw := by
    obtain ⟨l, -, hw⟩ := List.mem_flatMap.1 hw
    exact hname l w hw
  lane w hw := by
    obtain ⟨l, hl, hw⟩ := List.mem_flatMap.1 hw
    exact hlane l w hw ▸ k.lanes_lt l (hls.subset hl)
  once := by
    refine List.pairwise_flatMap.2 ⟨fun l _ => (honce l).imp fun hne e => hne e.1, ?_⟩
    refine (hls.nodup k.lanes_nodup).imp fun {l m} hne a ha b hb e => hne ?_
    exact (hlane l a ha).symm.trans (e.2.trans (hlane m b hb))

section
variable {k : Ctx} {ls : List Nat} (hls : ls.Sublist k.lanes)
include hls

theorem putGroup_writes (d : VReg) (n : Nat) (f : Nat → Nat) : Writes (namesOf d n) (putGroup d n ls f) := by
  refine writes_flatMap hls ?_ ?_ fun l => ?_
  · simp
  · simp [namesOf]
  · exact List.pairwise_map.2 (List.nodup_range.imp fun hne e => hne (Nat.add_left_cancel e))

theorem putLanes_writes (d : VReg) (f : Nat → W32) : Writes (namesOf d 1) (putLanes d ls f) := by
  rw [putLanes, List.map_eq_flatMap]
  exact writes_flatMap hls (by simp) (by simp [namesOf]) (by simp)

theorem putPairs_writes (d : VReg) (f : Nat → W64) : Writes (namesOf d 2) (putPairs d ls f) :=
  writes_flatMap hls (by simp) (by simp [namesOf, List.range_succ]) (by simp)

theorem putOperand_writes (wide : Bool) (d : VReg) (f : Nat → Nat) :
    Writes (namesOf d (spanOf wide)) (putOperand wide d ls f) := by
  cases wide
  · exact putLanes_writes hls d _
  · exact putPairs_writes hls d _

theorem putPreds_writes (p : PReg) (f : Nat → Bool) : Writes [predName p] (putPreds p ls f) := by
  rw [putPreds, List.map_eq_flatMap]
  exact writes_flatMap hls (by simp) (by simp) (by simp)

end

/-! ## Marks on names that are not written -/

theorem mem_without {marks written : List Nat} {n : Nat} : n ∈ without marks written ↔ n ∈ marks ∧ n ∉ written := by
  simp [without]

theorem without_append (as bs written : List Nat) : without (as ++ bs) written = without as written ++ without bs written :=
  List.filter_append ..

theorem without_disjoint {marks written : List Nat} (h : ∀ n ∈ marks, n ∉ written) : without marks written = marks :=
  List.filter_eq_self.2 fun n hn => by simpa using h n hn

theorem mem_markV {a : VSrc} {m n : Nat} (h : n ∈ markV a m) : n < 64 + m := by
  have := a.reg.isLt
  unfold markV at h
  split at h
  · obtain ⟨i, hi, rfl⟩ := List.mem_map.1 h
    have := List.mem_range.1 hi
    omega
  · cases h

/-- Marks on lane registers stand when a predicate is written. -/
theorem without_markV (a : VSrc) {m : Nat} (hm : m ≤ 2) (p : PReg) : without (markV a m) [predName p] = markV a m :=
  without_disjoint fun n hn => by
    have := mem_markV hn
    simp only [predName, List.mem_singleton]
    omega

/-- A mark on a predicate stands when a lane register is written. -/
theorem without_markP (b : PSrc) (d : VReg) : without (markP b) (namesOf d 1) = markP b :=
  without_disjoint fun n hn => by
    have := d.isLt
    unfold markP at hn
    split at hn
    · obtain rfl := List.mem_singleton.1 hn
      simp only [predName, namesOf, List.range_one, List.map_singleton, List.mem_singleton]
      omega
    · cases hn

theorem spanOf_le (wide : Bool) : spanOf wide ≤ 2 := by cases wide <;> decide

/-! ## What such a word issues, and what it leaves -/

/-- The act of a word that writes the containers of a claim, all under some names: nothing stands against it. -/
def LaneClaim.act (c : LaneClaim) (s : State) (k : Ctx) (names : List Nat) : Act :=
  { shape := { lits := c.lits, marks := without c.marks names, sweep := c.sweep }, eff := s.writeLanes k c.puts }

/-- An instruction writes containers as its claim says, under some names. -/
structure LaneForm (i : Instr) (k : Ctx) (c : LaneClaim) (names : List Nat) : Prop where
  issues : ∀ s, ∃ f, exec i s = s.issue f ∧ f s k = c.act s k names
  writes : Writes names c.puts

theorem Continues.mono {i : Instr} {s : State} {k : Ctx} {sweep : Bool} {pc : W64} {P Q : Team → Team → Prop}
    (h : Continues i s k sweep pc P) (hq : ∀ v, P k.team v → Q k.team v) : Continues i s k sweep pc Q := by
  obtain ⟨f, hx, hp⟩ := h
  exact ⟨f, hx, hq _ hp⟩

theorem LaneResult.mono {k : Ctx} {marks marks' : List Nat} {ws : List Put} {u v : Team} (h : LaneResult k marks ws u v)
    (hm : ∀ n ∈ marks, n ∈ marks') : LaneResult k marks' ws u v := by
  obtain ⟨hkept, hscalars, hlanes⟩ := h
  refine ⟨hkept, hscalars, fun name lane hl => ⟨(hlanes name lane hl).1, fun hw hn => (hlanes name lane hl).2 hw ?_⟩⟩
  exact hn.imp_left fun hn hmem => hn (hm name hmem)

/-- Where the chunks are to be had, such a word leaves its containers and frees no name that it writes. -/
theorem LaneForm.result {i : Instr} {s : State} {k : Ctx} {c : LaneClaim} {names : List Nat} (form : LaneForm i k c names)
    (h : s.ctx = some k) (ht : k.takes c.puts) :
    Continues i s k c.sweep (k.split.pc + BitVec.ofNat 64 (4 + 4 * c.lits)) (LaneResult k (without c.marks names) c.puts) := by
  obtain ⟨f, hx, ha⟩ := form.issues s
  have free : ∀ n ∈ without c.marks names, n ∈ without c.marks names ∧ ∀ w ∈ c.puts, w.name ≠ n := fun n hn =>
    ⟨hn, fun w hw e => (mem_without.1 hn).2 (e ▸ form.writes.name w hw)⟩
  exact continues_of_lanes (d := { lits := c.lits, marks := without c.marks names, sweep := c.sweep }) hx h
    (by rw [ha]; rfl) (by rw [ha]; rfl) rfl (by rw [ha]; rfl) ht free form.writes.lane form.writes.once

end Sys2Proof.Machine
end

section
/-! # Moves, logic, compares, conversions and permutes: the statement (R51, R145, R148 to R153, R158, R160, R173, R175 to
R189) -/

namespace Sys2Proof.Machine

/-! ## Words that write one register of the acting lanes -/

/-- A word that issues the write of one lane register has the form of its claim. -/
theorem laneForm_one {i : Instr} {k : Ctx} {c : LaneClaim} (d : VReg) {g : Nat → W32} (hp : c.puts = putLanes d k.acting g)
    (hi : ∀ s, ∃ f, exec i s = s.issue f ∧ f s k = c.act s k (namesOf d 1)) : LaneForm i k c (namesOf d 1) :=
  ⟨hi, hp ▸ putLanes_writes k.acting_sublist d g⟩

/-- A word on containers has the form of a claim with its marks and its results (R138). -/
theorem containerwise_form {i : Instr} {k : Ctx} {d : VReg} {a : VSrc} {b : Option VSrc} {f : (d a b : W32) → W32}
    {marks : List Nat} {g : Nat → W32} (hx : ∀ s, exec i s = containerwise d a b f s)
    (hm : marks = markV a 1 ++ (b.map fun r => markV r 1).getD [])
    (hg : ∀ l, g l = f (k.team.lane d l) (k.v a l) ((b.map fun r => k.v r l).getD 0)) :
    LaneForm i k { marks := marks, puts := putLanes d k.acting g } (namesOf d 1) := by
  obtain rfl := hm
  obtain rfl : g = _ := funext hg
  refine laneForm_one d rfl fun s => ⟨_, hx s, ?_⟩
  cases b <;> rfl

/-! ## Moves -/

theorem pairsOk_of_paired {k : Ctx} {rs : List VReg} (h : k.paired rs) : pairsOk (typeWide k.type) rs = true := by
  unfold pairsOk
  cases hw : typeWide k.type
  · rfl
  · simpa [evenReg] using h hw

/-- The address that `vlea` forms (R150). -/
theorem vlea_address (k : Ctx) (a b : VSrc) (l : Nat) :
    k.v2 a l + (if typeSigned k.type then (k.v b l).signExtend 64 else (k.v b l).setWidth 64) *
        BitVec.ofNat 64 (leaScale k.type) =
      mod64 ((k.v2 a l).toNat + (if k.signed then (k.v b l).toInt else (k.v b l).toNat) * (leaScale k.type : Int)) := by
  have index : (if typeSigned k.type then (k.v b l).signExtend 64 else (k.v b l).setWidth 64) =
      BitVec.ofInt 64 (if k.signed then (k.v b l).toInt else (k.v b l).toNat) := by
    unfold Ctx.signed
    split
    · rfl
    · rw [BitVec.ofInt_natCast, BitVec.ofNat_toNat]
  rw [index]
  simp only [mod64, BitVec.ofInt_add, BitVec.ofInt_mul, BitVec.ofInt_natCast, BitVec.ofNat_toNat, BitVec.setWidth_eq]

theorem moveClaim_form {i : Instr} {k : Ctx} {c : LaneClaim} (h : moveClaim i k = some c) (hm : c.may) :
    ∃ names, LaneForm i k c names := by
  unfold moveClaim at h
  dsimp only at h
  split at h
  case h_1 d a b =>
    cases h
    exact ⟨_, containerwise_form (fun s => .trans (b := execVand d a b s) rfl rfl) rfl fun _ => rfl⟩
  case h_2 d a b =>
    cases h
    exact ⟨_, containerwise_form (fun s => .trans (b := execVor d a b s) rfl rfl) rfl fun _ => rfl⟩
  case h_3 d a b =>
    cases h
    exact ⟨_, containerwise_form (fun s => .trans (b := execVxor d a b s) rfl rfl) rfl fun _ => rfl⟩
  case h_4 d a =>
    cases h
    exact ⟨_, containerwise_form (fun s => .trans (b := execVnot d a s) rfl rfl) (List.append_nil _).symm fun _ => rfl⟩
  case h_5 d a =>
    cases h
    exact ⟨_, containerwise_form (fun s => .trans (b := execVmov d a s) rfl rfl) (List.append_nil _).symm fun _ => rfl⟩
  case h_6 d lit =>
    cases h
    exact ⟨_, laneForm_one d rfl fun s => ⟨_, .trans (b := execVmovl d lit s) rfl rfl, rfl⟩⟩
  case h_7 d a b =>
    cases h
    refine ⟨_, laneForm_one d rfl fun s => ⟨_, .trans (b := execVsel d a b s) rfl rfl, ?_⟩⟩
    simp only [LaneClaim.act, without_append, without_markP]
  case h_8 d a b =>
    cases h
    refine ⟨_, laneForm_one d rfl fun s => ⟨_, .trans (b := execVbfe d a b s) rfl rfl, ?_⟩⟩
    simp only [show typeInteger k.type = true from hm]
    rfl
  case h_9 d a b =>
    cases h
    exact ⟨_, containerwise_form (fun s => .trans (b := execVbfi d a b s) rfl rfl) rfl fun _ => rfl⟩
  case h_10 d a =>
    cases h
    obtain ⟨ht, hp⟩ := hm
    have value : (putOperand (typeWide k.type) d k.acting fun _ => (k.s a).toNat) =
        if typeWide k.type then putPairs d k.acting fun _ => k.s a else putLanes d k.acting fun _ => (k.s a).setWidth 32 := by
      simp only [putOperand, BitVec.ofNat_toNat, BitVec.setWidth_eq]
    refine ⟨k.covers d, fun s => ⟨_, .trans (b := execVbcast d a s) rfl rfl, ?_⟩, ?_⟩
    · simp only [pairsOk_of_paired hp, decide_eq_true ht, value]
      rfl
    · exact value ▸ putOperand_writes k.acting_sublist _ d _
  case h_11 d a b =>
    cases h
    obtain ⟨ht, hd, ha⟩ := hm
    refine ⟨namesOf d 2, fun s => ⟨_, .trans (b := execVlea d a b s) rfl rfl, ?_⟩, putPairs_writes k.acting_sublist d _⟩
    have hl : Instr.wf (.vlea d a b) = true := by simp [Instr.wf, evenReg, hd, ha]
    simp only [hl, decide_eq_true ht, vlea_address]
    rfl
  case h_12 d a b =>
    cases h
    exact ⟨_, laneForm_one d rfl fun s => ⟨_, .trans (b := execVshuf d a b s) rfl rfl, rfl⟩⟩
  case h_13 d a b =>
    cases h
    exact ⟨_, laneForm_one d rfl fun s => ⟨_, .trans (b := execVxfer d a b s) rfl rfl, rfl⟩⟩
  case h_14 d code =>
    cases h
    refine ⟨_, laneForm_one d rfl fun s => ⟨_, .trans (b := execVidr d code s) rfl rfl, ?_⟩⟩
    have hl : Instr.wf (.vidr d code) = true := decide_eq_true hm
    simp only [hl]
    rfl
  case h_15 => cases h

/-! ## Predicates -/

/-- The value of a 64-bit scalar under TYPE (R158). -/
theorem valueOf_scalar (signed : Bool) (x : W64) : valueOf signed 64 x.toNat = if signed then x.toInt else (x.toNat : Int) := by
  have := x.isLt
  cases signed
  · simp only [valueOf, Bool.false_eq_true, if_false, Nat.mod_eq_of_lt this]
  · simp only [valueOf, signedOf, if_true, Nat.mod_eq_of_lt this, BitVec.toInt]
    omega

/-- A floating-point type fills no pair, so a container holds all its elements (R167). -/
theorem elementCount_float {t : Nat} (h : floatClass t = true) : elementCount t = 32 / typeWidth t := by
  simp only [floatClass, Bool.or_eq_true, decide_eq_true_eq] at h
  obtain (rfl | rfl) | rfl := h <;> rfl

/-- A word that issues the write of one predicate has the form of its claim. -/
theorem laneForm_pred {i : Instr} {k : Ctx} {c : LaneClaim} (p : PReg) {ls : List Nat} (hls : ls.Sublist k.lanes)
    {g : Nat → Bool} (hp : c.puts = putPreds p ls g)
    (hi : ∀ s, ∃ f, exec i s = s.issue f ∧ f s k = c.act s k [predName p]) : LaneForm i k c [predName p] :=
  ⟨hi, hp ▸ putPreds_writes hls p g⟩

/-- Predicate logic (R160). -/
theorem predOp_form {i : Instr} {k : Ctx} {d : PReg} {a b : PSrc} {f : Bool → Bool → Bool} {g : Nat → Bool}
    (hx : ∀ s, exec i s = predOp d a b f s) (hg : ∀ l, g l = f (k.p a l) (k.p b l)) :
    LaneForm i k { marks := markP a ++ markP b, puts := putPreds d k.acting g } [predName d] := by
  obtain rfl : g = _ := funext hg
  exact laneForm_pred d k.acting_sublist rfl fun s => ⟨_, hx s, rfl⟩

theorem predicateClaim_form {i : Instr} {k : Ctx} {c : LaneClaim} (h : predicateClaim i k = some c) (hm : c.may) :
    ∃ names, LaneForm i k c names := by
  unfold predicateClaim at h
  split at h
  case h_1 d a b =>
    cases h
    obtain ⟨ht, hp⟩ := hm
    refine ⟨_, laneForm_pred d k.acting_sublist rfl fun s => ⟨_, .trans (b := execVcmp d a b s) rfl rfl, ?_⟩⟩
    simp only [LaneClaim.act, pairsOk_of_paired hp, ht, without_append, without_markV _ (spanOf_le _)]
    rfl
  case h_2 d a b =>
    cases h
    refine ⟨_, laneForm_pred d k.acting_sublist rfl fun s => ⟨_, .trans (b := execFcmp d a b s) rfl rfl, ?_⟩⟩
    simp only [LaneClaim.act, compareFloats, elementCount_float hm, without_append, without_markV _ (by decide : 1 ≤ 2)]
    simp only [show floatClass k.type = true from hm]
    rfl
  case h_3 d a b =>
    cases h
    refine ⟨_, laneForm_pred d (List.Sublist.refl _) rfl fun s => ⟨_, .trans (b := execScmp d a b s) rfl rfl, ?_⟩⟩
    simp only [LaneClaim.act, valueOf_scalar, Ctx.signed]
    simp only [show typeInteger k.type = true from hm]
    rfl
  case h_4 d a b =>
    cases h
    exact ⟨_, predOp_form (fun s => .trans (b := execPand d a b s) rfl rfl) fun _ => rfl⟩
  case h_5 d a b =>
    cases h
    exact ⟨_, predOp_form (fun s => .trans (b := execPor d a b s) rfl rfl) fun _ => rfl⟩
  case h_6 d a b =>
    cases h
    exact ⟨_, predOp_form (fun s => .trans (b := execPxor d a b s) rfl rfl) fun _ => rfl⟩
  case h_7 => cases h

/-! ## Conversions, block scales and bit planes -/

theorem groupOk_of_mod {r : VReg} {n : Nat} (h : r.toNat % n = 0) : groupOk r n = true := decide_eq_true h

/-- A conversion of groups under types and names that it accepts has the form of its claim (R175). -/
theorem converting_form {i : Instr} {k : Ctx} {d : VReg} {a : VSrc} {b : Option VSrc} {accepts : (src dst : Nat) → Bool}
    {f : (src dst rnd : Nat) → (sat : Bool) → (scales e v : Nat) → Nat} {marks : List Nat} {ok : Bool}
    {g : (scale : Nat → Nat) → (lane e v : Nat) → Nat} {scale : Nat → Nat}
    (hx : ∀ s, exec i s = converting d a b accepts f s) (hm : (k.converted d a marks ok g scale).may)
    (hok : ok = accepts (modeSrc k.split.mr) k.type) (hmarks : marks = (b.map fun r => markV r 1).getD [])
    (hg : ∀ l e v, g scale l e v = f (modeSrc k.split.mr) k.type (modeRnd k.split.mr) (modeSat k.split.mr)
      ((b.map fun r => (k.v r l).toNat).getD 0) e v) :
    ∃ names, LaneForm i k (k.converted d a marks ok g scale) names := by
  obtain ⟨hacc, hd, ha⟩ := hm
  obtain rfl := hmarks
  refine ⟨_, fun s => ⟨_, hx s, ?_⟩, putGroup_writes k.acting_sublist d _ _⟩
  simp only [← hok, hacc, groupOk_of_mod hd, groupOk_of_mod ha, Ctx.converted, LaneClaim.act, hg]
  cases b <;> rfl

theorem convertClaim_form {i : Instr} {k : Ctx} {c : LaneClaim} (h : convertClaim i k = some c) (hm : c.may) :
    ∃ names, LaneForm i k c names := by
  unfold convertClaim at h
  dsimp only at h
  split at h
  case h_1 d a =>
    cases h
    exact converting_form (fun s => .trans (b := execCvt d a s) rfl rfl) hm rfl rfl fun _ _ _ => rfl
  case h_2 d a b =>
    cases h
    exact converting_form (fun s => .trans (b := execCvtsc d a b s) rfl rfl) hm rfl rfl fun _ _ _ => rfl
  case h_3 d a b =>
    cases h
    exact converting_form (fun s => .trans (b := execCvtus d a b s) rfl rfl) hm rfl rfl fun _ _ _ => rfl
  case h_4 d a =>
    cases h
    refine ⟨_, laneForm_one d rfl fun s => ⟨_, .trans (b := execVamax d a s) rfl rfl, ?_⟩⟩
    simp only [show floatClass k.type = true from hm]
    rfl
  case h_5 d a =>
    cases h
    obtain ⟨ht, hs⟩ := hm
    refine ⟨_, laneForm_one d rfl fun s => ⟨_, .trans (b := execScexp d a s) rfl rfl, ?_⟩⟩
    simp only [ht, hs]
    rfl
  case h_6 d a b =>
    cases h
    exact ⟨_, laneForm_one d rfl fun s => ⟨_, .trans (b := execScpack d a b s) rfl rfl, rfl⟩⟩
  case h_7 d a b =>
    cases h
    exact ⟨_, laneForm_one d rfl fun s => ⟨_, .trans (b := execScunpk d a b s) rfl rfl, rfl⟩⟩
  case h_8 d a =>
    cases h
    exact ⟨_, laneForm_one d rfl fun s => ⟨_, .trans (b := execBppack d a s) rfl rfl, rfl⟩⟩
  case h_9 d a =>
    cases h
    obtain ⟨h2, h8⟩ := hm
    refine ⟨_, laneForm_one d rfl fun s => ⟨_, .trans (b := execBpunpk d a s) rfl rfl, ?_⟩⟩
    simp only [decide_eq_true h2, decide_eq_true h8]
    rfl
  case h_10 => cases h

/-! ## The statement -/

/-- Settles O19: each claim gives the form of its words, and a word of that form leaves the containers of its claim. -/
theorem laneResults : Obligations.LaneResults := by
  unfold Obligations.LaneResults
  intro i s k c h hc hm ht
  have form : ∃ names, LaneForm i k c names := by
    rcases hc with hc | hc | hc
    · exact moveClaim_form hc hm
    · exact predicateClaim_form hc hm
    · exact convertClaim_form hc hm
  obtain ⟨names, form⟩ := form
  exact (form.result h ht).mono fun v hv => hv.mono fun n hn => (mem_without.1 hn).1

end Sys2Proof.Machine
end

section
/-! # Integer element instructions: the statement (R139 to R147) -/

namespace Sys2Proof.Machine

/-! ## Patterns and their values (R139) -/

theorem patternOf_lt (w : Nat) (t : Int) : patternOf w t < 2 ^ w := by
  have hp : (0 : Int) < (2 ^ w : Nat) := Int.natCast_pos.2 (Nat.two_pow_pos w)
  have h0 := Int.emod_nonneg t (Int.ne_of_gt hp)
  have h1 := Int.emod_lt_of_pos t hp
  unfold patternOf
  omega

@[simp] theorem patternOf_mod (w : Nat) (t : Int) : patternOf w t % 2 ^ w = patternOf w t :=
  Nat.mod_eq_of_lt (patternOf_lt w t)

@[simp] theorem narrow_mod (sat signed : Bool) (w : Nat) (t : Int) : narrow sat signed w t % 2 ^ w = narrow sat signed w t :=
  patternOf_mod w _

/-- A pattern is that of its own value, signed or not. -/
theorem patternOf_valueOf (signed : Bool) {w v : Nat} (hv : v < 2 ^ w) : patternOf w (valueOf signed w v) = v := by
  have unsigned : ((v : Int) % (2 ^ w : Nat)).toNat = v := by
    rw [← Int.natCast_emod, Int.toNat_natCast, Nat.mod_eq_of_lt hv]
  simp only [patternOf, valueOf, signedOf, Nat.mod_eq_of_lt hv]
  split
  · split
    · exact unsigned
    · rw [Int.sub_emod_right]
      exact unsigned
  · exact unsigned

theorem patternOf_min (signed : Bool) {w x y : Nat} (hx : x < 2 ^ w) (hy : y < 2 ^ w) :
    patternOf w (min (valueOf signed w x) (valueOf signed w y)) = if valueOf signed w x ≤ valueOf signed w y then x else y := by
  rw [Int.min_def]
  split
  · exact patternOf_valueOf signed hx
  · exact patternOf_valueOf signed hy

theorem patternOf_max (signed : Bool) {w x y : Nat} (hx : x < 2 ^ w) (hy : y < 2 ^ w) :
    patternOf w (max (valueOf signed w x) (valueOf signed w y)) = if valueOf signed w x ≤ valueOf signed w y then y else x := by
  rw [Int.max_def]
  split
  · exact patternOf_valueOf signed hy
  · exact patternOf_valueOf signed hx

/-! ## Counts (R147) -/

theorem popCount_eq (v w : Nat) : popCount v w = ((List.range w).filter fun j => v.testBit j).length := by
  unfold popCount
  rw [total_eq_sum]
  induction List.range w with
  | nil => rfl
  | cons j l ih =>
    rw [List.map_cons, List.sum_cons, ih, List.filter_cons, Nat.testBit_eq_decide_div_mod_eq]
    rcases Nat.mod_two_eq_zero_or_one (v / 2 ^ j) with h | h
    · simp [h]
    · simp [h, Nat.add_comm]

theorem popCount_lt (v w : Nat) : popCount v w < 2 ^ w := by
  have hle := List.length_filter_le (fun j => v.testBit j) (List.range w)
  rw [List.length_range] at hle
  rw [popCount_eq]
  exact Nat.lt_of_le_of_lt hle Nat.lt_two_pow_self

theorem leadingZeros_eq {v w : Nat} (hv : v < 2 ^ w) : leadingZeros v w = if v = 0 then w else w - 1 - Nat.log2 v := by
  induction w with
  | zero =>
    obtain rfl : v = 0 := by simpa using hv
    rfl
  | succ w ih =>
    unfold leadingZeros
    by_cases hlow : v < 2 ^ w
    · have htop : v / 2 ^ w % 2 = 0 := by rw [Nat.div_eq_of_lt hlow]
      rw [if_neg (by omega), ih hlow]
      by_cases h0 : v = 0
      · rw [if_pos h0, if_pos h0]
        omega
      · have := (Nat.log2_lt h0).2 hlow
        rw [if_neg h0, if_neg h0]
        omega
    · have hle := Nat.not_lt.1 hlow
      have h0 : v ≠ 0 := Nat.ne_of_gt (Nat.lt_of_lt_of_le (Nat.two_pow_pos w) hle)
      have hlog : Nat.log2 v = w := (Nat.log2_eq_iff h0).2 ⟨hle, hv⟩
      have htop : v / 2 ^ w = 1 := Nat.div_eq_of_lt_le (by omega) (by omega)
      rw [htop, if_pos rfl, if_neg h0, hlog]
      omega

theorem leadingZeros_lt {v w : Nat} (hv : v < 2 ^ w) : leadingZeros v w < 2 ^ w := by
  have hw : w < 2 ^ w := Nat.lt_two_pow_self
  rw [leadingZeros_eq hv]
  split <;> omega

/-! ## Elements of a container (R139) -/

theorem element_lt (w v e : Nat) : element w v e < 2 ^ w := Nat.mod_lt _ (Nat.two_pow_pos w)

theorem fromElements_lt (w : Nat) (g : Nat → Nat) (n : Nat) : fromElements w g n < 2 ^ (w * n) := by
  induction n with
  | zero => simp [fromElements]
  | succ n ih =>
    have hg : g n % 2 ^ w + 1 ≤ 2 ^ w := Nat.mod_lt _ (Nat.two_pow_pos w)
    calc fromElements w g n + g n % 2 ^ w * 2 ^ (w * n)
      _ < 2 ^ (w * n) + g n % 2 ^ w * 2 ^ (w * n) := Nat.add_lt_add_right ih _
      _ = (g n % 2 ^ w + 1) * 2 ^ (w * n) := by rw [Nat.succ_mul, Nat.add_comm]
      _ ≤ 2 ^ w * 2 ^ (w * n) := Nat.mul_le_mul_right _ hg
      _ = 2 ^ (w * (n + 1)) := by rw [← Nat.pow_add, Nat.mul_succ, Nat.add_comm]

/-- A container made of elements holds each of them. -/
theorem element_fromElements (w : Nat) (g : Nat → Nat) {n e : Nat} (he : e < n) :
    element w (fromElements w g n) e = g e % 2 ^ w := by
  induction n with
  | zero => omega
  | succ n ih =>
    unfold fromElements
    rcases Nat.lt_succ_iff_lt_or_eq.1 he with hlt | rfl
    · have hsplit : 2 ^ (w * n) = 2 ^ (w * (n - e - 1)) * 2 ^ w * 2 ^ (w * e) := by
        have hn : n = n - e - 1 + 1 + e := by omega
        rw [← Nat.pow_add, ← Nat.pow_add, ← Nat.mul_succ, ← Nat.mul_add, ← hn]
      rw [← ih hlt]
      unfold element
      rw [hsplit, ← Nat.mul_assoc, Nat.add_mul_div_right _ _ (Nat.two_pow_pos _), ← Nat.mul_assoc, Nat.add_mul_mod_self_right]
    · unfold element
      rw [Nat.add_mul_div_right _ _ (Nat.two_pow_pos _), Nat.div_eq_of_lt (fromElements_lt w g e), Nat.zero_add, Nat.mod_mod]

/-- The elements of an integer type fill a container, or a pair under a 64-bit type. -/
theorem width_mul_elementCount {t : Nat} (h : typeInteger t = true) :
    typeWidth t * elementCount t = if typeWide t then 64 else 32 := by
  have bound : t < 13 := by
    have : t ≤ 5 ∨ t = 11 ∨ t = 12 := by simpa [typeInteger, or_assoc] using h
    omega
  have each : ∀ t < 13, typeInteger t = true → typeWidth t * elementCount t = if typeWide t then 64 else 32 := by decide
  exact each t bound h

/-! ## What the operands hold once they are written -/

/-- The operand of a register of a team: a container, or a pair under a 64-bit type (R139). -/
def Team.operand (t : Team) (wide : Bool) (r : VReg) (l : Nat) : Nat :=
  if wide then (t.pair r l).toNat else (t.lane r l).toNat

theorem writtenTo_mem {ws : List Put} (hd : ws.Pairwise fun a b => ¬ (a.name = b.name ∧ a.lane = b.lane)) {w : Put}
    (hw : w ∈ ws) : writtenTo ws w.name w.lane = some w.value := by
  induction ws with
  | nil => cases hw
  | cons v ws ih =>
    rw [List.pairwise_cons] at hd
    rcases List.mem_cons.1 hw with rfl | hw
    · simp [writtenTo]
    · have hne : ¬ (v.name = w.name ∧ v.lane = w.lane) := hd.1 w hw
      simpa [writtenTo, List.find?_cons, hne] using ih hd.2 hw

theorem Ctx.operand_eq (k : Ctx) (wide : Bool) (r : VReg) (l : Nat) : k.operand wide r l = k.team.operand wide r l := rfl

/-- What is written stands in its container. -/
theorem LaneResult.holds {k : Ctx} {names marks : List Nat} {ws : List Put} {u v : Team} (h : LaneResult k marks ws u v)
    (hw : Writes names ws) {w : Put} (hm : w ∈ ws) : v.container w.name w.lane = w.value := by
  obtain ⟨-, -, containers⟩ := h
  exact (containers w.name w.lane (hw.lane w hm)).1 _ (writtenTo_mem hw.once hm)

/-- An operand written in some lanes holds there what fits it. -/
theorem LaneResult.operand {k : Ctx} {marks : List Nat} {wide : Bool} {d : VReg} {f : Nat → Nat} {u v : Team}
    (h : LaneResult k marks (putOperand wide d k.acting f) u v) {l : Nat} (hl : l ∈ k.acting) :
    v.operand wide d l = f l % 2 ^ (if wide then 64 else 32) := by
  have hw := putOperand_writes k.acting_sublist wide d f
  cases wide
  case false =>
    have low : v.container d.toNat l = BitVec.ofNat 32 (f l) := h.holds hw (List.mem_map.2 ⟨l, hl, rfl⟩)
    simp [Team.operand, Team.lane, low]
  case true =>
    have low : v.container d.toNat l = (BitVec.ofNat 64 (f l)).setWidth 32 :=
      h.holds hw (List.mem_flatMap.2 ⟨l, hl, List.mem_cons_self⟩)
    have high : v.container (d.toNat + 1) l = (BitVec.ofNat 64 (f l)).extractLsb' 32 32 :=
      h.holds hw (List.mem_flatMap.2 ⟨l, hl, List.mem_cons_of_mem _ List.mem_cons_self⟩)
    have whole : v.pair d l = BitVec.ofNat 64 (f l) := by
      rw [Team.pair, low, high, BitVec.setWidth_eq_extractLsb' (by decide),
        BitVec.extractLsb'_append_extractLsb'_eq_extractLsb' (by decide)]
      simp
    simp [Team.operand, whole]

theorem putOperand_lane {wide : Bool} {d : VReg} {ls : List Nat} {f : Nat → Nat} :
    ∀ w ∈ putOperand wide d ls f, w.lane ∈ ls := by
  cases wide
  · simp +contextual [putOperand, putLanes]
  · simp +contextual [putOperand, putPairs, or_imp]

/-- The chunks of a write depend on where it writes alone. -/
theorem chunksOf_congr {ws ws' : List Put}
    (h : (ws.map fun w => (w.name, w.lane)) = ws'.map fun w => (w.name, w.lane)) : chunksOf ws = chunksOf ws' := by
  have places : ∀ us : List Put, chunksOf us = (List.range 32).flatMap fun w =>
      (((us.map fun u => (u.name, u.lane)).filter fun x => x.2 / 32 = w).map fun x => 32 * x.1 + w).eraseDups := fun us => by
    simp only [chunksOf, List.filter_map, List.map_map]
    rfl
  rw [places, places, h]

theorem chunksOf_putOperand (wide : Bool) (d : VReg) (ls : List Nat) (f g : Nat → Nat) :
    chunksOf (putOperand wide d ls f) = chunksOf (putOperand wide d ls g) := by
  refine chunksOf_congr ?_
  cases wide
  · simp [putOperand, putLanes]
  · simp [putOperand, putPairs, List.map_flatMap]

/-! ## What an element operation issues -/

/-- The operand of a lane that an element operation makes of its elements. -/
def Ctx.elements (k : Ctx) (d : VReg) (a : VSrc) (b : Option VSrc)
    (g : (t w : Nat) → (sat : Bool) → (d a b : Nat) → Nat) (l : Nat) : Nat :=
  let get (r : VReg) (e : Nat) : Nat := element k.width (k.operand (typeWide k.type) r l) e
  fromElements k.width (fun e => g k.type k.width (modeSat k.split.mr) (get d e) (get a.reg e)
    ((b.map fun r => get r.reg e).getD 0)) (elementCount k.type)

/-- The containers of an element operation. -/
def Ctx.elementWrites (k : Ctx) (d : VReg) (a : VSrc) (b : Option VSrc)
    (g : (t w : Nat) → (sat : Bool) → (d a b : Nat) → Nat) : LaneClaim :=
  { marks := markV a (spanOf (typeWide k.type)) ++ (b.map fun r => markV r (spanOf (typeWide k.type))).getD []
    puts := putOperand (typeWide k.type) d k.acting (k.elements d a b g) }

theorem elementwise_form {i : Instr} {k : Ctx} {d : VReg} {a : VSrc} {b : Option VSrc}
    {g : (t w : Nat) → (sat : Bool) → (d a b : Nat) → Nat} (hx : ∀ s, exec i s = elementwise d a b g s)
    (ht : typeInteger k.type = true) (hp : k.paired (d :: a.reg :: (b.map fun r => r.reg).toList)) :
    LaneForm i k (k.elementWrites d a b g) (k.covers d) := by
  refine ⟨fun s => ⟨_, hx s, ?_⟩, putOperand_writes k.acting_sublist _ d _⟩
  simp only [pairsOk_of_paired hp, ht]
  cases b with
  | some r => rfl
  | none =>
    have zero : ∀ e, element (typeWidth k.type) 0 e = 0 := fun e => by simp [element]
    simp only [zero]
    rfl

/-- An element of what such an operation makes of a lane. -/
theorem Ctx.element_elements {k : Ctx} (d : VReg) (a : VSrc) (b : Option VSrc)
    (g : (t w : Nat) → (sat : Bool) → (d a b : Nat) → Nat) (ht : typeInteger k.type = true) (l : Nat) {e : Nat}
    (he : e < elementCount k.type) :
    element k.width (k.elements d a b g l % 2 ^ (if typeWide k.type then 64 else 32)) e =
      let get (r : VReg) : Nat := element k.width (k.team.operand (typeWide k.type) r l) e
      g k.type k.width (modeSat k.split.mr) (get d) (get a.reg) ((b.map fun r => get r.reg).getD 0) % 2 ^ k.width := by
  have hlt : k.elements d a b g l < 2 ^ (k.width * elementCount k.type) := fromElements_lt _ _ _
  simp only [← width_mul_elementCount ht, ← Ctx.operand_eq]
  rw [show typeWidth k.type = k.width from rfl, Nat.mod_eq_of_lt hlt]
  exact element_fromElements _ _ he

/-- Every instruction of the claim is an element operation whose result, as a pattern, is that of the claim. -/
theorem elementClaim_elementwise {i : Instr} {k : Ctx} {d : VReg} {a : VSrc} {b : Option VSrc} {f : (d a b : Nat) → Nat}
    (h : elementClaim i k = some (d, a, b, f)) :
    ∃ g, (∀ s, exec i s = elementwise d a b g s) ∧ ∀ z x y, x < 2 ^ k.width → y < 2 ^ k.width →
      g k.type k.width (modeSat k.split.mr) z x y % 2 ^ k.width = f z x y := by
  unfold elementClaim at h
  dsimp only at h
  split at h
  case h_1 d a b =>
    cases h
    exact ⟨_, fun s => .trans (b := execVadd d a b s) rfl rfl, fun z x y _ _ => narrow_mod _ _ _ _⟩
  case h_2 d a b =>
    cases h
    exact ⟨_, fun s => .trans (b := execVsub d a b s) rfl rfl, fun z x y _ _ => narrow_mod _ _ _ _⟩
  case h_3 d a b =>
    cases h
    exact ⟨_, fun s => .trans (b := execVmul d a b s) rfl rfl, fun z x y _ _ => narrow_mod _ _ _ _⟩
  case h_4 d a b =>
    cases h
    exact ⟨_, fun s => .trans (b := execVmad d a b s) rfl rfl, fun z x y _ _ => narrow_mod _ _ _ _⟩
  case h_5 d a b =>
    cases h
    refine ⟨_, fun s => .trans (b := execVmulh d a b s) rfl rfl, fun z x y _ _ => ?_⟩
    rw [patternOf_mod, Int.fdiv_eq_ediv_of_nonneg _ (Int.natCast_nonneg _)]
    rfl
  case h_6 d a b =>
    cases h
    refine ⟨_, fun s => .trans (b := execVdiv d a b s) rfl rfl, fun z x y _ _ => ?_⟩
    simp only [divide]
    split
    · exact Nat.mod_eq_of_lt (Nat.sub_one_lt (Nat.ne_of_gt (Nat.two_pow_pos _)))
    · exact narrow_mod _ _ _ _
  case h_7 d a b =>
    cases h
    refine ⟨_, fun s => .trans (b := execVrem d a b s) rfl rfl, fun z x y hx _ => ?_⟩
    simp only [remainder]
    split
    · exact Nat.mod_eq_of_lt hx
    · exact patternOf_mod _ _
  case h_8 d a b =>
    cases h
    refine ⟨_, fun s => .trans (b := execVmin d a b s) rfl rfl, fun z x y hx hy => (narrow_mod _ _ _ _).trans ?_⟩
    exact patternOf_min k.signed hx hy
  case h_9 d a b =>
    cases h
    refine ⟨_, fun s => .trans (b := execVmax d a b s) rfl rfl, fun z x y hx hy => (narrow_mod _ _ _ _).trans ?_⟩
    exact patternOf_max k.signed hx hy
  case h_10 d a =>
    cases h
    refine ⟨_, fun s => .trans (b := execVabs d a s) rfl rfl, fun z x y _ _ => (narrow_mod _ _ _ _).trans ?_⟩
    have abs : ∀ t : Int, (if t < 0 then -t else t) = t.natAbs := fun t => by omega
    exact congrArg k.fit (abs _)
  case h_11 d a =>
    cases h
    exact ⟨_, fun s => .trans (b := execVneg d a s) rfl rfl, fun z x y _ _ => narrow_mod _ _ _ _⟩
  case h_12 d a b =>
    cases h
    exact ⟨_, fun s => .trans (b := execVshl d a b s) rfl rfl, fun z x y _ _ => narrow_mod _ _ _ _⟩
  case h_13 d a b =>
    cases h
    refine ⟨_, fun s => .trans (b := execVshr d a b s) rfl rfl, fun z x y _ _ => ?_⟩
    rw [patternOf_mod, Int.fdiv_eq_ediv_of_nonneg _ (Int.natCast_nonneg _)]
    rfl
  case h_14 d a b =>
    cases h
    exact ⟨_, fun s => .trans (b := execVrot d a b s) rfl rfl, fun z x y _ _ => Nat.mod_add_mod _ _ _⟩
  case h_15 d a =>
    cases h
    refine ⟨_, fun s => .trans (b := execVpop d a s) rfl rfl, fun z x y _ _ => ?_⟩
    rw [Nat.mod_eq_of_lt (popCount_lt _ _), popCount_eq]
  case h_16 d a =>
    cases h
    refine ⟨_, fun s => .trans (b := execVclz d a s) rfl rfl, fun z x y hx _ => ?_⟩
    rw [Nat.mod_eq_of_lt (leadingZeros_lt hx), leadingZeros_eq hx]
  case h_17 => cases h

/-! ## The statement -/

theorem mem_covers_of_mark {k : Ctx} {r : VSrc} {n : Nat} (h : n ∈ markV r (spanOf (typeWide k.type))) :
    r.last ∧ n ∈ k.covers r.reg := by
  unfold markV at h
  split at h
  · exact ⟨‹_›, h⟩
  · cases h

/-- A name that an element operation frees is marked in one of its sources. -/
theorem Ctx.mem_elementWrites_marks {k : Ctx} {d : VReg} {a : VSrc} {b : Option VSrc}
    {g : (t w : Nat) → (sat : Bool) → (d a b : Nat) → Nat} {n : Nat} (h : n ∈ (k.elementWrites d a b g).marks) :
    (a.last ∧ n ∈ k.covers a.reg) ∨ ∃ r, b = some r ∧ r.last ∧ n ∈ k.covers r.reg := by
  rcases List.mem_append.1 h with h | h
  · exact .inl (mem_covers_of_mark h)
  · cases b with
    | none => cases h
    | some r => exact .inr ⟨r, rfl, mem_covers_of_mark h⟩

/-- Settles O18: an element operation writes the operand that its elements make, and each of them is what the claim says. -/
theorem elementResults : Obligations.ElementResults := by
  unfold Obligations.ElementResults
  intro i s k d a b f h hc ht hp hk
  obtain ⟨g, hx, hf⟩ := elementClaim_elementwise hc
  have form := elementwise_form hx ht hp
  have takes : k.takes (k.elementWrites d a b g).puts := by
    unfold Ctx.takes at hk ⊢
    rwa [Ctx.elementWrites, chunksOf_putOperand _ d k.acting _ fun _ => 0]
  refine (form.result h takes).mono fun v hv => ?_
  have ⟨kept, scalars, containers⟩ := hv
  refine ⟨?kept, scalars, fun l hl e he => ?value, fun name lane hlane hout hn => ?frame⟩
  case kept =>
    rwa [chunksOf_putOperand _ d k.acting _ (k.elements d a b g)]
  case value =>
    have bound : ((b.map fun r => element k.width (k.team.operand (typeWide k.type) r.reg l) e).getD 0) < 2 ^ k.width := by
      cases b
      · exact Nat.two_pow_pos _
      · exact element_lt _ _ _
    calc element k.width (v.operand (typeWide k.type) d l) e
      _ = element k.width (k.elements d a b g l % 2 ^ (if typeWide k.type then 64 else 32)) e := by rw [hv.operand hl]
      _ = _ := k.element_elements d a b g ht l he
      _ = _ := hf _ _ _ (element_lt _ _ _) bound
      _ = _ := by cases b <;> rfl
  case frame =>
    have unwritten : writtenTo (k.elementWrites d a b g).puts name lane = none := by
      refine Option.eq_none_iff_forall_ne_some.2 fun x hw => ?_
      obtain ⟨w, hm, rfl, rfl, -⟩ := writtenTo_some hw
      exact hout ⟨form.writes.name w hm, putOperand_lane w hm⟩
    refine (containers name lane hlane).2 unwritten (.inl fun hfreed => ?_)
    obtain ⟨hmark, hd⟩ := mem_without.1 hfreed
    obtain ⟨ha, hb⟩ := hn.resolve_left hd
    rcases Ctx.mem_elementWrites_marks hmark with ⟨hlast, hmem⟩ | ⟨r, hr, hlast, hmem⟩
    · exact ha hlast hmem
    · exact hb r hr hlast hmem

end Sys2Proof.Machine
end

section
/-! # Floating-point instructions: the statement (R167, R170 to R174) -/

namespace Sys2Proof.Machine

/-- The containers of a floating-point instruction (R167). -/
def Ctx.floatWrites (k : Ctx) (d : VReg) (a : VSrc) (b : Option VSrc) (f : (m : Fmt) → (rnd d a b : Nat) → Nat) :
    LaneClaim :=
  let elem (r : VReg) (l e : Nat) : Nat := element k.width (k.team.lane r l).toNat e
  { marks := markV a 1 ++ (b.map fun r => markV r 1).getD []
    puts := putLanes d k.acting fun l => BitVec.ofNat 32 (fromElements k.width
      (fun e => f (fmtOf k.type) (modeRnd k.split.mr) (elem d l e) (elem a.reg l e) ((b.map fun r => elem r.reg l e).getD 0))
      (32 / k.width)) }

theorem element_zero (w e : Nat) : element w 0 e = 0 := by simp [element]

theorem floatwise_form {i : Instr} {k : Ctx} {d : VReg} {a : VSrc} {b : Option VSrc}
    {f : (m : Fmt) → (rnd d a b : Nat) → Nat} (hx : ∀ s, exec i s = floatwise d a b f s) (ht : floatClass k.type = true) :
    LaneForm i k (k.floatWrites d a b f) (namesOf d 1) := by
  refine laneForm_one d rfl fun s => ⟨_, hx s, ?_⟩
  simp only [ht]
  cases b with
  | some r => rfl
  | none =>
    simp only [element_zero]
    rfl

/-- Every row of the claim is a floating-point instruction of its own function, by the definition of its meaning. -/
theorem floatClaim_floatwise {i : Instr} {d : VReg} {a : VSrc} {b : Option VSrc} {f : (m : Fmt) → (rnd d a b : Nat) → Nat}
    (h : floatClaim i = some (d, a, b, f)) : ∀ s, exec i s = floatwise d a b f s := by
  unfold floatClaim at h
  dsimp only at h
  split at h
  case h_16 => cases h
  all_goals
    cases h
    exact fun _ => rfl

/-- Settles O20: each row of the claim issues the write of the containers that its elements make. -/
theorem floatResults : Obligations.FloatResults := by
  unfold Obligations.FloatResults
  intro i s k d a b f h hc ht elem vb ws hk
  have second : vb = fun l e => (b.map fun r => elem r.reg l e).getD 0 := by
    funext l e
    cases b <;> rfl
  have containers : (k.floatWrites d a b f).puts = ws := by
    simp only [ws, second]
    rfl
  have form := floatwise_form (floatClaim_floatwise hc) ht
  rw [← containers] at hk ⊢
  exact (form.result h hk).mono fun v hv => hv.mono fun n hn => (mem_without.1 hn).1

end Sys2Proof.Machine
end

section
/-! # Residue instructions: the statement (R181, R190, R191) -/

namespace Sys2Proof.Machine

/-! ## Pairs as numbers, and moduli -/

theorem fromElements_pair (k : Ctx) (name l : Nat) :
    fromElements 32 (fun j => (k.team.container (name + j) l).toNat) 2 = k.num2 name l := by
  simp [fromElements, Ctx.num2, Nat.mod_eq_of_lt (BitVec.isLt _), Nat.mul_comm]

theorem pair_toNat (k : Ctx) (r : VReg) (l : Nat) : (k.team.pair r l).toNat = k.num2 r.toNat l := by
  rw [Team.pair, BitVec.toNat_append, ← Nat.shiftLeft_add_eq_or_of_lt (BitVec.isLt _), Nat.shiftLeft_eq, Ctx.num2,
    Nat.mul_comm, Nat.add_comm]

theorem modulusOk_iff {q : Nat} : modulusOk q = true ↔ q % 2 = 1 ∧ 3 ≤ q ∧ q < 2 ^ 62 := by
  simp [modulusOk, and_assoc]

/-- The residue under a good modulus fits a pair (R181). -/
theorem residue_lt {q : Nat} (hq : modulusOk q = true) (t : Int) : residue q t < 2 ^ 64 := by
  obtain ⟨-, hlow, hhigh⟩ := modulusOk_iff.1 hq
  have := Int.emod_lt_of_pos t (show (0 : Int) < q by omega)
  unfold residue
  omega

/-! ## The containers that residues take -/

theorem residuePuts_pair (q : Nat) (d : VReg) (ls : List Nat) (t : Nat → Int) :
    residuePuts q ls (fun l => [(d.toNat, t l)]) = putPairs d ls fun l => BitVec.ofNat 64 (residue q (t l)) := by
  have low (v : Nat) : (BitVec.ofNat 64 v).setWidth 32 = BitVec.ofNat 32 v := BitVec.setWidth_ofNat_of_le (by decide) v
  have high (v : Nat) : (BitVec.ofNat 64 v).extractLsb' 32 32 = BitVec.ofNat 32 (v / 2 ^ 32) :=
    BitVec.eq_of_toNat_eq (by simp [Nat.shiftRight_eq_div_pow]; omega)
  simp [residuePuts, putPairs, residue, low, high]

/-- Four containers of a number made of two pairs are those of the pairs. -/
theorem putGroup_quad (d : VReg) (ls : List Nat) {x y : Nat → Nat} (hx : ∀ l, x l < 2 ^ 64) :
    (putGroup d 4 ls fun l => x l + 2 ^ 64 * y l) = ls.flatMap fun l =>
      [⟨d.toNat, l, BitVec.ofNat 32 (x l)⟩, ⟨d.toNat + 1, l, BitVec.ofNat 32 (x l / 2 ^ 32)⟩,
        ⟨d.toNat + 2, l, BitVec.ofNat 32 (y l)⟩, ⟨d.toNat + 2 + 1, l, BitVec.ofNat 32 (y l / 2 ^ 32)⟩] := by
  refine congrArg ls.flatMap (funext fun l => ?_)
  have hl := hx l
  have first : BitVec.ofNat 32 ((x l + 2 ^ 64 * y l) / 2 ^ (32 * 0)) = BitVec.ofNat 32 (x l) := by bv_omega
  have second : BitVec.ofNat 32 ((x l + 2 ^ 64 * y l) / 2 ^ (32 * 1)) = BitVec.ofNat 32 (x l / 2 ^ 32) := by bv_omega
  have third : BitVec.ofNat 32 ((x l + 2 ^ 64 * y l) / 2 ^ (32 * 2)) = BitVec.ofNat 32 (y l) := by bv_omega
  have fourth : BitVec.ofNat 32 ((x l + 2 ^ 64 * y l) / 2 ^ (32 * 3)) = BitVec.ofNat 32 (y l / 2 ^ 32) := by bv_omega
  simp only [← first, ← second, ← third, ← fourth]
  rfl

theorem residuePuts_quad {q : Nat} (hq : modulusOk q = true) (d : VReg) (ls : List Nat) (t u : Nat → Int) :
    residuePuts q ls (fun l => [(d.toNat, t l), (d.toNat + 2, u l)]) =
      putGroup d 4 ls fun l => residue q (t l) + 2 ^ 64 * residue q (u l) :=
  (putGroup_quad d ls fun l => residue_lt hq (t l)).symm

/-! ## What a residue instruction issues -/

/-- A word that issues a trap of its own takes it, where no cause stands before. -/
theorem takesTrap_of_issue {i : Instr} {s : State} {k : Ctx} {f : State → Ctx → Act} {t : Trap} (hx : exec i s = s.issue f)
    (h : s.ctx = some k) (hc : (f s k).cause k = none) (he : (f s k).eff = .trap t) : TakesTrap i s k t := by
  rw [TakesTrap, hx, State.issue_eff f h hc, he]
  rfl

/-- The containers of a residue instruction (R190, R191). -/
def residueWrites (q : Nat) (k : Ctx) (a : VSrc) (g : (l : Nat) → List (Nat × Int)) : LaneClaim :=
  { marks := markV a 2, puts := residuePuts q k.acting g }

/-- An instruction writes the residues of its lanes under a good modulus, and traps under any other. -/
structure ResidueForm (i : Instr) (k : Ctx) (q : Nat) (a : VSrc) (g : (l : Nat) → List (Nat × Int)) : Prop where
  writes : modulusOk q = true → ∃ names, LaneForm i k (residueWrites q k a g) names
  traps : modulusOk q = false → ∀ s, s.ctx = some k → TakesTrap i s k { code := 0x12, va := k.split.pc }

/-- Residue arithmetic on a pair has the form of a claim with its results (R190). -/
theorem residueOp_form {i : Instr} {k : Ctx} {legal : Bool} {d : VReg} {a : VSrc} {b : SReg} {f : (q x y : Nat) → Nat}
    {t : Nat → Int} (hx : ∀ s, exec i s = residueOp legal d a b f s) (hl : legal = true)
    (hf : ∀ l, f (k.s b).toNat (k.num2 d.toNat l) (k.num2 a.reg.toNat l) = residue (k.s b).toNat (t l)) :
    ResidueForm i k (k.s b).toNat a fun l => [(d.toNat, t l)] where
  writes hq := by
    have puts := residuePuts_pair (k.s b).toNat d k.acting t
    refine ⟨namesOf d 2, fun s => ⟨_, hx s, ?issues⟩, ?places⟩
    case issues =>
      simp only [LaneClaim.act, residueWrites, puts, hq, hl, Ctx.v2, pair_toNat, hf, if_true]
    case places =>
      rw [residueWrites, puts]
      exact putPairs_writes k.acting_sublist d _
  traps hq s h := takesTrap_of_issue (hx s) h (by rw [hl]; rfl) (by simp only [hq]; rfl)

/-- A butterfly on a quad has the form of a claim with its results (R191). -/
theorem butterfly_form {i : Instr} {k : Ctx} {legal : Bool} {d : VReg} {a : VSrc} {b : SReg}
    {f : (q : Nat) → (x y w : Int) → Int × Int} {t : Nat → Int × Int} (hx : ∀ s, exec i s = butterfly legal d a b f s)
    (hl : legal = true)
    (hf : ∀ l, f (k.s b).toNat (k.num2 d.toNat l) (k.num2 (d.toNat + 2) l) (k.num2 a.reg.toNat l) = t l) :
    ResidueForm i k (k.s b).toNat a fun l => [(d.toNat, (t l).1), (d.toNat + 2, (t l).2)] where
  writes hq := by
    have puts := residuePuts_quad hq d k.acting (fun l => (t l).1) fun l => (t l).2
    refine ⟨namesOf d 4, fun s => ⟨_, hx s, ?issues⟩, ?places⟩
    case issues =>
      simp only [LaneClaim.act, residueWrites, puts, hq, hl, Ctx.v2, pair_toNat, fromElements_pair,
        Nat.add_zero, hf, if_true]
    case places =>
      rw [residueWrites, puts]
      exact putGroup_writes k.acting_sublist d 4 _
  traps hq s h := takesTrap_of_issue (hx s) h (by rw [hl]; rfl) (by simp only [hq]; rfl)

/-! ## The statement -/

theorem residueClaim_form {i : Instr} {k : Ctx} {q : Nat} {a : VSrc} {may : Prop} {g : (l : Nat) → List (Nat × Int)}
    (h : residueClaim i k = some (q, a, may, g)) (hm : may) : ResidueForm i k q a g := by
  have pairs {d : VReg} {a : VSrc} (hm : d.toNat % 2 = 0 ∧ a.reg.toNat % 2 = 0) : (evenReg d && evenReg a.reg) = true := by
    simpa [evenReg] using hm
  have quads {d : VReg} {a : VSrc} (hm : d.toNat % 4 = 0 ∧ a.reg.toNat % 2 = 0) : (quadReg d && evenReg a.reg) = true := by
    simpa [quadReg, evenReg] using hm
  unfold residueClaim at h
  dsimp only at h
  split at h
  case h_1 d a b =>
    cases h
    exact residueOp_form (fun s => .trans (b := execVmodadd d a b s) rfl rfl) (pairs hm) fun _ => rfl
  case h_2 d a b =>
    cases h
    exact residueOp_form (fun s => .trans (b := execVmodsub d a b s) rfl rfl) (pairs hm) fun _ => rfl
  case h_3 d a b =>
    cases h
    exact residueOp_form (fun s => .trans (b := execVmodmul d a b s) rfl rfl) (pairs hm) fun _ => rfl
  case h_4 d a b =>
    cases h
    exact butterfly_form (fun s => .trans (b := execVbfly d a b s) rfl rfl) (quads hm) fun _ => rfl
  case h_5 d a b =>
    cases h
    exact butterfly_form (fun s => .trans (b := execVibfly d a b s) rfl rfl) (quads hm) fun _ => rfl
  case h_6 => cases h

/-- Settles O21: a residue instruction has the form of its claim, whose two halves are the two moduli of the statement. -/
theorem residueResults : Obligations.ResidueResults := by
  unfold Obligations.ResidueResults
  intro i s k q a may g h hc hm
  have form := residueClaim_form hc hm
  refine ⟨fun hodd hlow hhigh ht => ?good, fun hbad => ?bad⟩
  case good =>
    obtain ⟨names, lanes⟩ := form.writes (modulusOk_iff.2 ⟨hodd, hlow, hhigh⟩)
    exact (lanes.result h ht).mono fun v hv => hv.mono fun n hn => (mem_without.1 hn).1
  case bad =>
    exact form.traps (Bool.eq_false_iff.2 fun hq => hbad (modulusOk_iff.1 hq)) s h

end Sys2Proof.Machine
end
